-- ==== Sys2Proof/Word.lean ====
section
/-! DEFINITION. The words of the block: a byte, a 32-bit descriptor word, a unit register, and the byte count of a bit
length (spec/00_scope.md R8, spec/30_encoding.md R90). -/

namespace Sys2Proof

/-- Eight bits; a byte array is a `List Byte` (R8). -/
abbrev Byte := BitVec 8

/-- One of the two words of a descriptor, and the `val` of a response (R90, R94). -/
abbrev Word := BitVec 32

/-- A unit value or unit register: `U` bits, held in 16 with zeros above when `U = 8` (R40; log 13). -/
abbrev Unit16 := BitVec 16

/-- `ceil8(n)`, the number of bytes that hold `n` bits (R8). -/
def ceil8 (n : Nat) : Nat := (n + 7) / 8

end Sys2Proof
end

