-- ==== Sys2Proof/Config.lean ====
section
/-! DEFINITION. What an implementation fixes (the parameters of spec/00_scope.md R6), the small enumerations of the block,
the environment's answers, and the free values: opaque constants of which nothing can be proved. -/

namespace Sys2Proof

/-- The sixteen TAP states in the source's order (R120, R96). -/
inductive TapState where
  | testLogicReset | runTestIdle | selectDR | captureDR | shiftDR | exit1DR | pauseDR | exit2DR | updateDR
  | selectIR | captureIR | shiftIR | exit1IR | pauseIR | exit2IR | updateIR
deriving DecidableEq, Repr

/-- `activeTransferMode` (R26). -/
inductive TransferMode where
  | bitBang | hardwareAssisted
deriving DecidableEq, Repr

/-- `pinControlStrategy`, the backend of the Signal-Line Interface (R28). -/
inductive PinStrategy where
  | directRegister | genericLine
deriving DecidableEq, Repr

/-- `S.chan.pinFunction` (R31). -/
inductive PinFunction where
  | line | peripheral
deriving DecidableEq, Repr

/-- The sampling-edge polarity that `configure(true)` programs; no rule reads it (R32; log 27). -/
inductive SampleEdge where
  | rising | falling
deriving DecidableEq, Repr

/-- `UNIT_WIDTH`: 8 or 16 and nothing else (R7). -/
inductive UnitWidth where
  | w8 | w16
deriving DecidableEq, Repr

/-- `U`, the bits of a unit. -/
def UnitWidth.bits : UnitWidth → Nat
  | .w8 => 8
  | .w16 => 16

/-- `UB = U div 8`, the bytes of a unit. -/
def UnitWidth.bytes : UnitWidth → Nat
  | .w8 => 1
  | .w16 => 2

/-- The parameters of R6. They are held in the state and written by no operation, so a statement about every state is a
statement about every value of them (log 1). -/
structure Params where
  unitWidth        : UnitWidth
  refRate          : Nat
  maxFreq          : Nat
  freqReset        : Nat
  hwModeReset      : TransferMode
  irqReset         : Bool
  pinStrategyReset : PinStrategy
  maxBitbang       : Nat
  maxScanBits      : Nat
  /-- `none` is "unbounded". -/
  divMax           : Option Nat
  sampleEdge       : SampleEdge
  /-- `none`, or a duration in milliseconds; only whether there is one matters (log 29). -/
  irqWaitBound     : Option Nat
deriving DecidableEq, Repr

/-- The admissible values of R6, a bounded DIV_MAX above 0 among them (bounds below 2^32: spec/92_eei_decisions.md D12). -/
abbrev Params.admissible (p : Params) : Prop :=
  0 < p.refRate ∧ 0 < p.maxFreq ∧ p.maxFreq < 2 ^ 32 ∧ p.freqReset ≤ p.maxFreq ∧
    0 < p.maxBitbang ∧ 0 < p.maxScanBits ∧ p.maxScanBits < 2 ^ 32 ∧ p.divMax ≠ some 0

/-- The "suggested for examples" column of R6 (log 1). -/
def Params.suggested : Params where
  unitWidth        := .w8
  refRate          := 25000000
  maxFreq          := 25000000
  freqReset        := 1000000
  hwModeReset      := .bitBang
  irqReset         := false
  pinStrategyReset := .genericLine
  maxBitbang       := 256
  maxScanBits      := 65536
  divMax           := none
  sampleEdge       := .rising
  irqWaitBound     := none

/-- One answer of the wall clock to a bounded wait (R164): the wait ends in time, or it expires with `j` cycles of the
unit in flight already on the wire. -/
inductive PollAnswer where
  | inTime
  | expired (j : Nat)
deriving DecidableEq, Repr, Inhabited

/-- Who answers TDO samples (R13): the loop-back fixture `E_loop`, a line tied to a level (`E_zero` ties it to 0), or a list
of answers, oldest first. Past the end of the list a sample is a free value. -/
inductive TdoEnv where
  | loopback
  | tied (level : Bool)
  | answers (bits : List Bool)
deriving DecidableEq, Repr

/-- Who answers bounded waits (R164): the premise PeripheralHealthy, the fault-injected fixture `E_stuck`, or a list of
answers, oldest first. Past the end of the list an answer is a free value. -/
inductive PollEnv where
  | healthy
  | stuck
  | answers (polls : List PollAnswer)
deriving DecidableEq, Repr

/-- Who answers allocations (R235), `true` meaning granted: the premise AllocOk, or a list of answers, oldest first. Past
the end of the list an answer is a free value. -/
inductive AllocEnv where
  | granted
  | answers (allocs : List Bool)
deriving DecidableEq, Repr

/-- The agents that can both be ready to move inside an operation (R11, R251). -/
inductive Agent where
  | peripheral | handler | caller
deriving DecidableEq, Repr, Inhabited

/-- The schedule of the peripheral and the handler against each other and against the caller (R46, R251): the peripheral always
first, or a list of answers, oldest first, each naming who moves when two can. Past the end of the list an answer is a free
value. -/
inductive ScheduleEnv where
  | peripheralFirst
  | answers (turns : List Agent)
deriving DecidableEq, Repr

/-- The environment and the schedule (R13, R46, R164, R235; log 3). -/
structure Env where
  tdo      : TdoEnv
  polls    : PollEnv
  alloc    : AllocEnv
  schedule : ScheduleEnv
deriving DecidableEq, Repr

namespace Config

/-! Free values: each is applied to the counter `State.draws`, which every draw advances (log 30). They have no body, so a
claim that holds of the model holds whatever they are. -/

/-- A TDO sample the environment's data do not fix (R13). -/
opaque freeTdo : Nat → Bool
/-- A bounded wait the environment's data do not fix (R164). -/
opaque freePoll : Nat → PollAnswer
/-- An allocation the environment's data do not fix (R235). -/
opaque freeAlloc : Nat → Bool
/-- A turn the schedule's data do not fix (R46, R251). -/
opaque freeTurn : Nat → Agent
/-- An unspecified status flag (R45, R164). -/
opaque freeFlag : Nat → Bool
/-- An unspecified content of a unit register (R41, R45, R164). -/
opaque freeUnit : Nat → Unit16
/-- An unspecified natural: the divisor after a re-initialisation (R45). -/
opaque freeNat : Nat → Nat
/-- Unspecified pad bits of an output byte (R66). -/
opaque freeByte : Nat → Byte
/-- The unspecified `val` of a failed operation (R94). -/
opaque freeVal : Nat → Word
/-- The unspecified `out` of a failed operation (R94). -/
opaque freeBytes : Nat → List Byte

end Config

end Sys2Proof
end

