-- ==== Sys2Proof/Syntax.lean ====
section
/-! DEFINITION. The operations as syntax: the descriptor of spec/30_encoding.md R90, the two surfaces it can arrive at, and
one constructor of `Instr` per row of spec/opcode_table.json (R92, R93). Operand fields are kept raw: range checks are made by
the operation, not by the decoder (R98). -/

namespace Sys2Proof

/-- Two 32-bit words and the out-of-band byte array (R90); `buf` is empty for the operations that have none. -/
structure Descriptor where
  w0  : Word
  w1  : Word
  buf : List Byte
deriving DecidableEq, Repr

/-- Where a descriptor arrives (R93, R101): the command surface, or a test harness that names primitives directly. -/
inductive Surface where
  | command | harness
deriving DecidableEq, Repr

/-- The operations: twelve commands, then thirteen primitives. -/
inductive Instr where
  | setFrequency (hz : Word)
  | getFrequency
  | rawBitbang (length : Word) (buf : List Byte)
  | setTapState (fromCode toCode : Byte) (forceReset : Bool)
  | getTapState
  | scanCommand (scanType fromCode endCode : Byte) (lengthBits : Word) (buf : List Byte)
  | runTest (cycles : Word)
  | setDirectPinControl (flag : Bool)
  | setHardwareAssisted (flag : Bool)
  | setInterruptDriven (flag : Bool)
  | openSession
  | releaseSession
  | tapNext (stateCode : Byte) (tms : Bool)
  | computeTransition (fromCode toCode : Byte)
  | applyTransition (fromCode toCode : Byte)
  | pulseClock (sampleTdo tms tdi : Bool)
  | reverseNibbles (x : Byte)
  | configure (enable : Bool)
  | send (unit : Unit16)
  | receive
  | shiftUnitPolled (unit : Unit16)
  | transferBlocking (byteCount : Word) (buf : List Byte)
  | scan (endCode : Byte) (lengthBits : Word) (buf : List Byte)
  | xfer (scanType fromCode endCode : Byte) (lengthBits : Word) (buf : List Byte)
  | runIdle (cycles : Word)
deriving DecidableEq, Repr

/-- The code of the pseudo-state `CURRENT` (R96). -/
def currentCode : Byte := 16

end Sys2Proof
end

