-- ==== Sys2Proof/WellFormed.lean ====
section
/-! DEFINITION. Which terms of `Instr` are operations a legal descriptor can carry. Field widths are the types' business;
what is left are the buffers and the Scan command's type (spec/30_encoding.md R97, R99, R101): a pair byte has no reserved bit
set, a command's buffer is not shorter than the command requires, and the type is Data or Instruction. -/

namespace Sys2Proof

/-- A pair byte of RawBitbang: bits 7:2 are 0 (R99). -/
def pairByteLegal (x : Byte) : Bool := x &&& 0xFC#8 == 0#8

/-- A scan type of the Scan command: Data or Instruction (R97; spec/92_eei_decisions.md D31; log 35). -/
def scanTypeLegal (x : Byte) : Bool := decide (x.toNat ≤ 1)

/-- The legal operations (R101). The primitives that take a buffer accept any (R63, R165). -/
def Instr.wellFormed : Instr → Bool
  | .rawBitbang length buf =>
      decide (length.toNat ≤ buf.length) && (buf.take length.toNat).all pairByteLegal
  | .scanCommand scanType _ _ lengthBits buf => scanTypeLegal scanType && decide (ceil8 lengthBits.toNat ≤ buf.length)
  | .setFrequency _ | .getFrequency | .setTapState _ _ _ | .getTapState | .runTest _ => true
  | .setDirectPinControl _ | .setHardwareAssisted _ | .setInterruptDriven _ => true
  | .openSession | .releaseSession => true
  | .tapNext _ _ | .computeTransition _ _ | .applyTransition _ _ | .pulseClock _ _ _ => true
  | .reverseNibbles _ | .configure _ | .send _ | .receive | .shiftUnitPolled _ => true
  | .transferBlocking _ _ | .scan _ _ _ | .xfer _ _ _ _ _ | .runIdle _ => true

end Sys2Proof
end

