-- ==== Sys2Proof/Decode.lean ====
section
/-! DEFINITION. Decoding a descriptor (spec/30_encoding.md R90 to R101), total, rejecting by name; then the encoder, written
from the same tables. -/

namespace Sys2Proof

/-- Why a descriptor is illegal (R101). -/
inductive Reject where
  /-- `op` is no row of the opcode table. -/
  | unknownOp
  /-- A field the format requires to be zero is not. -/
  | reservedField
  /-- A reserved bit of a bool, of the pulse byte or of a pair byte is set. -/
  | reservedBit
  /-- The scan type is neither Data nor Instruction. -/
  | badType
  /-- The buffer is shorter than the command requires. -/
  | shortBuffer
  /-- A primitive (`op >= 0x80`) at the command surface. -/
  | primitiveAtCommandSurface
deriving DecidableEq, Repr

/-- What decoding answers. -/
inductive Decoded where
  | instr (i : Instr)
  | illegal (why : Reject)
deriving DecidableEq, Repr

/-- The instruction decoded, if there is one. -/
def Decoded.toOption : Decoded → Option Instr
  | .instr i => some i
  | .illegal _ => none

namespace Descriptor

/-- `W0[31:24]` (R90). -/
def op (d : Descriptor) : Byte := d.w0.extractLsb' 24 8
/-- `W0[23:16]` (R90). -/
def a (d : Descriptor) : Byte := d.w0.extractLsb' 16 8
/-- `W0[15:8]` (R90). -/
def b (d : Descriptor) : Byte := d.w0.extractLsb' 8 8
/-- `W0[7:0]` (R90). -/
def c (d : Descriptor) : Byte := d.w0.extractLsb' 0 8

/-- Format Z: every field zero (R91). -/
def formatZ (d : Descriptor) (i : Instr) : Decoded :=
  if d.a = 0 ∧ d.b = 0 ∧ d.c = 0 ∧ d.w1 = 0 then .instr i else .illegal .reservedField

/-- Format F: a flag in `c[0]`, `c[7:1]` reserved (R91). -/
def formatF (d : Descriptor) (k : Bool → Instr) : Decoded :=
  if d.a = 0 ∧ d.b = 0 ∧ d.w1 = 0 then
    if d.c &&& 0xFE#8 = 0 then .instr (k (d.c.getLsbD 0)) else .illegal .reservedBit
  else .illegal .reservedField

/-- Format I with a 32-bit operand (R91). -/
def formatI (d : Descriptor) (k : Word → Instr) : Decoded :=
  if d.a = 0 ∧ d.b = 0 ∧ d.c = 0 then .instr (k d.w1) else .illegal .reservedField

/-- Format I with a unit in `imm[15:0]`, `imm[31:16]` zero (R91). -/
def formatUnit (d : Descriptor) (k : Unit16 → Instr) : Decoded :=
  if d.a = 0 ∧ d.b = 0 ∧ d.c = 0 ∧ d.w1.extractLsb' 16 16 = 0 then .instr (k (d.w1.extractLsb' 0 16))
  else .illegal .reservedField

/-- Format T of SetTapState: `from`, `to`, `forceReset` in `c[0]` (R91). -/
def formatSetTapState (d : Descriptor) : Decoded :=
  if d.w1 = 0 then
    if d.c &&& 0xFE#8 = 0 then .instr (.setTapState d.a d.b (d.c.getLsbD 0)) else .illegal .reservedBit
  else .illegal .reservedField

/-- Format T of applyTransition and computeTransition: `from`, `to` (R91). -/
def formatT (d : Descriptor) (k : Byte → Byte → Instr) : Decoded :=
  if d.c = 0 ∧ d.w1 = 0 then .instr (k d.a d.b) else .illegal .reservedField

/-- Format T of tapNext: the state in `a`, `tms` in `c[0]` (R91, R93). -/
def formatTapNext (d : Descriptor) : Decoded :=
  if d.b = 0 ∧ d.w1 = 0 then
    if d.c &&& 0xFE#8 = 0 then .instr (.tapNext d.a (d.c.getLsbD 0)) else .illegal .reservedBit
  else .illegal .reservedField

/-- Format C of pulseClock: `c[0]` = tms, `c[1]` = tdi, `c[2]` = sampleTdo (R91, R93). -/
def formatPulse (d : Descriptor) : Decoded :=
  if d.a = 0 ∧ d.b = 0 ∧ d.w1 = 0 then
    if d.c &&& 0xF8#8 = 0 then .instr (.pulseClock (d.c.getLsbD 2) (d.c.getLsbD 0) (d.c.getLsbD 1))
    else .illegal .reservedBit
  else .illegal .reservedField

/-- Format C of reverseNibbles: the byte in `c` (R91, R93). -/
def formatByte (d : Descriptor) (k : Byte → Instr) : Decoded :=
  if d.a = 0 ∧ d.b = 0 ∧ d.w1 = 0 then .instr (k d.c) else .illegal .reservedField

/-- Format B of RawBitbang: `imm` pairs in `buf`, none missing, no reserved bit set (R91, R99, R101; log 14). -/
def formatPairs (d : Descriptor) : Decoded :=
  if d.a = 0 ∧ d.b = 0 ∧ d.c = 0 then
    if d.buf.length < d.w1.toNat then .illegal .shortBuffer
    else if (d.buf.take d.w1.toNat).all pairByteLegal then .instr (.rawBitbang d.w1 d.buf)
    else .illegal .reservedBit
  else .illegal .reservedField

/-- Format B of transferBlocking: `imm` is the byte count, `buf` the bytes to send; a short `buf` is the operation's own
ShortBuffer (R91, R165). -/
def formatBytes (d : Descriptor) : Decoded :=
  if d.a = 0 ∧ d.b = 0 ∧ d.c = 0 then .instr (.transferBlocking d.w1 d.buf) else .illegal .reservedField

/-- Format S of the Scan command: all fields are operands; the type may not be above 1 and the buffer not be short (R91, R101;
log 15, log 35). -/
def formatScanCommand (d : Descriptor) : Decoded :=
  if !scanTypeLegal d.c then .illegal .badType
  else if d.buf.length < ceil8 d.w1.toNat then .illegal .shortBuffer
  else .instr (.scanCommand d.c d.a d.b d.w1 d.buf)

/-- Format S of the primitive scan: `a` and `c` zero (R91, R93). -/
def formatScan (d : Descriptor) : Decoded :=
  if d.a = 0 ∧ d.c = 0 then .instr (.scan d.b d.w1 d.buf) else .illegal .reservedField

end Descriptor

/-- The decoder: the row is selected by `op` (R92, R93), its format reads the fields (R91). -/
def decode (d : Descriptor) : Decoded :=
  match d.op.toNat with
  | 0x01 => d.formatI .setFrequency
  | 0x02 => d.formatZ .getFrequency
  | 0x03 => d.formatPairs
  | 0x04 => d.formatSetTapState
  | 0x05 => d.formatZ .getTapState
  | 0x06 => d.formatScanCommand
  | 0x07 => d.formatI .runTest
  | 0x08 => d.formatF .setDirectPinControl
  | 0x09 => d.formatF .setHardwareAssisted
  | 0x0A => d.formatF .setInterruptDriven
  | 0x0B => d.formatZ .openSession
  | 0x0C => d.formatZ .releaseSession
  | 0x80 => d.formatTapNext
  | 0x81 => d.formatT .computeTransition
  | 0x82 => d.formatT .applyTransition
  | 0x83 => d.formatPulse
  | 0x84 => d.formatByte .reverseNibbles
  | 0x85 => d.formatF .configure
  | 0x86 => d.formatUnit .send
  | 0x87 => d.formatZ .receive
  | 0x88 => d.formatUnit .shiftUnitPolled
  | 0x89 => d.formatBytes
  | 0x8A => d.formatScan
  | 0x8B => .instr (.xfer d.c d.a d.b d.w1 d.buf)
  | 0x8C => d.formatI .runIdle
  | _ => .illegal .unknownOp

/-- Is the descriptor's `op` in the primitive half of the code space (R93, R101)? -/
def Descriptor.isPrimitiveOp (d : Descriptor) : Bool := d.op.getLsbD 7

/-- Decoding at a surface: the primitive space is illegal at the command surface (R93, R101); a test harness may name every
row (log 6). -/
def decodeAt (surface : Surface) (d : Descriptor) : Decoded :=
  match surface with
  | .command => if d.isPrimitiveOp then .illegal .primitiveAtCommandSurface else decode d
  | .harness => decode d

/-! The encoder. -/

/-- `W0` from its four fields (R90). -/
def word0 (op a b c : Byte) : Word := op ++ a ++ b ++ c

/-- A bool operand as the byte `c` (R97). -/
def flagByte (f : Bool) : Byte := if f then 1 else 0

/-- The byte `c` of pulseClock (R93). -/
def pulseByte (sampleTdo tms tdi : Bool) : Byte :=
  (if tms then 1 else 0) ||| (if tdi then 2 else 0) ||| (if sampleTdo then 4 else 0)

/-- The descriptor of an operation (R90 to R93). -/
def encode : Instr → Descriptor
  | .setFrequency hz => ⟨word0 0x01 0 0 0, hz, []⟩
  | .getFrequency => ⟨word0 0x02 0 0 0, 0, []⟩
  | .rawBitbang length buf => ⟨word0 0x03 0 0 0, length, buf⟩
  | .setTapState fromCode toCode forceReset => ⟨word0 0x04 fromCode toCode (flagByte forceReset), 0, []⟩
  | .getTapState => ⟨word0 0x05 0 0 0, 0, []⟩
  | .scanCommand scanType fromCode endCode lengthBits buf =>
      ⟨word0 0x06 fromCode endCode scanType, lengthBits, buf⟩
  | .runTest cycles => ⟨word0 0x07 0 0 0, cycles, []⟩
  | .setDirectPinControl flag => ⟨word0 0x08 0 0 (flagByte flag), 0, []⟩
  | .setHardwareAssisted flag => ⟨word0 0x09 0 0 (flagByte flag), 0, []⟩
  | .setInterruptDriven flag => ⟨word0 0x0A 0 0 (flagByte flag), 0, []⟩
  | .openSession => ⟨word0 0x0B 0 0 0, 0, []⟩
  | .releaseSession => ⟨word0 0x0C 0 0 0, 0, []⟩
  | .tapNext stateCode tms => ⟨word0 0x80 stateCode 0 (flagByte tms), 0, []⟩
  | .computeTransition fromCode toCode => ⟨word0 0x81 fromCode toCode 0, 0, []⟩
  | .applyTransition fromCode toCode => ⟨word0 0x82 fromCode toCode 0, 0, []⟩
  | .pulseClock sampleTdo tms tdi => ⟨word0 0x83 0 0 (pulseByte sampleTdo tms tdi), 0, []⟩
  | .reverseNibbles x => ⟨word0 0x84 0 0 x, 0, []⟩
  | .configure enable => ⟨word0 0x85 0 0 (flagByte enable), 0, []⟩
  | .send unit => ⟨word0 0x86 0 0 0, unit.setWidth 32, []⟩
  | .receive => ⟨word0 0x87 0 0 0, 0, []⟩
  | .shiftUnitPolled unit => ⟨word0 0x88 0 0 0, unit.setWidth 32, []⟩
  | .transferBlocking byteCount buf => ⟨word0 0x89 0 0 0, byteCount, buf⟩
  | .scan endCode lengthBits buf => ⟨word0 0x8A 0 endCode 0, lengthBits, buf⟩
  | .xfer scanType fromCode endCode lengthBits buf =>
      ⟨word0 0x8B fromCode endCode scanType, lengthBits, buf⟩
  | .runIdle cycles => ⟨word0 0x8C 0 0 0, cycles, []⟩

/-! The opcode table's numbering: bit 0 is the least significant bit of `W0`, and `W1` counts on from bit 32. -/

/-- How many bytes the out-of-band array of a descriptor must have, so that an operand of zeros can be supplied. -/
def zeroBufferLength (op : Byte) (imm : Word) : Nat :=
  match op.toNat with
  | 0x03 | 0x89 => imm.toNat
  | 0x06 | 0x8A | 0x8B => ceil8 imm.toNat
  | _ => 0

/-- The descriptor of a table row's word: the low `nbits` bits of `w`, every other bit of the operation 0. -/
def Descriptor.ofTableWord (nbits w : Nat) : Descriptor :=
  let v := w % 2 ^ nbits
  let w0 := BitVec.ofNat 32 v
  let w1 := BitVec.ofNat 32 (v / 2 ^ 32)
  ⟨w0, w1, List.replicate (zeroBufferLength (w0.extractLsb' 24 8) w1) 0⟩

/-- What the decoder reads from a word of the opcode table. -/
def decodeTableWord (nbits w : Nat) : Option Instr := (decode (Descriptor.ofTableWord nbits w)).toOption

/-- The surface a row's word is presented at: commands at the command surface, primitives by a harness (R93). -/
def Descriptor.surface (d : Descriptor) : Surface := if d.isPrimitiveOp then .harness else .command

/-- Does the operation need an open session (R211 (2), R234)? Every command but Open and Release; `op` tells. -/
def Descriptor.needsSession (d : Descriptor) : Bool :=
  decide (1 ≤ d.op.toNat) && decide (d.op.toNat ≤ 0x0A)

end Sys2Proof
end

