-- ==== Sys2Proof/Machine/State.lean ====
section
/-! DEFINITION. The state of the block as plain data (spec/10_state.md), the reasons a step can stop, and the state after
device initialisation. -/

namespace Sys2Proof.Machine

/-- The error kinds (spec/60_exceptions.md R240): values an operation returns, never a stop of the machine. -/
inductive ErrorKind where
  | invalidArgument | invalidState | busy | timeout | outOfMemory | ioError | invalidFrequency | shortBuffer
deriving DecidableEq, Repr

/-- The status of a response (R94, R241). -/
inductive Status where
  | ok
  | error (e : ErrorKind)
deriving DecidableEq, Repr

/-- The response of an operation (R94). -/
@[ext]
structure Response where
  status : Status
  val    : Word
  out    : List Byte
deriving DecidableEq, Repr

/-- The `path` of a `Cycle` event (R14). -/
inductive Path where
  | bb | hwp | hwi
deriving DecidableEq, Repr

/-- An event of the wire trace (R14); `tdo` is `none` where the pulse did not sample. -/
inductive Event where
  | cycle (path : Path) (tms tdi : Bool) (tdo : Option Bool)
  | mux (fn : PinFunction)
  | tmsWrite (level : Bool)
deriving DecidableEq, Repr

/-- The levels driven on the three output lines (R39), `true` for high. Two sides drive TDI, `setLine` and the peripheral; the
one the pins belong to is on the wire, and a switch of the pins brings back what the other side last drove (R158; log 36). -/
@[ext]
structure Lines where
  tck           : Bool
  tms           : Bool
  /-- The TDI level last given by `setLine`. -/
  tdiLine       : Bool
  /-- The TDI level the peripheral last drove. -/
  tdiPeripheral : Bool
deriving DecidableEq, Repr

/-- The peripheral's two status flags (R33). -/
@[ext]
structure Stat where
  busy  : Bool
  ready : Bool
deriving DecidableEq, Repr

/-- The peripheral of the hardware shift channel (R31 to R34, R40, R41, R154). -/
@[ext]
structure Channel where
  pinFunction  : PinFunction
  divisor      : Nat
  idleClockLow : Bool
  sampleEdge   : SampleEdge
  stat         : Stat
  irqEnable    : Bool
  txData       : Unit16
  rxData       : Unit16
  /-- The unit `busy` stands for was cut off and never moves again (R158, R164; log 10, log 11). -/
  abandoned    : Bool
deriving DecidableEq, Repr

/-- The Hardware Channel State, one record per bulk transfer (R35, R37, R43). -/
@[ext]
structure Xfer where
  tx               : List Byte
  rx               : List Byte
  txCursor         : Nat
  rxCursor         : Nat
  remainingTxUnits : Nat
  remainingRxUnits : Nat
  unitWidth        : UnitWidth
  done             : Bool
deriving DecidableEq, Repr

/-- A descriptor and where it arrives. -/
structure Request where
  surface    : Surface
  descriptor : Descriptor
deriving DecidableEq, Repr

/-- What the outside world asks of the block (log 5, log 7, log 25). -/
inductive Input where
  | request (r : Request)
  /-- The platform re-initialises the device, between operations or out of a hung one (R246, R280). -/
  | initialise
  /-- The platform re-initialises the device while this request runs, after the given number of its wire events (R280). -/
  | initialiseDuring (r : Request) (events : Nat)
  /-- The peripheral takes its step before the next operation (R11, R160). -/
  | peripheralTurn
deriving DecidableEq, Repr

/-- The state of the block (R20). `params`, `inbox`, `env` and `draws` are the model's own fields; all others are the
spec's. -/
@[ext]
structure State where
  params             : Params
  currentState       : TapState
  lastTmsLevel       : Bool
  activeTransferMode : TransferMode
  interruptDriven    : Bool
  pinControlStrategy : PinStrategy
  exclusiveOpen      : Bool
  requestedFreq      : Nat
  chan               : Channel
  /-- `none` is "no bulk transfer in progress", the spec's `S.xfer.busy = false` (R35). Between steps a record is that of a
  call that hangs (R168, R293; log 8). -/
  xfer               : Option Xfer
  xferLock           : Bool
  lines              : Lines
  /-- The wire trace, oldest event first (R14; log 20). -/
  trace              : List Event
  /-- The response of the last operation; `none` before the first and while a call hangs (R10, R94; log 8, log 19). -/
  response           : Option Response
  inbox              : List Input
  env                : Env
  draws              : Nat
deriving DecidableEq, Repr

/-- Why the machine stops for ever. -/
inductive Fault where
  /-- Raised by `step` in a state in which a call hangs (R10, R168) while no re-initialisation is asked for: nothing moves any
  more (R246; log 8). Safe: the spec's outcome is `hang`. -/
  | hang
deriving DecidableEq, Repr

/-- Why a request has no meaning. -/
inductive Refusal where
  /-- Raised by `exec` for an instruction without a meaning; no arm does. Safe. -/
  | notModelled (mnemonic : String)
  /-- Raised by every command but Open and Release while no session is open (R234). Safe: the spec refuses too. -/
  | noSession
  /-- Raised by a bit-bang pulse while the pins are in the Peripheral function (R144; log 32). Safe. -/
  | pulseInPeripheralFunction
  /-- Raised by `send` while the channel is disabled (R161; log 32). Safe. -/
  | sendWhileDisabled
  /-- Raised by `send` while the peripheral is busy (R161; log 32). Safe. -/
  | sendWhileBusy
deriving DecidableEq, Repr

/-- The peripheral right after initialisation (R45). `divisor`, `idleClockLow`, `sampleEdge`, `ready`, `txData` and `rxData`
are unspecified there: DESIGN CHOICE, unsafe (log 2). -/
def Channel.reset : Channel where
  pinFunction  := .line
  divisor      := 0
  idleClockLow := false
  sampleEdge   := .rising
  stat         := ⟨false, false⟩
  irqEnable    := false
  txData       := 0
  rxData       := 0
  abandoned    := false

/-- The state after device initialisation under given parameters and a given environment (R45). What the peripheral last drove
on TDI is unspecified there: DESIGN CHOICE, unsafe (log 2, log 36). -/
def State.resetWith (p : Params) (e : Env) : State where
  params             := p
  currentState       := .testLogicReset
  lastTmsLevel       := true
  activeTransferMode := p.hwModeReset
  interruptDriven    := p.irqReset
  pinControlStrategy := p.pinStrategyReset
  exclusiveOpen      := false
  requestedFreq      := p.freqReset
  chan               := Channel.reset
  xfer               := none
  xferLock           := false
  lines              := ⟨false, true, false, false⟩
  trace              := List.replicate 9 (.cycle .bb true false none)
  response           := none
  inbox              := []
  env                := e
  draws              := 0

/-- The environment at reset: TDO and the schedule free, the premises PeripheralHealthy and AllocOk. DESIGN CHOICE, unsafe
(log 3). -/
def Env.atReset : Env := ⟨.answers [], .healthy, .granted, .answers []⟩

/-- The machine right after reset: the parameters' suggested example values (log 1), the environment of log 3. -/
def State.reset : State := State.resetWith Params.suggested Env.atReset

end Sys2Proof.Machine
end

