-- ==== Sys2Proof/Machine/Operands.lean ====
section
/-! DEFINITION. Every operand form: state codes and scan types (spec/30_encoding.md R96, R97), buffer bits and bytes
(spec/20_memory.md R62 to R64), units in protocol order and the bit-order adapter (spec/42_hw_shift_channel.md R150 to
R152), the packed transition (R100). All pure. -/

namespace Sys2Proof

/-- The code of a TAP state (R96). -/
def TapState.code : TapState → Byte
  | .testLogicReset => 0
  | .runTestIdle => 1
  | .selectDR => 2
  | .captureDR => 3
  | .shiftDR => 4
  | .exit1DR => 5
  | .pauseDR => 6
  | .exit2DR => 7
  | .updateDR => 8
  | .selectIR => 9
  | .captureIR => 10
  | .shiftIR => 11
  | .exit1IR => 12
  | .pauseIR => 13
  | .exit2IR => 14
  | .updateIR => 15

/-- The state of a code; none above 15, so none for `CURRENT` (R96, R98). -/
def TapState.ofCode (c : Byte) : Option TapState :=
  match c.toNat with
  | 0 => some .testLogicReset
  | 1 => some .runTestIdle
  | 2 => some .selectDR
  | 3 => some .captureDR
  | 4 => some .shiftDR
  | 5 => some .exit1DR
  | 6 => some .pauseDR
  | 7 => some .exit2DR
  | 8 => some .updateDR
  | 9 => some .selectIR
  | 10 => some .captureIR
  | 11 => some .shiftIR
  | 12 => some .exit1IR
  | 13 => some .pauseIR
  | 14 => some .exit2IR
  | 15 => some .updateIR
  | _ => none

/-- The two Shift states (R120). -/
def TapState.isShift : TapState → Bool
  | .shiftDR | .shiftIR => true
  | _ => false

/-- The Exit1 state that matches a Shift state (R187). -/
def TapState.exit1 (shift : TapState) : TapState :=
  if shift = .shiftDR then .exit1DR else .exit1IR

namespace Machine

/-- A `from` operand: a state code, or `CURRENT`, which stands for the tracked state (R98, R128). -/
def resolveFrom (c : Byte) (current : TapState) : Option TapState :=
  if c = currentCode then some current else TapState.ofCode c

/-- The Shift state of a scan type: 0 Data, 1 Instruction, above 1 a bad type (R97, R190; log 17). -/
def shiftStateOf (scanType : Byte) : Option TapState :=
  match scanType.toNat with
  | 0 => some .shiftDR
  | 1 => some .shiftIR
  | _ => none

/-! Buffers. -/

/-- `bit(buf, i)`: bit `i mod 8` of byte `i div 8`, 0 past the end (R9, R62, R63). -/
def bit (buf : List Byte) (i : Nat) : Bool := (buf.getD (i / 8) 0).getLsbD (i % 8)

/-- A byte with its bit `k` set to `b`. -/
def setByteBit (x : Byte) (k : Nat) (b : Bool) : Byte :=
  if b then x ||| (1#8 <<< k) else x &&& ~~~(1#8 <<< k)

/-- `setbit(out, i, b)` (R9, R64). -/
def setbit (out : List Byte) (i : Nat) (b : Bool) : List Byte :=
  out.modify (i / 8) fun x => setByteBit x (i % 8) b

/-- `MemRead(buf, k, n)`: `n` bytes from index `k`, 0 past the end (R9, R63). -/
def memRead (buf : List Byte) (k n : Nat) : List Byte := (List.range n).map fun j => buf.getD (k + j) 0

/-- `MemWrite(out, k, n, v)` with `n = len(v)` (R9, R64). -/
def memWrite (out : List Byte) (k : Nat) (v : List Byte) : List Byte :=
  out.take k ++ v ++ out.drop (k + v.length)

/-- A byte array of zeros. -/
def zeroBytes (n : Nat) : List Byte := List.replicate n 0

/-- `tms` of a pair byte (R99). -/
def pairTms (x : Byte) : Bool := x.getLsbD 0

/-- `tdi` of a pair byte (R99). -/
def pairTdi (x : Byte) : Bool := x.getLsbD 1

/-- A bool as the byte 0 or 1 (R99). -/
def bitByte (b : Bool) : Byte := if b then 1 else 0

/-- A bool as the word 0 or 1 (R94). -/
def bitWord (b : Bool) : Word := if b then 1 else 0

/-! The bit-order adapter. -/

/-- The table `REV4` (R150). -/
def rev4Table : List (BitVec 4) := [0x0, 0x8, 0x4, 0xC, 0x2, 0xA, 0x6, 0xE, 0x1, 0x9, 0x5, 0xD, 0x3, 0xB, 0x7, 0xF]

/-- `REV4[n]` (R150). -/
def rev4 (n : BitVec 4) : BitVec 4 := rev4Table.getD n.toNat 0

/-- `reverseNibbles(x)`: the reversed low nibble above the reversed high nibble (R151). -/
def reverseNibbles (x : Byte) : Byte := rev4 (x.extractLsb' 0 4) ++ rev4 (x.extractLsb' 4 4)

/-- The low byte of a unit. -/
def lowByte (v : Unit16) : Byte := v.extractLsb' 0 8

/-- The high byte of a unit. -/
def highByte (v : Unit16) : Byte := v.extractLsb' 8 8

/-- A value cut to `U` bits (log 13). -/
def cutUnit (u : UnitWidth) (v : Unit16) : Unit16 :=
  match u with
  | .w8 => (lowByte v).setWidth 16
  | .w16 => v

/-- Is it a unit value, below `2^U` (R98)? -/
def unitLegal (u : UnitWidth) (v : Unit16) : Bool := decide (v.toNat < 2 ^ u.bits)

/-- `unitFromBytes(buf, p)` (R152). -/
def unitFromBytes (u : UnitWidth) (buf : List Byte) (p : Nat) : Unit16 :=
  match u with
  | .w8 => (buf.getD p 0).setWidth 16
  | .w16 => buf.getD (p + 1) 0 ++ buf.getD p 0

/-- `unitToBytes(v)` (R152). -/
def unitToBytes (u : UnitWidth) (v : Unit16) : List Byte :=
  match u with
  | .w8 => [lowByte v]
  | .w16 => [lowByte v, highByte v]

/-- `adapt(v)`: each byte reversed, the first byte of a 16-bit unit in the upper half (R152). -/
def adapt (u : UnitWidth) (v : Unit16) : Unit16 :=
  match u with
  | .w8 => (reverseNibbles (lowByte v)).setWidth 16
  | .w16 => reverseNibbles (lowByte v) ++ reverseNibbles (highByte v)

/-- The bits of a unit register in the order the peripheral emits them, most significant first (R160). -/
def unitMsbFirst (u : UnitWidth) (w : Unit16) : List Bool :=
  (List.range u.bits).map fun j => w.getLsbD (u.bits - 1 - j)

/-- The unit register filled from samples, the first sample in the top bit (R160). -/
def unitOfSamples (samples : List Bool) : Unit16 :=
  samples.foldl (fun r t => (r <<< 1) ||| (if t then 1#16 else 0#16)) 0#16

/-! The packed transition. -/

/-- `pattern`: bit `k` is the TMS level of cycle `k` (R100). -/
def packPattern : List Bool → Byte
  | [] => 0
  | t :: ts => (packPattern ts <<< 1) ||| (if t then 1#8 else 0#8)

/-- The response of computeTransition, `count[3:0]` above `pattern[7:0]` (R94, R100). -/
def packTransition (tms : List Bool) : Word :=
  ((BitVec.ofNat 4 tms.length) ++ packPattern tms).setWidth 32

end Machine

end Sys2Proof
end

