-- ==== Sys2Proof/Machine/Ops.lean ====
section
/-! DEFINITION. The named operations over the state: one update per field, line access (spec/00_scope.md R12), the wire
trace (R14), the environment's draws (R13, R164, R235), the outcomes of an operation (R10), delivery of a result or an error
(spec/60_exceptions.md R243), the session check (R234) and the queue of inputs. -/

namespace Sys2Proof.Machine

namespace State

/-! One update per field. -/

def setCurrentState (s : State) (t : TapState) : State := { s with currentState := t }
def setCache (s : State) (b : Bool) : State := { s with lastTmsLevel := b }
def setMode (s : State) (m : TransferMode) : State := { s with activeTransferMode := m }
def setInterrupt (s : State) (b : Bool) : State := { s with interruptDriven := b }
def setStrategy (s : State) (p : PinStrategy) : State := { s with pinControlStrategy := p }
def setOpen (s : State) (b : Bool) : State := { s with exclusiveOpen := b }
def setFreq (s : State) (hz : Nat) : State := { s with requestedFreq := hz }
def setChan (s : State) (c : Channel) : State := { s with chan := c }
def setXfer (s : State) (x : Option Xfer) : State := { s with xfer := x }
def setLock (s : State) (b : Bool) : State := { s with xferLock := b }
def setLines (s : State) (l : Lines) : State := { s with lines := l }
/-- `emit e` (R9, R14). -/
def emit (s : State) (e : Event) : State := { s with trace := s.trace ++ [e] }
def setResponse (s : State) (r : Option Response) : State := { s with response := r }
def setInbox (s : State) (l : List Input) : State := { s with inbox := l }
def setEnv (s : State) (e : Env) : State := { s with env := e }
/-- `n` free values have been used (log 30). -/
def advance (s : State) (n : Nat) : State := { s with draws := s.draws + n }

/-- `U`. -/
def unit (s : State) : UnitWidth := s.params.unitWidth

end State

/-- The output lines of the Signal-Line Interface (R12). -/
inductive OutLine where
  | tck | tms | tdi
deriving DecidableEq, Repr

namespace State

/-- `setLine(id, level)` (R12). -/
def setLine (s : State) (id : OutLine) (level : Bool) : State :=
  match id with
  | .tck => s.setLines { s.lines with tck := level }
  | .tms => s.setLines { s.lines with tms := level }
  | .tdi => s.setLines { s.lines with tdiLine := level }

/-- The peripheral's drive of TDI (R39, R160). -/
def driveTdi (s : State) (level : Bool) : State := s.setLines { s.lines with tdiPeripheral := level }

/-- `S.lines.tdi`: the level on the TDI line is that of the side the pins belong to (R31, R39, R158; log 36). -/
def tdiLevel (s : State) : Bool :=
  match s.chan.pinFunction with
  | .line => s.lines.tdiLine
  | .peripheral => s.lines.tdiPeripheral

/-- `readLine(id)` of an output line: the level it is driven to (R12). -/
def readLine (s : State) (id : OutLine) : Bool :=
  match id with
  | .tck => s.lines.tck
  | .tms => s.lines.tms
  | .tdi => s.tdiLevel

/-! The environment's draws (log 3, log 30). -/

/-- `readLine(TDO)` in a cycle whose TDI level is `tdi` (R13). -/
def drawTdo (s : State) (tdi : Bool) : Bool × State :=
  match s.env.tdo with
  | .loopback => (tdi, s)
  | .tied level => (level, s)
  | .answers (b :: rest) => (b, s.setEnv { s.env with tdo := .answers rest })
  | .answers [] => (Config.freeTdo s.draws, s.advance 1)

/-- Does a bounded wait end in time (R164)? -/
def drawPoll (s : State) : PollAnswer × State :=
  match s.env.polls with
  | .healthy => (.inTime, s)
  | .stuck => (.expired 0, s)
  | .answers (p :: rest) => (p, s.setEnv { s.env with polls := .answers rest })
  | .answers [] => (Config.freePoll s.draws, s.advance 1)

/-- Is an allocation granted (R235)? -/
def drawAlloc (s : State) : Bool × State :=
  match s.env.alloc with
  | .granted => (true, s)
  | .answers (b :: rest) => (b, s.setEnv { s.env with alloc := .answers rest })
  | .answers [] => (Config.freeAlloc s.draws, s.advance 1)

/-- The schedule's next answer (R46, R251). -/
def drawTurn (s : State) : Agent × State :=
  match s.env.schedule with
  | .peripheralFirst => (.peripheral, s)
  | .answers (a :: rest) => (a, s.setEnv { s.env with schedule := .answers rest })
  | .answers [] => (Config.freeTurn s.draws, s.advance 1)

/-- Which of two agents that both can move does: the second if the schedule names it, else the first (R46; log 4). -/
def whoMoves (s : State) (first second : Agent) : Agent × State :=
  (if s.drawTurn.1 = second then second else first, s.drawTurn.2)

/-! Delivery (R94, R243). -/

/-- Success: status 0, `val`, `out`. -/
def answer (s : State) (val : Word) (out : List Byte) : State := s.setResponse (some ⟨.ok, val, out⟩)

/-- `raise e` as the caller sees it: the error kind and nothing else; `val` and `out` are unspecified (R94, R240, R243;
log 19). There is no return from an error: the caller issues its next request (R246). -/
def raise (s : State) (e : ErrorKind) : State :=
  (s.setResponse (some ⟨.error e, Config.freeVal s.draws, Config.freeBytes s.draws⟩)).advance 1

end State

/-- The outcomes of an operation (R10), each but a refusal with the state it leaves. `error` keeps every change made before the
`raise` (R9); `hang` is a call that waits for ever in its state (R168). -/
inductive Res (α : Type) where
  | ok (a : α) (s : State)
  | error (e : ErrorKind) (s : State)
  | hang (s : State)
  | refused (r : Refusal)
deriving DecidableEq, Repr

namespace Res

/-- What follows a success; an error ends the enclosing operation too (R243). -/
def bind {α β : Type} (r : Res α) (f : α → State → Res β) : Res β :=
  match r with
  | .ok a s => f a s
  | .error e s => .error e s
  | .hang s => .hang s
  | .refused q => .refused q

/-- "on error E: cleanup; raise E" (R184, R203). -/
def onError {α : Type} (r : Res α) (cleanup : State → State) : Res α :=
  match r with
  | .ok a s => .ok a s
  | .error e s => .error e (cleanup s)
  | .hang s => .hang s
  | .refused q => .refused q

/-- Every failure becomes the one kind `k` (R227). -/
def failAs {α : Type} (r : Res α) (k : ErrorKind) : Res α :=
  match r with
  | .ok a s => .ok a s
  | .error _ s => .error k s
  | .hang s => .hang s
  | .refused q => .refused q

/-- The end of an operation: its outcome becomes the response or a refusal (R10, R94, R243). A call that hangs never answers: its
state stands, its transfer record in it, until the device is re-initialised (R246; log 8). -/
def finish (r : Res (Word × List Byte)) : Host.Outcome State Fault Refusal :=
  match r with
  | .ok p s => .next (s.answer p.1 p.2)
  | .error e s => .next (s.raise e)
  | .hang s => .next (s.setResponse none)
  | .refused q => .refused q

/-- The end of an operation whose `val` is 0 and whose `out` is empty. -/
def finishUnit (r : Res Unit) : Host.Outcome State Fault Refusal := (r.bind fun _ s => .ok (0, []) s).finish

/-- The end of an operation that answers bytes. -/
def finishBytes (r : Res (List Byte)) : Host.Outcome State Fault Refusal :=
  (r.bind fun out s => .ok (0, out) s).finish

end Res

/-- Admission of a command (R211 (2), R234). -/
def withSession (s : State) (k : Host.Outcome State Fault Refusal) : Host.Outcome State Fault Refusal :=
  if s.exclusiveOpen then k else .refused .noSession

/-- The allocation point of an operation (R211 (3), R235). -/
def allocate {α : Type} (s : State) (k : State → Res α) : Res α :=
  if s.drawAlloc.1 then k s.drawAlloc.2 else .error .outOfMemory s.drawAlloc.2

/-- `atomic { … }`: the lock is held for the section and then as it was; no section contains another (R9, R38, R72, R170;
log 23). -/
def atomic {α : Type} (f : State → Res α) (s : State) : Res α :=
  match f (s.setLock true) with
  | .ok a t => .ok a (t.setLock s.xferLock)
  | .error e t => .error e (t.setLock s.xferLock)
  | .hang t => .hang t
  | .refused q => .refused q

/-- A descriptor put where the block takes its next input, on the surface its `op` belongs to; a command that needs a session
reaches the block through an open one, and no earlier call hangs (log 5). -/
def State.placeDescriptor (s : State) (d : Descriptor) : State :=
  { s with
    inbox := .request ⟨d.surface, d⟩ :: s.inbox
    exclusiveOpen := s.exclusiveOpen || d.needsSession
    xfer := none }

end Sys2Proof.Machine
end

