-- ==== Sys2Proof/Machine/Flags.lean ====
section
/-! DEFINITION. The status bits of the block (spec/10_state.md R46): what sets and reads `busy`, `ready` and the interrupt
enable (R33, R34, R250), who is enabled by them (R160, R167), and the status codes (spec/60_exceptions.md R241). -/

namespace Sys2Proof.Machine

/-- The 8-bit code of an error kind (R241). -/
def ErrorKind.code : ErrorKind → Byte
  | .invalidArgument => 1
  | .invalidState => 2
  | .busy => 3
  | .timeout => 4
  | .outOfMemory => 5
  | .ioError => 6
  | .invalidFrequency => 7
  | .shortBuffer => 8

/-- The 8-bit status code; 0 is success (R94, R241). -/
def Status.code : Status → Byte
  | .ok => 0
  | .error e => e.code

namespace State

/-- The status of the last response. -/
def status (s : State) : Option Status := s.response.map (·.status)

/-- "Channel enabled" (R31). -/
def channelEnabled (s : State) : Bool := decide (s.chan.pinFunction = .peripheral)

/-- The peripheral's step is enabled (R160), unless the unit was cut off (R164). -/
def peripheralEnabled (s : State) : Bool := s.channelEnabled && s.chan.stat.busy && !s.chan.abandoned

/-- The completion interrupt is pending (R250). -/
def interruptPending (s : State) : Bool := s.chan.irqEnable && s.chan.stat.ready

/-- The handler's step is enabled: the interrupt is pending and the lock is free (R167, R170). -/
def handlerEnabled (s : State) : Bool := s.interruptPending && !s.xferLock

/-- `S.xfer.busy`: a bulk transfer is in progress (R35). Between steps: a call hangs (R293; log 8). -/
def transferBusy (s : State) : Bool := s.xfer.isSome

/-- `S.xfer.done` (R37). -/
def transferDone (s : State) : Bool :=
  match s.xfer with
  | some x => x.done
  | none => false

def setIrqEnable (s : State) (b : Bool) : State := s.setChan { s.chan with irqEnable := b }

def setReady (s : State) (b : Bool) : State := s.setChan { s.chan with stat := { s.chan.stat with ready := b } }

/-- A unit is written to the data register: `busy` becomes 1 and the peripheral's step enabled (R33, R161). -/
def loadUnit (s : State) (w : Unit16) : State :=
  s.setChan { s.chan with txData := w, stat := { s.chan.stat with busy := true }, abandoned := false }

/-- The unit in flight, if there is one, is cut off for good (R158, R164; log 10, log 11). -/
def abandonUnit (s : State) : State := s.setChan { s.chan with abandoned := s.chan.stat.busy }

/-- The completion signal (R37, R167). -/
def signalDone (s : State) : State := s.setXfer (s.xfer.map fun x => { x with done := true })

/-- A unit is done: the received word is available (R33, R160). -/
def unitDone (s : State) (r : Unit16) : State :=
  s.setChan { s.chan with rxData := r, stat := ⟨false, true⟩ }

/-- After a Timeout the peripheral's own state is unspecified; a `busy` left at 1 is stuck (R164; log 10). -/
def peripheralUnspecified (s : State) : State :=
  (s.setChan { s.chan with
    stat := ⟨Config.freeFlag s.draws, Config.freeFlag (s.draws + 1)⟩
    rxData := cutUnit s.unit (Config.freeUnit s.draws)
    abandoned := Config.freeFlag s.draws }).advance 2

end State

end Sys2Proof.Machine
end

