-- ==== Sys2Proof/Machine/Clock.lean ====
section
/-! DEFINITION. The clock cycle primitive (spec/41_clock_cycle.md). -/

namespace Sys2Proof.Machine

/-- The five line accesses of a pulse, in order, and its event (R140, R141). -/
def pulse (sampleTdo tms tdi : Bool) (s : State) : Bool × State :=
  let s1 := s.setLine .tdi tdi
  let s2 := if tms = s1.lastTmsLevel then s1 else (s1.setLine .tms tms).setCache tms
  let s3 := s2.setLine .tck true
  let r := if sampleTdo then s3.drawTdo tdi else (false, s3)
  let s5 := r.2.setLine .tck false
  (r.1, s5.emit (.cycle .bb s5.lines.tms tdi (if sampleTdo then some r.1 else none)))

/-- `pulseClock(sampleTdo, tms, tdi)`: a pulse, refused while the pins are the peripheral's (R140, R144). -/
def pulseClock (sampleTdo tms tdi : Bool) (s : State) : Res Bool :=
  if s.channelEnabled then .refused .pulseInPeripheralFunction
  else .ok (pulse sampleTdo tms tdi s).1 (pulse sampleTdo tms tdi s).2

/-- Pulses with the given TMS levels, TDI 0, TDO not sampled (R126). -/
def clockTms : List Bool → State → Res Unit
  | [], s => .ok () s
  | t :: ts, s => (pulseClock false t false s).bind fun _ s' => clockTms ts s'

/-- `n` pulses with TMS = TDI = 0, TDO not sampled (R200). -/
def clockIdle : Nat → State → Res Unit
  | 0, s => .ok () s
  | n + 1, s => (pulseClock false false false s).bind fun _ s' => clockIdle n s'

/-- One sampled pulse per pair byte; the answers are the result bytes (R99, R222). -/
def clockPairs : List Byte → State → Res (List Byte)
  | [], s => .ok [] s
  | x :: xs, s =>
    (pulseClock true (pairTms x) (pairTdi x) s).bind fun r s' =>
      (clockPairs xs s').bind fun out s'' => .ok (bitByte r :: out) s''

/-- pulseClock, called by a harness (R93, R140). -/
def execPulseClock (sampleTdo tms tdi : Bool) (s : State) : Host.Outcome State Fault Refusal :=
  ((pulseClock sampleTdo tms tdi s).bind fun r s' => .ok (bitWord r, []) s').finish

end Sys2Proof.Machine
end

