-- ==== Sys2Proof/Machine/Channel.lean ====
section
/-! DEFINITION. The hardware shift channel (spec/42_hw_shift_channel.md): the peripheral's step, configure, send and receive,
the polled and the interrupt-driven variant. -/

namespace Sys2Proof.Machine

/-! The device. -/

/-- The cycles of a run of bits: for each, TDI is driven, TCK rises, TDO is sampled, TCK falls (R160). -/
def shiftCycles (path : Path) : List Bool → State → List Bool × State
  | [], s => ([], s)
  | b :: bs, s =>
    let s1 := (s.driveTdi b).setLine .tck true
    let r := s1.drawTdo b
    let s2 := r.2.setLine .tck false
    let rest := shiftCycles path bs (s2.emit (.cycle path s2.lines.tms b (some r.1)))
    (r.1 :: rest.1, rest.2)

/-- The label of the peripheral's cycles (R160). -/
def channelPath (s : State) : Path := if s.chan.irqEnable then .hwi else .hwp

/-- The bits of the unit in flight, in wire order (R160). -/
def unitInFlight (s : State) : List Bool := unitMsbFirst s.unit s.chan.txData

/-- `peripheralShift`: the whole unit (R160). -/
def peripheralShift (s : State) : State :=
  let r := shiftCycles (channelPath s) (unitInFlight s) s
  r.2.unitDone (unitOfSamples r.1)

/-- The peripheral's turn: its step if it is enabled (R11, R160). -/
def peripheralStep (s : State) : State := if s.peripheralEnabled then peripheralShift s else s

/-- The caller is about to go on; if the peripheral is enabled, the schedule may let it take its step first (R11, R46; log 4). -/
def letPeripheral (s : State) : State :=
  if s.peripheralEnabled then
    let g := s.whoMoves .peripheral .caller
    if g.1 = .caller then g.2 else peripheralShift g.2
  else s

/-- A unit cut off after `j` of its cycles, at most `U`; it never moves again (R164; log 10). -/
def partialShift (j : Nat) (s : State) : State :=
  if s.peripheralEnabled then (shiftCycles (channelPath s) ((unitInFlight s).take j) s).2.abandonUnit else s

/-! configure. -/

/-- The clock divisor in the integers (R156). -/
def divisorOf (refRate f : Nat) : Int := (refRate / (2 * f) : Nat) - 1

/-- The divisor, when `configure(true)` accepts the frequency (R156). -/
def usableDivisor (p : Params) (f : Nat) : Option Nat :=
  if f = 0 then none
  else if divisorOf p.refRate f ≤ 0 then none
  else match p.divMax with
    | some m => if (m : Int) < divisorOf p.refRate f then none else some (divisorOf p.refRate f).toNat
    | none => some (divisorOf p.refRate f).toNat

/-- The pins go to the peripheral, with its divisor and polarities (R157). On TDI is then what the peripheral last drove, before
it has driven any bit too: the model's reading (log 36). -/
def switchPins (d : Nat) (s : State) : State :=
  (s.setChan { s.chan with
    divisor := d
    pinFunction := .peripheral
    idleClockLow := true
    sampleEdge := s.params.sampleEdge }).emit (.mux .peripheral)

/-- `configure(true)`, second part: the switch, then the drain. On a channel that was enabled already a unit can be in flight, and
goes out before, between or after them (R157, R160, R46). -/
def enableChannel (d : Nat) (s : State) : State := (letPeripheral (switchPins d (letPeripheral s))).setReady false

/-- `configure(true)` (R156, R157). -/
def configureOn (s : State) : Res Unit :=
  match usableDivisor s.params s.requestedFreq with
  | some d => .ok () (enableChannel d s)
  | none => .error .invalidFrequency s

/-- The enable of a scan or an idle run; a unit in flight may go out after it too (R46, R182, R200). -/
def openChannel (s : State) : Res Unit := (configureOn s).bind fun _ t => .ok () (letPeripheral t)

/-- `configure(false)`: pins back to lines, where TDI is what `setLine` last gave, TMS cache read back; on a disabled channel the
read-back only. A unit in flight is cut off (R158; log 11, log 12, log 36). -/
def configureOff (s : State) : State :=
  let s1 :=
    if s.channelEnabled then
      (s.setChan { s.chan with pinFunction := .line, abandoned := s.chan.stat.busy }).emit (.mux .line)
    else s
  s1.setCache (s1.readLine .tms)

/-- The disable of a scan or an idle run; a unit in flight may go out before it, and is cut off if it does not (R46, R158, R186,
R203). -/
def closeChannel (s : State) : State := configureOff (letPeripheral s)

/-! send and receive. -/

/-- `send(v)`, refused where the source describes no effect (R161). -/
def send (v : Unit16) (s : State) : Res Unit :=
  if !s.channelEnabled then .refused .sendWhileDisabled
  else if s.chan.stat.busy then .refused .sendWhileBusy
  else .ok () (s.loadUnit (adapt s.unit v))

/-- `receive()`: the received unit in protocol order; any value when there is none (R162; log 22). -/
def receive (s : State) : Unit16 × State :=
  if s.chan.stat.ready then (adapt s.unit s.chan.rxData, s.setReady false)
  else (cutUnit s.unit (Config.freeUnit s.draws), s.advance 1)

/-! The polled variant. -/

/-- `pollUntil(cond)`: the environment says whether the wait ends in time. If it does, the peripheral has taken its step, and
a condition that still does not hold never will; if it does not, some cycles of a unit in flight have gone out (R163, R164;
log 9, log 34). -/
def pollUntil (cond : State → Bool) (s : State) : Bool × State :=
  let a := s.drawPoll
  match a.1 with
  | .inTime => (cond (peripheralStep a.2), peripheralStep a.2)
  | .expired j => (false, partialShift j a.2)

/-- The clean-up of an expired wait: the channel is disabled, the peripheral's own state unspecified (R163, R164). -/
def timeoutCleanup (s : State) : State := (configureOff s).peripheralUnspecified

/-- `shiftUnitPolled(v)` (R163). -/
def shiftUnitPolled (v : Unit16) (s : State) : Res Unit16 :=
  let p := pollUntil (fun s => !s.chan.stat.busy) s
  if p.1 then
    (atomic (send v) p.2).bind fun _ s1 =>
      let q := pollUntil (fun s => s.chan.stat.ready) s1
      if q.1 then atomic (fun s => .ok (receive s).1 (receive s).2) q.2
      else .error .timeout (timeoutCleanup q.2)
  else .error .timeout (timeoutCleanup p.2)

/-! The interrupt-driven variant. -/

/-- The record after one more unit has been received and stored (R167). -/
def Xfer.received (x : Xfer) (u : UnitWidth) (v : Unit16) : Xfer :=
  { x with
    rx := memWrite x.rx x.rxCursor (unitToBytes u v)
    rxCursor := x.rxCursor + u.bytes
    remainingRxUnits := x.remainingRxUnits - 1 }

/-- The record after one more unit has been sent (R165, R167). -/
def Xfer.sent (x : Xfer) (u : UnitWidth) : Xfer :=
  { x with
    txCursor := x.txCursor + u.bytes
    remainingTxUnits := x.remainingTxUnits - 1 }

/-- A send of the next unit of the record `x`, which is then one unit further (R165, R167). -/
def sendNext (x : Xfer) (s : State) : Res Unit :=
  (send (unitFromBytes s.unit x.tx x.txCursor) s).bind fun _ s' => .ok () (s'.setXfer (some (x.sent s'.unit)))

/-- The handler's critical section: receive, store, send the next unit if one remains; was it the last (R167)? -/
def receiveAndSendNext (s : State) : Res Bool :=
  match s.xfer with
  | none => .ok false s
  | some x =>
    let r := receive s
    let x' := x.received s.unit r.1
    let s' := r.2.setXfer (some x')
    (if 0 < x'.remainingTxUnits then sendNext x' s' else .ok () s').bind fun _ t =>
      .ok (decide (x'.remainingRxUnits = 0)) t

/-- `onReceiveInterrupt`: the critical section under the lock, then the completion signal after the last unit (R167). -/
def onReceiveInterrupt (s : State) : Res Unit :=
  (atomic receiveAndSendNext s).bind fun last t => .ok () (if last then t.signalDone else t)

/-- The handler's turn: its step if it is enabled (R167, R251). -/
def handlerStep (s : State) : Res Unit := if s.handlerEnabled then onReceiveInterrupt s else .ok () s

/-- Who moves next while the caller waits: the handler only if it is enabled; the schedule says so if the peripheral could move
too (R46, R251; log 4). -/
def nextTurn (s : State) : Agent × State :=
  if s.handlerEnabled then (if s.peripheralEnabled then s.whoMoves .peripheral .handler else (.handler, s)) else (.peripheral, s)

/-- A wait whose unit does not come, so that it never returns in time, whatever the flag says (R77). An unbounded one still sees
an enabled handler run (weak fairness, R251; log 34). -/
def lastTurn (s : State) : Res Bool :=
  (if s.params.irqWaitBound = none then handlerStep s else .ok () s).bind fun _ t => .ok false t

/-- The completion flag is set and one more unit has been received: the handler may take the word before the caller goes on, and has
no place left to store it (R46, R165, R167; log 34). -/
def lateDelivery (s : State) : State :=
  if s.handlerEnabled then
    let g := s.whoMoves .handler .caller
    if g.1 = .caller then g.2 else (receive g.2).2
  else s

/-- The completion flag is set, but the wait does not return before every unit of the transfer has been clocked (R77, R168): one
still in flight, which takes a stale received word, goes out first if it comes in time (log 34). -/
def waitForWire (s : State) : Res Bool :=
  if s.peripheralEnabled then
    let a := s.drawPoll
    match a.1 with
    | .inTime => .ok true (lateDelivery (peripheralShift a.2))
    | .expired j => .ok false (partialShift j a.2)
  else .ok true s

/-- The blocking wait, at most one turn for each of the `n` units: the handler moves if it is its turn; else the environment says
whether the unit in flight comes in time, and if it does the peripheral and then the handler take their steps. The answer is
whether the completion flag came and every unit has been clocked (R77, R168, R251; log 4, log 29, log 34). -/
def blockingWait : Nat → State → Res Bool
  | 0, s => if s.transferDone then waitForWire s else .ok false s
  | n + 1, s =>
    if s.transferDone then waitForWire s
    else
      let g := nextTurn s
      if g.1 = .handler then (handlerStep g.2).bind fun _ t => blockingWait n t
      else
        let a := g.2.drawPoll
        match a.1 with
        | .inTime => (handlerStep (peripheralStep a.2)).bind fun _ t => blockingWait n t
        | .expired j => lastTurn (partialShift j a.2)

/-- The record of a new bulk transfer of `n` units, its completion flag armed (R165). -/
def newTransfer (u : UnitWidth) (tx rx : List Byte) (n : Nat) : Xfer where
  tx := tx
  rx := rx
  txCursor := 0
  rxCursor := 0
  remainingTxUnits := n
  remainingRxUnits := n
  unitWidth := u
  done := false

/-- Step 3 of `transferBlocking`, all of it in the critical section: the idle test, the record over the leading `byteCount` bytes
of both buffers, the interrupt enable, the first unit (R35, R43, R165). -/
def startTransfer (tx rx : List Byte) (byteCount : Nat) (s : State) : Res Unit :=
  if s.transferBusy || s.chan.stat.busy then .error .busy s
  else
    let x := newTransfer s.unit (tx.take byteCount) (rx.take byteCount) (byteCount / s.unit.bytes)
    sendNext x ((s.setXfer (some x)).setIrqEnable true)

/-- The transfer's record is discarded and the interrupt disabled (R165 step 5, R168). -/
def endTransfer (s : State) : State := (s.setIrqEnable false).setXfer none

/-- The receive buffer of the transfer in progress. -/
def receivedBytes (s : State) : List Byte :=
  match s.xfer with
  | some x => x.rx
  | none => []

/-- Steps 4 and 5 of `transferBlocking`: the wait, and what follows it; `beyond` are the bytes of the caller's receive buffer past
the transfer (R165, R168). -/
def finishTransfer (units : Nat) (beyond : List Byte) (s : State) : Res (List Byte) :=
  (blockingWait units s).bind fun done t =>
    if done then .ok (receivedBytes t ++ beyond) (endTransfer t)
    else match s.params.irqWaitBound with
      | none => .hang t
      | some _ => .error .timeout (timeoutCleanup (endTransfer t))

/-- `transferBlocking(tx, rx, byteCount)` (R165, R168). -/
def transferBlocking (tx rx : List Byte) (byteCount : Nat) (s : State) : Res (List Byte) :=
  if tx.length < byteCount ∨ rx.length < byteCount then .error .shortBuffer s
  else if byteCount = 0 ∨ byteCount % s.unit.bytes ≠ 0 then .error .invalidArgument s
  else
    (atomic (startTransfer tx rx byteCount) s).bind fun _ s' =>
      finishTransfer (byteCount / s.unit.bytes) (rx.drop byteCount) s'

/-! The rows of the table. -/

/-- reverseNibbles, called by a harness (R93, R151). -/
def execReverseNibbles (x : Byte) (s : State) : Host.Outcome State Fault Refusal :=
  .next (s.answer ((reverseNibbles x).setWidth 32) [])

/-- configure, called by a harness (R93, R156 to R158). -/
def execConfigure (enable : Bool) (s : State) : Host.Outcome State Fault Refusal :=
  if enable then (configureOn s).finishUnit else .next ((configureOff s).answer 0 [])

/-- send, called by a harness; a value of `2^U` or more is InvalidArgument (R93, R98, R101, R161; log 16). -/
def execSend (v : Unit16) (s : State) : Host.Outcome State Fault Refusal :=
  if unitLegal s.unit v then (send v s).finishUnit else .next (s.raise .invalidArgument)

/-- receive, called by a harness (R93, R162). -/
def execReceive (s : State) : Host.Outcome State Fault Refusal :=
  .next ((receive s).2.answer ((receive s).1.setWidth 32) [])

/-- shiftUnitPolled, called by a harness; a value of `2^U` or more is InvalidArgument (R93, R98, R101, R163; log 16). -/
def execShiftUnitPolled (v : Unit16) (s : State) : Host.Outcome State Fault Refusal :=
  if unitLegal s.unit v then
    ((shiftUnitPolled v s).bind fun r s' => .ok (r.setWidth 32, []) s').finish
  else .next (s.raise .invalidArgument)

/-- transferBlocking, called by a harness: `buf` is `tx`, the response `out` is `rx`, which has `byteCount` bytes (R93, R165;
log 24). -/
def execTransferBlocking (byteCount : Word) (buf : List Byte) (s : State) : Host.Outcome State Fault Refusal :=
  (transferBlocking buf (zeroBytes byteCount.toNat) byteCount.toNat s).finishBytes

end Sys2Proof.Machine
end

