-- ==== Sys2Proof/Machine/RunClock.lean ====
section
/-! DEFINITION. The run-clock primitive (spec/44_run_clock.md). -/

namespace Sys2Proof.Machine

/-- Step 3: the TMS line and its cache are written low when the cache says it is high (R202). -/
def tmsLow (s : State) : State :=
  if s.lastTmsLevel then ((s.setLine .tms false).setCache false).emit (.tmsWrite false) else s

/-- Step 5, polled: zero units one after the other (R203). -/
def idleUnits : Nat → State → Res Unit
  | 0, s => .ok () s
  | n + 1, s => (shiftUnitPolled 0 s).bind fun _ s' => idleUnits n s'

/-- Step 5, interrupt-driven: one aggregate transfer of zeros, skipped for no units (R203). -/
def idleTransfer (units : Nat) (s : State) : Res Unit :=
  if 0 < units then
    let bytes := units * s.unit.bytes
    ((transferBlocking (zeroBytes bytes) (zeroBytes bytes) bytes s).onError closeChannel).bind fun _ s' => .ok () s'
  else .ok () s

/-- Steps 2 to 7: the hardware path (R202, R203). -/
def runIdleHardware (cycles : Nat) (s : State) : Res Unit :=
  (openChannel (tmsLow s)).bind fun _ s1 =>
    (if s.interruptDriven then idleTransfer (cycles / s.unit.bits) s1
      else idleUnits (cycles / s.unit.bits) s1).bind fun _ s2 =>
        clockIdle (cycles % s.unit.bits) (closeChannel s2)

/-- `runIdle(cycles)` once its buffers are had (R200). -/
def runIdle (cycles : Nat) (s : State) : Res Unit :=
  if s.activeTransferMode = .hardwareAssisted then runIdleHardware cycles s else clockIdle cycles s

/-- Does `runIdle` need scratch buffers (R235)? -/
def needsScratch (cycles : Nat) (s : State) : Bool :=
  decide (s.activeTransferMode = .hardwareAssisted) && s.interruptDriven && decide (s.unit.bits ≤ cycles)

/-- `runIdle` with its allocation point (R205, R235). -/
def runIdleAllocating (cycles : Nat) (s : State) : Res Unit :=
  if needsScratch cycles s then allocate s (runIdle cycles) else runIdle cycles s

/-- runIdle, called by a harness (R93, R200). -/
def execRunIdle (cycles : Word) (s : State) : Host.Outcome State Fault Refusal :=
  (runIdleAllocating cycles.toNat s).finishUnit

end Sys2Proof.Machine
end

