-- ==== Sys2Proof/Machine/Tap.lean ====
section
/-! DEFINITION. The TAP state machine (spec/40_tap_state_machine.md): the graph, the shortest-path sequencer and
applyTransition. -/

namespace Sys2Proof.Machine

/-- The graph: the state after a rising TCK edge with the given TMS level (R121). -/
def tapNext (t : TapState) (tms : Bool) : TapState :=
  match t, tms with
  | .testLogicReset, false => .runTestIdle
  | .testLogicReset, true => .testLogicReset
  | .runTestIdle, false => .runTestIdle
  | .runTestIdle, true => .selectDR
  | .selectDR, false => .captureDR
  | .selectDR, true => .selectIR
  | .captureDR, false => .shiftDR
  | .captureDR, true => .exit1DR
  | .shiftDR, false => .shiftDR
  | .shiftDR, true => .exit1DR
  | .exit1DR, false => .pauseDR
  | .exit1DR, true => .updateDR
  | .pauseDR, false => .pauseDR
  | .pauseDR, true => .exit2DR
  | .exit2DR, false => .shiftDR
  | .exit2DR, true => .updateDR
  | .updateDR, false => .runTestIdle
  | .updateDR, true => .selectDR
  | .selectIR, false => .captureIR
  | .selectIR, true => .testLogicReset
  | .captureIR, false => .shiftIR
  | .captureIR, true => .exit1IR
  | .shiftIR, false => .shiftIR
  | .shiftIR, true => .exit1IR
  | .exit1IR, false => .pauseIR
  | .exit1IR, true => .updateIR
  | .pauseIR, false => .pauseIR
  | .pauseIR, true => .exit2IR
  | .exit2IR, false => .shiftIR
  | .exit2IR, true => .updateIR
  | .updateIR, false => .runTestIdle
  | .updateIR, true => .selectDR

/-- The state after a list of TMS levels, first one first (R123). -/
def walk (t : TapState) (tms : List Bool) : TapState := tms.foldl tapNext t

/-- One layer of the search: the unseen successors of the frontier, each with its TMS list (R123). -/
def expandFrontier (frontier : List (TapState × List Bool)) (seen : List TapState) : List (TapState × List Bool) :=
  (frontier.flatMap fun p => [(tapNext p.1 false, p.2 ++ [false]), (tapNext p.1 true, p.2 ++ [true])]).filter
    fun p => !seen.contains p.1

/-- Breadth-first search, at most `fuel` layers deep (R123). -/
def searchPath (dest : TapState) : Nat → List (TapState × List Bool) → List TapState → List Bool
  | 0, _, _ => []
  | fuel + 1, frontier, seen =>
    match frontier.find? fun p => decide (p.1 = dest) with
    | some p => p.2
    | none =>
      let next := expandFrontier frontier seen
      searchPath dest fuel next (seen ++ next.map Prod.fst)

/-- `computeTransition(from, to)` as the list of TMS levels, first cycle first: the shortest path of the graph, empty when
`from = to` (R123). Sixteen layers cover sixteen nodes. -/
def computeTransition (src dest : TapState) : List Bool := searchPath dest 16 [(src, [])] [src]

/-- The TMS levels applyTransition drives: nine ones to TestLogicReset, else the shortest path (R126, R127). -/
def transitionTms (src dest : TapState) : List Bool :=
  if dest = .testLogicReset then List.replicate 9 true else computeTransition src dest

/-- `applyTransition` from one state to another (R126, R127). -/
def driveTransition (src dest : TapState) (s : State) : Res Unit :=
  (clockTms (transitionTms src dest) s).bind fun _ s' => .ok () (s'.setCurrentState dest)

/-- `applyTransition(from, to)` on codes: the range check comes first (R125, R126, R128). -/
def applyTransition (fromCode toCode : Byte) (s : State) : Res Unit :=
  match resolveFrom fromCode s.currentState, TapState.ofCode toCode with
  | some src, some dest => driveTransition src dest s
  | _, _ => .error .invalidState s

/-- tapNext, called by a harness (R93, R121). -/
def execTapNext (stateCode : Byte) (tms : Bool) (s : State) : Host.Outcome State Fault Refusal :=
  match TapState.ofCode stateCode with
  | some t => .next (s.answer ((tapNext t tms).code.setWidth 32) [])
  | none => .next (s.raise .invalidState)

/-- computeTransition, called by a harness; `CURRENT` is no table index (R93, R100, R123). -/
def execComputeTransition (fromCode toCode : Byte) (s : State) : Host.Outcome State Fault Refusal :=
  match TapState.ofCode fromCode, TapState.ofCode toCode with
  | some src, some dest => .next (s.answer (packTransition (computeTransition src dest)) [])
  | _, _ => .next (s.raise .invalidState)

/-- applyTransition, called by a harness (R93, R126). -/
def execApplyTransition (fromCode toCode : Byte) (s : State) : Host.Outcome State Fault Refusal :=
  (applyTransition fromCode toCode s).finishUnit

end Sys2Proof.Machine
end

