-- ==== Sys2Proof/Machine/Scan.lean ====
section
/-! DEFINITION. The scan transfer engine (spec/43_scan_engine.md): the split of a scan between the hardware channel and the
bit-bang path, scan and xfer. -/

namespace Sys2Proof.Machine

/-- `bulkBits` of a scan that uses the channel: whole units, at least one bit withheld (R183, R184). -/
def bulkBits (u : UnitWidth) (n : Nat) : Nat :=
  if n % u.bits = 0 then n / u.bits * u.bits - u.bits else n / u.bits * u.bits

/-- Step 2: is the channel to be used for `n` bits (R182)? -/
def wantsChannel (n : Nat) (s : State) : Bool :=
  decide (s.unit.bits < n) && decide (s.activeTransferMode = .hardwareAssisted)

/-- Step 2: the channel is enabled if it is to be used (R182). -/
def enableForScan (n : Nat) (s : State) : Res Bool :=
  if wantsChannel n s then (openChannel s).bind fun _ s' => .ok true s' else .ok false s

/-- Step 3: the interrupt-driven bulk; the answer is the cursor and the output (R184, R189). -/
def bulkInterrupt (n : Nat) (inp out : List Byte) (s : State) : Res (Nat × List Byte) :=
  let bits := bulkBits s.unit n
  let bytes := bits / 8
  ((transferBlocking (memRead inp 0 bytes) (zeroBytes bytes) bytes s).onError closeChannel).bind fun rx s' =>
    .ok (bits, memWrite out 0 rx) s'

/-- Step 4: units through the channel while more than one unit of bits remains; `fuel` bounds the loop (R185). -/
def bulkPolled (n : Nat) (inp : List Byte) : Nat → Nat → List Byte → State → Res (Nat × List Byte)
  | 0, i, out, s => .ok (i, out) s
  | fuel + 1, i, out, s =>
    if s.unit.bits < n - i then
      (shiftUnitPolled (unitFromBytes s.unit inp (i / 8)) s).bind fun v s' =>
        bulkPolled n inp fuel (i + s.unit.bits) (memWrite out (i / 8) (unitToBytes s.unit v)) s'
    else .ok (i, out) s

/-- Steps 3 to 5: the bulk through the channel, which is then disabled (R184 to R186). -/
def bulkPhase (useHw : Bool) (n : Nat) (inp out : List Byte) (s : State) : Res (Nat × List Byte) :=
  if useHw then
    (if s.interruptDriven then bulkInterrupt n inp out s else .ok (0, out) s).bind fun p s1 =>
      (bulkPolled n inp n p.1 p.2 s1).bind fun q s2 => .ok q (closeChannel s2)
  else .ok (0, out) s

/-- Step 6: the remaining bits, one pulse each; the last one is the exit bit unless the end state is a Shift state (R187).
The first argument counts the bits still to come. -/
def tailBits (shift endState : TapState) (inp : List Byte) : Nat → Nat → List Byte → State → Res (List Byte)
  | 0, _, out, s => .ok out s
  | rem + 1, i, out, s =>
    let tms := decide (rem = 0) && !endState.isShift
    (pulseClock true tms (bit inp i) s).bind fun b s' =>
      tailBits shift endState inp rem (i + 1) (setbit out i b)
        (if tms then s'.setCurrentState shift.exit1 else s')

/-- The pad bits of the last output byte are any value (R66; log 21). -/
def padOutput (n : Nat) (out : List Byte) (s : State) : List Byte × State :=
  if n % 8 = 0 then (out, s)
  else (out.modify (n / 8) fun x => x ||| (Config.freeByte s.draws <<< (n % 8)), s.advance 1)

/-- Steps 2 to 7 of a scan whose entry checks have passed (R180). -/
def scanBody (n : Nat) (endState : TapState) (inp : List Byte) (s : State) : Res (List Byte) :=
  (enableForScan n s).bind fun useHw s1 =>
    (bulkPhase useHw n inp (zeroBytes (ceil8 n)) s1).bind fun p s2 =>
      (tailBits s.currentState endState inp (n - p.1) p.1 p.2 s2).bind fun out s3 =>
        (driveTransition s3.currentState endState s3).bind fun _ s4 =>
          .ok (padOutput n out s4).1 (padOutput n out s4).2

/-- A scan has 1 to MAX_SCAN_BITS bits (R36, R61, R98). -/
def scanLengthLegal (n : Nat) (s : State) : Bool := decide (n ≠ 0) && decide (n ≤ s.params.maxScanBits)

/-- `scan(N, endState, in)`: the entry checks, then the body (R180, R181); a length out of range is InvalidArgument (R98, R101;
log 18). -/
def scan (n : Nat) (endCode : Byte) (inp : List Byte) (s : State) : Res (List Byte) :=
  if !s.currentState.isShift then .error .invalidState s
  else match TapState.ofCode endCode with
    | none => .error .invalidState s
    | some endState => if scanLengthLegal n s then scanBody n endState inp s else .error .invalidArgument s

/-- `xfer` of a known type: to the Shift state, then the scan (R190). -/
def xferTo (shift : TapState) (fromCode endCode : Byte) (n : Nat) (inp : List Byte) (s : State) : Res (List Byte) :=
  (applyTransition fromCode shift.code s).bind fun _ s' => scan n endCode inp s'

/-- `xfer(type, from, end, N, in)`; a bad type is InvalidArgument (R97, R101, R190; log 17). -/
def xfer (scanType fromCode endCode : Byte) (n : Nat) (inp : List Byte) (s : State) : Res (List Byte) :=
  match shiftStateOf scanType with
  | some shift => xferTo shift fromCode endCode n inp s
  | none => .error .invalidArgument s

/-- scan, called by a harness (R93, R180). -/
def execScan (endCode : Byte) (lengthBits : Word) (buf : List Byte) (s : State) : Host.Outcome State Fault Refusal :=
  (scan lengthBits.toNat endCode buf s).finishBytes

/-- xfer, called by a harness (R93, R190). -/
def execXfer (scanType fromCode endCode : Byte) (lengthBits : Word) (buf : List Byte) (s : State) :
    Host.Outcome State Fault Refusal :=
  (xfer scanType fromCode endCode lengthBits.toNat buf s).finishBytes

end Sys2Proof.Machine
end

