-- ==== Sys2Proof/Machine/Commands.lean ====
section
/-! DEFINITION. The command set (spec/45_commands.md). Every command but Open and Release needs an open session (R234); the
order of events is R211. -/

namespace Sys2Proof.Machine

/-- SetFrequency (R220). -/
def execSetFrequency (hz : Word) (s : State) : Host.Outcome State Fault Refusal :=
  withSession s
    (if s.params.maxFreq < hz.toNat then .next (s.raise .invalidArgument)
      else .next ((s.setFreq hz.toNat).answer 0 []))

/-- GetFrequency (R221). -/
def execGetFrequency (s : State) : Host.Outcome State Fault Refusal :=
  withSession s (.next (s.answer (BitVec.ofNat 32 s.requestedFreq) []))

/-- The body of RawBitbang (R222, R223). -/
def rawBitbang (length : Nat) (pairs : List Byte) (s : State) : Res (List Byte) :=
  if s.params.maxBitbang < length then .error .invalidArgument s
  else if pairs.length < length then .error .invalidArgument s
  else clockPairs (pairs.take length) s

/-- RawBitbang (R222, R223, R235). -/
def execRawBitbang (length : Word) (buf : List Byte) (s : State) : Host.Outcome State Fault Refusal :=
  withSession s (allocate s (rawBitbang length.toNat buf)).finishBytes

/-- The body of SetTapState: the range check, the forced reset, the transition (R224). -/
def setTapState (fromCode toCode : Byte) (forceReset : Bool) (s : State) : Res Unit :=
  match resolveFrom fromCode s.currentState, TapState.ofCode toCode with
  | some _, some _ =>
    (if forceReset then driveTransition s.currentState .testLogicReset s else .ok () s).bind fun _ s' =>
      applyTransition fromCode toCode s'
  | _, _ => .error .invalidState s

/-- SetTapState (R224). -/
def execSetTapState (fromCode toCode : Byte) (forceReset : Bool) (s : State) : Host.Outcome State Fault Refusal :=
  withSession s (setTapState fromCode toCode forceReset s).finishUnit

/-- GetTapState (R225). -/
def execGetTapState (s : State) : Host.Outcome State Fault Refusal :=
  withSession s (.next (s.answer (s.currentState.code.setWidth 32) []))

/-- The argument checks of Scan: type, states, length, buffer (R226). A type above 1 and a short buffer are found by the decoder
already (R101; log 15, log 35). -/
def scanArgumentsLegal (scanType fromCode endCode : Byte) (n : Nat) (buf : List Byte) (s : State) : Bool :=
  decide (scanType.toNat ≤ 1) && decide (fromCode.toNat ≤ 16) && decide (endCode.toNat ≤ 15) &&
    scanLengthLegal n s && decide (ceil8 n ≤ buf.length)

/-- The body of Scan; every failure of `xfer` is IOError (R226, R227). -/
def scanCommand (scanType fromCode endCode : Byte) (n : Nat) (buf : List Byte) (s : State) : Res (List Byte) :=
  if scanArgumentsLegal scanType fromCode endCode n buf s then
    (xfer scanType fromCode endCode n buf s).failAs .ioError
  else .error .invalidArgument s

/-- Scan (R226, R227, R235). -/
def execScanCommand (scanType fromCode endCode : Byte) (lengthBits : Word) (buf : List Byte) (s : State) :
    Host.Outcome State Fault Refusal :=
  withSession s (allocate s (scanCommand scanType fromCode endCode lengthBits.toNat buf)).finishBytes

/-- RunTest: `runIdle`, its errors passed through (R228, R235). -/
def execRunTest (cycles : Word) (s : State) : Host.Outcome State Fault Refusal :=
  withSession s (runIdleAllocating cycles.toNat s).finishUnit

/-- SetDirectPinControl (R229). -/
def execSetDirectPinControl (flag : Bool) (s : State) : Host.Outcome State Fault Refusal :=
  withSession s (.next ((s.setStrategy (if flag then .directRegister else .genericLine)).answer 0 []))

/-- SetHardwareAssisted (R230). -/
def execSetHardwareAssisted (flag : Bool) (s : State) : Host.Outcome State Fault Refusal :=
  withSession s (.next ((s.setMode (if flag then .hardwareAssisted else .bitBang)).answer 0 []))

/-- SetInterruptDriven (R231). -/
def execSetInterruptDriven (flag : Bool) (s : State) : Host.Outcome State Fault Refusal :=
  withSession s (.next ((s.setInterrupt flag).answer 0 []))

/-- Open: test and set in one step (R232). -/
def execOpenSession (s : State) : Host.Outcome State Fault Refusal :=
  if s.exclusiveOpen then .next (s.raise .busy) else .next ((s.setOpen true).answer 0 [])

/-- Release: always succeeds (R233). -/
def execReleaseSession (s : State) : Host.Outcome State Fault Refusal := .next ((s.setOpen false).answer 0 [])

end Sys2Proof.Machine
end

