-- ==== Sys2Proof/Machine/Init.lean ====
section
/-! DEFINITION. Device initialisation (spec/70_reset_and_hazards.md R280, R281). -/

namespace Sys2Proof.Machine

/-- `n` pulses with TMS 1 and TDI 0, on pins that are plain lines (R127, R281). -/
def resetPulses : Nat → State → State
  | 0, s => s
  | n + 1, s => resetPulses n (pulse false true false s).2

/-- Steps 1 and 2 on the peripheral: pins to lines, interrupt off, not busy; what R45 leaves unspecified is any value
(log 25). -/
def Channel.initialised (u : UnitWidth) (draws : Nat) : Channel where
  pinFunction  := .line
  divisor      := Config.freeNat draws
  idleClockLow := Config.freeFlag draws
  sampleEdge   := if Config.freeFlag (draws + 1) then .rising else .falling
  stat         := ⟨false, Config.freeFlag (draws + 2)⟩
  irqEnable    := false
  txData       := cutUnit u (Config.freeUnit draws)
  rxData       := cutUnit u (Config.freeUnit (draws + 1))
  abandoned    := false

/-- Steps 1 to 4 of `initialise` (R281). -/
def initialiseSettings (s : State) : State :=
  { s with
    activeTransferMode := s.params.hwModeReset
    interruptDriven    := s.params.irqReset
    pinControlStrategy := s.params.pinStrategyReset
    exclusiveOpen      := false
    requestedFreq      := s.params.freqReset
    chan               := Channel.initialised s.unit s.draws
    xfer               := none
    xferLock           := false
    lines              := { s.lines with tck := false, tdiLine := false }
    lastTmsLevel       := s.lines.tms
    draws              := s.draws + 3 }

/-- `initialise()`: the settings, then nine pulses to TestLogicReset (R281). -/
def initialise (s : State) : State := (resetPulses 9 (initialiseSettings s)).setCurrentState .testLogicReset

/-- The TDI level the peripheral last drove, given the level before some events. -/
def tdiDriven (before : Bool) : List Event → Bool
  | [] => before
  | .cycle .hwp _ tdi _ :: l => tdiDriven tdi l
  | .cycle .hwi _ tdi _ :: l => tdiDriven tdi l
  | _ :: l => tdiDriven before l

/-- A call that would lead from `s` to `t`, ended by a re-initialisation after `k` of its wire events: those stand in the trace, and
it never answers. The rest of what it did in those `k` events is overwritten by `initialise` (R246, R280; log 25). -/
def endedByInitialise (k : Nat) (s t : State) : State :=
  let events := (t.trace.drop s.trace.length).take k
  initialise { t with
    trace := s.trace ++ events
    lines := { t.lines with tdiPeripheral := tdiDriven s.lines.tdiPeripheral events }
    response := none }

end Sys2Proof.Machine
end

