-- ==== Sys2Proof/Machine/Dispatch.lean ====
section
/-! DEFINITION. Which meaning each operation has: one arm per constructor of `Instr`, one direct call each. -/

namespace Sys2Proof.Machine

def exec (i : Instr) (s : State) : Host.Outcome State Fault Refusal :=
  match i with
  -- the commands (spec/45_commands.md)
  | .setFrequency hz => Sys2Proof.Machine.execSetFrequency hz s
  | .getFrequency => Sys2Proof.Machine.execGetFrequency s
  | .rawBitbang length buf => Sys2Proof.Machine.execRawBitbang length buf s
  | .setTapState fromCode toCode forceReset => Sys2Proof.Machine.execSetTapState fromCode toCode forceReset s
  | .getTapState => Sys2Proof.Machine.execGetTapState s
  | .scanCommand scanType fromCode endCode lengthBits buf => Sys2Proof.Machine.execScanCommand scanType fromCode endCode lengthBits buf s
  | .runTest cycles => Sys2Proof.Machine.execRunTest cycles s
  | .setDirectPinControl flag => Sys2Proof.Machine.execSetDirectPinControl flag s
  | .setHardwareAssisted flag => Sys2Proof.Machine.execSetHardwareAssisted flag s
  | .setInterruptDriven flag => Sys2Proof.Machine.execSetInterruptDriven flag s
  | .openSession => Sys2Proof.Machine.execOpenSession s
  | .releaseSession => Sys2Proof.Machine.execReleaseSession s
  -- the primitives (spec/40_tap_state_machine.md to spec/44_run_clock.md)
  | .tapNext stateCode tms => Sys2Proof.Machine.execTapNext stateCode tms s
  | .computeTransition fromCode toCode => Sys2Proof.Machine.execComputeTransition fromCode toCode s
  | .applyTransition fromCode toCode => Sys2Proof.Machine.execApplyTransition fromCode toCode s
  | .pulseClock sampleTdo tms tdi => Sys2Proof.Machine.execPulseClock sampleTdo tms tdi s
  | .reverseNibbles x => Sys2Proof.Machine.execReverseNibbles x s
  | .configure enable => Sys2Proof.Machine.execConfigure enable s
  | .send unit => Sys2Proof.Machine.execSend unit s
  | .receive => Sys2Proof.Machine.execReceive s
  | .shiftUnitPolled unit => Sys2Proof.Machine.execShiftUnitPolled unit s
  | .transferBlocking byteCount buf => Sys2Proof.Machine.execTransferBlocking byteCount buf s
  | .scan endCode lengthBits buf => Sys2Proof.Machine.execScan endCode lengthBits buf s
  | .xfer scanType fromCode endCode lengthBits buf => Sys2Proof.Machine.execXfer scanType fromCode endCode lengthBits buf s
  | .runIdle cycles => Sys2Proof.Machine.execRunIdle cycles s

end Sys2Proof.Machine
end

