-- ==== Sys2Proof/Machine/Input.lean ====
section
/-! DEFINITION. What the block does with one input (spec/00_scope.md R11, spec/45_commands.md R210, R211,
spec/70_reset_and_hazards.md R280). -/

namespace Sys2Proof.Machine

/-- A descriptor is decoded and run to its end; an illegal one is answered InvalidArgument (R101, R211 (1)). -/
def perform (r : Request) (s : State) : Host.Outcome State Fault Refusal :=
  match decodeAt r.surface r.descriptor with
  | .instr i => exec i s
  | .illegal _ => .next (s.raise .invalidArgument)

/-- A request during which the platform re-initialises the device, after `k` of its wire events (R280; log 25). -/
def performInterrupted (r : Request) (k : Nat) (s : State) : Host.Outcome State Fault Refusal :=
  match perform r s with
  | .next t => .next (endedByInitialise k s t)
  | .fault q => .fault q
  | .refused q => .refused q

/-- What one input does to the block while no call hangs (R11; log 5, log 7). -/
def takeInput (input : Input) (s : State) : Host.Outcome State Fault Refusal :=
  match input with
  | .request r => perform r s
  | .initialise => .next (initialise s)
  | .initialiseDuring r k => performInterrupted r k s
  | .peripheralTurn => .next (peripheralStep s)

/-- A call hangs: the only way out is the first re-initialisation asked for; the requests before it keep waiting (R246, R280;
log 8, log 25). -/
def leaveHang (s : State) : Host.Outcome State Fault Refusal :=
  if .initialise ∈ s.inbox then .next (initialise (s.setInbox (s.inbox.erase .initialise))) else .fault .hang

end Sys2Proof.Machine
end

