-- ==== Sys2Proof/Machine/Step.lean ====
section
/-! DEFINITION. One step of the block: the oldest input is taken and carried out (spec/00_scope.md R11, spec/45_commands.md
R210, R211). -/

namespace Sys2Proof.Machine

/-- The oldest input is carried out; when nothing is asked, the peripheral has its turn (R11; log 5, log 7). While a call hangs,
only a re-initialisation is (R246). -/
def step (s : State) : Host.Outcome State Fault Refusal :=
  if s.transferBusy then leaveHang s
  else match s.inbox with
    | [] => .next (peripheralStep s)
    | input :: rest => takeInput input (s.setInbox rest)

/-- A word of the opcode table placed so that the next step runs it (log 5). -/
def State.withFetchWord (s : State) (nbits w : Nat) : State := s.placeDescriptor (Descriptor.ofTableWord nbits w)

end Sys2Proof.Machine
end

