-- ==== Sys2Proof/Safety.lean ====
section
/-! DEFINITION. The terms claims are stated in: what a step may not break, what the outside world sees, and when a request can
be expected to complete. Nothing here is used by the machine. -/

namespace Sys2Proof.Machine

/-! What every step keeps. -/

/-- What holds between operations, whoever issued them (R25, R30, R39, R40, R41, R293 without INV-CHAN): admissible
parameters, TCK low, the TMS cache equal to the TMS line, no bulk transfer, interrupt disabled, lock free, a legal requested
frequency, unit registers of `U` bits, and a peripheral that is stuck only if it is busy, and surely if it is busy while the
pins are plain lines (R158, R164). -/
structure Settled (s : State) : Prop where
  admissible : s.params.admissible
  tckLow     : s.lines.tck = false
  tmsCached  : s.lastTmsLevel = s.lines.tms
  noTransfer : s.xfer = none
  irqOff     : s.chan.irqEnable = false
  lockFree   : s.xferLock = false
  freqLegal  : s.requestedFreq ≤ s.params.maxFreq
  txLegal    : unitLegal s.unit s.chan.txData = true
  rxLegal    : unitLegal s.unit s.chan.rxData = true
  stuckBusy  : s.chan.abandoned = true → s.chan.stat.busy = true
  busyStuck  : s.chan.pinFunction = .line → s.chan.stat.busy = true → s.chan.abandoned = true

/-- The command-boundary invariants of R293, INV-CHAN among them. -/
structure AtBoundary (s : State) : Prop where
  settled : Settled s
  lines   : s.chan.pinFunction = .line

/-- A call that hangs: its transfer waits for a completion signal in the enabled channel, the wait has no bound, nothing was
answered; the rest is as in `Settled` (R168, R293: it never reaches a boundary). -/
structure Hung (s : State) : Prop where
  admissible : s.params.admissible
  tckLow     : s.lines.tck = false
  tmsCached  : s.lastTmsLevel = s.lines.tms
  waiting    : s.transferBusy = true
  irqOn      : s.chan.irqEnable = true
  lockFree   : s.xferLock = false
  freqLegal  : s.requestedFreq ≤ s.params.maxFreq
  txLegal    : unitLegal s.unit s.chan.txData = true
  rxLegal    : unitLegal s.unit s.chan.rxData = true
  stuckBusy  : s.chan.abandoned = true → s.chan.stat.busy = true
  enabled    : s.chan.pinFunction = .peripheral
  unbounded  : s.params.irqWaitBound = none
  unanswered : s.response = none

/-! What the outside world sees. -/

/-- The events an operation has added to the wire trace. -/
def newEvents (s t : State) : List Event := t.trace.drop s.trace.length

/-- A TCK cycle without its path label: TMS, TDI, TDO (R14: runs that differ in labels and `Mux` drive the target alike). -/
structure WireCycle where
  tms : Bool
  tdi : Bool
  tdo : Option Bool
deriving DecidableEq, Repr

/-- The cycles of a trace, labels and other events dropped. -/
def wireCycles : List Event → List WireCycle
  | [] => []
  | .cycle _ tms tdi tdo :: l => ⟨tms, tdi, tdo⟩ :: wireCycles l
  | .mux _ :: l => wireCycles l
  | .tmsWrite _ :: l => wireCycles l

/-- Is the event a cycle of the hardware path? -/
def Event.isHardware : Event → Bool
  | .cycle .hwp _ _ _ => true
  | .cycle .hwi _ _ _ => true
  | _ => false

/-- Is the event a bit-bang cycle that samples TDO? -/
def Event.isSampledBitBang : Event → Bool
  | .cycle .bb _ _ (some _) => true
  | _ => false

/-- The state of a target that follows the graph on every cycle of a trace (R13, R294). -/
def targetAfter (t : TapState) (l : List Event) : TapState := walk t ((wireCycles l).map (·.tms))

/-- In track: the tracked state is the state of the target, which started in `t₀` (R294). -/
def InTrack (t₀ : TapState) (s : State) : Prop := targetAfter t₀ s.trace = s.currentState

/-- The TMS line is high only if it was high in the last cycle, so that a target that has just entered a Shift state sees it
low (R182, R294). -/
def TmsOnWire (s : State) : Prop :=
  s.lines.tms = true → ((wireCycles s.trace).map (·.tms)).getLast? = some true

/-- The cycles of a transition: TMS as given, TDI 0, TDO not sampled (R126). -/
def transitionEvents (tms : List Bool) : List Event := tms.map fun t => .cycle .bb t false none

/-- The same without labels. -/
def transitionWire (tms : List Bool) : List WireCycle := tms.map fun t => ⟨t, false, none⟩

/-- A run on the wire: the lines and the TMS cache it leaves, the events it adds. -/
def State.wired (s : State) (l : Lines) (cache : Bool) (events : List Event) : State :=
  { s with
    lines := l
    lastTmsLevel := cache
    trace := s.trace ++ events }

/-- The environment's answers to a run of cycles with the given TDI levels, and the state after those draws (R13). -/
def drawTdos : List Bool → State → List Bool × State
  | [], s => ([], s)
  | b :: bs, s => ((s.drawTdo b).1 :: (drawTdos bs (s.drawTdo b).2).1, (drawTdos bs (s.drawTdo b).2).2)

/-- Sampled cycles: a label, a constant TMS level, TDI levels, the answers. -/
def sampledEvents (path : Path) (tms : Bool) (tdis tdos : List Bool) : List Event :=
  List.zipWith (fun b r => .cycle path tms b (some r)) tdis tdos

/-- The first `n` bits of a buffer, bit 0 first (R62, R63). -/
def bitsOf (buf : List Byte) (n : Nat) : List Bool := (List.range n).map (bit buf)

/-- The `n` data cycles of a scan: input bit on TDI, answer on TDO, TMS high on the last one only, and only when the end state
is no Shift state (R191). -/
def dataWire (n : Nat) (endState : TapState) (buf : List Byte) (tdos : List Bool) : List WireCycle :=
  (List.range n).map fun k =>
    ⟨decide (k + 1 = n) && !endState.isShift, bit buf k, some (tdos.getD k false)⟩

/-- `t` differs from `s` in the lines, the TMS cache, the trace, the environment's draws and the peripheral only. -/
def OnlyWireAndChannel (s t : State) : Prop :=
  t = { s with
    lines := t.lines
    lastTmsLevel := t.lastTmsLevel
    trace := t.trace
    env := t.env
    draws := t.draws
    chan := t.chan }

/-- The lines after a run of unsampled pulses with TDI 0. -/
def linesAfterTms (s : State) (tms : List Bool) : Lines :=
  match tms.getLast? with
  | some t => { s.lines with tck := false, tms := t, tdiLine := false }
  | none => s.lines

/-- The lines after a run of sampled pulses. -/
def linesAfterPairs (s : State) (pairs : List Byte) : Lines :=
  match pairs.getLast? with
  | some x => { s.lines with tck := false, tms := pairTms x, tdiLine := pairTdi x }
  | none => s.lines

/-- The events of a run of pairs and their answers (R222). -/
def pairEvents (l : List Byte) (tdos : List Bool) : List Event :=
  List.zipWith (fun x r => .cycle .bb (pairTms x) (pairTdi x) (some r)) l tdos

/-- The lines after the peripheral has shifted these bits: TMS and the level `setLine` gave TDI untouched (R154, R158, R160). -/
def linesAfterBits (s : State) (bits : List Bool) : Lines :=
  match bits.getLast? with
  | some b => { s.lines with tck := false, tdiPeripheral := b }
  | none => s.lines

/-- A unit's bits in protocol order, the first bit on the wire first (R152). -/
def unitBits (u : UnitWidth) (v : Unit16) : List Bool := (List.range u.bits).map fun k => v.getLsbD k

/-- A run of bits through the peripheral: the environment answers, the bits go out under the given label, TMS and its cache
stay (R160). -/
def State.shifted (s : State) (path : Path) (bits : List Bool) : State :=
  (drawTdos bits s).2.wired (linesAfterBits s bits) s.lastTmsLevel
    (sampledEvents path s.lines.tms bits (drawTdos bits s).1)

/-- The peripheral after a completed run: the last word sent, the last word received, both flags clear (R162). -/
def Channel.rested (c : Channel) (tx rx : Unit16) : Channel :=
  { c with
    txData := tx
    rxData := rx
    stat := ⟨false, false⟩
    abandoned := false }

/-! When a request can be expected to complete. -/

/-- The hardware channel can be used: a frequency that gives a divisor, a peripheral that is not busy, and the premise
PeripheralHealthy (R156, R164). -/
structure ChannelUsable (s : State) : Prop where
  frequency : (usableDivisor s.params s.requestedFreq).isSome = true
  idle      : s.chan.stat.busy = false
  healthy   : s.env.polls = .healthy

/-- A TAP state whose TMS = 0 edge is a self-loop (R122 (c), R204). -/
def TapState.loopsLow (t : TapState) : Bool := decide (tapNext t false = t)

/-- The twelve commands (R92). -/
def isCommand : Instr → Bool
  | .setFrequency _ | .getFrequency | .rawBitbang _ _ | .setTapState _ _ _ | .getTapState => true
  | .scanCommand _ _ _ _ _ | .runTest _ | .setDirectPinControl _ | .setHardwareAssisted _ => true
  | .setInterruptDriven _ | .openSession | .releaseSession => true
  | .tapNext _ _ | .computeTransition _ _ | .applyTransition _ _ | .pulseClock _ _ _ => false
  | .reverseNibbles _ | .configure _ | .send _ | .receive | .shiftUnitPolled _ => false
  | .transferBlocking _ _ | .scan _ _ _ | .xfer _ _ _ _ _ | .runIdle _ => false

/-- The commands that need an open session: all but Open and Release (R234). -/
def needsOpenSession (i : Instr) : Bool :=
  isCommand i && decide (i ≠ .openSession) && decide (i ≠ .releaseSession)

/-- The operations that keep a block in track (R294): those that clock nothing, the transitions and scans that start from
`CURRENT`, and idle clocks in a state that loops on TMS = 0. -/
def keepsTrack (i : Instr) (s : State) : Bool :=
  match i with
  | .setFrequency _ | .getFrequency | .getTapState | .setDirectPinControl _ | .setHardwareAssisted _ => true
  | .setInterruptDriven _ | .openSession | .releaseSession => true
  | .setTapState fromCode _ _ => decide (fromCode = currentCode)
  | .scanCommand _ fromCode _ _ _ => decide (fromCode = currentCode)
  | .runTest _ => TapState.loopsLow s.currentState
  | .rawBitbang _ _ => false
  | .tapNext _ _ | .computeTransition _ _ | .reverseNibbles _ => true
  | .applyTransition fromCode _ => decide (fromCode = currentCode)
  | .xfer _ fromCode _ _ _ => decide (fromCode = currentCode)
  | .scan _ _ _ => true
  | .runIdle _ => TapState.loopsLow s.currentState
  | .pulseClock _ _ _ | .configure _ | .send _ | .receive | .shiftUnitPolled _ | .transferBlocking _ _ => false

/-- An outcome with its next state changed. -/
def mapNext (f : State → State) : Host.Outcome State Fault Refusal → Host.Outcome State Fault Refusal
  | .next s => .next (f s)
  | .fault q => .fault q
  | .refused q => .refused q

/-- A loop of `shiftUnitPolled` over `units` units of a byte array from offset `p`, the received bytes stored at the same
offsets of `rx`: the polled transfer R169 compares with `transferBlocking`. -/
def polledTransfer (tx : List Byte) : Nat → Nat → List Byte → State → Res (List Byte)
  | 0, _, rx, s => .ok rx s
  | units + 1, p, rx, s =>
    (shiftUnitPolled (unitFromBytes s.unit tx p) s).bind fun v s' =>
      polledTransfer tx units (p + s.unit.bytes) (memWrite rx p (unitToBytes s.unit v)) s'

/-- The peripheral after the channel was enabled with divisor `d`, moved at least one unit and was disabled again (R157, R158,
R162). -/
def Channel.used (c : Channel) (p : Params) (d : Nat) (tx rx : Unit16) : Channel :=
  { c with
    pinFunction := .line
    divisor := d
    idleClockLow := true
    sampleEdge := p.sampleEdge
    stat := ⟨false, false⟩
    txData := tx
    rxData := rx
    abandoned := false }

/-- How many bits of a scan of `n` bits the channel carries (R183). -/
def scanBulk (n : Nat) (s : State) : Nat := if wantsChannel n s then (n - 1) / s.unit.bits * s.unit.bits else 0

/-- The label of the cycles a transfer sends through the channel (R14). -/
def hardwarePath (s : State) : Path := if s.interruptDriven then .hwi else .hwp

/-- A scan of `n` bits can go through the channel if it is to use it, and the TMS line is low then (R182, R294). -/
def ScanUsable (n : Nat) (s : State) : Prop := wantsChannel n s = true → ChannelUsable s ∧ s.lines.tms = false

/-- The state a scan stands in after its last data bit (R187). -/
def scanExit (shift endState : TapState) : TapState := if endState.isShift then shift else shift.exit1

/-- The events of the channel part of a scan: the pins change over, the bits go out, the pins change back (R182 to R186). -/
def bulkEvents (n : Nat) (buf : List Byte) (s : State) : List Event :=
  if wantsChannel n s then
    .mux .peripheral :: sampledEvents (hardwarePath s) s.lines.tms (bitsOf buf (scanBulk n s))
      (drawTdos (bitsOf buf (scanBulk n s)) s).1 ++ [.mux .line]
  else []

/-- The bit-bang cycles of a scan from bit `i` on, `rem` of them (R187). -/
def tailEvents (endState : TapState) (buf : List Byte) (i rem : Nat) (tdos : List Bool) : List Event :=
  (List.range rem).map fun k =>
    .cycle .bb (decide (k + 1 = rem) && !endState.isShift) (bit buf (i + k)) (some (tdos.getD k false))

/-- How many cycles of an idle run of `n` cycles the channel carries (R203). -/
def idleBulk (n : Nat) (s : State) : Nat :=
  if s.activeTransferMode = .hardwareAssisted then n / s.unit.bits * s.unit.bits else 0

/-- The channel is usable if an idle run is to use it; it needs no idle peripheral when it moves no unit (R203). -/
def IdleUsable (s : State) : Prop := s.activeTransferMode = .hardwareAssisted → ChannelUsable s

/-- The peripheral after the channel was enabled with divisor `d` and disabled again without a unit (R157, R158). -/
def Channel.opened (c : Channel) (p : Params) (d : Nat) : Channel :=
  { c with
    pinFunction := .line
    divisor := d
    idleClockLow := true
    sampleEdge := p.sampleEdge
    stat := { c.stat with ready := false }
    abandoned := c.stat.busy }

/-- The events of an idle run of `n` cycles (R200 to R203). -/
def idleEvents (n : Nat) (s : State) : List Event :=
  if s.activeTransferMode = .hardwareAssisted then
    (if s.lastTmsLevel then [.tmsWrite false] else []) ++
      (.mux .peripheral :: sampledEvents (hardwarePath s) false (List.replicate (idleBulk n s) false)
        (drawTdos (List.replicate (idleBulk n s) false) s).1 ++ [.mux .line]) ++
      transitionEvents (List.replicate (n - idleBulk n s) false)
  else transitionEvents (List.replicate n false)

/-! Outcomes. -/

/-- What initialisation leaves (R45, R281), under parameters `p` and after the wire events `before`. -/
structure Initialised (p : Params) (before : List Event) (t : State) : Prop where
  params     : t.params = p
  state      : t.currentState = .testLogicReset
  cache      : t.lastTmsLevel = true
  mode       : t.activeTransferMode = p.hwModeReset
  interrupt  : t.interruptDriven = p.irqReset
  strategy   : t.pinControlStrategy = p.pinStrategyReset
  closed     : t.exclusiveOpen = false
  frequency  : t.requestedFreq = p.freqReset
  pins       : t.chan.pinFunction = .line
  idle       : t.chan.stat.busy = false
  irqOff     : t.chan.irqEnable = false
  noTransfer : t.xfer = none
  lockFree   : t.xferLock = false
  tck        : t.lines.tck = false
  tms        : t.lines.tms = true
  tdi        : t.readLine .tdi = false
  trace      : t.trace = before ++ List.replicate 9 (.cycle .bb true false none)
  target     : ∀ t₀ : TapState, targetAfter t₀ t.trace = .testLogicReset

/-- What a transfer leaves that failed in the Shift state `shift`, reached with the TMS levels `path`: a boundary, the tracked state
there, the cycles of the path, then at most `bulk` sampled cycles at the TMS level the path ended with (R189, R190). -/
def StoppedInShift (s t : State) (shift : TapState) (path : List Bool) (bulk : Nat) : Prop :=
  AtBoundary t ∧ OnlyWireAndChannel { s with currentState := shift, response := t.response } t ∧
    ∃ after, t.trace = s.trace ++ transitionEvents path ++ after ∧ (wireCycles after).length ≤ bulk ∧
      ∀ c ∈ wireCycles after, c.tms = (linesAfterTms s path).tms ∧ c.tdo.isSome = true

/-- After which errors a failed transfer has clocked nothing in its Shift state, and after which it has added no event there at
all (R181, R182, R189). -/
def ClockedNothing (e : ErrorKind) (s t : State) (path : List Bool) : Prop :=
  (e = .busy → wireCycles (newEvents s t) = transitionWire path) ∧
    (e ∈ [ErrorKind.invalidState, .invalidArgument, .invalidFrequency] → t.trace = s.trace ++ transitionEvents path)

/-- The operation answers the error `e` and changes nothing else; `val`, `out` and the counter of the free values are the model's
unspecified values (R94, R243; log 19). -/
def FailsUnchanged (o : Host.Outcome State Fault Refusal) (s : State) (e : ErrorKind) : Prop :=
  ∃ val out n, o = .next { s with response := some ⟨.error e, val, out⟩, draws := n }

/-- The errors each command can return (R242). -/
def commandErrors : Instr → List ErrorKind
  | .setFrequency _ => [.invalidArgument]
  | .rawBitbang _ _ => [.invalidArgument, .outOfMemory]
  | .setTapState _ _ _ => [.invalidState]
  | .scanCommand _ _ _ _ _ => [.invalidArgument, .outOfMemory, .ioError]
  | .runTest _ => [.busy, .timeout, .outOfMemory, .invalidFrequency]
  | .openSession => [.busy]
  | .getFrequency | .getTapState | .setDirectPinControl _ | .setHardwareAssisted _ | .setInterruptDriven _ => []
  | .releaseSession | .tapNext _ _ | .computeTransition _ _ | .applyTransition _ _ | .pulseClock _ _ _ => []
  | .reverseNibbles _ | .configure _ | .send _ | .receive | .shiftUnitPolled _ | .transferBlocking _ _ => []
  | .scan _ _ _ | .xfer _ _ _ _ _ | .runIdle _ => []

/-- The operations that can move the tracked state (R24). -/
def movesCurrentState : Instr → Bool
  | .setTapState _ _ _ | .scanCommand _ _ _ _ _ | .applyTransition _ _ | .scan _ _ _ | .xfer _ _ _ _ _ => true
  | .setFrequency _ | .getFrequency | .rawBitbang _ _ | .getTapState | .runTest _ => false
  | .setDirectPinControl _ | .setHardwareAssisted _ | .setInterruptDriven _ | .openSession | .releaseSession => false
  | .tapNext _ _ | .computeTransition _ _ | .pulseClock _ _ _ | .reverseNibbles _ | .configure _ | .send _ => false
  | .receive | .shiftUnitPolled _ | .transferBlocking _ _ | .runIdle _ => false

/-- The operations that can write the TMS cache: those that pulse on plain lines, and `configure(false)` with what performs it
(R25). -/
def writesTmsCache : Instr → Bool
  | .rawBitbang _ _ | .setTapState _ _ _ | .scanCommand _ _ _ _ _ | .runTest _ | .applyTransition _ _ => true
  | .pulseClock _ _ _ | .shiftUnitPolled _ | .transferBlocking _ _ | .scan _ _ _ | .xfer _ _ _ _ _ | .runIdle _ => true
  | .configure enable => !enable
  | .setFrequency _ | .getFrequency | .getTapState | .setDirectPinControl _ | .setHardwareAssisted _ => false
  | .setInterruptDriven _ | .openSession | .releaseSession | .tapNext _ _ | .computeTransition _ _ => false
  | .reverseNibbles _ | .send _ | .receive => false

/-- The operations that neither read nor write the tracked state (R24, R143, R204, R223). -/
def ignoresCurrentState : Instr → Bool
  | .rawBitbang _ _ | .runTest _ | .pulseClock _ _ _ | .configure _ | .send _ | .receive | .shiftUnitPolled _ => true
  | .transferBlocking _ _ | .runIdle _ | .setFrequency _ | .getFrequency | .setDirectPinControl _ => true
  | .setHardwareAssisted _ | .setInterruptDriven _ | .openSession | .releaseSession => true
  | .tapNext _ _ | .computeTransition _ _ | .reverseNibbles _ => true
  | .getTapState | .setTapState _ _ _ | .scanCommand _ _ _ _ _ | .applyTransition _ _ | .scan _ _ _ => false
  | .xfer _ _ _ _ _ => false

/-- The operations that make an allocation draw (R235). -/
def allocates : Instr → Bool
  | .rawBitbang _ _ | .scanCommand _ _ _ _ _ | .runTest _ | .runIdle _ => true
  | .setFrequency _ | .getFrequency | .setTapState _ _ _ | .getTapState | .setDirectPinControl _ => false
  | .setHardwareAssisted _ | .setInterruptDriven _ | .openSession | .releaseSession => false
  | .tapNext _ _ | .computeTransition _ _ | .applyTransition _ _ | .pulseClock _ _ _ | .reverseNibbles _ => false
  | .configure _ | .send _ | .receive | .shiftUnitPolled _ | .transferBlocking _ _ | .scan _ _ _ => false
  | .xfer _ _ _ _ _ => false

/-- The operations that can wait for the completion signal (R168). -/
def canHang : Instr → Bool
  | .transferBlocking _ _ | .scan _ _ _ | .xfer _ _ _ _ _ | .scanCommand _ _ _ _ _ | .runIdle _ | .runTest _ => true
  | .setFrequency _ | .getFrequency | .rawBitbang _ _ | .setTapState _ _ _ | .getTapState => false
  | .setDirectPinControl _ | .setHardwareAssisted _ | .setInterruptDriven _ | .openSession | .releaseSession => false
  | .tapNext _ _ | .computeTransition _ _ | .applyTransition _ _ | .pulseClock _ _ _ | .reverseNibbles _ => false
  | .configure _ | .send _ | .receive | .shiftUnitPolled _ => false

/-! The spec's tables. -/

/-- The graph, row by row: state, its successor on TMS 0, its successor on TMS 1 (R121). -/
def graphRows : List (TapState × TapState × TapState) :=
  [(.testLogicReset, .runTestIdle, .testLogicReset), (.runTestIdle, .runTestIdle, .selectDR),
    (.selectDR, .captureDR, .selectIR), (.captureDR, .shiftDR, .exit1DR), (.shiftDR, .shiftDR, .exit1DR),
    (.exit1DR, .pauseDR, .updateDR), (.pauseDR, .pauseDR, .exit2DR), (.exit2DR, .shiftDR, .updateDR),
    (.updateDR, .runTestIdle, .selectDR), (.selectIR, .captureIR, .testLogicReset), (.captureIR, .shiftIR, .exit1IR),
    (.shiftIR, .shiftIR, .exit1IR), (.exit1IR, .pauseIR, .updateIR), (.pauseIR, .pauseIR, .exit2IR),
    (.exit2IR, .shiftIR, .updateIR), (.updateIR, .runTestIdle, .selectDR)]

/-- The sixteen states in the order of their codes (R96). -/
def allStates : List TapState :=
  [.testLogicReset, .runTestIdle, .selectDR, .captureDR, .shiftDR, .exit1DR, .pauseDR, .exit2DR, .updateDR,
    .selectIR, .captureIR, .shiftIR, .exit1IR, .pauseIR, .exit2IR, .updateIR]

/-- The edges of the graph, two per state: from, TMS level, to (R122). -/
def graphEdges : List (TapState × Bool × TapState) :=
  allStates.flatMap fun t => [(t, false, tapNext t false), (t, true, tapNext t true)]

/-- A cell of the transition table: its TMS list behind a leading 1, read as a binary numeral (`0b1` is the empty list,
`0b10100` is 0100). At most `fuel` bits are read. -/
def cellBits : Nat → Nat → List Bool
  | 0, _ => []
  | fuel + 1, c => if c ≤ 1 then [] else cellBits fuel (c / 2) ++ [c % 2 == 1]

/-! The transition table, one row per source state (R124). -/

def transitionRowTLR : List Nat :=
  [0b1, 0b10, 0b101, 0b1010, 0b10100, 0b10101, 0b101010, 0b1010101,
    0b101011, 0b1011, 0b10110, 0b101100, 0b101101, 0b1011010, 0b10110101, 0b1011011]

def transitionRowRTI : List Nat :=
  [0b1111, 0b1, 0b11, 0b110, 0b1100, 0b1101, 0b11010, 0b110101,
    0b11011, 0b111, 0b1110, 0b11100, 0b11101, 0b111010, 0b1110101, 0b111011]

def transitionRowSelDR : List Nat :=
  [0b111, 0b1110, 0b1, 0b10, 0b100, 0b101, 0b1010, 0b10101,
    0b1011, 0b11, 0b110, 0b1100, 0b1101, 0b11010, 0b110101, 0b11011]

def transitionRowCapDR : List Nat :=
  [0b111111, 0b1110, 0b1111, 0b1, 0b10, 0b11, 0b110, 0b1101,
    0b111, 0b11111, 0b111110, 0b1111100, 0b1111101, 0b11111010, 0b111110101, 0b11111011]

def transitionRowShfDR : List Nat :=
  [0b111111, 0b1110, 0b1111, 0b11110, 0b1, 0b11, 0b110, 0b1101,
    0b111, 0b11111, 0b111110, 0b1111100, 0b1111101, 0b11111010, 0b111110101, 0b11111011]

def transitionRowEx1DR : List Nat :=
  [0b11111, 0b110, 0b111, 0b1110, 0b1010, 0b1, 0b10, 0b101,
    0b11, 0b1111, 0b11110, 0b111100, 0b111101, 0b1111010, 0b11110101, 0b1111011]

def transitionRowPauDR : List Nat :=
  [0b111111, 0b1110, 0b1111, 0b11110, 0b110, 0b1101, 0b1, 0b11,
    0b111, 0b11111, 0b111110, 0b1111100, 0b1111101, 0b11111010, 0b111110101, 0b11111011]

def transitionRowEx2DR : List Nat :=
  [0b11111, 0b110, 0b111, 0b1110, 0b10, 0b101, 0b1010, 0b1,
    0b11, 0b1111, 0b11110, 0b111100, 0b111101, 0b1111010, 0b11110101, 0b1111011]

def transitionRowUpdDR : List Nat :=
  [0b1111, 0b10, 0b11, 0b110, 0b1100, 0b1101, 0b11010, 0b110101,
    0b1, 0b111, 0b1110, 0b11100, 0b11101, 0b111010, 0b1110101, 0b111011]

def transitionRowSelIR : List Nat :=
  [0b11, 0b110, 0b1101, 0b11010, 0b110100, 0b110101, 0b1101010, 0b11010101,
    0b1101011, 0b1, 0b10, 0b100, 0b101, 0b1010, 0b10101, 0b1011]

def transitionRowCapIR : List Nat :=
  [0b111111, 0b1110, 0b1111, 0b11110, 0b111100, 0b111101, 0b1111010, 0b11110101,
    0b1111011, 0b11111, 0b1, 0b10, 0b11, 0b110, 0b1101, 0b111]

def transitionRowShfIR : List Nat :=
  [0b111111, 0b1110, 0b1111, 0b11110, 0b111100, 0b111101, 0b1111010, 0b11110101,
    0b1111011, 0b11111, 0b111110, 0b1, 0b11, 0b110, 0b1101, 0b111]

def transitionRowEx1IR : List Nat :=
  [0b11111, 0b110, 0b111, 0b1110, 0b11100, 0b11101, 0b111010, 0b1110101,
    0b111011, 0b1111, 0b11110, 0b1010, 0b1, 0b10, 0b101, 0b11]

def transitionRowPauIR : List Nat :=
  [0b111111, 0b1110, 0b1111, 0b11110, 0b111100, 0b111101, 0b1111010, 0b11110101,
    0b1111011, 0b11111, 0b111110, 0b110, 0b1101, 0b1, 0b11, 0b111]

def transitionRowEx2IR : List Nat :=
  [0b11111, 0b110, 0b111, 0b1110, 0b11100, 0b11101, 0b111010, 0b1110101,
    0b111011, 0b1111, 0b11110, 0b10, 0b101, 0b1010, 0b1, 0b11]

def transitionRowUpdIR : List Nat :=
  [0b1111, 0b10, 0b11, 0b110, 0b1100, 0b1101, 0b11010, 0b110101,
    0b11011, 0b111, 0b1110, 0b11100, 0b11101, 0b111010, 0b1110101, 0b1]

/-- The whole table, rows and columns in the order of the codes (R124). -/
def transitionTable : List (List Nat) :=
  [transitionRowTLR, transitionRowRTI, transitionRowSelDR, transitionRowCapDR,
    transitionRowShfDR, transitionRowEx1DR, transitionRowPauDR, transitionRowEx2DR] ++
  [transitionRowUpdDR, transitionRowSelIR, transitionRowCapIR, transitionRowShfIR,
    transitionRowEx1IR, transitionRowPauIR, transitionRowEx2IR, transitionRowUpdIR]
end Sys2Proof.Machine
end

