-- ==== Sys2Proof/Certificates/Slice0/Obligations.lean ====
section
/-! DEFINITION. What is claimed of the model: one `Prop` per obligation, grouped as the spec's files are. `exec` and `step` are
the machine's; `OnlyWireAndChannel` and `FailsUnchanged` are the frames of Sys2Proof/Safety.lean. -/

open Sys2Proof Sys2Proof.Machine

/-! Encoding (spec/30_encoding.md). -/

/-- R90 to R93, R97: the encoding of every well-formed operation decodes to it, every operand at every value. -/
def Obligations.DecodeInvertsEncode : Prop :=
  ∀ i : Instr, i.wellFormed = true → decode (encode i) = .instr i

/-- R90, R91, R101: a descriptor that decodes has the words of the operation it decodes to, so no reserved field or bit of it is
set, the type of a Scan command is 0 or 1 (log 35) and no command's buffer is short (log 15); its buffer is the operation's own or is
not used. -/
def Obligations.EncodeInvertsDecode : Prop :=
  ∀ (d : Descriptor) (i : Instr), decode d = .instr i →
    i.wellFormed = true ∧ (encode i).w0 = d.w0 ∧ (encode i).w1 = d.w1 ∧ ((encode i).buf = d.buf ∨ (encode i).buf = [])

/-- R106: the worked encodings. -/
def Obligations.WorkedEncodingsDecode : Prop :=
  decodeAt .command ⟨0x0B000000, 0, []⟩ = .instr .openSession ∧
  decodeAt .command ⟨0x04100100, 0, []⟩ = .instr (.setTapState currentCode TapState.runTestIdle.code false) ∧
  decodeAt .command ⟨0x04040001, 0, []⟩ = .instr (.setTapState TapState.shiftDR.code TapState.testLogicReset.code true) ∧
  decodeAt .command ⟨0x06100100, 0x00000008, [0xA5]⟩ =
    .instr (.scanCommand 0 currentCode TapState.runTestIdle.code 8 [0xA5]) ∧
  decodeAt .command ⟨0x06010D01, 0x00000020, [0x01, 0x80, 0xFF, 0x00]⟩ =
    .instr (.scanCommand 1 TapState.runTestIdle.code TapState.pauseIR.code 32 [0x01, 0x80, 0xFF, 0x00]) ∧
  decodeAt .command ⟨0x07000000, 0x00000013, []⟩ = .instr (.runTest 19) ∧
  decodeAt .command ⟨0x09000001, 0, []⟩ = .instr (.setHardwareAssisted true) ∧
  decodeAt .command ⟨0x01000000, 0x000F4240, []⟩ = .instr (.setFrequency 1000000) ∧
  decodeAt .command ⟨0x03000000, 2, [0x01, 0x02]⟩ = .instr (.rawBitbang 2 [0x01, 0x02]) ∧
  ∀ (s : State) (rest : List Input) (w0 : Word), w0 = 0x0D000000 ∨ w0 = 0x82100100 → s.xfer = none →
    s.inbox = .request ⟨.command, ⟨w0, 0, []⟩⟩ :: rest →
    FailsUnchanged (step s) { s with inbox := rest } .invalidArgument

/-- R101: at the command surface a descriptor whose `op` is no command's, or whose words are those of no well-formed operation,
is answered InvalidArgument with nothing changed. That a short buffer and a Scan type above 1 are found here, before the session
check, is the model's reading (log 15, log 35). -/
def Obligations.IllegalDescriptorIsInvalidArgument : Prop :=
  ∀ (s : State) (d : Descriptor) (rest : List Input), s.xfer = none → s.inbox = .request ⟨.command, d⟩ :: rest →
    (d.op = 0 ∨ 0x0D ≤ d.op.toNat ∨ ∀ i : Instr, i.wellFormed = true →
      ¬((encode i).w0 = d.w0 ∧ (encode i).w1 = d.w1 ∧ ((encode i).buf = d.buf ∨ (encode i).buf = []))) →
    FailsUnchanged (step s) { s with inbox := rest } .invalidArgument

/-- R11, R93, R101, R210, R246, R280: while no call hangs a step takes the oldest input: a descriptor that decodes at its surface is
executed; the platform initialises, between operations or in the middle of one; the peripheral has its turn, also when nothing is
asked. While one hangs only a re-initialisation is taken. The model's choices: the queue of inputs (log 5), a harness that decodes
every row, commands included (log 6), the peripheral's turn (log 7), the end of a hang (log 8), initialisation as an input
(log 25). -/
def Obligations.StepRunsTheDecodedOperation : Prop :=
  (∀ (s : State) (r : Request) (rest : List Input) (i : Instr), s.xfer = none → s.inbox = .request r :: rest →
    decodeAt r.surface r.descriptor = .instr i → step s = exec i { s with inbox := rest }) ∧
  (∀ d : Descriptor, decodeAt .harness d = decode d ∧ (d.op.toNat < 0x80 → decodeAt .command d = decode d)) ∧
  (∀ (s : State) (rest : List Input), s.xfer = none → s.inbox = .initialise :: rest →
    step s = .next (initialise { s with inbox := rest })) ∧
  (∀ (s t : State) (r : Request) (k : Nat) (rest : List Input) (i : Instr), s.xfer = none →
    s.inbox = .initialiseDuring r k :: rest → decodeAt r.surface r.descriptor = .instr i →
    exec i { s with inbox := rest } = .next t → step s = .next (endedByInitialise k { s with inbox := rest } t)) ∧
  (∀ (s : State) (rest : List Input), s.xfer = none → s.inbox = .peripheralTurn :: rest →
    step s = .next (peripheralStep { s with inbox := rest })) ∧
  (∀ s : State, s.xfer = none → s.inbox = [] → step s = .next (peripheralStep s)) ∧
  ∀ s : State, s.xfer ≠ none →
    (.initialise ∈ s.inbox → step s = .next (initialise { s with inbox := s.inbox.erase .initialise })) ∧
    (.initialise ∉ s.inbox → step s = .fault .hang)

/-! The TAP state machine (spec/40_tap_state_machine.md). -/

/-- R121: `tapNext` is the source's table, edge by edge; it changes nothing; a code above 15 is InvalidState. -/
def Obligations.TapNextFollowsTheGraph : Prop :=
  (∀ row ∈ graphRows, ∀ s : State,
    exec (.tapNext row.1.code false) s =
      .next { s with response := some ⟨.ok, row.2.1.code.setWidth 32, []⟩ } ∧
    exec (.tapNext row.1.code true) s =
      .next { s with response := some ⟨.ok, row.2.2.code.setWidth 32, []⟩ }) ∧
  graphRows.map (fun row => row.1.code) = (List.range 16).map (BitVec.ofNat 8) ∧
  ∀ (c : Byte) (tms : Bool) (s : State), 15 < c.toNat → FailsUnchanged (exec (.tapNext c tms) s) s .invalidState

/-- R122: the facts of the graph. -/
def Obligations.GraphFacts : Prop :=
  (allStates.length = 16 ∧ allStates.Nodup ∧ ∀ t : TapState, t ∈ allStates) ∧
  (graphEdges.length = 32 ∧ graphEdges.Nodup) ∧
  (∀ src dest : TapState, ∃ l, walk src l = dest) ∧
  (∀ t : TapState, tapNext t false = t ↔ t ∈ [.runTestIdle, .shiftDR, .pauseDR, .shiftIR, .pauseIR]) ∧
  (∀ t : TapState, tapNext t true = t ↔ t = .testLogicReset) ∧
  (∀ (t : TapState) (n : Nat), 5 ≤ n → walk t (List.replicate n true) = .testLogicReset) ∧
  (∀ t : TapState, walk t (List.replicate 4 true) ≠ .testLogicReset ↔
    t ∈ [.captureDR, .shiftDR, .pauseDR, .captureIR, .shiftIR, .pauseIR]) ∧
  (∀ (t : TapState) (tms : Bool), (tapNext t tms).isShift = true →
    tms = false ∧ t ∈ [.captureDR, .exit2DR, .shiftDR, .captureIR, .exit2IR, .shiftIR]) ∧
  tapNext .shiftDR true = .exit1DR ∧ tapNext .shiftIR true = .exit1IR

/-- R123: the answer packs a list of TMS levels that leads from `src` to `dest`, is no longer than any other that does, is the
only one of its length, and has at most eight levels; a code above 15 is InvalidState before anything else. -/
def Obligations.ComputeTransitionIsTheShortestPath : Prop :=
  (∀ (src dest : TapState) (s : State), exec (.computeTransition src.code dest.code) s =
      .next { s with response := some ⟨.ok, packTransition (computeTransition src dest), []⟩ } ∧
    walk src (computeTransition src dest) = dest ∧ (computeTransition src dest).length ≤ 8 ∧
    ∀ l : List Bool, walk src l = dest →
      (computeTransition src dest).length ≤ l.length ∧
      ((computeTransition src dest).length = l.length → computeTransition src dest = l)) ∧
  ∀ (a b : Byte) (s : State), 15 < a.toNat ∨ 15 < b.toNat →
    FailsUnchanged (exec (.computeTransition a b) s) s .invalidState

/-- R124: the whole table. -/
def Obligations.TransitionTable : Prop :=
  ∀ src ∈ allStates, ∀ dest ∈ allStates,
    computeTransition src dest = cellBits 9 ((transitionTable.getD src.code.toNat []).getD dest.code.toNat 0)

/-- R100: the packed form, for lists as long as a transition can be: the count above the pattern, bit `k` the level of cycle
`k`, nothing above the count. -/
def Obligations.PackedTransitionReadsBack : Prop :=
  ∀ tms : List Bool, tms.length ≤ 8 →
    (packTransition tms).extractLsb' 8 4 = BitVec.ofNat 4 tms.length ∧ (packTransition tms).extractLsb' 12 20 = 0 ∧
    ∀ k, k < 8 → (packTransition tms).getLsbD k = tms.getD k false

/-- R125, R126, R128: on plain lines with the cache in step, the TMS levels of the path (nine ones to TestLogicReset) go out in
order with TDI 0, unsampled, and the tracked state is `dest` whatever it was; nothing else changes. An operand out of range is
InvalidState, and nothing is clocked. -/
def Obligations.ApplyTransitionDrivesThePath : Prop :=
  (∀ (s : State) (fromCode : Byte) (src dest : TapState), s.chan.pinFunction = .line → s.lastTmsLevel = s.lines.tms →
    (fromCode = currentCode ∧ src = s.currentState ∨ fromCode = src.code) →
    let tms := if dest = .testLogicReset then List.replicate 9 true else computeTransition src dest
    exec (.applyTransition fromCode dest.code) s = .next { s with
      currentState := dest
      lines := linesAfterTms s tms
      lastTmsLevel := (linesAfterTms s tms).tms
      trace := s.trace ++ transitionEvents tms
      response := some ⟨.ok, 0, []⟩ }) ∧
  ∀ (s : State) (fromCode toCode : Byte), 16 < fromCode.toNat ∨ 15 < toCode.toNat →
    FailsUnchanged (exec (.applyTransition fromCode toCode) s) s .invalidState

/-- R127: to TestLogicReset always nine cycles with TMS 1, whatever `from` is; afterwards every target, wherever it stood, is in
TestLogicReset. -/
def Obligations.ResetOverrideIsNinePulses : Prop :=
  ∀ (s : State) (fromCode : Byte), s.chan.pinFunction = .line → s.lastTmsLevel = s.lines.tms → fromCode.toNat ≤ 16 →
    ∃ t, exec (.applyTransition fromCode TapState.testLogicReset.code) s = .next t ∧ t.status = some .ok ∧
      t.currentState = .testLogicReset ∧ t.trace = s.trace ++ List.replicate 9 (.cycle .bb true false none) ∧
      ∀ t₀ : TapState, targetAfter t₀ t.trace = .testLogicReset

/-- R129: if the target stands in the resolved `from` (no premise for TestLogicReset), then after the transition target and
tracked state are both `dest`. -/
def Obligations.TransitionKeepsTrack : Prop :=
  ∀ (s : State) (fromCode : Byte) (src dest t₀ : TapState), s.chan.pinFunction = .line → s.lastTmsLevel = s.lines.tms →
    (fromCode = currentCode ∧ src = s.currentState ∨ fromCode = src.code) →
    (targetAfter t₀ s.trace = src ∨ dest = .testLogicReset) →
    ∃ t, exec (.applyTransition fromCode dest.code) s = .next t ∧ t.status = some .ok ∧
      targetAfter t₀ t.trace = dest ∧ t.currentState = dest

/-! The clock cycle (spec/41_clock_cycle.md). -/

/-- R140: on plain lines a pulse sets TDI, writes TMS and the cache only on a difference, emits one cycle, ends with TCK low; it
answers the sample, or 0 and samples nothing. With the cache in step the level on the wire is the operand (R141). -/
def Obligations.PulseClockEffect : Prop :=
  ∀ (s : State) (tms tdi : Bool), s.chan.pinFunction = .line →
    let level := if tms = s.lastTmsLevel then s.lines.tms else tms
    exec (.pulseClock false tms tdi) s = .next { s with
      lines := { s.lines with tck := false, tms := level, tdiLine := tdi }
      lastTmsLevel := tms
      trace := s.trace ++ [.cycle .bb level tdi none]
      response := some ⟨.ok, 0, []⟩ } ∧
    exec (.pulseClock true tms tdi) s = .next { (s.drawTdo tdi).2 with
      lines := { s.lines with tck := false, tms := level, tdiLine := tdi }
      lastTmsLevel := tms
      trace := s.trace ++ [.cycle .bb level tdi (some (s.drawTdo tdi).1)]
      response := some ⟨.ok, if (s.drawTdo tdi).1 then 1 else 0, []⟩ } ∧
    (s.lastTmsLevel = s.lines.tms → level = tms)

/-- R144, R161: a pulse with the pins in the Peripheral function, a `send` on a disabled channel or to a busy peripheral, are
refused (the model refuses where the spec says a model should; log 32). -/
def Obligations.RefusedOutsideTheirPreconditions : Prop :=
  (∀ (s : State) (sampleTdo tms tdi : Bool), s.chan.pinFunction = .peripheral →
    exec (.pulseClock sampleTdo tms tdi) s = .refused .pulseInPeripheralFunction) ∧
  ∀ (s : State) (v : Unit16), v.toNat < 2 ^ s.unit.bits →
    (s.chan.pinFunction = .line → exec (.send v) s = .refused .sendWhileDisabled) ∧
    (s.chan.pinFunction = .peripheral → s.chan.stat.busy = true → exec (.send v) s = .refused .sendWhileBusy)

/-! The hardware shift channel (spec/42_hw_shift_channel.md). -/

/-- R151: bit `j` of the answer is bit `7 - j` of the operand; twice is the identity; nothing changes. -/
def Obligations.ReverseNibblesReversesTheByte : Prop :=
  ∀ x : Byte,
    (∀ s : State, exec (.reverseNibbles x) s =
      .next { s with response := some ⟨.ok, (reverseNibbles x).setWidth 32, []⟩ }) ∧
    (∀ j, j < 8 → (reverseNibbles x).getLsbD j = x.getLsbD (7 - j)) ∧
    reverseNibbles (reverseNibbles x) = x

/-- R152: a unit built from bytes has their bits in order, its bytes are those bytes, and the adapter puts bit `k` at
`U - 1 - k` and undoes itself. -/
def Obligations.AdapterReversesTheUnit : Prop :=
  ∀ u : UnitWidth,
    (∀ (buf : List Byte) (p k : Nat), k < u.bits → (unitFromBytes u buf p).getLsbD k = bit buf (8 * p + k)) ∧
    (∀ (v : Unit16) (k : Nat), k < u.bits → (adapt u v).getLsbD (u.bits - 1 - k) = v.getLsbD k) ∧
    ∀ v : Unit16, v.toNat < 2 ^ u.bits → adapt u (adapt u v) = v ∧ unitFromBytes u (unitToBytes u v) 0 = v

/-- R156, R157: the divisor in the integers; a frequency that gives none changes nothing and is InvalidFrequency; else the
divisor, the polarities and the pin function are written, the stale word is drained, no cycle is produced. With an unbounded
divisor the accepted range is 1 to REF_RATE div 4. On a channel that was enabled already the peripheral may shift a unit in flight
before the switch of the pins or between it and the drain, as the schedule says (R46; the model's interleaving, log 4). -/
def Obligations.ConfigureOnChecksTheFrequency : Prop :=
  ∀ s : State,
    let f := s.requestedFreq
    let d : Int := ((s.params.refRate / (2 * f) : Nat) : Int) - 1
    let bad := f = 0 ∨ d ≤ 0 ∨ ∃ m, s.params.divMax = some m ∧ (m : Int) < d
    (bad → FailsUnchanged (exec (.configure true) s) s .invalidFrequency) ∧
    let switched := fun u : State => { u with
      chan := { u.chan with
        divisor := d.toNat
        pinFunction := .peripheral
        idleClockLow := true
        sampleEdge := u.params.sampleEdge }
      trace := u.trace ++ [.mux .peripheral] }
    let drained := fun u : State => { u with
      chan := { u.chan with stat := { u.chan.stat with ready := false } }
      response := some ⟨.ok, 0, []⟩ }
    (¬bad → (s.chan.stat.busy = true → s.chan.abandoned = true) →
      exec (.configure true) s = .next (drained (switched s))) ∧
    (¬bad → ∃ (turns : ScheduleEnv) (k : Nat),
      let u := { s with env := { s.env with schedule := turns }, draws := k }
      exec (.configure true) s = .next (drained (switched u)) ∨
      exec (.configure true) s = .next (drained (switched (peripheralStep u))) ∨
      exec (.configure true) s = .next (drained (peripheralStep (switched u)))) ∧
    (s.params.divMax = none → (¬bad ↔ 1 ≤ f ∧ f ≤ s.params.refRate / 4))

/-- R158: disabling gives the pins back, so that TDI is at the level last given by `setLine`, and re-reads TMS into the cache; on a
disabled channel it re-reads only. That a unit in flight is cut off is the model's reading (log 11), and that a disabled channel
emits no Mux event too (log 12). -/
def Obligations.ConfigureOffReturnsTheLines : Prop :=
  ∀ s : State,
    (s.chan.pinFunction = .peripheral → exec (.configure false) s = .next { s with
      chan := { s.chan with
        pinFunction := .line
        abandoned := s.chan.stat.busy }
      lastTmsLevel := s.lines.tms
      trace := s.trace ++ [.mux .line]
      response := some ⟨.ok, 0, []⟩ }) ∧
    (s.chan.pinFunction = .line → exec (.configure false) s = .next { s with
      lastTmsLevel := s.lines.tms
      response := some ⟨.ok, 0, []⟩ }) ∧
    ∀ t, exec (.configure false) s = .next t → t.readLine .tdi = s.lines.tdiLine ∧ t.readLine .tms = t.lastTmsLevel

/-- R161: `send` writes the adapted unit to the data register and makes the peripheral busy; nothing else changes. -/
def Obligations.SendLoadsTheDataRegister : Prop :=
  ∀ (s : State) (v : Unit16), s.chan.pinFunction = .peripheral → s.chan.stat.busy = false → v.toNat < 2 ^ s.unit.bits →
    exec (.send v) s = .next { s with
      chan := { s.chan with
        txData := adapt s.unit v
        stat := { s.chan.stat with busy := true }
        abandoned := false }
      response := some ⟨.ok, 0, []⟩ }

/-- R98, R101: a unit of `2^U` or more is InvalidArgument, with nothing changed; that it is this kind is the model's reading
(log 16). -/
def Obligations.UnitOutOfRangeIsInvalidArgument : Prop :=
  ∀ (s : State) (v : Unit16), 2 ^ s.unit.bits ≤ v.toNat →
    FailsUnchanged (exec (.send v) s) s .invalidArgument ∧ FailsUnchanged (exec (.shiftUnitPolled v) s) s .invalidArgument

/-- R162: `receive` answers the adapted received unit when there is one, any unit value when there is none, and clears `ready`;
nothing else changes. -/
def Obligations.ReceiveReadsOneUnit : Prop :=
  ∀ s : State, ∃ (v : Unit16) (n : Nat),
    exec .receive s = .next { s with
      chan := { s.chan with stat := { s.chan.stat with ready := false } }
      draws := n
      response := some ⟨.ok, v.setWidth 32, []⟩ } ∧
    (s.chan.stat.ready = true → v = adapt s.unit s.chan.rxData ∧ n = s.draws)

/-- R160: the peripheral's turn. Enabled and busy with a unit that is not cut off, it emits `U` cycles in protocol order at a
constant TMS level, labelled by the interrupt enable, stores the samples, sets `ready` and clears `busy`; otherwise nothing
happens. -/
def Obligations.PeripheralShiftsOneUnit : Prop :=
  ∀ s : State, s.xfer = none → s.inbox = [] →
    (s.chan.pinFunction = .peripheral ∧ s.chan.stat.busy = true ∧ s.chan.abandoned = false →
      let bits := unitBits s.unit (adapt s.unit s.chan.txData)
      let tdos := (drawTdos bits s).1
      ∃ r : Unit16,
        step s = .next { (drawTdos bits s).2 with
          lines := linesAfterBits s bits
          trace := s.trace ++ sampledEvents (if s.chan.irqEnable then .hwi else .hwp) s.lines.tms bits tdos
          chan := { s.chan with
            rxData := r
            stat := ⟨false, true⟩ } } ∧
        ∀ j, j < s.unit.bits → (adapt s.unit r).getLsbD j = tdos.getD j false) ∧
    (¬(s.chan.pinFunction = .peripheral ∧ s.chan.stat.busy = true ∧ s.chan.abandoned = false) → step s = .next s)

/-- R163 with the premise PeripheralHealthy of R164 and no stale received word (log 34): one unit goes out as `U` cycles labelled
HWP, the answer holds the samples, both status flags are clear; nothing else changes. -/
def Obligations.ShiftUnitPolledCompletes : Prop :=
  ∀ (s : State) (v : Unit16), Settled s → s.chan.pinFunction = .peripheral → s.chan.stat.busy = false →
    s.env.polls = .healthy → s.chan.stat.ready = false → v.toNat < 2 ^ s.unit.bits →
    let bits := unitBits s.unit v
    let tdos := (drawTdos bits s).1
    ∃ r : Unit16,
      exec (.shiftUnitPolled v) s = .next { (drawTdos bits s).2 with
        lines := linesAfterBits s bits
        trace := s.trace ++ sampledEvents .hwp s.lines.tms bits tdos
        chan := s.chan.rested (adapt s.unit v) r
        response := some ⟨.ok, (adapt s.unit r).setWidth 32, []⟩ } ∧
      ∀ j, j < s.unit.bits → (adapt s.unit r).getLsbD j = tdos.getD j false

/-- R163, R164: from a settled state a polled unit ends in success or in Timeout; Timeout leaves the pins as lines, the tracked
state and the session alone, and has clocked at most `U` cycles if the peripheral was idle. In the fault-injected fixture the
answer is Timeout and the wire sees the pin function only. -/
def Obligations.ShiftUnitPolledTimesOut : Prop :=
  (∀ (s t : State) (v : Unit16), Settled s → v.toNat < 2 ^ s.unit.bits → exec (.shiftUnitPolled v) s = .next t →
    t.status = some .ok ∨
    t.status = some (.error .timeout) ∧ AtBoundary t ∧ OnlyWireAndChannel { s with response := t.response } t ∧
      (s.chan.stat.busy = false → (wireCycles (newEvents s t)).length ≤ s.unit.bits)) ∧
  ∀ (s : State) (v : Unit16), s.chan.pinFunction = .peripheral → s.env.polls = .stuck → v.toNat < 2 ^ s.unit.bits →
    ∃ t, exec (.shiftUnitPolled v) s = .next t ∧ t.status = some (.error .timeout) ∧
      t.trace = s.trace ++ [.mux .line] ∧ t.chan.pinFunction = .line

/-- R165 with the premise PeripheralHealthy and no stale received word (log 34): `8 × byteCount` cycles labelled HWI carry the
bits of `tx` in order, the answer holds the samples in order, the record is gone and the interrupt off; nothing else changes. R77:
whatever the schedule, the peripheral and a stale word do, a transfer that answers ok has clocked every unit, in order. -/
def Obligations.TransferBlockingCompletes : Prop :=
  (∀ (s : State) (byteCount : Word) (tx : List Byte), Settled s → s.chan.pinFunction = .peripheral →
    s.chan.stat.busy = false → s.env.polls = .healthy → s.chan.stat.ready = false → 0 < byteCount.toNat →
    byteCount.toNat % s.unit.bytes = 0 → byteCount.toNat ≤ tx.length →
    let bits := bitsOf tx (8 * byteCount.toNat)
    let tdos := (drawTdos bits s).1
    ∃ (out : List Byte) (w r : Unit16),
      exec (.transferBlocking byteCount tx) s = .next { (drawTdos bits s).2 with
        lines := linesAfterBits s bits
        trace := s.trace ++ sampledEvents .hwi s.lines.tms bits tdos
        chan := s.chan.rested w r
        response := some ⟨.ok, 0, out⟩ } ∧
      out.length = byteCount.toNat ∧ ∀ k, k < 8 * byteCount.toNat → bit out k = tdos.getD k false) ∧
  ∀ (s t : State) (byteCount : Word) (tx : List Byte), Settled s → exec (.transferBlocking byteCount tx) s = .next t →
    t.status = some .ok →
    ∃ tdos : List Bool, tdos.length = 8 * byteCount.toNat ∧
      t.trace = s.trace ++ sampledEvents .hwi s.lines.tms (bitsOf tx (8 * byteCount.toNat)) tdos ∧
      t.chan.stat.busy = false ∧ t.chan.pinFunction = .peripheral ∧ t.xfer = none ∧ t.chan.irqEnable = false

/-- R165: the errors in their order, each before any unit is sent and with nothing changed. That a byte count within `tx` is never
ShortBuffer rests on a receive buffer of `byteCount` bytes, the model's choice of log 24. -/
def Obligations.TransferBlockingErrorOrder : Prop :=
  ∀ (s : State) (byteCount : Word) (tx : List Byte),
    (tx.length < byteCount.toNat → FailsUnchanged (exec (.transferBlocking byteCount tx) s) s .shortBuffer) ∧
    (byteCount.toNat ≤ tx.length → byteCount.toNat = 0 ∨ byteCount.toNat % s.unit.bytes ≠ 0 →
      FailsUnchanged (exec (.transferBlocking byteCount tx) s) s .invalidArgument) ∧
    (byteCount.toNat ≤ tx.length → byteCount.toNat ≠ 0 → byteCount.toNat % s.unit.bytes = 0 →
      s.xfer.isSome = true ∨ s.chan.stat.busy = true →
      FailsUnchanged (exec (.transferBlocking byteCount tx) s) s .busy)

/-- R169: on a healthy, idle, drained, enabled channel an interrupt-driven transfer and the loop of polled units over the same bytes
receive the same bytes, emit the same cycles but for the label, and leave the same lines and environment. -/
def Obligations.BothVariantsAgree : Prop :=
  ∀ (s : State) (tx : List Byte) (n : Nat), Settled s → s.chan.pinFunction = .peripheral → s.chan.stat.busy = false →
    s.env.polls = .healthy → s.chan.stat.ready = false → 0 < n → n * s.unit.bytes ≤ tx.length →
    ∃ (rx : List Byte) (ti tp : State),
      transferBlocking tx (zeroBytes (n * s.unit.bytes)) (n * s.unit.bytes) s = .ok rx ti ∧
      polledTransfer tx n 0 (zeroBytes (n * s.unit.bytes)) s = .ok rx tp ∧
      newEvents s ti = sampledEvents .hwi s.lines.tms (bitsOf tx (n * s.unit.bits)) (drawTdos (bitsOf tx (n * s.unit.bits)) s).1 ∧
      newEvents s tp = sampledEvents .hwp s.lines.tms (bitsOf tx (n * s.unit.bits)) (drawTdos (bitsOf tx (n * s.unit.bits)) s).1 ∧
      ti.lines = tp.lines ∧ ti.env = tp.env ∧ ti.draws = tp.draws ∧ OnlyWireAndChannel s ti ∧ OnlyWireAndChannel s tp

/-- R10, R168, R293: an operation hangs only if it can wait for the completion signal, the wait has no bound and the peripheral is
not healthy; what it has emitted stands in the trace. `transferBlocking` does hang when the signal never comes, its record over
`byteCount` bytes one unit on, or times out when the wait is bounded. That a hang is a state in which a record stands and no response
is given is the model's form (log 8). -/
def Obligations.HangNeedsAnUnboundedWait : Prop :=
  (∀ (i : Instr) (s t : State), Settled s → exec i s = .next t → t.xfer ≠ none →
    canHang i = true ∧ s.env.polls ≠ .healthy ∧ Hung t ∧ t.trace = s.trace ++ newEvents s t) ∧
  ∀ (s : State) (byteCount : Word) (tx : List Byte), s.chan.pinFunction = .peripheral → s.chan.stat = ⟨false, false⟩ →
    s.xfer = none → s.env.polls = .stuck → 0 < byteCount.toNat → byteCount.toNat % s.unit.bytes = 0 →
    byteCount.toNat ≤ tx.length →
    (s.params.irqWaitBound = none → exec (.transferBlocking byteCount tx) s = .next { s with
      xfer := some {
        tx := tx.take byteCount.toNat
        rx := zeroBytes byteCount.toNat
        txCursor := s.unit.bytes
        rxCursor := 0
        remainingTxUnits := byteCount.toNat / s.unit.bytes - 1
        remainingRxUnits := byteCount.toNat / s.unit.bytes
        unitWidth := s.unit
        done := false }
      chan := { s.chan with
        txData := adapt s.unit (unitFromBytes s.unit tx 0)
        stat := ⟨true, false⟩
        irqEnable := true
        abandoned := true }
      response := none }) ∧
    (s.params.irqWaitBound ≠ none → ∃ t, exec (.transferBlocking byteCount tx) s = .next t ∧
      t.status = some (.error .timeout) ∧ t.chan.pinFunction = .line ∧ t.xfer = none ∧ t.chan.irqEnable = false ∧
      t.trace = s.trace ++ [.mux .line])

/-! The scan engine (spec/43_scan_engine.md). -/

/-- R75, R191: a scan of a legal length (R61) from a Shift state, whatever its path, emits one cycle per bit in order with the input
bit on TDI, stores each answer at its bit, raises TMS on the last bit only and only when it is to leave the Shift state, then drives
the final transition and stands in `endState`; in the loop-back fixture the answers are the input bits; besides the wire and the
peripheral nothing changes. -/
def Obligations.ScanShiftsEveryBitOnce : Prop :=
  ∀ (s : State) (endState : TapState) (n : Word) (buf : List Byte), AtBoundary s → s.currentState.isShift = true →
    0 < n.toNat → n.toNat ≤ s.params.maxScanBits → ScanUsable n.toNat s →
    let tdos := (drawTdos (bitsOf buf n.toNat) s).1
    ∃ (t : State) (out : List Byte),
      exec (.scan endState.code n buf) s = .next t ∧ t.response = some ⟨.ok, 0, out⟩ ∧ out.length = ceil8 n.toNat ∧
      (∀ k, k < n.toNat → bit out k = tdos.getD k false) ∧
      (s.env.tdo = .loopback → ∀ k, k < n.toNat → bit out k = bit buf k) ∧ t.trace = s.trace ++ newEvents s t ∧
      wireCycles (newEvents s t) = dataWire n.toNat endState buf tdos ++
        transitionWire (transitionTms (scanExit s.currentState endState) endState) ∧
      t.currentState = endState ∧
      OnlyWireAndChannel { s with currentState := endState, response := t.response } t

/-- R183, for a legal length (R61): with the channel in use the leading `((N - 1) div U) × U` cycles are the
hardware's, labelled by the variant, between the two changes of pin function, and the remaining 1 to `U` data bits are bit-banged;
without it every cycle is bit-banged and the pins keep their function. -/
def Obligations.ScanPartition : Prop :=
  ∀ (s : State) (endState : TapState) (n : Word) (buf : List Byte), AtBoundary s → s.currentState.isShift = true →
    0 < n.toNat → n.toNat ≤ s.params.maxScanBits → ScanUsable n.toNat s →
    let useHw := s.unit.bits < n.toNat ∧ s.activeTransferMode = .hardwareAssisted
    ∃ (t : State) (bulk tail : List Event),
      exec (.scan endState.code n buf) s = .next t ∧ t.status = some .ok ∧
      (useHw → newEvents s t = .mux .peripheral :: bulk ++ [.mux .line] ++ tail ∧
        bulk.length = (n.toNat - 1) / s.unit.bits * s.unit.bits ∧ 1 ≤ n.toNat - bulk.length ∧
        n.toNat - bulk.length ≤ s.unit.bits) ∧
      (¬useHw → newEvents s t = tail ∧ bulk = []) ∧
      (∀ e ∈ bulk, ∃ tdi tdo, e = .cycle (if s.interruptDriven then .hwi else .hwp) false tdi (some tdo)) ∧
      (∀ e ∈ tail, ∃ tms tdi tdo, e = .cycle .bb tms tdi tdo) ∧
      (tail.filter Event.isSampledBitBang).length = n.toNat - bulk.length

/-- R191 (6), for a legal length (R61): unit width, transfer mode and variant change labels and Mux events only:
the same cycles, the same answers, the same tracked state. -/
def Obligations.ScanIsIndependentOfThePath : Prop :=
  ∀ (s s' : State) (u : UnitWidth) (m : TransferMode) (b : Bool) (endState : TapState) (n : Word) (buf : List Byte),
    s' = { s with activeTransferMode := m, interruptDriven := b, params := { s.params with unitWidth := u } } →
    AtBoundary s → AtBoundary s' → s.currentState.isShift = true → 0 < n.toNat → n.toNat ≤ s.params.maxScanBits →
    ScanUsable n.toNat s → ScanUsable n.toNat s' →
    ∃ (t t' : State) (out out' : List Byte),
      exec (.scan endState.code n buf) s = .next t ∧ exec (.scan endState.code n buf) s' = .next t' ∧
      t.response = some ⟨.ok, 0, out⟩ ∧ t'.response = some ⟨.ok, 0, out'⟩ ∧ out.length = out'.length ∧
      (∀ k, k < n.toNat → bit out k = bit out' k) ∧
      wireCycles (newEvents s t) = wireCycles (newEvents s' t') ∧ t.currentState = t'.currentState

/-- R181, R61, R98: the entry checks in their order, each with nothing changed. A length above MAX_SCAN_BITS is InvalidArgument like
a length of 0, the model's reading of R98 and R101 (log 18); `xfer` finds it in the scan, after its transition (R190). -/
def Obligations.ScanEntryChecks : Prop :=
  (∀ (s : State) (endCode : Byte) (n : Word) (buf : List Byte),
    (s.currentState.isShift = false → FailsUnchanged (exec (.scan endCode n buf) s) s .invalidState) ∧
    (s.currentState.isShift = true → 15 < endCode.toNat → FailsUnchanged (exec (.scan endCode n buf) s) s .invalidState) ∧
    (s.currentState.isShift = true → endCode.toNat ≤ 15 → n = 0 ∨ s.params.maxScanBits < n.toNat →
      FailsUnchanged (exec (.scan endCode n buf) s) s .invalidArgument)) ∧
  ∀ (s : State) (scanType fromCode endCode : Byte) (n : Word) (buf : List Byte), AtBoundary s → scanType.toNat ≤ 1 →
    fromCode.toNat ≤ 16 → endCode.toNat ≤ 15 → n = 0 ∨ s.params.maxScanBits < n.toNat →
    ∃ t, exec (.xfer scanType fromCode endCode n buf) s = .next t ∧ t.status = some (.error .invalidArgument)

/-- R189, R190, R227: a scan that fails at a command boundary ends at one, still in its Shift state, with at most the bulk clocked,
every cycle of it sampled and at the TMS level of the entry. An `xfer` of a known type from a legal state, and a Scan command that
answers IOError, have clocked their transition first and stand in the Shift state. Busy has clocked nothing in the Shift state, and
InvalidFrequency, like the entry checks, has added no event there. -/
def Obligations.FailedScanStaysInTheShiftState : Prop :=
  (∀ (s t : State) (endCode : Byte) (n : Word) (buf : List Byte) (e : ErrorKind), AtBoundary s →
    exec (.scan endCode n buf) s = .next t → t.status = some (.error e) →
    e ∈ [ErrorKind.invalidState, .invalidArgument, .invalidFrequency, .timeout, .busy] ∧
      StoppedInShift s t s.currentState [] (scanBulk n.toNat s) ∧ ClockedNothing e s t []) ∧
  ∀ (s t : State) (scanType fromCode endCode : Byte) (src shift : TapState) (n : Word) (buf : List Byte) (e : ErrorKind),
    AtBoundary s → (scanType = 0 ∧ shift = .shiftDR ∨ scanType = 1 ∧ shift = .shiftIR) →
    (fromCode = currentCode ∧ src = s.currentState ∨ fromCode = src.code) →
    let path := computeTransition src shift
    (exec (.xfer scanType fromCode endCode n buf) s = .next t → t.status = some (.error e) →
      e ∈ [ErrorKind.invalidState, .invalidArgument, .invalidFrequency, .timeout, .busy] ∧
        StoppedInShift s t shift path (scanBulk n.toNat s) ∧ ClockedNothing e s t path) ∧
    (exec (.scanCommand scanType fromCode endCode n buf) s = .next t → t.status = some (.error .ioError) →
      StoppedInShift s t shift path (scanBulk n.toNat s))

/-- R190, R226, for a legal length (R61): `xfer` drives the TAP from the resolved `from` to the Shift
state of its type, scans, and drives on to `end`; the Scan command, in an open session and with its arguments in range, is the
same run. -/
def Obligations.XferDrivesThenScans : Prop :=
  ∀ (s : State) (scanType fromCode : Byte) (src shift endState : TapState) (n : Word) (buf : List Byte), AtBoundary s →
    (scanType = 0 ∧ shift = .shiftDR ∨ scanType = 1 ∧ shift = .shiftIR) →
    (fromCode = currentCode ∧ src = s.currentState ∨ fromCode = src.code) → 0 < n.toNat →
    n.toNat ≤ s.params.maxScanBits →
    (wantsChannel n.toNat s = true → ChannelUsable s ∧ (src = shift → s.lines.tms = false)) →
    let tdos := (drawTdos (bitsOf buf n.toNat) s).1
    ∃ (t : State) (out : List Byte),
      exec (.xfer scanType fromCode endState.code n buf) s = .next t ∧
      (s.exclusiveOpen = true → s.env.alloc = .granted → ceil8 n.toNat ≤ buf.length →
        exec (.scanCommand scanType fromCode endState.code n buf) s = .next t) ∧
      t.response = some ⟨.ok, 0, out⟩ ∧ out.length = ceil8 n.toNat ∧
      (∀ k, k < n.toNat → bit out k = tdos.getD k false) ∧ t.trace = s.trace ++ newEvents s t ∧
      wireCycles (newEvents s t) = transitionWire (computeTransition src shift) ++ dataWire n.toNat endState buf tdos ++
        transitionWire (transitionTms (scanExit shift endState) endState) ∧
      t.currentState = endState ∧
      OnlyWireAndChannel { s with currentState := endState, response := t.response } t

/-- R226, R227: with a session and its buffers the Scan command answers InvalidArgument, with nothing changed, exactly when its
arguments are out of range; otherwise it is `xfer` with every error reported as IOError. -/
def Obligations.ScanCommandMapsErrors : Prop :=
  ∀ (s : State) (scanType fromCode endCode : Byte) (n : Word) (buf : List Byte), s.exclusiveOpen = true →
    s.env.alloc = .granted →
    let legal := scanType.toNat ≤ 1 ∧ fromCode.toNat ≤ 16 ∧ endCode.toNat ≤ 15 ∧ 0 < n.toNat ∧
      n.toNat ≤ s.params.maxScanBits ∧ ceil8 n.toNat ≤ buf.length
    (¬legal → FailsUnchanged (exec (.scanCommand scanType fromCode endCode n buf) s) s .invalidArgument) ∧
    (legal → exec (.scanCommand scanType fromCode endCode n buf) s =
      mapNext (fun t => { t with response := t.response.map fun r =>
        if r.status = .ok then r else { r with status := .error .ioError } })
        (exec (.xfer scanType fromCode endCode n buf) s))

/-! The run clock (spec/44_run_clock.md). -/

/-- R200, R202, R203, R228: a run of `cycles` idle clocks emits exactly that many cycles with TMS and TDI low: in BitBang mode all
bit-banged; in HardwareAssisted mode TMS is written low first if the cache is high, whole units go through the channel, which is
enabled and disabled around them even when there are none, and the remainder is bit-banged. RunTest in an open session is the
same run. -/
def Obligations.RunIdleClocksExactly : Prop :=
  ∀ (s : State) (cycles : Word), AtBoundary s → s.env.alloc = .granted → IdleUsable s →
    let bulk := cycles.toNat / s.unit.bits * s.unit.bits
    ∃ t, exec (.runIdle cycles) s = .next t ∧ (s.exclusiveOpen = true → exec (.runTest cycles) s = .next t) ∧
      t.response = some ⟨.ok, 0, []⟩ ∧
      (s.activeTransferMode = .bitBang →
        t.trace = s.trace ++ List.replicate cycles.toNat (.cycle .bb false false none)) ∧
      (s.activeTransferMode = .hardwareAssisted →
        t.trace = s.trace ++ (if s.lastTmsLevel then [.tmsWrite false] else []) ++ [.mux .peripheral] ++
          (drawTdos (List.replicate bulk false) s).1.map
            (fun r => .cycle (if s.interruptDriven then .hwi else .hwp) false false (some r)) ++
          [.mux .line] ++ List.replicate (cycles.toNat % s.unit.bits) (.cycle .bb false false none)) ∧
      OnlyWireAndChannel { s with response := t.response } t ∧
      (0 < cycles.toNat ∨ s.activeTransferMode = .hardwareAssisted → t.lines.tms = false ∧ t.lastTmsLevel = false)

/-- R201: in BitBang mode, whatever the interrupt setting, exactly `cycles` bit-bang cycles, and nothing at all for none. -/
def Obligations.RunIdleInBitBangMode : Prop :=
  ∀ (s : State) (cycles : Word), s.activeTransferMode = .bitBang → s.chan.pinFunction = .line →
    s.lastTmsLevel = s.lines.tms →
    exec (.runIdle cycles) s = .next { s with
      lines := if cycles = 0 then s.lines else { s.lines with tck := false, tms := false, tdiLine := false }
      lastTmsLevel := if cycles = 0 then s.lastTmsLevel else false
      trace := s.trace ++ List.replicate cycles.toNat (.cycle .bb false false none)
      response := some ⟨.ok, 0, []⟩ }

/-- R202, R205: with a frequency that gives no divisor the hardware path fails with InvalidFrequency and clocks nothing; what is
left of it is TMS written low, with its event, if the cache was high. -/
def Obligations.RunIdleFrequencyError : Prop :=
  ∀ (s : State) (cycles : Word), s.activeTransferMode = .hardwareAssisted → s.env.alloc = .granted →
    usableDivisor s.params s.requestedFreq = none →
    (s.lastTmsLevel = false → FailsUnchanged (exec (.runIdle cycles) s) s .invalidFrequency) ∧
    (s.lastTmsLevel = true → FailsUnchanged (exec (.runIdle cycles) s) { s with
      lines := { s.lines with tms := false }
      lastTmsLevel := false
      trace := s.trace ++ [.tmsWrite false] } .invalidFrequency)

/-- R205: an idle run that fails at a command boundary ends at one, with the session and the tracked state alone, no bit-bang
cycle clocked and at most the bulk; Busy and InvalidFrequency have clocked nothing, OutOfMemory has added no event. -/
def Obligations.FailedRunIdle : Prop :=
  ∀ (s t : State) (cycles : Word) (e : ErrorKind), AtBoundary s → exec (.runIdle cycles) s = .next t →
    t.status = some (.error e) →
    e ∈ [ErrorKind.invalidFrequency, .timeout, .busy, .outOfMemory] ∧ AtBoundary t ∧
    OnlyWireAndChannel { s with response := t.response } t ∧
    (∀ c ∈ wireCycles (newEvents s t), c.tms = false ∧ c.tdo.isSome = true) ∧
    (wireCycles (newEvents s t)).length ≤ idleBulk cycles.toNat s ∧
    (e = .busy ∨ e = .invalidFrequency → wireCycles (newEvents s t) = []) ∧
    (e = .outOfMemory → t.trace = s.trace)

/-- R143, R204, R223: the operations that are not meant to know the tracked state neither read nor write it: changing it before
changes it after and nothing else. -/
def Obligations.ClockingIgnoresTheTrackedState : Prop :=
  ∀ (i : Instr) (s : State) (c : TapState), ignoresCurrentState i = true →
    exec i { s with currentState := c } = mapNext (fun t => { t with currentState := c }) (exec i s) ∧
    ∀ t, exec i s = .next t → t.currentState = s.currentState

/-! The command set (spec/45_commands.md). -/

/-- R220: SetFrequency stores `hz` up to MAX_FREQ and nothing else; above it InvalidArgument, and the old value stays. -/
def Obligations.SetFrequencyStores : Prop :=
  ∀ (s : State) (hz : Word), s.exclusiveOpen = true →
    (hz.toNat ≤ s.params.maxFreq → exec (.setFrequency hz) s =
      .next { s with requestedFreq := hz.toNat, response := some ⟨.ok, 0, []⟩ }) ∧
    (s.params.maxFreq < hz.toNat → FailsUnchanged (exec (.setFrequency hz) s) s .invalidArgument)

/-- R221, R225: the getters answer the stored frequency and the code of the tracked state, and change nothing. -/
def Obligations.GettersRead : Prop :=
  ∀ s : State, s.exclusiveOpen = true →
    (∃ v : Word, exec .getFrequency s = .next { s with response := some ⟨.ok, v, []⟩ } ∧
      (s.requestedFreq < 2 ^ 32 → v.toNat = s.requestedFreq)) ∧
    exec .getTapState s = .next { s with response := some ⟨.ok, s.currentState.code.setWidth 32, []⟩ }

/-- R222: RawBitbang pulses once per pair, samples every pair, answers one byte per sample, and changes the lines and the cache
only; a length above MAX_BITBANG or beyond the array is InvalidArgument with nothing clocked. -/
def Obligations.RawBitbangPulsesPerPair : Prop :=
  ∀ (s : State) (length : Word) (buf : List Byte), s.exclusiveOpen = true → s.env.alloc = .granted →
    (length.toNat ≤ s.params.maxBitbang → length.toNat ≤ buf.length → s.chan.pinFunction = .line →
      s.lastTmsLevel = s.lines.tms →
      let pairs := buf.take length.toNat
      let tdos := (drawTdos (pairs.map pairTdi) s).1
      exec (.rawBitbang length buf) s = .next { (drawTdos (pairs.map pairTdi) s).2 with
        lines := linesAfterPairs s pairs
        lastTmsLevel := (linesAfterPairs s pairs).tms
        trace := s.trace ++ pairEvents pairs tdos
        response := some ⟨.ok, 0, tdos.map bitByte⟩ }) ∧
    (s.params.maxBitbang < length.toNat ∨ buf.length < length.toNat →
      FailsUnchanged (exec (.rawBitbang length buf) s) s .invalidArgument)

/-- R224: the range check comes first; then nine ones if the reset is forced; then the path from the resolved `from`, which for
CURRENT after a forced reset is TestLogicReset; the tracked state ends as `dest`. -/
def Obligations.SetTapStateNavigates : Prop :=
  ∀ (s : State) (fromCode : Byte) (forceReset : Bool), s.exclusiveOpen = true →
    (∀ (src dest : TapState), s.chan.pinFunction = .line → s.lastTmsLevel = s.lines.tms →
      (fromCode = currentCode ∧ src = (if forceReset then .testLogicReset else s.currentState) ∨ fromCode = src.code) →
      let tms := (if forceReset then List.replicate 9 true else []) ++
        (if dest = .testLogicReset then List.replicate 9 true else computeTransition src dest)
      exec (.setTapState fromCode dest.code forceReset) s = .next { s with
        currentState := dest
        lines := linesAfterTms s tms
        lastTmsLevel := (linesAfterTms s tms).tms
        trace := s.trace ++ transitionEvents tms
        response := some ⟨.ok, 0, []⟩ }) ∧
    ∀ toCode : Byte, 16 < fromCode.toNat ∨ 15 < toCode.toNat →
      FailsUnchanged (exec (.setTapState fromCode toCode forceReset) s) s .invalidState

/-- R229, R230, R231: each setter writes its field and nothing else. -/
def Obligations.SettersWriteOneField : Prop :=
  ∀ (s : State) (b : Bool), s.exclusiveOpen = true →
    exec (.setDirectPinControl b) s = .next { s with
      pinControlStrategy := if b then .directRegister else .genericLine
      response := some ⟨.ok, 0, []⟩ } ∧
    exec (.setHardwareAssisted b) s = .next { s with
      activeTransferMode := if b then .hardwareAssisted else .bitBang
      response := some ⟨.ok, 0, []⟩ } ∧
    exec (.setInterruptDriven b) s = .next { s with
      interruptDriven := b
      response := some ⟨.ok, 0, []⟩ }

/-- R232: Open sets the flag and nothing else, or is Busy when it is set. -/
def Obligations.OpenIsExclusive : Prop :=
  ∀ s : State,
    (s.exclusiveOpen = false → exec .openSession s =
      .next { s with exclusiveOpen := true, response := some ⟨.ok, 0, []⟩ }) ∧
    (s.exclusiveOpen = true → FailsUnchanged (exec .openSession s) s .busy)

/-- R233: Release clears the flag and nothing else, and always succeeds. -/
def Obligations.ReleaseAlwaysSucceeds : Prop :=
  ∀ s : State, exec .releaseSession s = .next { s with exclusiveOpen := false, response := some ⟨.ok, 0, []⟩ }

/-- R234: without a session every command but Open and Release is refused. -/
def Obligations.ClosedSessionRefuses : Prop :=
  ∀ (i : Instr) (s : State), needsOpenSession i = true → s.exclusiveOpen = false → exec i s = .refused .noSession

/-- R211 (3), R235: when the allocation is refused, Scan, RawBitbang, and RunTest and `runIdle` in HardwareAssisted
interrupt-driven mode with at least a unit of cycles, are OutOfMemory before any effect and before their own checks; no operation
that makes no such draw is OutOfMemory. -/
def Obligations.OutOfMemoryComesFirst : Prop :=
  (∀ (s : State) (rest : List Bool), s.env.alloc = .answers (false :: rest) →
    let s' := { s with env := { s.env with alloc := .answers rest } }
    (s.exclusiveOpen = true →
      (∀ (a b c : Byte) (n : Word) (buf : List Byte), FailsUnchanged (exec (.scanCommand a b c n buf) s) s' .outOfMemory) ∧
      (∀ (n : Word) (buf : List Byte), FailsUnchanged (exec (.rawBitbang n buf) s) s' .outOfMemory)) ∧
    ∀ cycles : Word, s.activeTransferMode = .hardwareAssisted → s.interruptDriven = true → s.unit.bits ≤ cycles.toNat →
      FailsUnchanged (exec (.runIdle cycles) s) s' .outOfMemory ∧
      (s.exclusiveOpen = true → FailsUnchanged (exec (.runTest cycles) s) s' .outOfMemory)) ∧
  ∀ (i : Instr) (s t : State), exec i s = .next t → t.status = some (.error .outOfMemory) → allocates i = true

/-! Errors and the whole machine (spec/60_exceptions.md, spec/70_reset_and_hazards.md, spec/10_state.md). -/

/-- R242: a command answers no error but those of its row. -/
def Obligations.CommandErrorMatrix : Prop :=
  ∀ (i : Instr) (s t : State) (e : ErrorKind), isCommand i = true → exec i s = .next t →
    t.status = some (.error e) → e ∈ commandErrors i

/-- R190, R245: InvalidArgument, InvalidState, OutOfMemory, ShortBuffer, and Busy from Open, are raised before any effect: but for
the response and the draws nothing has changed. An `xfer` whose transition has succeeded is the one exception the spec names; what
`xfer` finds before it, a `from` above 16 and (the model's reading, log 17) a type above 1, has changed nothing either. -/
def Obligations.EarlyErrorsChangeNothing : Prop :=
  (∀ (scanType fromCode endCode : Byte) (n : Word) (buf : List Byte) (s : State),
    (1 < scanType.toNat → FailsUnchanged (exec (.xfer scanType fromCode endCode n buf) s) s .invalidArgument) ∧
    (scanType.toNat ≤ 1 → 16 < fromCode.toNat →
      FailsUnchanged (exec (.xfer scanType fromCode endCode n buf) s) s .invalidState)) ∧
  ∀ (i : Instr) (s t : State) (e : ErrorKind), exec i s = .next t → t.status = some (.error e) →
    (e ∈ [ErrorKind.invalidArgument, .invalidState, .outOfMemory, .shortBuffer] ∧ (∀ a b c n buf, i ≠ .xfer a b c n buf) ∨
      e = .busy ∧ i = .openSession) →
    t = { s with response := t.response, env := t.env, draws := t.draws } ∧ t.env.tdo = s.env.tdo ∧
      t.env.polls = s.env.polls ∧ t.env.schedule = s.env.schedule

/-- R24 to R30, R46: each session field has the writers the spec names and no other; parameters and inputs have none. -/
def Obligations.SessionFieldsHaveTheirWriters : Prop :=
  ∀ (i : Instr) (s t : State), exec i s = .next t →
    t.params = s.params ∧ t.inbox = s.inbox ∧
    (t.requestedFreq ≠ s.requestedFreq → ∃ hz, i = .setFrequency hz) ∧
    (t.activeTransferMode ≠ s.activeTransferMode → ∃ b, i = .setHardwareAssisted b) ∧
    (t.interruptDriven ≠ s.interruptDriven → ∃ b, i = .setInterruptDriven b) ∧
    (t.pinControlStrategy ≠ s.pinControlStrategy → ∃ b, i = .setDirectPinControl b) ∧
    (t.exclusiveOpen ≠ s.exclusiveOpen → i = .openSession ∨ i = .releaseSession) ∧
    (t.currentState ≠ s.currentState → movesCurrentState i = true) ∧
    (t.lastTmsLevel ≠ s.lastTmsLevel → writesTmsCache i = true)

/-- R25, R30, R35, R38, R39, R40, R41, R293: what holds between operations, whoever issued them, is kept by every step, unless a
call hangs; what holds then is left by a re-initialisation only, into what holds between operations. -/
def Obligations.StepKeepsSettled : Prop :=
  (∀ s t : State, Settled s → step s = .next t → Settled t ∨ Hung t) ∧
  ∀ s t : State, Hung s → step s = .next t → Settled t

/-- R45, R293: after initialisation the block is at a command boundary, for all admissible parameters and every environment, and
so is the reset state. -/
def Obligations.ResetIsAtBoundary : Prop :=
  (∀ (p : Params) (e : Env), p.admissible → AtBoundary (State.resetWith p e)) ∧ AtBoundary State.reset

/-- R293: the command-boundary invariants hold after every command that started with them, whatever it answers, and after
initialisation from any state; the one exception is a command that hangs. -/
def Obligations.CommandKeepsBoundary : Prop :=
  (∀ (i : Instr) (s t : State), isCommand i = true → AtBoundary s → exec i s = .next t → AtBoundary t ∨ Hung t) ∧
  ∀ s : State, s.params.admissible → AtBoundary (initialise s)

/-- R294: in track stays in track through the operations the spec names, successful or failed, for a target that started
anywhere and follows the graph on every cycle. -/
def Obligations.StaysInTrack : Prop :=
  ∀ (t₀ : TapState) (i : Instr) (s t : State), AtBoundary s → TmsOnWire s → InTrack t₀ s → keepsTrack i s = true →
    exec i s = .next t → InTrack t₀ t ∧ TmsOnWire t

/-- R45, R281, R246, R280: what initialisation leaves, from any state: the fields of R45 that have a value, nine cycles with TMS 1,
every target in TestLogicReset. It ends a call that hangs, and, asked for in the middle of one, any call, after the events that call
had emitted. The model's choices (log 25): it is an input; parameters, environment and the other inputs stay, the response too,
and a call it ends never answers. -/
def Obligations.InitialisationSequence : Prop :=
  (∀ (s : State) (rest : List Input), s.xfer = none → s.inbox = .initialise :: rest →
    ∃ t, step s = .next t ∧ Initialised s.params s.trace t ∧ t.env = s.env ∧ t.inbox = rest ∧ t.response = s.response) ∧
  (∀ s : State, s.xfer ≠ none → .initialise ∈ s.inbox →
    ∃ t, step s = .next t ∧ Initialised s.params s.trace t ∧ t.env = s.env ∧ t.inbox = s.inbox.erase .initialise ∧
      t.response = s.response) ∧
  ∀ (s u : State) (r : Request) (k : Nat) (rest : List Input), s.xfer = none → s.inbox = .initialiseDuring r k :: rest →
    perform r { s with inbox := rest } = .next u →
    ∃ t, step s = .next t ∧ Initialised s.params (s.trace ++ (newEvents s u).take k) t ∧ t.env = u.env ∧ t.inbox = rest ∧
      t.response = none

/-- R28, R27: the pin-control backend changes no behaviour of any operation but its setter; nor does the interrupt setting, while
the mode is BitBang, but for its setter. -/
def Obligations.BackendAndUnusedSettingAreInvisible : Prop :=
  (∀ (i : Instr) (s : State) (p : PinStrategy), (∀ b, i ≠ .setDirectPinControl b) →
    exec i { s with pinControlStrategy := p } = mapNext (fun t => { t with pinControlStrategy := p }) (exec i s)) ∧
  ∀ (i : Instr) (s : State) (b : Bool), (∀ f, i ≠ .setInterruptDriven f) → s.activeTransferMode = .bitBang →
    exec i { s with interruptDriven := b } = mapNext (fun t => { t with interruptDriven := b }) (exec i s)

/-- R164, R189, R245: after a Scan or RunTest that failed, a bit-bang command succeeds: SetTapState from CURRENT with a legal
destination completes. -/
def Obligations.BitBangWorksAfterAFailure : Prop :=
  ∀ (i : Instr) (s t : State) (dest : TapState), (∃ n, i = .runTest n) ∨ (∃ a b c n buf, i = .scanCommand a b c n buf) →
    AtBoundary s → exec i s = .next t → (∃ e, t.status = some (.error e)) →
    ∃ u, exec (.setTapState currentCode dest.code false) t = .next u ∧ u.status = some .ok ∧ u.currentState = dest ∧
      u.trace = t.trace ++ transitionEvents (transitionTms t.currentState dest)
end

