-- ==== Sys2Proof/Laws/State.lean ====
section
/-! SUPPORT. One lemma per field per update of the state, and the same for the named operations that are one update: no later
proof unfolds a record update. -/

namespace Sys2Proof.Machine.State

@[simp] theorem setCurrentState_params (s : State) (x : TapState) : (s.setCurrentState x).params = s.params := rfl
@[simp] theorem setCurrentState_currentState (s : State) (x : TapState) : (s.setCurrentState x).currentState = x := rfl
@[simp] theorem setCurrentState_lastTmsLevel (s : State) (x : TapState) : (s.setCurrentState x).lastTmsLevel = s.lastTmsLevel := rfl
@[simp] theorem setCurrentState_activeTransferMode (s : State) (x : TapState) : (s.setCurrentState x).activeTransferMode = s.activeTransferMode := rfl
@[simp] theorem setCurrentState_interruptDriven (s : State) (x : TapState) : (s.setCurrentState x).interruptDriven = s.interruptDriven := rfl
@[simp] theorem setCurrentState_pinControlStrategy (s : State) (x : TapState) : (s.setCurrentState x).pinControlStrategy = s.pinControlStrategy := rfl
@[simp] theorem setCurrentState_exclusiveOpen (s : State) (x : TapState) : (s.setCurrentState x).exclusiveOpen = s.exclusiveOpen := rfl
@[simp] theorem setCurrentState_requestedFreq (s : State) (x : TapState) : (s.setCurrentState x).requestedFreq = s.requestedFreq := rfl
@[simp] theorem setCurrentState_chan (s : State) (x : TapState) : (s.setCurrentState x).chan = s.chan := rfl
@[simp] theorem setCurrentState_xfer (s : State) (x : TapState) : (s.setCurrentState x).xfer = s.xfer := rfl
@[simp] theorem setCurrentState_xferLock (s : State) (x : TapState) : (s.setCurrentState x).xferLock = s.xferLock := rfl
@[simp] theorem setCurrentState_lines (s : State) (x : TapState) : (s.setCurrentState x).lines = s.lines := rfl
@[simp] theorem setCurrentState_trace (s : State) (x : TapState) : (s.setCurrentState x).trace = s.trace := rfl
@[simp] theorem setCurrentState_response (s : State) (x : TapState) : (s.setCurrentState x).response = s.response := rfl
@[simp] theorem setCurrentState_inbox (s : State) (x : TapState) : (s.setCurrentState x).inbox = s.inbox := rfl
@[simp] theorem setCurrentState_env (s : State) (x : TapState) : (s.setCurrentState x).env = s.env := rfl
@[simp] theorem setCurrentState_draws (s : State) (x : TapState) : (s.setCurrentState x).draws = s.draws := rfl

@[simp] theorem setCache_params (s : State) (x : Bool) : (s.setCache x).params = s.params := rfl
@[simp] theorem setCache_currentState (s : State) (x : Bool) : (s.setCache x).currentState = s.currentState := rfl
@[simp] theorem setCache_lastTmsLevel (s : State) (x : Bool) : (s.setCache x).lastTmsLevel = x := rfl
@[simp] theorem setCache_activeTransferMode (s : State) (x : Bool) : (s.setCache x).activeTransferMode = s.activeTransferMode := rfl
@[simp] theorem setCache_interruptDriven (s : State) (x : Bool) : (s.setCache x).interruptDriven = s.interruptDriven := rfl
@[simp] theorem setCache_pinControlStrategy (s : State) (x : Bool) : (s.setCache x).pinControlStrategy = s.pinControlStrategy := rfl
@[simp] theorem setCache_exclusiveOpen (s : State) (x : Bool) : (s.setCache x).exclusiveOpen = s.exclusiveOpen := rfl
@[simp] theorem setCache_requestedFreq (s : State) (x : Bool) : (s.setCache x).requestedFreq = s.requestedFreq := rfl
@[simp] theorem setCache_chan (s : State) (x : Bool) : (s.setCache x).chan = s.chan := rfl
@[simp] theorem setCache_xfer (s : State) (x : Bool) : (s.setCache x).xfer = s.xfer := rfl
@[simp] theorem setCache_xferLock (s : State) (x : Bool) : (s.setCache x).xferLock = s.xferLock := rfl
@[simp] theorem setCache_lines (s : State) (x : Bool) : (s.setCache x).lines = s.lines := rfl
@[simp] theorem setCache_trace (s : State) (x : Bool) : (s.setCache x).trace = s.trace := rfl
@[simp] theorem setCache_response (s : State) (x : Bool) : (s.setCache x).response = s.response := rfl
@[simp] theorem setCache_inbox (s : State) (x : Bool) : (s.setCache x).inbox = s.inbox := rfl
@[simp] theorem setCache_env (s : State) (x : Bool) : (s.setCache x).env = s.env := rfl
@[simp] theorem setCache_draws (s : State) (x : Bool) : (s.setCache x).draws = s.draws := rfl

@[simp] theorem setMode_params (s : State) (x : TransferMode) : (s.setMode x).params = s.params := rfl
@[simp] theorem setMode_currentState (s : State) (x : TransferMode) : (s.setMode x).currentState = s.currentState := rfl
@[simp] theorem setMode_lastTmsLevel (s : State) (x : TransferMode) : (s.setMode x).lastTmsLevel = s.lastTmsLevel := rfl
@[simp] theorem setMode_activeTransferMode (s : State) (x : TransferMode) : (s.setMode x).activeTransferMode = x := rfl
@[simp] theorem setMode_interruptDriven (s : State) (x : TransferMode) : (s.setMode x).interruptDriven = s.interruptDriven := rfl
@[simp] theorem setMode_pinControlStrategy (s : State) (x : TransferMode) : (s.setMode x).pinControlStrategy = s.pinControlStrategy := rfl
@[simp] theorem setMode_exclusiveOpen (s : State) (x : TransferMode) : (s.setMode x).exclusiveOpen = s.exclusiveOpen := rfl
@[simp] theorem setMode_requestedFreq (s : State) (x : TransferMode) : (s.setMode x).requestedFreq = s.requestedFreq := rfl
@[simp] theorem setMode_chan (s : State) (x : TransferMode) : (s.setMode x).chan = s.chan := rfl
@[simp] theorem setMode_xfer (s : State) (x : TransferMode) : (s.setMode x).xfer = s.xfer := rfl
@[simp] theorem setMode_xferLock (s : State) (x : TransferMode) : (s.setMode x).xferLock = s.xferLock := rfl
@[simp] theorem setMode_lines (s : State) (x : TransferMode) : (s.setMode x).lines = s.lines := rfl
@[simp] theorem setMode_trace (s : State) (x : TransferMode) : (s.setMode x).trace = s.trace := rfl
@[simp] theorem setMode_response (s : State) (x : TransferMode) : (s.setMode x).response = s.response := rfl
@[simp] theorem setMode_inbox (s : State) (x : TransferMode) : (s.setMode x).inbox = s.inbox := rfl
@[simp] theorem setMode_env (s : State) (x : TransferMode) : (s.setMode x).env = s.env := rfl
@[simp] theorem setMode_draws (s : State) (x : TransferMode) : (s.setMode x).draws = s.draws := rfl

@[simp] theorem setInterrupt_params (s : State) (x : Bool) : (s.setInterrupt x).params = s.params := rfl
@[simp] theorem setInterrupt_currentState (s : State) (x : Bool) : (s.setInterrupt x).currentState = s.currentState := rfl
@[simp] theorem setInterrupt_lastTmsLevel (s : State) (x : Bool) : (s.setInterrupt x).lastTmsLevel = s.lastTmsLevel := rfl
@[simp] theorem setInterrupt_activeTransferMode (s : State) (x : Bool) : (s.setInterrupt x).activeTransferMode = s.activeTransferMode := rfl
@[simp] theorem setInterrupt_interruptDriven (s : State) (x : Bool) : (s.setInterrupt x).interruptDriven = x := rfl
@[simp] theorem setInterrupt_pinControlStrategy (s : State) (x : Bool) : (s.setInterrupt x).pinControlStrategy = s.pinControlStrategy := rfl
@[simp] theorem setInterrupt_exclusiveOpen (s : State) (x : Bool) : (s.setInterrupt x).exclusiveOpen = s.exclusiveOpen := rfl
@[simp] theorem setInterrupt_requestedFreq (s : State) (x : Bool) : (s.setInterrupt x).requestedFreq = s.requestedFreq := rfl
@[simp] theorem setInterrupt_chan (s : State) (x : Bool) : (s.setInterrupt x).chan = s.chan := rfl
@[simp] theorem setInterrupt_xfer (s : State) (x : Bool) : (s.setInterrupt x).xfer = s.xfer := rfl
@[simp] theorem setInterrupt_xferLock (s : State) (x : Bool) : (s.setInterrupt x).xferLock = s.xferLock := rfl
@[simp] theorem setInterrupt_lines (s : State) (x : Bool) : (s.setInterrupt x).lines = s.lines := rfl
@[simp] theorem setInterrupt_trace (s : State) (x : Bool) : (s.setInterrupt x).trace = s.trace := rfl
@[simp] theorem setInterrupt_response (s : State) (x : Bool) : (s.setInterrupt x).response = s.response := rfl
@[simp] theorem setInterrupt_inbox (s : State) (x : Bool) : (s.setInterrupt x).inbox = s.inbox := rfl
@[simp] theorem setInterrupt_env (s : State) (x : Bool) : (s.setInterrupt x).env = s.env := rfl
@[simp] theorem setInterrupt_draws (s : State) (x : Bool) : (s.setInterrupt x).draws = s.draws := rfl

@[simp] theorem setStrategy_params (s : State) (x : PinStrategy) : (s.setStrategy x).params = s.params := rfl
@[simp] theorem setStrategy_currentState (s : State) (x : PinStrategy) : (s.setStrategy x).currentState = s.currentState := rfl
@[simp] theorem setStrategy_lastTmsLevel (s : State) (x : PinStrategy) : (s.setStrategy x).lastTmsLevel = s.lastTmsLevel := rfl
@[simp] theorem setStrategy_activeTransferMode (s : State) (x : PinStrategy) : (s.setStrategy x).activeTransferMode = s.activeTransferMode := rfl
@[simp] theorem setStrategy_interruptDriven (s : State) (x : PinStrategy) : (s.setStrategy x).interruptDriven = s.interruptDriven := rfl
@[simp] theorem setStrategy_pinControlStrategy (s : State) (x : PinStrategy) : (s.setStrategy x).pinControlStrategy = x := rfl
@[simp] theorem setStrategy_exclusiveOpen (s : State) (x : PinStrategy) : (s.setStrategy x).exclusiveOpen = s.exclusiveOpen := rfl
@[simp] theorem setStrategy_requestedFreq (s : State) (x : PinStrategy) : (s.setStrategy x).requestedFreq = s.requestedFreq := rfl
@[simp] theorem setStrategy_chan (s : State) (x : PinStrategy) : (s.setStrategy x).chan = s.chan := rfl
@[simp] theorem setStrategy_xfer (s : State) (x : PinStrategy) : (s.setStrategy x).xfer = s.xfer := rfl
@[simp] theorem setStrategy_xferLock (s : State) (x : PinStrategy) : (s.setStrategy x).xferLock = s.xferLock := rfl
@[simp] theorem setStrategy_lines (s : State) (x : PinStrategy) : (s.setStrategy x).lines = s.lines := rfl
@[simp] theorem setStrategy_trace (s : State) (x : PinStrategy) : (s.setStrategy x).trace = s.trace := rfl
@[simp] theorem setStrategy_response (s : State) (x : PinStrategy) : (s.setStrategy x).response = s.response := rfl
@[simp] theorem setStrategy_inbox (s : State) (x : PinStrategy) : (s.setStrategy x).inbox = s.inbox := rfl
@[simp] theorem setStrategy_env (s : State) (x : PinStrategy) : (s.setStrategy x).env = s.env := rfl
@[simp] theorem setStrategy_draws (s : State) (x : PinStrategy) : (s.setStrategy x).draws = s.draws := rfl

@[simp] theorem setOpen_params (s : State) (x : Bool) : (s.setOpen x).params = s.params := rfl
@[simp] theorem setOpen_currentState (s : State) (x : Bool) : (s.setOpen x).currentState = s.currentState := rfl
@[simp] theorem setOpen_lastTmsLevel (s : State) (x : Bool) : (s.setOpen x).lastTmsLevel = s.lastTmsLevel := rfl
@[simp] theorem setOpen_activeTransferMode (s : State) (x : Bool) : (s.setOpen x).activeTransferMode = s.activeTransferMode := rfl
@[simp] theorem setOpen_interruptDriven (s : State) (x : Bool) : (s.setOpen x).interruptDriven = s.interruptDriven := rfl
@[simp] theorem setOpen_pinControlStrategy (s : State) (x : Bool) : (s.setOpen x).pinControlStrategy = s.pinControlStrategy := rfl
@[simp] theorem setOpen_exclusiveOpen (s : State) (x : Bool) : (s.setOpen x).exclusiveOpen = x := rfl
@[simp] theorem setOpen_requestedFreq (s : State) (x : Bool) : (s.setOpen x).requestedFreq = s.requestedFreq := rfl
@[simp] theorem setOpen_chan (s : State) (x : Bool) : (s.setOpen x).chan = s.chan := rfl
@[simp] theorem setOpen_xfer (s : State) (x : Bool) : (s.setOpen x).xfer = s.xfer := rfl
@[simp] theorem setOpen_xferLock (s : State) (x : Bool) : (s.setOpen x).xferLock = s.xferLock := rfl
@[simp] theorem setOpen_lines (s : State) (x : Bool) : (s.setOpen x).lines = s.lines := rfl
@[simp] theorem setOpen_trace (s : State) (x : Bool) : (s.setOpen x).trace = s.trace := rfl
@[simp] theorem setOpen_response (s : State) (x : Bool) : (s.setOpen x).response = s.response := rfl
@[simp] theorem setOpen_inbox (s : State) (x : Bool) : (s.setOpen x).inbox = s.inbox := rfl
@[simp] theorem setOpen_env (s : State) (x : Bool) : (s.setOpen x).env = s.env := rfl
@[simp] theorem setOpen_draws (s : State) (x : Bool) : (s.setOpen x).draws = s.draws := rfl

@[simp] theorem setFreq_params (s : State) (x : Nat) : (s.setFreq x).params = s.params := rfl
@[simp] theorem setFreq_currentState (s : State) (x : Nat) : (s.setFreq x).currentState = s.currentState := rfl
@[simp] theorem setFreq_lastTmsLevel (s : State) (x : Nat) : (s.setFreq x).lastTmsLevel = s.lastTmsLevel := rfl
@[simp] theorem setFreq_activeTransferMode (s : State) (x : Nat) : (s.setFreq x).activeTransferMode = s.activeTransferMode := rfl
@[simp] theorem setFreq_interruptDriven (s : State) (x : Nat) : (s.setFreq x).interruptDriven = s.interruptDriven := rfl
@[simp] theorem setFreq_pinControlStrategy (s : State) (x : Nat) : (s.setFreq x).pinControlStrategy = s.pinControlStrategy := rfl
@[simp] theorem setFreq_exclusiveOpen (s : State) (x : Nat) : (s.setFreq x).exclusiveOpen = s.exclusiveOpen := rfl
@[simp] theorem setFreq_requestedFreq (s : State) (x : Nat) : (s.setFreq x).requestedFreq = x := rfl
@[simp] theorem setFreq_chan (s : State) (x : Nat) : (s.setFreq x).chan = s.chan := rfl
@[simp] theorem setFreq_xfer (s : State) (x : Nat) : (s.setFreq x).xfer = s.xfer := rfl
@[simp] theorem setFreq_xferLock (s : State) (x : Nat) : (s.setFreq x).xferLock = s.xferLock := rfl
@[simp] theorem setFreq_lines (s : State) (x : Nat) : (s.setFreq x).lines = s.lines := rfl
@[simp] theorem setFreq_trace (s : State) (x : Nat) : (s.setFreq x).trace = s.trace := rfl
@[simp] theorem setFreq_response (s : State) (x : Nat) : (s.setFreq x).response = s.response := rfl
@[simp] theorem setFreq_inbox (s : State) (x : Nat) : (s.setFreq x).inbox = s.inbox := rfl
@[simp] theorem setFreq_env (s : State) (x : Nat) : (s.setFreq x).env = s.env := rfl
@[simp] theorem setFreq_draws (s : State) (x : Nat) : (s.setFreq x).draws = s.draws := rfl

@[simp] theorem setChan_params (s : State) (x : Channel) : (s.setChan x).params = s.params := rfl
@[simp] theorem setChan_currentState (s : State) (x : Channel) : (s.setChan x).currentState = s.currentState := rfl
@[simp] theorem setChan_lastTmsLevel (s : State) (x : Channel) : (s.setChan x).lastTmsLevel = s.lastTmsLevel := rfl
@[simp] theorem setChan_activeTransferMode (s : State) (x : Channel) : (s.setChan x).activeTransferMode = s.activeTransferMode := rfl
@[simp] theorem setChan_interruptDriven (s : State) (x : Channel) : (s.setChan x).interruptDriven = s.interruptDriven := rfl
@[simp] theorem setChan_pinControlStrategy (s : State) (x : Channel) : (s.setChan x).pinControlStrategy = s.pinControlStrategy := rfl
@[simp] theorem setChan_exclusiveOpen (s : State) (x : Channel) : (s.setChan x).exclusiveOpen = s.exclusiveOpen := rfl
@[simp] theorem setChan_requestedFreq (s : State) (x : Channel) : (s.setChan x).requestedFreq = s.requestedFreq := rfl
@[simp] theorem setChan_chan (s : State) (x : Channel) : (s.setChan x).chan = x := rfl
@[simp] theorem setChan_xfer (s : State) (x : Channel) : (s.setChan x).xfer = s.xfer := rfl
@[simp] theorem setChan_xferLock (s : State) (x : Channel) : (s.setChan x).xferLock = s.xferLock := rfl
@[simp] theorem setChan_lines (s : State) (x : Channel) : (s.setChan x).lines = s.lines := rfl
@[simp] theorem setChan_trace (s : State) (x : Channel) : (s.setChan x).trace = s.trace := rfl
@[simp] theorem setChan_response (s : State) (x : Channel) : (s.setChan x).response = s.response := rfl
@[simp] theorem setChan_inbox (s : State) (x : Channel) : (s.setChan x).inbox = s.inbox := rfl
@[simp] theorem setChan_env (s : State) (x : Channel) : (s.setChan x).env = s.env := rfl
@[simp] theorem setChan_draws (s : State) (x : Channel) : (s.setChan x).draws = s.draws := rfl

@[simp] theorem setXfer_params (s : State) (x : Option Xfer) : (s.setXfer x).params = s.params := rfl
@[simp] theorem setXfer_currentState (s : State) (x : Option Xfer) : (s.setXfer x).currentState = s.currentState := rfl
@[simp] theorem setXfer_lastTmsLevel (s : State) (x : Option Xfer) : (s.setXfer x).lastTmsLevel = s.lastTmsLevel := rfl
@[simp] theorem setXfer_activeTransferMode (s : State) (x : Option Xfer) : (s.setXfer x).activeTransferMode = s.activeTransferMode := rfl
@[simp] theorem setXfer_interruptDriven (s : State) (x : Option Xfer) : (s.setXfer x).interruptDriven = s.interruptDriven := rfl
@[simp] theorem setXfer_pinControlStrategy (s : State) (x : Option Xfer) : (s.setXfer x).pinControlStrategy = s.pinControlStrategy := rfl
@[simp] theorem setXfer_exclusiveOpen (s : State) (x : Option Xfer) : (s.setXfer x).exclusiveOpen = s.exclusiveOpen := rfl
@[simp] theorem setXfer_requestedFreq (s : State) (x : Option Xfer) : (s.setXfer x).requestedFreq = s.requestedFreq := rfl
@[simp] theorem setXfer_chan (s : State) (x : Option Xfer) : (s.setXfer x).chan = s.chan := rfl
@[simp] theorem setXfer_xfer (s : State) (x : Option Xfer) : (s.setXfer x).xfer = x := rfl
@[simp] theorem setXfer_xferLock (s : State) (x : Option Xfer) : (s.setXfer x).xferLock = s.xferLock := rfl
@[simp] theorem setXfer_lines (s : State) (x : Option Xfer) : (s.setXfer x).lines = s.lines := rfl
@[simp] theorem setXfer_trace (s : State) (x : Option Xfer) : (s.setXfer x).trace = s.trace := rfl
@[simp] theorem setXfer_response (s : State) (x : Option Xfer) : (s.setXfer x).response = s.response := rfl
@[simp] theorem setXfer_inbox (s : State) (x : Option Xfer) : (s.setXfer x).inbox = s.inbox := rfl
@[simp] theorem setXfer_env (s : State) (x : Option Xfer) : (s.setXfer x).env = s.env := rfl
@[simp] theorem setXfer_draws (s : State) (x : Option Xfer) : (s.setXfer x).draws = s.draws := rfl

@[simp] theorem setLock_params (s : State) (x : Bool) : (s.setLock x).params = s.params := rfl
@[simp] theorem setLock_currentState (s : State) (x : Bool) : (s.setLock x).currentState = s.currentState := rfl
@[simp] theorem setLock_lastTmsLevel (s : State) (x : Bool) : (s.setLock x).lastTmsLevel = s.lastTmsLevel := rfl
@[simp] theorem setLock_activeTransferMode (s : State) (x : Bool) : (s.setLock x).activeTransferMode = s.activeTransferMode := rfl
@[simp] theorem setLock_interruptDriven (s : State) (x : Bool) : (s.setLock x).interruptDriven = s.interruptDriven := rfl
@[simp] theorem setLock_pinControlStrategy (s : State) (x : Bool) : (s.setLock x).pinControlStrategy = s.pinControlStrategy := rfl
@[simp] theorem setLock_exclusiveOpen (s : State) (x : Bool) : (s.setLock x).exclusiveOpen = s.exclusiveOpen := rfl
@[simp] theorem setLock_requestedFreq (s : State) (x : Bool) : (s.setLock x).requestedFreq = s.requestedFreq := rfl
@[simp] theorem setLock_chan (s : State) (x : Bool) : (s.setLock x).chan = s.chan := rfl
@[simp] theorem setLock_xfer (s : State) (x : Bool) : (s.setLock x).xfer = s.xfer := rfl
@[simp] theorem setLock_xferLock (s : State) (x : Bool) : (s.setLock x).xferLock = x := rfl
@[simp] theorem setLock_lines (s : State) (x : Bool) : (s.setLock x).lines = s.lines := rfl
@[simp] theorem setLock_trace (s : State) (x : Bool) : (s.setLock x).trace = s.trace := rfl
@[simp] theorem setLock_response (s : State) (x : Bool) : (s.setLock x).response = s.response := rfl
@[simp] theorem setLock_inbox (s : State) (x : Bool) : (s.setLock x).inbox = s.inbox := rfl
@[simp] theorem setLock_env (s : State) (x : Bool) : (s.setLock x).env = s.env := rfl
@[simp] theorem setLock_draws (s : State) (x : Bool) : (s.setLock x).draws = s.draws := rfl

@[simp] theorem setLines_params (s : State) (x : Lines) : (s.setLines x).params = s.params := rfl
@[simp] theorem setLines_currentState (s : State) (x : Lines) : (s.setLines x).currentState = s.currentState := rfl
@[simp] theorem setLines_lastTmsLevel (s : State) (x : Lines) : (s.setLines x).lastTmsLevel = s.lastTmsLevel := rfl
@[simp] theorem setLines_activeTransferMode (s : State) (x : Lines) : (s.setLines x).activeTransferMode = s.activeTransferMode := rfl
@[simp] theorem setLines_interruptDriven (s : State) (x : Lines) : (s.setLines x).interruptDriven = s.interruptDriven := rfl
@[simp] theorem setLines_pinControlStrategy (s : State) (x : Lines) : (s.setLines x).pinControlStrategy = s.pinControlStrategy := rfl
@[simp] theorem setLines_exclusiveOpen (s : State) (x : Lines) : (s.setLines x).exclusiveOpen = s.exclusiveOpen := rfl
@[simp] theorem setLines_requestedFreq (s : State) (x : Lines) : (s.setLines x).requestedFreq = s.requestedFreq := rfl
@[simp] theorem setLines_chan (s : State) (x : Lines) : (s.setLines x).chan = s.chan := rfl
@[simp] theorem setLines_xfer (s : State) (x : Lines) : (s.setLines x).xfer = s.xfer := rfl
@[simp] theorem setLines_xferLock (s : State) (x : Lines) : (s.setLines x).xferLock = s.xferLock := rfl
@[simp] theorem setLines_lines (s : State) (x : Lines) : (s.setLines x).lines = x := rfl
@[simp] theorem setLines_trace (s : State) (x : Lines) : (s.setLines x).trace = s.trace := rfl
@[simp] theorem setLines_response (s : State) (x : Lines) : (s.setLines x).response = s.response := rfl
@[simp] theorem setLines_inbox (s : State) (x : Lines) : (s.setLines x).inbox = s.inbox := rfl
@[simp] theorem setLines_env (s : State) (x : Lines) : (s.setLines x).env = s.env := rfl
@[simp] theorem setLines_draws (s : State) (x : Lines) : (s.setLines x).draws = s.draws := rfl

@[simp] theorem emit_params (s : State) (x : Event) : (s.emit x).params = s.params := rfl
@[simp] theorem emit_currentState (s : State) (x : Event) : (s.emit x).currentState = s.currentState := rfl
@[simp] theorem emit_lastTmsLevel (s : State) (x : Event) : (s.emit x).lastTmsLevel = s.lastTmsLevel := rfl
@[simp] theorem emit_activeTransferMode (s : State) (x : Event) : (s.emit x).activeTransferMode = s.activeTransferMode := rfl
@[simp] theorem emit_interruptDriven (s : State) (x : Event) : (s.emit x).interruptDriven = s.interruptDriven := rfl
@[simp] theorem emit_pinControlStrategy (s : State) (x : Event) : (s.emit x).pinControlStrategy = s.pinControlStrategy := rfl
@[simp] theorem emit_exclusiveOpen (s : State) (x : Event) : (s.emit x).exclusiveOpen = s.exclusiveOpen := rfl
@[simp] theorem emit_requestedFreq (s : State) (x : Event) : (s.emit x).requestedFreq = s.requestedFreq := rfl
@[simp] theorem emit_chan (s : State) (x : Event) : (s.emit x).chan = s.chan := rfl
@[simp] theorem emit_xfer (s : State) (x : Event) : (s.emit x).xfer = s.xfer := rfl
@[simp] theorem emit_xferLock (s : State) (x : Event) : (s.emit x).xferLock = s.xferLock := rfl
@[simp] theorem emit_lines (s : State) (x : Event) : (s.emit x).lines = s.lines := rfl
@[simp] theorem emit_trace (s : State) (x : Event) : (s.emit x).trace = s.trace ++ [x] := rfl
@[simp] theorem emit_response (s : State) (x : Event) : (s.emit x).response = s.response := rfl
@[simp] theorem emit_inbox (s : State) (x : Event) : (s.emit x).inbox = s.inbox := rfl
@[simp] theorem emit_env (s : State) (x : Event) : (s.emit x).env = s.env := rfl
@[simp] theorem emit_draws (s : State) (x : Event) : (s.emit x).draws = s.draws := rfl

@[simp] theorem setResponse_params (s : State) (x : Option Response) : (s.setResponse x).params = s.params := rfl
@[simp] theorem setResponse_currentState (s : State) (x : Option Response) : (s.setResponse x).currentState = s.currentState := rfl
@[simp] theorem setResponse_lastTmsLevel (s : State) (x : Option Response) : (s.setResponse x).lastTmsLevel = s.lastTmsLevel := rfl
@[simp] theorem setResponse_activeTransferMode (s : State) (x : Option Response) : (s.setResponse x).activeTransferMode = s.activeTransferMode := rfl
@[simp] theorem setResponse_interruptDriven (s : State) (x : Option Response) : (s.setResponse x).interruptDriven = s.interruptDriven := rfl
@[simp] theorem setResponse_pinControlStrategy (s : State) (x : Option Response) : (s.setResponse x).pinControlStrategy = s.pinControlStrategy := rfl
@[simp] theorem setResponse_exclusiveOpen (s : State) (x : Option Response) : (s.setResponse x).exclusiveOpen = s.exclusiveOpen := rfl
@[simp] theorem setResponse_requestedFreq (s : State) (x : Option Response) : (s.setResponse x).requestedFreq = s.requestedFreq := rfl
@[simp] theorem setResponse_chan (s : State) (x : Option Response) : (s.setResponse x).chan = s.chan := rfl
@[simp] theorem setResponse_xfer (s : State) (x : Option Response) : (s.setResponse x).xfer = s.xfer := rfl
@[simp] theorem setResponse_xferLock (s : State) (x : Option Response) : (s.setResponse x).xferLock = s.xferLock := rfl
@[simp] theorem setResponse_lines (s : State) (x : Option Response) : (s.setResponse x).lines = s.lines := rfl
@[simp] theorem setResponse_trace (s : State) (x : Option Response) : (s.setResponse x).trace = s.trace := rfl
@[simp] theorem setResponse_response (s : State) (x : Option Response) : (s.setResponse x).response = x := rfl
@[simp] theorem setResponse_inbox (s : State) (x : Option Response) : (s.setResponse x).inbox = s.inbox := rfl
@[simp] theorem setResponse_env (s : State) (x : Option Response) : (s.setResponse x).env = s.env := rfl
@[simp] theorem setResponse_draws (s : State) (x : Option Response) : (s.setResponse x).draws = s.draws := rfl

@[simp] theorem setInbox_params (s : State) (x : List Input) : (s.setInbox x).params = s.params := rfl
@[simp] theorem setInbox_currentState (s : State) (x : List Input) : (s.setInbox x).currentState = s.currentState := rfl
@[simp] theorem setInbox_lastTmsLevel (s : State) (x : List Input) : (s.setInbox x).lastTmsLevel = s.lastTmsLevel := rfl
@[simp] theorem setInbox_activeTransferMode (s : State) (x : List Input) : (s.setInbox x).activeTransferMode = s.activeTransferMode := rfl
@[simp] theorem setInbox_interruptDriven (s : State) (x : List Input) : (s.setInbox x).interruptDriven = s.interruptDriven := rfl
@[simp] theorem setInbox_pinControlStrategy (s : State) (x : List Input) : (s.setInbox x).pinControlStrategy = s.pinControlStrategy := rfl
@[simp] theorem setInbox_exclusiveOpen (s : State) (x : List Input) : (s.setInbox x).exclusiveOpen = s.exclusiveOpen := rfl
@[simp] theorem setInbox_requestedFreq (s : State) (x : List Input) : (s.setInbox x).requestedFreq = s.requestedFreq := rfl
@[simp] theorem setInbox_chan (s : State) (x : List Input) : (s.setInbox x).chan = s.chan := rfl
@[simp] theorem setInbox_xfer (s : State) (x : List Input) : (s.setInbox x).xfer = s.xfer := rfl
@[simp] theorem setInbox_xferLock (s : State) (x : List Input) : (s.setInbox x).xferLock = s.xferLock := rfl
@[simp] theorem setInbox_lines (s : State) (x : List Input) : (s.setInbox x).lines = s.lines := rfl
@[simp] theorem setInbox_trace (s : State) (x : List Input) : (s.setInbox x).trace = s.trace := rfl
@[simp] theorem setInbox_response (s : State) (x : List Input) : (s.setInbox x).response = s.response := rfl
@[simp] theorem setInbox_inbox (s : State) (x : List Input) : (s.setInbox x).inbox = x := rfl
@[simp] theorem setInbox_env (s : State) (x : List Input) : (s.setInbox x).env = s.env := rfl
@[simp] theorem setInbox_draws (s : State) (x : List Input) : (s.setInbox x).draws = s.draws := rfl

@[simp] theorem setEnv_params (s : State) (x : Env) : (s.setEnv x).params = s.params := rfl
@[simp] theorem setEnv_currentState (s : State) (x : Env) : (s.setEnv x).currentState = s.currentState := rfl
@[simp] theorem setEnv_lastTmsLevel (s : State) (x : Env) : (s.setEnv x).lastTmsLevel = s.lastTmsLevel := rfl
@[simp] theorem setEnv_activeTransferMode (s : State) (x : Env) : (s.setEnv x).activeTransferMode = s.activeTransferMode := rfl
@[simp] theorem setEnv_interruptDriven (s : State) (x : Env) : (s.setEnv x).interruptDriven = s.interruptDriven := rfl
@[simp] theorem setEnv_pinControlStrategy (s : State) (x : Env) : (s.setEnv x).pinControlStrategy = s.pinControlStrategy := rfl
@[simp] theorem setEnv_exclusiveOpen (s : State) (x : Env) : (s.setEnv x).exclusiveOpen = s.exclusiveOpen := rfl
@[simp] theorem setEnv_requestedFreq (s : State) (x : Env) : (s.setEnv x).requestedFreq = s.requestedFreq := rfl
@[simp] theorem setEnv_chan (s : State) (x : Env) : (s.setEnv x).chan = s.chan := rfl
@[simp] theorem setEnv_xfer (s : State) (x : Env) : (s.setEnv x).xfer = s.xfer := rfl
@[simp] theorem setEnv_xferLock (s : State) (x : Env) : (s.setEnv x).xferLock = s.xferLock := rfl
@[simp] theorem setEnv_lines (s : State) (x : Env) : (s.setEnv x).lines = s.lines := rfl
@[simp] theorem setEnv_trace (s : State) (x : Env) : (s.setEnv x).trace = s.trace := rfl
@[simp] theorem setEnv_response (s : State) (x : Env) : (s.setEnv x).response = s.response := rfl
@[simp] theorem setEnv_inbox (s : State) (x : Env) : (s.setEnv x).inbox = s.inbox := rfl
@[simp] theorem setEnv_env (s : State) (x : Env) : (s.setEnv x).env = x := rfl
@[simp] theorem setEnv_draws (s : State) (x : Env) : (s.setEnv x).draws = s.draws := rfl

@[simp] theorem advance_params (s : State) (x : Nat) : (s.advance x).params = s.params := rfl
@[simp] theorem advance_currentState (s : State) (x : Nat) : (s.advance x).currentState = s.currentState := rfl
@[simp] theorem advance_lastTmsLevel (s : State) (x : Nat) : (s.advance x).lastTmsLevel = s.lastTmsLevel := rfl
@[simp] theorem advance_activeTransferMode (s : State) (x : Nat) : (s.advance x).activeTransferMode = s.activeTransferMode := rfl
@[simp] theorem advance_interruptDriven (s : State) (x : Nat) : (s.advance x).interruptDriven = s.interruptDriven := rfl
@[simp] theorem advance_pinControlStrategy (s : State) (x : Nat) : (s.advance x).pinControlStrategy = s.pinControlStrategy := rfl
@[simp] theorem advance_exclusiveOpen (s : State) (x : Nat) : (s.advance x).exclusiveOpen = s.exclusiveOpen := rfl
@[simp] theorem advance_requestedFreq (s : State) (x : Nat) : (s.advance x).requestedFreq = s.requestedFreq := rfl
@[simp] theorem advance_chan (s : State) (x : Nat) : (s.advance x).chan = s.chan := rfl
@[simp] theorem advance_xfer (s : State) (x : Nat) : (s.advance x).xfer = s.xfer := rfl
@[simp] theorem advance_xferLock (s : State) (x : Nat) : (s.advance x).xferLock = s.xferLock := rfl
@[simp] theorem advance_lines (s : State) (x : Nat) : (s.advance x).lines = s.lines := rfl
@[simp] theorem advance_trace (s : State) (x : Nat) : (s.advance x).trace = s.trace := rfl
@[simp] theorem advance_response (s : State) (x : Nat) : (s.advance x).response = s.response := rfl
@[simp] theorem advance_inbox (s : State) (x : Nat) : (s.advance x).inbox = s.inbox := rfl
@[simp] theorem advance_env (s : State) (x : Nat) : (s.advance x).env = s.env := rfl
@[simp] theorem advance_draws (s : State) (x : Nat) : (s.advance x).draws = s.draws + x := rfl

theorem unit_eq (s : State) : s.unit = s.params.unitWidth := rfl

@[simp] theorem setIrqEnable_params (s : State) (x : Bool) : (s.setIrqEnable x).params = s.params := rfl
@[simp] theorem setIrqEnable_currentState (s : State) (x : Bool) : (s.setIrqEnable x).currentState = s.currentState := rfl
@[simp] theorem setIrqEnable_lastTmsLevel (s : State) (x : Bool) : (s.setIrqEnable x).lastTmsLevel = s.lastTmsLevel := rfl
@[simp] theorem setIrqEnable_activeTransferMode (s : State) (x : Bool) : (s.setIrqEnable x).activeTransferMode = s.activeTransferMode := rfl
@[simp] theorem setIrqEnable_interruptDriven (s : State) (x : Bool) : (s.setIrqEnable x).interruptDriven = s.interruptDriven := rfl
@[simp] theorem setIrqEnable_pinControlStrategy (s : State) (x : Bool) : (s.setIrqEnable x).pinControlStrategy = s.pinControlStrategy := rfl
@[simp] theorem setIrqEnable_exclusiveOpen (s : State) (x : Bool) : (s.setIrqEnable x).exclusiveOpen = s.exclusiveOpen := rfl
@[simp] theorem setIrqEnable_requestedFreq (s : State) (x : Bool) : (s.setIrqEnable x).requestedFreq = s.requestedFreq := rfl
@[simp] theorem setIrqEnable_chan (s : State) (x : Bool) : (s.setIrqEnable x).chan = { s.chan with irqEnable := x } := rfl
@[simp] theorem setIrqEnable_xfer (s : State) (x : Bool) : (s.setIrqEnable x).xfer = s.xfer := rfl
@[simp] theorem setIrqEnable_xferLock (s : State) (x : Bool) : (s.setIrqEnable x).xferLock = s.xferLock := rfl
@[simp] theorem setIrqEnable_lines (s : State) (x : Bool) : (s.setIrqEnable x).lines = s.lines := rfl
@[simp] theorem setIrqEnable_trace (s : State) (x : Bool) : (s.setIrqEnable x).trace = s.trace := rfl
@[simp] theorem setIrqEnable_response (s : State) (x : Bool) : (s.setIrqEnable x).response = s.response := rfl
@[simp] theorem setIrqEnable_inbox (s : State) (x : Bool) : (s.setIrqEnable x).inbox = s.inbox := rfl
@[simp] theorem setIrqEnable_env (s : State) (x : Bool) : (s.setIrqEnable x).env = s.env := rfl
@[simp] theorem setIrqEnable_draws (s : State) (x : Bool) : (s.setIrqEnable x).draws = s.draws := rfl

@[simp] theorem driveTdi_params (s : State) (x : Bool) : (s.driveTdi x).params = s.params := rfl
@[simp] theorem driveTdi_currentState (s : State) (x : Bool) : (s.driveTdi x).currentState = s.currentState := rfl
@[simp] theorem driveTdi_lastTmsLevel (s : State) (x : Bool) : (s.driveTdi x).lastTmsLevel = s.lastTmsLevel := rfl
@[simp] theorem driveTdi_activeTransferMode (s : State) (x : Bool) : (s.driveTdi x).activeTransferMode = s.activeTransferMode := rfl
@[simp] theorem driveTdi_interruptDriven (s : State) (x : Bool) : (s.driveTdi x).interruptDriven = s.interruptDriven := rfl
@[simp] theorem driveTdi_pinControlStrategy (s : State) (x : Bool) : (s.driveTdi x).pinControlStrategy = s.pinControlStrategy := rfl
@[simp] theorem driveTdi_exclusiveOpen (s : State) (x : Bool) : (s.driveTdi x).exclusiveOpen = s.exclusiveOpen := rfl
@[simp] theorem driveTdi_requestedFreq (s : State) (x : Bool) : (s.driveTdi x).requestedFreq = s.requestedFreq := rfl
@[simp] theorem driveTdi_chan (s : State) (x : Bool) : (s.driveTdi x).chan = s.chan := rfl
@[simp] theorem driveTdi_xfer (s : State) (x : Bool) : (s.driveTdi x).xfer = s.xfer := rfl
@[simp] theorem driveTdi_xferLock (s : State) (x : Bool) : (s.driveTdi x).xferLock = s.xferLock := rfl
@[simp] theorem driveTdi_lines (s : State) (x : Bool) : (s.driveTdi x).lines = { s.lines with tdiPeripheral := x } := rfl
@[simp] theorem driveTdi_trace (s : State) (x : Bool) : (s.driveTdi x).trace = s.trace := rfl
@[simp] theorem driveTdi_response (s : State) (x : Bool) : (s.driveTdi x).response = s.response := rfl
@[simp] theorem driveTdi_inbox (s : State) (x : Bool) : (s.driveTdi x).inbox = s.inbox := rfl
@[simp] theorem driveTdi_env (s : State) (x : Bool) : (s.driveTdi x).env = s.env := rfl
@[simp] theorem driveTdi_draws (s : State) (x : Bool) : (s.driveTdi x).draws = s.draws := rfl

@[simp] theorem abandonUnit_params (s : State) : (s.abandonUnit).params = s.params := rfl
@[simp] theorem abandonUnit_currentState (s : State) : (s.abandonUnit).currentState = s.currentState := rfl
@[simp] theorem abandonUnit_lastTmsLevel (s : State) : (s.abandonUnit).lastTmsLevel = s.lastTmsLevel := rfl
@[simp] theorem abandonUnit_activeTransferMode (s : State) : (s.abandonUnit).activeTransferMode = s.activeTransferMode := rfl
@[simp] theorem abandonUnit_interruptDriven (s : State) : (s.abandonUnit).interruptDriven = s.interruptDriven := rfl
@[simp] theorem abandonUnit_pinControlStrategy (s : State) : (s.abandonUnit).pinControlStrategy = s.pinControlStrategy := rfl
@[simp] theorem abandonUnit_exclusiveOpen (s : State) : (s.abandonUnit).exclusiveOpen = s.exclusiveOpen := rfl
@[simp] theorem abandonUnit_requestedFreq (s : State) : (s.abandonUnit).requestedFreq = s.requestedFreq := rfl
@[simp] theorem abandonUnit_chan (s : State) : (s.abandonUnit).chan = { s.chan with abandoned := s.chan.stat.busy } := rfl
@[simp] theorem abandonUnit_xfer (s : State) : (s.abandonUnit).xfer = s.xfer := rfl
@[simp] theorem abandonUnit_xferLock (s : State) : (s.abandonUnit).xferLock = s.xferLock := rfl
@[simp] theorem abandonUnit_lines (s : State) : (s.abandonUnit).lines = s.lines := rfl
@[simp] theorem abandonUnit_trace (s : State) : (s.abandonUnit).trace = s.trace := rfl
@[simp] theorem abandonUnit_response (s : State) : (s.abandonUnit).response = s.response := rfl
@[simp] theorem abandonUnit_inbox (s : State) : (s.abandonUnit).inbox = s.inbox := rfl
@[simp] theorem abandonUnit_env (s : State) : (s.abandonUnit).env = s.env := rfl
@[simp] theorem abandonUnit_draws (s : State) : (s.abandonUnit).draws = s.draws := rfl

@[simp] theorem signalDone_params (s : State) : (s.signalDone).params = s.params := rfl
@[simp] theorem signalDone_currentState (s : State) : (s.signalDone).currentState = s.currentState := rfl
@[simp] theorem signalDone_lastTmsLevel (s : State) : (s.signalDone).lastTmsLevel = s.lastTmsLevel := rfl
@[simp] theorem signalDone_activeTransferMode (s : State) : (s.signalDone).activeTransferMode = s.activeTransferMode := rfl
@[simp] theorem signalDone_interruptDriven (s : State) : (s.signalDone).interruptDriven = s.interruptDriven := rfl
@[simp] theorem signalDone_pinControlStrategy (s : State) : (s.signalDone).pinControlStrategy = s.pinControlStrategy := rfl
@[simp] theorem signalDone_exclusiveOpen (s : State) : (s.signalDone).exclusiveOpen = s.exclusiveOpen := rfl
@[simp] theorem signalDone_requestedFreq (s : State) : (s.signalDone).requestedFreq = s.requestedFreq := rfl
@[simp] theorem signalDone_chan (s : State) : (s.signalDone).chan = s.chan := rfl
@[simp] theorem signalDone_xfer (s : State) : (s.signalDone).xfer = s.xfer.map fun x => { x with done := true } := rfl
@[simp] theorem signalDone_xferLock (s : State) : (s.signalDone).xferLock = s.xferLock := rfl
@[simp] theorem signalDone_lines (s : State) : (s.signalDone).lines = s.lines := rfl
@[simp] theorem signalDone_trace (s : State) : (s.signalDone).trace = s.trace := rfl
@[simp] theorem signalDone_response (s : State) : (s.signalDone).response = s.response := rfl
@[simp] theorem signalDone_inbox (s : State) : (s.signalDone).inbox = s.inbox := rfl
@[simp] theorem signalDone_env (s : State) : (s.signalDone).env = s.env := rfl
@[simp] theorem signalDone_draws (s : State) : (s.signalDone).draws = s.draws := rfl

@[simp] theorem setReady_params (s : State) (x : Bool) : (s.setReady x).params = s.params := rfl
@[simp] theorem setReady_currentState (s : State) (x : Bool) : (s.setReady x).currentState = s.currentState := rfl
@[simp] theorem setReady_lastTmsLevel (s : State) (x : Bool) : (s.setReady x).lastTmsLevel = s.lastTmsLevel := rfl
@[simp] theorem setReady_activeTransferMode (s : State) (x : Bool) : (s.setReady x).activeTransferMode = s.activeTransferMode := rfl
@[simp] theorem setReady_interruptDriven (s : State) (x : Bool) : (s.setReady x).interruptDriven = s.interruptDriven := rfl
@[simp] theorem setReady_pinControlStrategy (s : State) (x : Bool) : (s.setReady x).pinControlStrategy = s.pinControlStrategy := rfl
@[simp] theorem setReady_exclusiveOpen (s : State) (x : Bool) : (s.setReady x).exclusiveOpen = s.exclusiveOpen := rfl
@[simp] theorem setReady_requestedFreq (s : State) (x : Bool) : (s.setReady x).requestedFreq = s.requestedFreq := rfl
@[simp] theorem setReady_chan (s : State) (x : Bool) : (s.setReady x).chan = { s.chan with stat := { s.chan.stat with ready := x } } := rfl
@[simp] theorem setReady_xfer (s : State) (x : Bool) : (s.setReady x).xfer = s.xfer := rfl
@[simp] theorem setReady_xferLock (s : State) (x : Bool) : (s.setReady x).xferLock = s.xferLock := rfl
@[simp] theorem setReady_lines (s : State) (x : Bool) : (s.setReady x).lines = s.lines := rfl
@[simp] theorem setReady_trace (s : State) (x : Bool) : (s.setReady x).trace = s.trace := rfl
@[simp] theorem setReady_response (s : State) (x : Bool) : (s.setReady x).response = s.response := rfl
@[simp] theorem setReady_inbox (s : State) (x : Bool) : (s.setReady x).inbox = s.inbox := rfl
@[simp] theorem setReady_env (s : State) (x : Bool) : (s.setReady x).env = s.env := rfl
@[simp] theorem setReady_draws (s : State) (x : Bool) : (s.setReady x).draws = s.draws := rfl

@[simp] theorem loadUnit_params (s : State) (x : Unit16) : (s.loadUnit x).params = s.params := rfl
@[simp] theorem loadUnit_currentState (s : State) (x : Unit16) : (s.loadUnit x).currentState = s.currentState := rfl
@[simp] theorem loadUnit_lastTmsLevel (s : State) (x : Unit16) : (s.loadUnit x).lastTmsLevel = s.lastTmsLevel := rfl
@[simp] theorem loadUnit_activeTransferMode (s : State) (x : Unit16) : (s.loadUnit x).activeTransferMode = s.activeTransferMode := rfl
@[simp] theorem loadUnit_interruptDriven (s : State) (x : Unit16) : (s.loadUnit x).interruptDriven = s.interruptDriven := rfl
@[simp] theorem loadUnit_pinControlStrategy (s : State) (x : Unit16) : (s.loadUnit x).pinControlStrategy = s.pinControlStrategy := rfl
@[simp] theorem loadUnit_exclusiveOpen (s : State) (x : Unit16) : (s.loadUnit x).exclusiveOpen = s.exclusiveOpen := rfl
@[simp] theorem loadUnit_requestedFreq (s : State) (x : Unit16) : (s.loadUnit x).requestedFreq = s.requestedFreq := rfl
@[simp] theorem loadUnit_chan (s : State) (x : Unit16) : (s.loadUnit x).chan = { s.chan with txData := x, stat := { s.chan.stat with busy := true }, abandoned := false } := rfl
@[simp] theorem loadUnit_xfer (s : State) (x : Unit16) : (s.loadUnit x).xfer = s.xfer := rfl
@[simp] theorem loadUnit_xferLock (s : State) (x : Unit16) : (s.loadUnit x).xferLock = s.xferLock := rfl
@[simp] theorem loadUnit_lines (s : State) (x : Unit16) : (s.loadUnit x).lines = s.lines := rfl
@[simp] theorem loadUnit_trace (s : State) (x : Unit16) : (s.loadUnit x).trace = s.trace := rfl
@[simp] theorem loadUnit_response (s : State) (x : Unit16) : (s.loadUnit x).response = s.response := rfl
@[simp] theorem loadUnit_inbox (s : State) (x : Unit16) : (s.loadUnit x).inbox = s.inbox := rfl
@[simp] theorem loadUnit_env (s : State) (x : Unit16) : (s.loadUnit x).env = s.env := rfl
@[simp] theorem loadUnit_draws (s : State) (x : Unit16) : (s.loadUnit x).draws = s.draws := rfl

@[simp] theorem unitDone_params (s : State) (x : Unit16) : (s.unitDone x).params = s.params := rfl
@[simp] theorem unitDone_currentState (s : State) (x : Unit16) : (s.unitDone x).currentState = s.currentState := rfl
@[simp] theorem unitDone_lastTmsLevel (s : State) (x : Unit16) : (s.unitDone x).lastTmsLevel = s.lastTmsLevel := rfl
@[simp] theorem unitDone_activeTransferMode (s : State) (x : Unit16) : (s.unitDone x).activeTransferMode = s.activeTransferMode := rfl
@[simp] theorem unitDone_interruptDriven (s : State) (x : Unit16) : (s.unitDone x).interruptDriven = s.interruptDriven := rfl
@[simp] theorem unitDone_pinControlStrategy (s : State) (x : Unit16) : (s.unitDone x).pinControlStrategy = s.pinControlStrategy := rfl
@[simp] theorem unitDone_exclusiveOpen (s : State) (x : Unit16) : (s.unitDone x).exclusiveOpen = s.exclusiveOpen := rfl
@[simp] theorem unitDone_requestedFreq (s : State) (x : Unit16) : (s.unitDone x).requestedFreq = s.requestedFreq := rfl
@[simp] theorem unitDone_chan (s : State) (x : Unit16) : (s.unitDone x).chan = { s.chan with rxData := x, stat := ⟨false, true⟩ } := rfl
@[simp] theorem unitDone_xfer (s : State) (x : Unit16) : (s.unitDone x).xfer = s.xfer := rfl
@[simp] theorem unitDone_xferLock (s : State) (x : Unit16) : (s.unitDone x).xferLock = s.xferLock := rfl
@[simp] theorem unitDone_lines (s : State) (x : Unit16) : (s.unitDone x).lines = s.lines := rfl
@[simp] theorem unitDone_trace (s : State) (x : Unit16) : (s.unitDone x).trace = s.trace := rfl
@[simp] theorem unitDone_response (s : State) (x : Unit16) : (s.unitDone x).response = s.response := rfl
@[simp] theorem unitDone_inbox (s : State) (x : Unit16) : (s.unitDone x).inbox = s.inbox := rfl
@[simp] theorem unitDone_env (s : State) (x : Unit16) : (s.unitDone x).env = s.env := rfl
@[simp] theorem unitDone_draws (s : State) (x : Unit16) : (s.unitDone x).draws = s.draws := rfl

@[simp] theorem answer_params (s : State) (v : Word) (o : List Byte) : (s.answer v o).params = s.params := rfl
@[simp] theorem answer_currentState (s : State) (v : Word) (o : List Byte) : (s.answer v o).currentState = s.currentState := rfl
@[simp] theorem answer_lastTmsLevel (s : State) (v : Word) (o : List Byte) : (s.answer v o).lastTmsLevel = s.lastTmsLevel := rfl
@[simp] theorem answer_activeTransferMode (s : State) (v : Word) (o : List Byte) : (s.answer v o).activeTransferMode = s.activeTransferMode := rfl
@[simp] theorem answer_interruptDriven (s : State) (v : Word) (o : List Byte) : (s.answer v o).interruptDriven = s.interruptDriven := rfl
@[simp] theorem answer_pinControlStrategy (s : State) (v : Word) (o : List Byte) : (s.answer v o).pinControlStrategy = s.pinControlStrategy := rfl
@[simp] theorem answer_exclusiveOpen (s : State) (v : Word) (o : List Byte) : (s.answer v o).exclusiveOpen = s.exclusiveOpen := rfl
@[simp] theorem answer_requestedFreq (s : State) (v : Word) (o : List Byte) : (s.answer v o).requestedFreq = s.requestedFreq := rfl
@[simp] theorem answer_chan (s : State) (v : Word) (o : List Byte) : (s.answer v o).chan = s.chan := rfl
@[simp] theorem answer_xfer (s : State) (v : Word) (o : List Byte) : (s.answer v o).xfer = s.xfer := rfl
@[simp] theorem answer_xferLock (s : State) (v : Word) (o : List Byte) : (s.answer v o).xferLock = s.xferLock := rfl
@[simp] theorem answer_lines (s : State) (v : Word) (o : List Byte) : (s.answer v o).lines = s.lines := rfl
@[simp] theorem answer_trace (s : State) (v : Word) (o : List Byte) : (s.answer v o).trace = s.trace := rfl
@[simp] theorem answer_response (s : State) (v : Word) (o : List Byte) : (s.answer v o).response = some ⟨.ok, v, o⟩ := rfl
@[simp] theorem answer_inbox (s : State) (v : Word) (o : List Byte) : (s.answer v o).inbox = s.inbox := rfl
@[simp] theorem answer_env (s : State) (v : Word) (o : List Byte) : (s.answer v o).env = s.env := rfl
@[simp] theorem answer_draws (s : State) (v : Word) (o : List Byte) : (s.answer v o).draws = s.draws := rfl

@[simp] theorem raise_params (s : State) (e : ErrorKind) : (s.raise e).params = s.params := rfl
@[simp] theorem raise_currentState (s : State) (e : ErrorKind) : (s.raise e).currentState = s.currentState := rfl
@[simp] theorem raise_lastTmsLevel (s : State) (e : ErrorKind) : (s.raise e).lastTmsLevel = s.lastTmsLevel := rfl
@[simp] theorem raise_activeTransferMode (s : State) (e : ErrorKind) : (s.raise e).activeTransferMode = s.activeTransferMode := rfl
@[simp] theorem raise_interruptDriven (s : State) (e : ErrorKind) : (s.raise e).interruptDriven = s.interruptDriven := rfl
@[simp] theorem raise_pinControlStrategy (s : State) (e : ErrorKind) : (s.raise e).pinControlStrategy = s.pinControlStrategy := rfl
@[simp] theorem raise_exclusiveOpen (s : State) (e : ErrorKind) : (s.raise e).exclusiveOpen = s.exclusiveOpen := rfl
@[simp] theorem raise_requestedFreq (s : State) (e : ErrorKind) : (s.raise e).requestedFreq = s.requestedFreq := rfl
@[simp] theorem raise_chan (s : State) (e : ErrorKind) : (s.raise e).chan = s.chan := rfl
@[simp] theorem raise_xfer (s : State) (e : ErrorKind) : (s.raise e).xfer = s.xfer := rfl
@[simp] theorem raise_xferLock (s : State) (e : ErrorKind) : (s.raise e).xferLock = s.xferLock := rfl
@[simp] theorem raise_lines (s : State) (e : ErrorKind) : (s.raise e).lines = s.lines := rfl
@[simp] theorem raise_trace (s : State) (e : ErrorKind) : (s.raise e).trace = s.trace := rfl
@[simp] theorem raise_response (s : State) (e : ErrorKind) : (s.raise e).response = some ⟨.error e, Config.freeVal s.draws, Config.freeBytes s.draws⟩ := rfl
@[simp] theorem raise_inbox (s : State) (e : ErrorKind) : (s.raise e).inbox = s.inbox := rfl
@[simp] theorem raise_env (s : State) (e : ErrorKind) : (s.raise e).env = s.env := rfl
@[simp] theorem raise_draws (s : State) (e : ErrorKind) : (s.raise e).draws = s.draws + 1 := rfl

@[simp] theorem setLine_params (s : State) (l : OutLine) (b : Bool) : (s.setLine l b).params = s.params := by cases l <;> rfl
@[simp] theorem setLine_currentState (s : State) (l : OutLine) (b : Bool) : (s.setLine l b).currentState = s.currentState := by cases l <;> rfl
@[simp] theorem setLine_lastTmsLevel (s : State) (l : OutLine) (b : Bool) : (s.setLine l b).lastTmsLevel = s.lastTmsLevel := by cases l <;> rfl
@[simp] theorem setLine_activeTransferMode (s : State) (l : OutLine) (b : Bool) : (s.setLine l b).activeTransferMode = s.activeTransferMode := by cases l <;> rfl
@[simp] theorem setLine_interruptDriven (s : State) (l : OutLine) (b : Bool) : (s.setLine l b).interruptDriven = s.interruptDriven := by cases l <;> rfl
@[simp] theorem setLine_pinControlStrategy (s : State) (l : OutLine) (b : Bool) : (s.setLine l b).pinControlStrategy = s.pinControlStrategy := by cases l <;> rfl
@[simp] theorem setLine_exclusiveOpen (s : State) (l : OutLine) (b : Bool) : (s.setLine l b).exclusiveOpen = s.exclusiveOpen := by cases l <;> rfl
@[simp] theorem setLine_requestedFreq (s : State) (l : OutLine) (b : Bool) : (s.setLine l b).requestedFreq = s.requestedFreq := by cases l <;> rfl
@[simp] theorem setLine_chan (s : State) (l : OutLine) (b : Bool) : (s.setLine l b).chan = s.chan := by cases l <;> rfl
@[simp] theorem setLine_xfer (s : State) (l : OutLine) (b : Bool) : (s.setLine l b).xfer = s.xfer := by cases l <;> rfl
@[simp] theorem setLine_xferLock (s : State) (l : OutLine) (b : Bool) : (s.setLine l b).xferLock = s.xferLock := by cases l <;> rfl
@[simp] theorem setLine_trace (s : State) (l : OutLine) (b : Bool) : (s.setLine l b).trace = s.trace := by cases l <;> rfl
@[simp] theorem setLine_response (s : State) (l : OutLine) (b : Bool) : (s.setLine l b).response = s.response := by cases l <;> rfl
@[simp] theorem setLine_inbox (s : State) (l : OutLine) (b : Bool) : (s.setLine l b).inbox = s.inbox := by cases l <;> rfl
@[simp] theorem setLine_env (s : State) (l : OutLine) (b : Bool) : (s.setLine l b).env = s.env := by cases l <;> rfl
@[simp] theorem setLine_draws (s : State) (l : OutLine) (b : Bool) : (s.setLine l b).draws = s.draws := by cases l <;> rfl
@[simp] theorem setLine_tck_lines (s : State) (b : Bool) : (s.setLine .tck b).lines = { s.lines with tck := b } := rfl
@[simp] theorem setLine_tms_lines (s : State) (b : Bool) : (s.setLine .tms b).lines = { s.lines with tms := b } := rfl
@[simp] theorem setLine_tdi_lines (s : State) (b : Bool) : (s.setLine .tdi b).lines = { s.lines with tdiLine := b } := rfl
/-- The TDI level of each side of the pins (R31, R39, R158). -/
theorem readLine_tdi_line {s : State} (h : s.chan.pinFunction = .line) : s.readLine .tdi = s.lines.tdiLine := by
  simp [readLine, tdiLevel, h]
theorem readLine_tdi_peripheral {s : State} (h : s.chan.pinFunction = .peripheral) :
    s.readLine .tdi = s.lines.tdiPeripheral := by
  simp [readLine, tdiLevel, h]
@[simp] theorem readLine_tms (s : State) : s.readLine .tms = s.lines.tms := rfl

@[simp] theorem answer_status (s : State) (v : Word) (o : List Byte) : (s.answer v o).status = some .ok := rfl
@[simp] theorem raise_status (s : State) (e : ErrorKind) : (s.raise e).status = some (.error e) := rfl

/-! A run on the wire. -/

@[simp] theorem wired_params (s : State) (l : Lines) (c : Bool) (e : List Event) : (s.wired l c e).params = s.params := rfl
@[simp] theorem wired_currentState (s : State) (l : Lines) (c : Bool) (e : List Event) : (s.wired l c e).currentState = s.currentState := rfl
@[simp] theorem wired_lastTmsLevel (s : State) (l : Lines) (c : Bool) (e : List Event) : (s.wired l c e).lastTmsLevel = c := rfl
@[simp] theorem wired_activeTransferMode (s : State) (l : Lines) (c : Bool) (e : List Event) : (s.wired l c e).activeTransferMode = s.activeTransferMode := rfl
@[simp] theorem wired_interruptDriven (s : State) (l : Lines) (c : Bool) (e : List Event) : (s.wired l c e).interruptDriven = s.interruptDriven := rfl
@[simp] theorem wired_pinControlStrategy (s : State) (l : Lines) (c : Bool) (e : List Event) : (s.wired l c e).pinControlStrategy = s.pinControlStrategy := rfl
@[simp] theorem wired_exclusiveOpen (s : State) (l : Lines) (c : Bool) (e : List Event) : (s.wired l c e).exclusiveOpen = s.exclusiveOpen := rfl
@[simp] theorem wired_requestedFreq (s : State) (l : Lines) (c : Bool) (e : List Event) : (s.wired l c e).requestedFreq = s.requestedFreq := rfl
@[simp] theorem wired_chan (s : State) (l : Lines) (c : Bool) (e : List Event) : (s.wired l c e).chan = s.chan := rfl
@[simp] theorem wired_xfer (s : State) (l : Lines) (c : Bool) (e : List Event) : (s.wired l c e).xfer = s.xfer := rfl
@[simp] theorem wired_xferLock (s : State) (l : Lines) (c : Bool) (e : List Event) : (s.wired l c e).xferLock = s.xferLock := rfl
@[simp] theorem wired_lines (s : State) (l : Lines) (c : Bool) (e : List Event) : (s.wired l c e).lines = l := rfl
@[simp] theorem wired_trace (s : State) (l : Lines) (c : Bool) (e : List Event) : (s.wired l c e).trace = s.trace ++ e := rfl
@[simp] theorem wired_response (s : State) (l : Lines) (c : Bool) (e : List Event) : (s.wired l c e).response = s.response := rfl
@[simp] theorem wired_inbox (s : State) (l : Lines) (c : Bool) (e : List Event) : (s.wired l c e).inbox = s.inbox := rfl
@[simp] theorem wired_env (s : State) (l : Lines) (c : Bool) (e : List Event) : (s.wired l c e).env = s.env := rfl
@[simp] theorem wired_draws (s : State) (l : Lines) (c : Bool) (e : List Event) : (s.wired l c e).draws = s.draws := rfl

@[simp] theorem wired_wired (s : State) (l l' : Lines) (c c' : Bool) (e e' : List Event) :
    (s.wired l c e).wired l' c' e' = s.wired l' c' (e ++ e') := by
  simp [wired]

@[simp] theorem wired_self (s : State) : s.wired s.lines s.lastTmsLevel [] = s := by
  simp [wired]

theorem wired_nil {s : State} (h : s.lastTmsLevel = s.lines.tms) : s.wired s.lines s.lines.tms [] = s := by
  rw [← h, wired_self]

@[simp] theorem unit_wired (s : State) (l : Lines) (c : Bool) (e : List Event) : (s.wired l c e).unit = s.unit := rfl

/-! `U` is a parameter. -/

@[simp] theorem unit_setCurrentState (s : State) (x : TapState) : (s.setCurrentState x).unit = s.unit := rfl
@[simp] theorem unit_setCache (s : State) (x : Bool) : (s.setCache x).unit = s.unit := rfl
@[simp] theorem unit_setMode (s : State) (x : TransferMode) : (s.setMode x).unit = s.unit := rfl
@[simp] theorem unit_setInterrupt (s : State) (x : Bool) : (s.setInterrupt x).unit = s.unit := rfl
@[simp] theorem unit_setStrategy (s : State) (x : PinStrategy) : (s.setStrategy x).unit = s.unit := rfl
@[simp] theorem unit_setOpen (s : State) (x : Bool) : (s.setOpen x).unit = s.unit := rfl
@[simp] theorem unit_setFreq (s : State) (x : Nat) : (s.setFreq x).unit = s.unit := rfl
@[simp] theorem unit_setChan (s : State) (x : Channel) : (s.setChan x).unit = s.unit := rfl
@[simp] theorem unit_setXfer (s : State) (x : Option Xfer) : (s.setXfer x).unit = s.unit := rfl
@[simp] theorem unit_setLock (s : State) (x : Bool) : (s.setLock x).unit = s.unit := rfl
@[simp] theorem unit_setLines (s : State) (x : Lines) : (s.setLines x).unit = s.unit := rfl
@[simp] theorem unit_emit (s : State) (x : Event) : (s.emit x).unit = s.unit := rfl
@[simp] theorem unit_setEnv (s : State) (x : Env) : (s.setEnv x).unit = s.unit := rfl
@[simp] theorem unit_driveTdi (s : State) (x : Bool) : (s.driveTdi x).unit = s.unit := rfl
@[simp] theorem unit_abandonUnit (s : State) : s.abandonUnit.unit = s.unit := rfl
@[simp] theorem unit_signalDone (s : State) : s.signalDone.unit = s.unit := rfl
@[simp] theorem unit_setReady (s : State) (x : Bool) : (s.setReady x).unit = s.unit := rfl
@[simp] theorem unit_setIrqEnable (s : State) (x : Bool) : (s.setIrqEnable x).unit = s.unit := rfl
@[simp] theorem unit_loadUnit (s : State) (x : Unit16) : (s.loadUnit x).unit = s.unit := rfl
@[simp] theorem unit_advance (s : State) (x : Nat) : (s.advance x).unit = s.unit := rfl

end Sys2Proof.Machine.State
end

