-- ==== Sys2Proof/Laws/Ops.lean ====
section
/-! SUPPORT. The environment's draws, the outcomes of an operation, delivery and admission: one lemma each that says all they
can do. -/

namespace Sys2Proof.Machine

namespace State

/-- `drawTdo` changes its own answers and the counter only. -/
theorem drawTdo_frame (s : State) (b : Bool) : ∃ e n, (s.drawTdo b).2 = { s with env := e, draws := n } ∧ e.polls = s.env.polls ∧
    e.alloc = s.env.alloc ∧ e.schedule = s.env.schedule := by
  unfold drawTdo
  split <;> exact ⟨_, _, rfl, rfl, rfl, rfl⟩

@[simp] theorem drawTdo_params (s : State) (b : Bool) : (s.drawTdo b).2.params = s.params := by
  obtain ⟨e, n, h, -, -⟩ := s.drawTdo_frame b
  rw [h]
@[simp] theorem drawTdo_currentState (s : State) (b : Bool) : (s.drawTdo b).2.currentState = s.currentState := by
  obtain ⟨e, n, h, -, -⟩ := s.drawTdo_frame b
  rw [h]
@[simp] theorem drawTdo_lastTmsLevel (s : State) (b : Bool) : (s.drawTdo b).2.lastTmsLevel = s.lastTmsLevel := by
  obtain ⟨e, n, h, -, -⟩ := s.drawTdo_frame b
  rw [h]
@[simp] theorem drawTdo_activeTransferMode (s : State) (b : Bool) : (s.drawTdo b).2.activeTransferMode = s.activeTransferMode := by
  obtain ⟨e, n, h, -, -⟩ := s.drawTdo_frame b
  rw [h]
@[simp] theorem drawTdo_interruptDriven (s : State) (b : Bool) : (s.drawTdo b).2.interruptDriven = s.interruptDriven := by
  obtain ⟨e, n, h, -, -⟩ := s.drawTdo_frame b
  rw [h]
@[simp] theorem drawTdo_pinControlStrategy (s : State) (b : Bool) : (s.drawTdo b).2.pinControlStrategy = s.pinControlStrategy := by
  obtain ⟨e, n, h, -, -⟩ := s.drawTdo_frame b
  rw [h]
@[simp] theorem drawTdo_exclusiveOpen (s : State) (b : Bool) : (s.drawTdo b).2.exclusiveOpen = s.exclusiveOpen := by
  obtain ⟨e, n, h, -, -⟩ := s.drawTdo_frame b
  rw [h]
@[simp] theorem drawTdo_requestedFreq (s : State) (b : Bool) : (s.drawTdo b).2.requestedFreq = s.requestedFreq := by
  obtain ⟨e, n, h, -, -⟩ := s.drawTdo_frame b
  rw [h]
@[simp] theorem drawTdo_chan (s : State) (b : Bool) : (s.drawTdo b).2.chan = s.chan := by
  obtain ⟨e, n, h, -, -⟩ := s.drawTdo_frame b
  rw [h]
@[simp] theorem drawTdo_xfer (s : State) (b : Bool) : (s.drawTdo b).2.xfer = s.xfer := by
  obtain ⟨e, n, h, -, -⟩ := s.drawTdo_frame b
  rw [h]
@[simp] theorem drawTdo_xferLock (s : State) (b : Bool) : (s.drawTdo b).2.xferLock = s.xferLock := by
  obtain ⟨e, n, h, -, -⟩ := s.drawTdo_frame b
  rw [h]
@[simp] theorem drawTdo_lines (s : State) (b : Bool) : (s.drawTdo b).2.lines = s.lines := by
  obtain ⟨e, n, h, -, -⟩ := s.drawTdo_frame b
  rw [h]
@[simp] theorem drawTdo_trace (s : State) (b : Bool) : (s.drawTdo b).2.trace = s.trace := by
  obtain ⟨e, n, h, -, -⟩ := s.drawTdo_frame b
  rw [h]
@[simp] theorem drawTdo_response (s : State) (b : Bool) : (s.drawTdo b).2.response = s.response := by
  obtain ⟨e, n, h, -, -⟩ := s.drawTdo_frame b
  rw [h]
@[simp] theorem drawTdo_inbox (s : State) (b : Bool) : (s.drawTdo b).2.inbox = s.inbox := by
  obtain ⟨e, n, h, -, -⟩ := s.drawTdo_frame b
  rw [h]
@[simp] theorem drawTdo_env_polls (s : State) (b : Bool) : (s.drawTdo b).2.env.polls = s.env.polls := by
  unfold drawTdo
  split <;> rfl
@[simp] theorem drawTdo_env_alloc (s : State) (b : Bool) : (s.drawTdo b).2.env.alloc = s.env.alloc := by
  unfold drawTdo
  split <;> rfl
@[simp] theorem drawTdo_env_schedule (s : State) (b : Bool) : (s.drawTdo b).2.env.schedule = s.env.schedule := by
  unfold drawTdo
  split <;> rfl

/-- `drawPoll` changes its own answers and the counter only. -/
theorem drawPoll_frame (s : State) : ∃ e n, (s.drawPoll).2 = { s with env := e, draws := n } ∧ e.tdo = s.env.tdo ∧
    e.alloc = s.env.alloc ∧ e.schedule = s.env.schedule := by
  unfold drawPoll
  split <;> exact ⟨_, _, rfl, rfl, rfl, rfl⟩

@[simp] theorem drawPoll_params (s : State) : (s.drawPoll).2.params = s.params := by
  obtain ⟨e, n, h, -, -⟩ := s.drawPoll_frame
  rw [h]
@[simp] theorem drawPoll_currentState (s : State) : (s.drawPoll).2.currentState = s.currentState := by
  obtain ⟨e, n, h, -, -⟩ := s.drawPoll_frame
  rw [h]
@[simp] theorem drawPoll_lastTmsLevel (s : State) : (s.drawPoll).2.lastTmsLevel = s.lastTmsLevel := by
  obtain ⟨e, n, h, -, -⟩ := s.drawPoll_frame
  rw [h]
@[simp] theorem drawPoll_activeTransferMode (s : State) : (s.drawPoll).2.activeTransferMode = s.activeTransferMode := by
  obtain ⟨e, n, h, -, -⟩ := s.drawPoll_frame
  rw [h]
@[simp] theorem drawPoll_interruptDriven (s : State) : (s.drawPoll).2.interruptDriven = s.interruptDriven := by
  obtain ⟨e, n, h, -, -⟩ := s.drawPoll_frame
  rw [h]
@[simp] theorem drawPoll_pinControlStrategy (s : State) : (s.drawPoll).2.pinControlStrategy = s.pinControlStrategy := by
  obtain ⟨e, n, h, -, -⟩ := s.drawPoll_frame
  rw [h]
@[simp] theorem drawPoll_exclusiveOpen (s : State) : (s.drawPoll).2.exclusiveOpen = s.exclusiveOpen := by
  obtain ⟨e, n, h, -, -⟩ := s.drawPoll_frame
  rw [h]
@[simp] theorem drawPoll_requestedFreq (s : State) : (s.drawPoll).2.requestedFreq = s.requestedFreq := by
  obtain ⟨e, n, h, -, -⟩ := s.drawPoll_frame
  rw [h]
@[simp] theorem drawPoll_chan (s : State) : (s.drawPoll).2.chan = s.chan := by
  obtain ⟨e, n, h, -, -⟩ := s.drawPoll_frame
  rw [h]
@[simp] theorem drawPoll_xfer (s : State) : (s.drawPoll).2.xfer = s.xfer := by
  obtain ⟨e, n, h, -, -⟩ := s.drawPoll_frame
  rw [h]
@[simp] theorem drawPoll_xferLock (s : State) : (s.drawPoll).2.xferLock = s.xferLock := by
  obtain ⟨e, n, h, -, -⟩ := s.drawPoll_frame
  rw [h]
@[simp] theorem drawPoll_lines (s : State) : (s.drawPoll).2.lines = s.lines := by
  obtain ⟨e, n, h, -, -⟩ := s.drawPoll_frame
  rw [h]
@[simp] theorem drawPoll_trace (s : State) : (s.drawPoll).2.trace = s.trace := by
  obtain ⟨e, n, h, -, -⟩ := s.drawPoll_frame
  rw [h]
@[simp] theorem drawPoll_response (s : State) : (s.drawPoll).2.response = s.response := by
  obtain ⟨e, n, h, -, -⟩ := s.drawPoll_frame
  rw [h]
@[simp] theorem drawPoll_inbox (s : State) : (s.drawPoll).2.inbox = s.inbox := by
  obtain ⟨e, n, h, -, -⟩ := s.drawPoll_frame
  rw [h]
@[simp] theorem drawPoll_env_tdo (s : State) : (s.drawPoll).2.env.tdo = s.env.tdo := by
  unfold drawPoll
  split <;> rfl
@[simp] theorem drawPoll_env_alloc (s : State) : (s.drawPoll).2.env.alloc = s.env.alloc := by
  unfold drawPoll
  split <;> rfl
@[simp] theorem drawPoll_env_schedule (s : State) : s.drawPoll.2.env.schedule = s.env.schedule := by
  unfold drawPoll
  split <;> rfl

/-- `drawTurn` changes its own answers and the counter only. -/
theorem drawTurn_frame (s : State) : ∃ e n, (s.drawTurn).2 = { s with env := e, draws := n } ∧ e.tdo = s.env.tdo ∧
    e.polls = s.env.polls ∧ e.alloc = s.env.alloc := by
  unfold drawTurn
  split <;> exact ⟨_, _, rfl, rfl, rfl, rfl⟩

/-- `whoMoves` changes the schedule's answers and the counter only. -/
theorem whoMoves_frame (s : State) (a b : Agent) : ∃ e n, (s.whoMoves a b).2 = { s with env := e, draws := n } ∧
    e.tdo = s.env.tdo ∧ e.polls = s.env.polls ∧ e.alloc = s.env.alloc := s.drawTurn_frame

@[simp] theorem drawTurn_params (s : State) : (s.drawTurn).2.params = s.params := by
  obtain ⟨e, n, h, -, -⟩ := s.drawTurn_frame
  rw [h]
@[simp] theorem drawTurn_currentState (s : State) : (s.drawTurn).2.currentState = s.currentState := by
  obtain ⟨e, n, h, -, -⟩ := s.drawTurn_frame
  rw [h]
@[simp] theorem drawTurn_lastTmsLevel (s : State) : (s.drawTurn).2.lastTmsLevel = s.lastTmsLevel := by
  obtain ⟨e, n, h, -, -⟩ := s.drawTurn_frame
  rw [h]
@[simp] theorem drawTurn_activeTransferMode (s : State) : (s.drawTurn).2.activeTransferMode = s.activeTransferMode := by
  obtain ⟨e, n, h, -, -⟩ := s.drawTurn_frame
  rw [h]
@[simp] theorem drawTurn_interruptDriven (s : State) : (s.drawTurn).2.interruptDriven = s.interruptDriven := by
  obtain ⟨e, n, h, -, -⟩ := s.drawTurn_frame
  rw [h]
@[simp] theorem drawTurn_pinControlStrategy (s : State) : (s.drawTurn).2.pinControlStrategy = s.pinControlStrategy := by
  obtain ⟨e, n, h, -, -⟩ := s.drawTurn_frame
  rw [h]
@[simp] theorem drawTurn_exclusiveOpen (s : State) : (s.drawTurn).2.exclusiveOpen = s.exclusiveOpen := by
  obtain ⟨e, n, h, -, -⟩ := s.drawTurn_frame
  rw [h]
@[simp] theorem drawTurn_requestedFreq (s : State) : (s.drawTurn).2.requestedFreq = s.requestedFreq := by
  obtain ⟨e, n, h, -, -⟩ := s.drawTurn_frame
  rw [h]
@[simp] theorem drawTurn_chan (s : State) : (s.drawTurn).2.chan = s.chan := by
  obtain ⟨e, n, h, -, -⟩ := s.drawTurn_frame
  rw [h]
@[simp] theorem drawTurn_xfer (s : State) : (s.drawTurn).2.xfer = s.xfer := by
  obtain ⟨e, n, h, -, -⟩ := s.drawTurn_frame
  rw [h]
@[simp] theorem drawTurn_xferLock (s : State) : (s.drawTurn).2.xferLock = s.xferLock := by
  obtain ⟨e, n, h, -, -⟩ := s.drawTurn_frame
  rw [h]
@[simp] theorem drawTurn_lines (s : State) : (s.drawTurn).2.lines = s.lines := by
  obtain ⟨e, n, h, -, -⟩ := s.drawTurn_frame
  rw [h]
@[simp] theorem drawTurn_trace (s : State) : (s.drawTurn).2.trace = s.trace := by
  obtain ⟨e, n, h, -, -⟩ := s.drawTurn_frame
  rw [h]
@[simp] theorem drawTurn_response (s : State) : (s.drawTurn).2.response = s.response := by
  obtain ⟨e, n, h, -, -⟩ := s.drawTurn_frame
  rw [h]
@[simp] theorem drawTurn_inbox (s : State) : (s.drawTurn).2.inbox = s.inbox := by
  obtain ⟨e, n, h, -, -⟩ := s.drawTurn_frame
  rw [h]
@[simp] theorem drawTurn_env_tdo (s : State) : s.drawTurn.2.env.tdo = s.env.tdo := by
  unfold drawTurn
  split <;> rfl
@[simp] theorem drawTurn_env_polls (s : State) : s.drawTurn.2.env.polls = s.env.polls := by
  unfold drawTurn
  split <;> rfl
@[simp] theorem drawTurn_env_alloc (s : State) : s.drawTurn.2.env.alloc = s.env.alloc := by
  unfold drawTurn
  split <;> rfl

/-- `drawAlloc` changes its own answers and the counter only. -/
theorem drawAlloc_frame (s : State) : ∃ e n, (s.drawAlloc).2 = { s with env := e, draws := n } ∧ e.tdo = s.env.tdo ∧
    e.polls = s.env.polls ∧ e.schedule = s.env.schedule := by
  unfold drawAlloc
  split <;> exact ⟨_, _, rfl, rfl, rfl, rfl⟩

@[simp] theorem drawAlloc_params (s : State) : (s.drawAlloc).2.params = s.params := by
  obtain ⟨e, n, h, -, -⟩ := s.drawAlloc_frame
  rw [h]
@[simp] theorem drawAlloc_currentState (s : State) : (s.drawAlloc).2.currentState = s.currentState := by
  obtain ⟨e, n, h, -, -⟩ := s.drawAlloc_frame
  rw [h]
@[simp] theorem drawAlloc_lastTmsLevel (s : State) : (s.drawAlloc).2.lastTmsLevel = s.lastTmsLevel := by
  obtain ⟨e, n, h, -, -⟩ := s.drawAlloc_frame
  rw [h]
@[simp] theorem drawAlloc_activeTransferMode (s : State) : (s.drawAlloc).2.activeTransferMode = s.activeTransferMode := by
  obtain ⟨e, n, h, -, -⟩ := s.drawAlloc_frame
  rw [h]
@[simp] theorem drawAlloc_interruptDriven (s : State) : (s.drawAlloc).2.interruptDriven = s.interruptDriven := by
  obtain ⟨e, n, h, -, -⟩ := s.drawAlloc_frame
  rw [h]
@[simp] theorem drawAlloc_pinControlStrategy (s : State) : (s.drawAlloc).2.pinControlStrategy = s.pinControlStrategy := by
  obtain ⟨e, n, h, -, -⟩ := s.drawAlloc_frame
  rw [h]
@[simp] theorem drawAlloc_exclusiveOpen (s : State) : (s.drawAlloc).2.exclusiveOpen = s.exclusiveOpen := by
  obtain ⟨e, n, h, -, -⟩ := s.drawAlloc_frame
  rw [h]
@[simp] theorem drawAlloc_requestedFreq (s : State) : (s.drawAlloc).2.requestedFreq = s.requestedFreq := by
  obtain ⟨e, n, h, -, -⟩ := s.drawAlloc_frame
  rw [h]
@[simp] theorem drawAlloc_chan (s : State) : (s.drawAlloc).2.chan = s.chan := by
  obtain ⟨e, n, h, -, -⟩ := s.drawAlloc_frame
  rw [h]
@[simp] theorem drawAlloc_xfer (s : State) : (s.drawAlloc).2.xfer = s.xfer := by
  obtain ⟨e, n, h, -, -⟩ := s.drawAlloc_frame
  rw [h]
@[simp] theorem drawAlloc_xferLock (s : State) : (s.drawAlloc).2.xferLock = s.xferLock := by
  obtain ⟨e, n, h, -, -⟩ := s.drawAlloc_frame
  rw [h]
@[simp] theorem drawAlloc_lines (s : State) : (s.drawAlloc).2.lines = s.lines := by
  obtain ⟨e, n, h, -, -⟩ := s.drawAlloc_frame
  rw [h]
@[simp] theorem drawAlloc_trace (s : State) : (s.drawAlloc).2.trace = s.trace := by
  obtain ⟨e, n, h, -, -⟩ := s.drawAlloc_frame
  rw [h]
@[simp] theorem drawAlloc_response (s : State) : (s.drawAlloc).2.response = s.response := by
  obtain ⟨e, n, h, -, -⟩ := s.drawAlloc_frame
  rw [h]
@[simp] theorem drawAlloc_inbox (s : State) : (s.drawAlloc).2.inbox = s.inbox := by
  obtain ⟨e, n, h, -, -⟩ := s.drawAlloc_frame
  rw [h]
@[simp] theorem drawAlloc_env_tdo (s : State) : (s.drawAlloc).2.env.tdo = s.env.tdo := by
  unfold drawAlloc
  split <;> rfl
@[simp] theorem drawAlloc_env_polls (s : State) : (s.drawAlloc).2.env.polls = s.env.polls := by
  unfold drawAlloc
  split <;> rfl
@[simp] theorem drawAlloc_env_schedule (s : State) : s.drawAlloc.2.env.schedule = s.env.schedule := by
  unfold drawAlloc
  split <;> rfl

@[simp] theorem drawTdo_loopback (s : State) (b : Bool) (h : s.env.tdo = .loopback) : s.drawTdo b = (b, s) := by
  simp [drawTdo, h]

@[simp] theorem drawPoll_healthy (s : State) (h : s.env.polls = .healthy) : s.drawPoll = (.inTime, s) := by
  simp [drawPoll, h]

@[simp] theorem drawPoll_stuck (s : State) (h : s.env.polls = .stuck) : s.drawPoll = (.expired 0, s) := by
  simp [drawPoll, h]

@[simp] theorem drawTurn_peripheralFirst (s : State) (h : s.env.schedule = .peripheralFirst) :
    s.drawTurn = (.peripheral, s) := by
  simp [drawTurn, h]

@[simp] theorem drawAlloc_granted (s : State) (h : s.env.alloc = .granted) : s.drawAlloc = (true, s) := by
  simp [drawAlloc, h]

/-- A TDO draw depends on the environment and the counter only. -/
theorem drawTdo_congr {s t : State} (b : Bool) (he : s.env = t.env) (hd : s.draws = t.draws) :
    (s.drawTdo b).1 = (t.drawTdo b).1 ∧ (s.drawTdo b).2.env = (t.drawTdo b).2.env ∧
      (s.drawTdo b).2.draws = (t.drawTdo b).2.draws := by
  unfold drawTdo
  rw [← he, ← hd]
  split <;> simp [hd, he]

/-- Outside the free values a TDO draw uses no counter, and a poll never touches TDO answers. -/
theorem drawTdo_loopback_keeps (s : State) (b : Bool) (h : s.env.tdo = .loopback) :
    (s.drawTdo b).2.env.tdo = .loopback := by
  simp [h]

end State

namespace Res

@[simp] theorem bind_ok {α β : Type} (a : α) (s : State) (f : α → State → Res β) : (Res.ok a s).bind f = f a s := rfl
@[simp] theorem bind_error {α β : Type} (e : ErrorKind) (s : State) (f : α → State → Res β) :
    (Res.error e s).bind f = .error e s := rfl
@[simp] theorem bind_hang {α β : Type} (s : State) (f : α → State → Res β) : (Res.hang s).bind f = .hang s := rfl
@[simp] theorem bind_refused {α β : Type} (q : Refusal) (f : α → State → Res β) : (Res.refused q).bind f = .refused q := rfl

/-- A sequence succeeds exactly when both parts do. -/
theorem bind_eq_ok {α β : Type} {r : Res α} {f : α → State → Res β} {b : β} {t : State} :
    r.bind f = .ok b t ↔ ∃ a s, r = .ok a s ∧ f a s = .ok b t := by
  cases r <;> simp [bind]

/-- A sequence fails exactly when its first part fails, or that succeeds and the second fails. -/
theorem bind_eq_error {α β : Type} {r : Res α} {f : α → State → Res β} {e : ErrorKind} {t : State} :
    r.bind f = .error e t ↔ r = .error e t ∨ ∃ a s, r = .ok a s ∧ f a s = .error e t := by
  cases r <;> simp [bind]

/-- A sequence hangs exactly when one of its parts does. -/
theorem bind_eq_hang {α β : Type} {r : Res α} {f : α → State → Res β} {t : State} :
    r.bind f = .hang t ↔ r = .hang t ∨ ∃ a s, r = .ok a s ∧ f a s = .hang t := by
  cases r <;> simp [bind]

/-- A sequence is refused exactly when one of its parts is. -/
theorem bind_eq_refused {α β : Type} {r : Res α} {f : α → State → Res β} {q : Refusal} :
    r.bind f = .refused q ↔ r = .refused q ∨ ∃ a s, r = .ok a s ∧ f a s = .refused q := by
  cases r <;> simp [bind]

theorem bind_assoc {α β γ : Type} (r : Res α) (f : α → State → Res β) (g : β → State → Res γ) :
    (r.bind f).bind g = r.bind fun a s => (f a s).bind g := by
  cases r <;> rfl

@[simp] theorem onError_ok {α : Type} (a : α) (s : State) (c : State → State) : (Res.ok a s).onError c = .ok a s := rfl
@[simp] theorem onError_error {α : Type} (e : ErrorKind) (s : State) (c : State → State) :
    (Res.error e s : Res α).onError c = .error e (c s) := rfl

theorem onError_eq_ok {α : Type} {r : Res α} {c : State → State} {a : α} {t : State} :
    r.onError c = .ok a t ↔ r = .ok a t := by
  cases r <;> simp [onError]

theorem onError_eq_error {α : Type} {r : Res α} {c : State → State} {e : ErrorKind} {t : State} :
    r.onError c = .error e t ↔ ∃ s, r = .error e s ∧ t = c s := by
  cases r <;> simp [onError, eq_comm]

theorem onError_eq_hang {α : Type} {r : Res α} {c : State → State} {t : State} : r.onError c = .hang t ↔ r = .hang t := by
  cases r <;> simp [onError]

@[simp] theorem failAs_ok {α : Type} (a : α) (s : State) (k : ErrorKind) : (Res.ok a s).failAs k = .ok a s := rfl

theorem failAs_eq_ok {α : Type} {r : Res α} {k : ErrorKind} {a : α} {t : State} :
    r.failAs k = .ok a t ↔ r = .ok a t := by
  cases r <;> simp [failAs]

theorem failAs_eq_error {α : Type} {r : Res α} {k e : ErrorKind} {t : State} :
    r.failAs k = .error e t ↔ e = k ∧ ∃ e', r = .error e' t := by
  cases r <;> simp [failAs, eq_comm, and_comm]

theorem failAs_eq_hang {α : Type} {r : Res α} {k : ErrorKind} {t : State} : r.failAs k = .hang t ↔ r = .hang t := by
  cases r <;> simp [failAs]

/-- An operation ends in a next state exactly when it succeeds, fails or hangs; what the response then is. -/
theorem finish_eq_next {r : Res (Word × List Byte)} {t : State} :
    r.finish = .next t ↔
      (∃ p s, r = .ok p s ∧ t = s.answer p.1 p.2) ∨ (∃ e s, r = .error e s ∧ t = s.raise e) ∨
        ∃ s, r = .hang s ∧ t = s.setResponse none := by
  cases r <;> simp [finish, eq_comm]

theorem finishUnit_eq_next {r : Res Unit} {t : State} :
    r.finishUnit = .next t ↔ (∃ s, r = .ok () s ∧ t = s.answer 0 []) ∨ (∃ e s, r = .error e s ∧ t = s.raise e) ∨
      ∃ s, r = .hang s ∧ t = s.setResponse none := by
  cases r <;> simp [finishUnit, finish, eq_comm]

theorem finishBytes_eq_next {r : Res (List Byte)} {t : State} :
    r.finishBytes = .next t ↔
      (∃ out s, r = .ok out s ∧ t = s.answer 0 out) ∨ (∃ e s, r = .error e s ∧ t = s.raise e) ∨
        ∃ s, r = .hang s ∧ t = s.setResponse none := by
  cases r <;> simp [finishBytes, finish, eq_comm]

@[simp] theorem finishUnit_ok (s : State) : (Res.ok () s).finishUnit = .next (s.answer 0 []) := rfl
@[simp] theorem finishUnit_error (e : ErrorKind) (s : State) : (Res.error e s : Res Unit).finishUnit = .next (s.raise e) := rfl
@[simp] theorem finishUnit_refused (q : Refusal) : (Res.refused q : Res Unit).finishUnit = .refused q := rfl
@[simp] theorem finishUnit_hang (s : State) : (Res.hang s : Res Unit).finishUnit = .next (s.setResponse none) := rfl
@[simp] theorem finishBytes_ok (out : List Byte) (s : State) : (Res.ok out s).finishBytes = .next (s.answer 0 out) := rfl
@[simp] theorem finishBytes_error (e : ErrorKind) (s : State) :
    (Res.error e s : Res (List Byte)).finishBytes = .next (s.raise e) := rfl
@[simp] theorem finishBytes_hang (s : State) : (Res.hang s : Res (List Byte)).finishBytes = .next (s.setResponse none) := rfl
@[simp] theorem finishBytes_refused (q : Refusal) : (Res.refused q : Res (List Byte)).finishBytes = .refused q := rfl

end Res

@[simp] theorem withSession_open {s : State} (k : Host.Outcome State Fault Refusal) (h : s.exclusiveOpen = true) :
    withSession s k = k := by
  simp [withSession, h]

@[simp] theorem withSession_closed {s : State} (k : Host.Outcome State Fault Refusal) (h : s.exclusiveOpen = false) :
    withSession s k = .refused .noSession := by
  simp [withSession, h]

/-- A command that answers a next state had its session open. -/
theorem withSession_eq_next {s t : State} {k : Host.Outcome State Fault Refusal} :
    withSession s k = .next t ↔ s.exclusiveOpen = true ∧ k = .next t := by
  unfold withSession
  split <;> simp_all

/-- The allocation point: granted, or OutOfMemory with nothing but the environment's answer used (R235). -/
theorem allocate_cases {α : Type} (s : State) (k : State → Res α) :
    (s.drawAlloc.1 = true ∧ allocate s k = k s.drawAlloc.2) ∨
      (s.drawAlloc.1 = false ∧ allocate s k = .error .outOfMemory s.drawAlloc.2) := by
  unfold allocate
  cases h : s.drawAlloc.1 <;> simp

@[simp] theorem allocate_granted {α : Type} (s : State) (k : State → Res α) (h : s.env.alloc = .granted) :
    allocate s k = k s := by
  simp [allocate, h]

/-- The end of a critical section: the outcome of its body under the lock, with the lock as it was before (R170). -/
theorem atomic_ok {α : Type} {f : State → Res α} {s t : State} {a : α} (h : f (s.setLock true) = .ok a t) :
    atomic f s = .ok a (t.setLock s.xferLock) := by
  simp [atomic, h]

theorem atomic_error {α : Type} {f : State → Res α} {s t : State} {e : ErrorKind} (h : f (s.setLock true) = .error e t) :
    atomic f s = .error e (t.setLock s.xferLock) := by
  simp [atomic, h]

theorem atomic_refused {α : Type} {f : State → Res α} {s : State} {q : Refusal} (h : f (s.setLock true) = .refused q) :
    atomic f s = .refused q := by
  simp [atomic, h]

end Sys2Proof.Machine
end

