-- ==== Sys2Proof/Laws/Clock.lean ====
section
/-! SUPPORT. What a pulse does, and what a run of pulses does. -/

namespace Sys2Proof.Machine

/-! The environment's answers to a run of cycles. -/

@[simp] theorem drawTdos_nil (s : State) : drawTdos [] s = ([], s) := rfl

theorem drawTdos_append (a b : List Bool) (s : State) :
    drawTdos (a ++ b) s = ((drawTdos a s).1 ++ (drawTdos b (drawTdos a s).2).1, (drawTdos b (drawTdos a s).2).2) := by
  induction a generalizing s with
  | nil => rfl
  | cons x xs ih => simp [drawTdos, ih]

@[simp] theorem drawTdos_length (l : List Bool) (s : State) : (drawTdos l s).1.length = l.length := by
  induction l generalizing s with
  | nil => rfl
  | cons x xs ih => simp [drawTdos, ih]

/-- A run of draws changes the environment's answers and the counter only. -/
theorem drawTdos_frame (l : List Bool) (s : State) :
    ∃ e n, (drawTdos l s).2 = { s with env := e, draws := n } ∧ e.polls = s.env.polls ∧ e.alloc = s.env.alloc := by
  induction l generalizing s with
  | nil => exact ⟨s.env, s.draws, rfl, rfl, rfl⟩
  | cons x xs ih =>
    obtain ⟨e, n, h, hp, ha⟩ := s.drawTdo_frame x
    obtain ⟨e', n', h', hp', ha'⟩ := ih (s.drawTdo x).2
    refine ⟨e', n', ?_, ?_, ?_⟩
    · rw [drawTdos, h', h]
    · rw [hp', State.drawTdo_env_polls]
    · rw [ha', State.drawTdo_env_alloc]

@[simp] theorem drawTdos_params (l : List Bool) (s : State) : (drawTdos l s).2.params = s.params := by
  obtain ⟨e, n, h, -, -⟩ := drawTdos_frame l s
  rw [h]
@[simp] theorem drawTdos_currentState (l : List Bool) (s : State) : (drawTdos l s).2.currentState = s.currentState := by
  obtain ⟨e, n, h, -, -⟩ := drawTdos_frame l s
  rw [h]
@[simp] theorem drawTdos_lastTmsLevel (l : List Bool) (s : State) : (drawTdos l s).2.lastTmsLevel = s.lastTmsLevel := by
  obtain ⟨e, n, h, -, -⟩ := drawTdos_frame l s
  rw [h]
@[simp] theorem drawTdos_activeTransferMode (l : List Bool) (s : State) : (drawTdos l s).2.activeTransferMode = s.activeTransferMode := by
  obtain ⟨e, n, h, -, -⟩ := drawTdos_frame l s
  rw [h]
@[simp] theorem drawTdos_interruptDriven (l : List Bool) (s : State) : (drawTdos l s).2.interruptDriven = s.interruptDriven := by
  obtain ⟨e, n, h, -, -⟩ := drawTdos_frame l s
  rw [h]
@[simp] theorem drawTdos_pinControlStrategy (l : List Bool) (s : State) : (drawTdos l s).2.pinControlStrategy = s.pinControlStrategy := by
  obtain ⟨e, n, h, -, -⟩ := drawTdos_frame l s
  rw [h]
@[simp] theorem drawTdos_exclusiveOpen (l : List Bool) (s : State) : (drawTdos l s).2.exclusiveOpen = s.exclusiveOpen := by
  obtain ⟨e, n, h, -, -⟩ := drawTdos_frame l s
  rw [h]
@[simp] theorem drawTdos_requestedFreq (l : List Bool) (s : State) : (drawTdos l s).2.requestedFreq = s.requestedFreq := by
  obtain ⟨e, n, h, -, -⟩ := drawTdos_frame l s
  rw [h]
@[simp] theorem drawTdos_chan (l : List Bool) (s : State) : (drawTdos l s).2.chan = s.chan := by
  obtain ⟨e, n, h, -, -⟩ := drawTdos_frame l s
  rw [h]
@[simp] theorem drawTdos_xfer (l : List Bool) (s : State) : (drawTdos l s).2.xfer = s.xfer := by
  obtain ⟨e, n, h, -, -⟩ := drawTdos_frame l s
  rw [h]
@[simp] theorem drawTdos_xferLock (l : List Bool) (s : State) : (drawTdos l s).2.xferLock = s.xferLock := by
  obtain ⟨e, n, h, -, -⟩ := drawTdos_frame l s
  rw [h]
@[simp] theorem drawTdos_lines (l : List Bool) (s : State) : (drawTdos l s).2.lines = s.lines := by
  obtain ⟨e, n, h, -, -⟩ := drawTdos_frame l s
  rw [h]
@[simp] theorem drawTdos_trace (l : List Bool) (s : State) : (drawTdos l s).2.trace = s.trace := by
  obtain ⟨e, n, h, -, -⟩ := drawTdos_frame l s
  rw [h]
@[simp] theorem drawTdos_response (l : List Bool) (s : State) : (drawTdos l s).2.response = s.response := by
  obtain ⟨e, n, h, -, -⟩ := drawTdos_frame l s
  rw [h]
@[simp] theorem drawTdos_inbox (l : List Bool) (s : State) : (drawTdos l s).2.inbox = s.inbox := by
  obtain ⟨e, n, h, -, -⟩ := drawTdos_frame l s
  rw [h]

@[simp] theorem drawTdos_unit (l : List Bool) (s : State) : (drawTdos l s).2.unit = s.unit := by
  simp [State.unit]
@[simp] theorem drawTdos_env_polls (l : List Bool) (s : State) : (drawTdos l s).2.env.polls = s.env.polls := by
  obtain ⟨e, n, h, hp, -⟩ := drawTdos_frame l s
  rw [h, ← hp]
@[simp] theorem drawTdos_env_alloc (l : List Bool) (s : State) : (drawTdos l s).2.env.alloc = s.env.alloc := by
  obtain ⟨e, n, h, -, ha⟩ := drawTdos_frame l s
  rw [h, ← ha]

/-- A draw does not depend on what a run leaves on the wire. -/
theorem drawTdo_wired (s : State) (l : Lines) (c : Bool) (e : List Event) (b : Bool) :
    (s.wired l c e).drawTdo b = ((s.drawTdo b).1, (s.drawTdo b).2.wired l c e) := by
  unfold State.drawTdo
  simp only [State.wired_env]
  split <;> rfl

theorem drawTdos_wired (s : State) (l : Lines) (c : Bool) (e : List Event) (bs : List Bool) :
    drawTdos bs (s.wired l c e) = ((drawTdos bs s).1, (drawTdos bs s).2.wired l c e) := by
  induction bs generalizing s with
  | nil => rfl
  | cons x xs ih => simp [drawTdos, drawTdo_wired, ih]

theorem drawTdo_setChan (s : State) (c : Channel) (b : Bool) :
    (s.setChan c).drawTdo b = ((s.drawTdo b).1, (s.drawTdo b).2.setChan c) := by
  unfold State.drawTdo
  simp only [State.setChan_env]
  split <;> rfl

theorem drawTdos_setChan (s : State) (c : Channel) (bs : List Bool) :
    drawTdos bs (s.setChan c) = ((drawTdos bs s).1, (drawTdos bs s).2.setChan c) := by
  induction bs generalizing s with
  | nil => rfl
  | cons x xs ih => simp [drawTdos, drawTdo_setChan, ih]

theorem drawTdo_setCurrentState (s : State) (t : TapState) (b : Bool) :
    (s.setCurrentState t).drawTdo b = ((s.drawTdo b).1, (s.drawTdo b).2.setCurrentState t) := by
  unfold State.drawTdo
  simp only [State.setCurrentState_env]
  split <;> rfl

theorem drawTdos_setCurrentState (s : State) (t : TapState) (bs : List Bool) :
    drawTdos bs (s.setCurrentState t) = ((drawTdos bs s).1, (drawTdos bs s).2.setCurrentState t) := by
  induction bs generalizing s with
  | nil => rfl
  | cons x xs ih => simp [drawTdos, drawTdo_setCurrentState, ih]

/-- Draws depend on the environment and the counter only. -/
theorem drawTdos_congr (l : List Bool) {s t : State} (he : s.env = t.env) (hd : s.draws = t.draws) :
    (drawTdos l s).1 = (drawTdos l t).1 ∧ (drawTdos l s).2.env = (drawTdos l t).2.env ∧
      (drawTdos l s).2.draws = (drawTdos l t).2.draws := by
  induction l generalizing s t with
  | nil => exact ⟨rfl, he, hd⟩
  | cons x xs ih =>
    obtain ⟨h1, h2, h3⟩ := State.drawTdo_congr x he hd
    obtain ⟨i1, i2, i3⟩ := ih h2 h3
    exact ⟨by simp [drawTdos, h1, i1], i2, i3⟩

/-- In the loop-back fixture every answer is the TDI level (R13). -/
theorem drawTdos_loopback (l : List Bool) (s : State) (h : s.env.tdo = .loopback) : drawTdos l s = (l, s) := by
  induction l generalizing s with
  | nil => rfl
  | cons x xs ih => simp [drawTdos, h, ih]

/-! One pulse. -/

/-- The TMS level a pulse drives: the operand, unless the cache elides the write (R141). -/
def pulsedTms (s : State) (tms : Bool) : Bool := if tms = s.lastTmsLevel then s.lines.tms else tms

theorem pulsedTms_cached {s : State} (tms : Bool) (h : s.lastTmsLevel = s.lines.tms) : pulsedTms s tms = tms := by
  unfold pulsedTms
  split <;> simp_all

/-- The lines after a pulse: what the peripheral drives is untouched (R39, R140). -/
def Lines.pulsed (l : Lines) (tms tdi : Bool) : Lines := { l with tck := false, tms := tms, tdiLine := tdi }

@[simp] theorem Lines.pulsed_tck (l : Lines) (tms tdi : Bool) : (l.pulsed tms tdi).tck = false := rfl
@[simp] theorem Lines.pulsed_tms (l : Lines) (tms tdi : Bool) : (l.pulsed tms tdi).tms = tms := rfl
@[simp] theorem Lines.pulsed_tdiLine (l : Lines) (tms tdi : Bool) : (l.pulsed tms tdi).tdiLine = tdi := rfl
@[simp] theorem Lines.pulsed_tdiPeripheral (l : Lines) (tms tdi : Bool) :
    (l.pulsed tms tdi).tdiPeripheral = l.tdiPeripheral := rfl
@[simp] theorem Lines.pulsed_pulsed (l : Lines) (tms tdi tms' tdi' : Bool) :
    (l.pulsed tms tdi).pulsed tms' tdi' = l.pulsed tms' tdi' := rfl

/-- A pulse that does not sample: two lines, the cache, one event (R140, R141, R143). -/
theorem pulse_unsampled (tms tdi : Bool) (s : State) :
    pulse false tms tdi s =
      (false, s.wired (s.lines.pulsed (pulsedTms s tms) tdi) tms [.cycle .bb (pulsedTms s tms) tdi none]) := by
  simp only [pulse, pulsedTms, Prod.mk.injEq, Bool.false_eq_true, if_false]
  split <;> simp_all [State.ext_iff, Lines.pulsed, State.setLine, State.setLines, State.setCache, State.emit]

/-- A pulse that samples: the same and one TDO draw (R140, R142). -/
theorem pulse_sampled (tms tdi : Bool) (s : State) :
    pulse true tms tdi s =
      ((s.drawTdo tdi).1, (s.drawTdo tdi).2.wired (s.lines.pulsed (pulsedTms s tms) tdi) tms
        [.cycle .bb (pulsedTms s tms) tdi (some (s.drawTdo tdi).1)]) := by
  have key : ∀ u : State, u.env = s.env → u.draws = s.draws →
      (u.drawTdo tdi).1 = (s.drawTdo tdi).1 ∧ (u.drawTdo tdi).2.env = (s.drawTdo tdi).2.env ∧
        (u.drawTdo tdi).2.draws = (s.drawTdo tdi).2.draws :=
    fun u he hd => State.drawTdo_congr tdi he hd
  simp only [pulse, pulsedTms, if_true]
  split
  · obtain ⟨h1, h2, h3⟩ := key ((s.setLine .tdi tdi).setLine .tck true) rfl rfl
    simp_all [State.ext_iff, Lines.pulsed]
  · obtain ⟨h1, h2, h3⟩ := key ((((s.setLine .tdi tdi).setLine .tms tms).setCache tms).setLine .tck true) rfl rfl
    simp_all [State.ext_iff, Lines.pulsed]

/-- Pins as plain lines: the pulse happens (R144). -/
theorem pulseClock_line (sampleTdo tms tdi : Bool) {s : State} (h : s.chan.pinFunction = .line) :
    pulseClock sampleTdo tms tdi s = .ok (pulse sampleTdo tms tdi s).1 (pulse sampleTdo tms tdi s).2 := by
  simp [pulseClock, State.channelEnabled, h]

/-- Pins with the peripheral: the pulse is refused (R144). -/
theorem pulseClock_peripheral (sampleTdo tms tdi : Bool) {s : State} (h : s.chan.pinFunction = .peripheral) :
    pulseClock sampleTdo tms tdi s = .refused .pulseInPeripheralFunction := by
  simp [pulseClock, State.channelEnabled, h]

/-! Runs of pulses. -/

theorem linesAfterTms_cons (s u : State) (t : Bool) (ts : List Bool) (h : u.lines = s.lines.pulsed t false) :
    linesAfterTms u ts = linesAfterTms s (t :: ts) := by
  cases ts <;> simp [linesAfterTms, h, List.getLast?_cons, Lines.pulsed]

/-- A run of unsampled pulses with TDI 0: the last level stays, one event each (R126). -/
theorem clockTms_line (l : List Bool) {s : State} (h : s.chan.pinFunction = .line) (hc : s.lastTmsLevel = s.lines.tms) :
    clockTms l s = .ok () (s.wired (linesAfterTms s l) (linesAfterTms s l).tms (transitionEvents l)) := by
  induction l generalizing s with
  | nil => simp [clockTms, linesAfterTms, transitionEvents, State.wired_nil hc]
  | cons x xs ih =>
    rw [clockTms, pulseClock_line _ _ _ h, pulse_unsampled, pulsedTms_cached _ hc]
    simp only [Res.bind]
    rw [ih (by exact h) rfl, State.wired_wired, linesAfterTms_cons s _ x xs rfl]
    simp [transitionEvents]

/-- `n` idle pulses are a run of low TMS levels (R200). -/
theorem clockIdle_eq_clockTms (n : Nat) (s : State) : clockIdle n s = clockTms (List.replicate n false) s := by
  induction n generalizing s with
  | zero => rfl
  | succ n ih =>
    simp only [clockIdle, List.replicate_succ, clockTms]
    cases pulseClock false false false s <;> simp [Res.bind, ih]

theorem linesAfterPairs_cons (s u : State) (x : Byte) (xs : List Byte)
    (h : u.lines = s.lines.pulsed (pairTms x) (pairTdi x)) : linesAfterPairs u xs = linesAfterPairs s (x :: xs) := by
  cases xs <;> simp [linesAfterPairs, h, List.getLast?_cons, Lines.pulsed]

/-- A run of sampled pulses: one answer each, the last pair's levels stay (R222). -/
theorem clockPairs_line (l : List Byte) {s : State} (h : s.chan.pinFunction = .line)
    (hc : s.lastTmsLevel = s.lines.tms) :
    clockPairs l s = .ok ((drawTdos (l.map pairTdi) s).1.map bitByte)
      ((drawTdos (l.map pairTdi) s).2.wired (linesAfterPairs s l) (linesAfterPairs s l).tms
        (pairEvents l (drawTdos (l.map pairTdi) s).1)) := by
  induction l generalizing s with
  | nil => simp [clockPairs, linesAfterPairs, pairEvents, State.wired_nil hc]
  | cons x xs ih =>
    rw [clockPairs, pulseClock_line _ _ _ h, pulse_sampled, pulsedTms_cached _ hc]
    simp only [Res.bind]
    rw [ih (by simpa using h) rfl, linesAfterPairs_cons s _ x xs rfl, drawTdos_wired]
    simp [drawTdos, pairEvents]

end Sys2Proof.Machine
end

