-- ==== Sys2Proof/Laws/Tap.lean ====
section
/-! SUPPORT. The graph, the shortest paths and applyTransition. -/

namespace Sys2Proof.Machine

@[simp] theorem walk_nil (t : TapState) : walk t [] = t := rfl

@[simp] theorem walk_cons (t : TapState) (b : Bool) (l : List Bool) : walk t (b :: l) = walk (tapNext t b) l := rfl

@[simp] theorem walk_append (t : TapState) (a b : List Bool) : walk t (a ++ b) = walk (walk t a) b := by
  simp [walk, List.foldl_append]

/-- A shortest path ends where it should (R123). -/
theorem walk_computeTransition (src dest : TapState) : walk src (computeTransition src dest) = dest := by
  cases src <;> cases dest <;> decide

/-- No path is longer than eight (R123). -/
theorem computeTransition_length (src dest : TapState) : (computeTransition src dest).length ≤ 8 := by
  cases src <;> cases dest <;> decide

@[simp] theorem computeTransition_self (t : TapState) : computeTransition t t = [] := by
  cases t <;> decide

theorem computeTransition_eq_nil {src dest : TapState} : computeTransition src dest = [] ↔ src = dest := by
  cases src <;> cases dest <;> decide

/-- A Shift state is entered with TMS low (R122 (e)). -/
theorem getLast_computeTransition_shift (src dest : TapState) (hd : dest.isShift = true) (h : src ≠ dest) :
    (computeTransition src dest).getLast? = some false := by
  revert hd h
  cases src <;> cases dest <;> decide

/-- Nine high levels reset every target (R122 (d), R127). -/
theorem walk_nine (t : TapState) : walk t (List.replicate 9 true) = .testLogicReset := by
  cases t <;> decide

/-- Every transition takes a target that stands in its source to its destination (R126, R127). -/
theorem walk_transitionTms (src dest : TapState) : walk src (transitionTms src dest) = dest := by
  unfold transitionTms
  split
  · next h => rw [walk_nine, h]
  · exact walk_computeTransition src dest

@[simp] theorem transitionTms_self {t : TapState} (h : t ≠ .testLogicReset) : transitionTms t t = [] := by
  simp [transitionTms, h]

/-- A TMS-low run stays in a state that loops on it (R122 (c)). -/
theorem walk_replicate_false {t : TapState} (h : tapNext t false = t) (n : Nat) : walk t (List.replicate n false) = t := by
  induction n with
  | zero => rfl
  | succ n ih => rw [List.replicate_succ, walk_cons, h, ih]

@[simp] theorem tapNext_shift_false {t : TapState} (h : t.isShift = true) : tapNext t false = t := by
  cases t <;> simp_all [TapState.isShift, tapNext]

theorem tapNext_shift_true {t : TapState} (h : t.isShift = true) : tapNext t true = t.exit1 := by
  cases t <;> simp_all [TapState.isShift, tapNext, TapState.exit1]

@[simp] theorem ofCode_code (t : TapState) : TapState.ofCode t.code = some t := by
  cases t <;> decide

theorem ofCode_eq_some {c : Byte} {t : TapState} : TapState.ofCode c = some t ↔ c = t.code := by
  constructor
  · intro h
    unfold TapState.ofCode at h
    apply BitVec.eq_of_toNat_eq
    split at h <;> first | (simp at h; done) | (cases h; simp_all [TapState.code])
  · rintro rfl
    exact ofCode_code t

theorem ofCode_eq_none {c : Byte} : TapState.ofCode c = none ↔ 15 < c.toNat := by
  constructor
  · intro h
    by_contra hc
    have : ∀ c : Fin 16, TapState.ofCode (BitVec.ofNat 8 c.val) ≠ none := by decide
    exact this ⟨c.toNat, by omega⟩ (by simpa using h)
  · intro h
    cases hc : TapState.ofCode c with
    | none => rfl
    | some t =>
      rw [ofCode_eq_some] at hc
      subst hc
      revert h
      cases t <;> decide

@[simp] theorem resolveFrom_current (t : TapState) : resolveFrom currentCode t = some t := rfl

@[simp] theorem resolveFrom_code (src t : TapState) : resolveFrom src.code t = some src := by
  have : src.code ≠ currentCode := by cases src <;> decide
  simp [resolveFrom, this]

theorem resolveFrom_eq_none {c : Byte} {t : TapState} : resolveFrom c t = none ↔ 16 < c.toNat := by
  unfold resolveFrom
  split
  · next h => simp [h, currentCode]
  · next h =>
    rw [ofCode_eq_none]
    have : c.toNat ≠ 16 := fun hc => h (BitVec.eq_of_toNat_eq (by simpa [currentCode] using hc))
    omega

/-- applyTransition between states, on plain lines (R126, R127). -/
theorem driveTransition_line (src dest : TapState) {s : State} (h : s.chan.pinFunction = .line)
    (hc : s.lastTmsLevel = s.lines.tms) :
    driveTransition src dest s = .ok () ((s.wired (linesAfterTms s (transitionTms src dest))
      (linesAfterTms s (transitionTms src dest)).tms (transitionEvents (transitionTms src dest))).setCurrentState dest) := by
  simp [driveTransition, clockTms_line _ h hc, Res.bind]

/-- applyTransition on codes, on plain lines (R125, R126, R128). -/
theorem applyTransition_line {fromCode toCode : Byte} {src dest : TapState} {s : State}
    (h : s.chan.pinFunction = .line) (hc : s.lastTmsLevel = s.lines.tms)
    (hs : resolveFrom fromCode s.currentState = some src) (hd : TapState.ofCode toCode = some dest) :
    applyTransition fromCode toCode s = .ok () ((s.wired (linesAfterTms s (transitionTms src dest))
      (linesAfterTms s (transitionTms src dest)).tms (transitionEvents (transitionTms src dest))).setCurrentState dest) := by
  simp [applyTransition, hs, hd, driveTransition_line src dest h hc]

/-- applyTransition off the range (R125). -/
theorem applyTransition_illegal {fromCode toCode : Byte} {s : State} (h : 16 < fromCode.toNat ∨ 15 < toCode.toNat) :
    applyTransition fromCode toCode s = .error .invalidState s := by
  unfold applyTransition
  split
  · next hs hd =>
    rcases h with h | h
    · rw [← resolveFrom_eq_none (t := s.currentState)] at h
      simp_all
    · rw [← ofCode_eq_none] at h
      simp_all
  · rfl

/-! What a trace does to a target. -/

@[simp] theorem wireCycles_append (a b : List Event) : wireCycles (a ++ b) = wireCycles a ++ wireCycles b := by
  induction a with
  | nil => rfl
  | cons x xs ih => cases x <;> simp [wireCycles, ih]

@[simp] theorem wireCycles_transitionEvents (l : List Bool) : wireCycles (transitionEvents l) = transitionWire l := by
  induction l with
  | nil => rfl
  | cons x xs ih => simpa [transitionEvents, transitionWire, wireCycles] using ih

theorem targetAfter_append (t : TapState) (a b : List Event) : targetAfter t (a ++ b) = targetAfter (targetAfter t a) b := by
  simp [targetAfter]

@[simp] theorem targetAfter_transitionEvents (t : TapState) (l : List Bool) : targetAfter t (transitionEvents l) = walk t l := by
  simp [targetAfter, transitionWire, Function.comp_def]

end Sys2Proof.Machine
end

