-- ==== Sys2Proof/Laws/Adapter.lean ====
section
/-! SUPPORT. The bit-order adapter: what each bit of a reversed byte, an adapted unit and a sampled unit is. -/

namespace Sys2Proof

theorem UnitWidth.bits_eq (u : UnitWidth) : u.bits = 8 * u.bytes := by cases u <;> rfl

theorem UnitWidth.bits_pos (u : UnitWidth) : 0 < u.bits := by cases u <;> decide

theorem UnitWidth.bytes_pos (u : UnitWidth) : 0 < u.bytes := by cases u <;> decide

theorem UnitWidth.bits_le (u : UnitWidth) : u.bits ≤ 16 := by cases u <;> decide

namespace Machine

theorem unitLegal_w16 (v : Unit16) : unitLegal .w16 v = true := decide_eq_true v.isLt

theorem unitLegal_w8 (v : Unit16) : unitLegal .w8 v = true ↔ v.toNat < 256 := decide_eq_true_iff

theorem rev4_getLsbD (n : BitVec 4) (j : Nat) (h : j < 4) : (rev4 n).getLsbD j = n.getLsbD (3 - j) := by
  have key : ∀ n : BitVec 4, ∀ j : Fin 4, (rev4 n).getLsbD j.val = n.getLsbD (3 - j.val) := by decide
  exact key n ⟨j, h⟩

/-- `result[j] = x[7-j]` (R151). -/
theorem reverseNibbles_getLsbD (x : Byte) (j : Nat) (h : j < 8) :
    (reverseNibbles x).getLsbD j = x.getLsbD (7 - j) := by
  unfold reverseNibbles
  rw [BitVec.getLsbD_append]
  split
  · next h4 =>
    rw [rev4_getLsbD _ _ h4]
    simp only [BitVec.getLsbD_extractLsb']
    have h1 : 3 - j < 4 := by omega
    have h2 : 4 + (3 - j) = 7 - j := by omega
    simp [h1, h2]
  · next h4 =>
    rw [rev4_getLsbD _ _ (by omega)]
    simp only [BitVec.getLsbD_extractLsb']
    have h1 : 3 - (j - 4) < 4 := by omega
    have h2 : 0 + (3 - (j - 4)) = 7 - j := by omega
    simp [h1, h2]

@[simp] theorem reverseNibbles_reverseNibbles (x : Byte) : reverseNibbles (reverseNibbles x) = x := by
  apply BitVec.eq_of_getLsbD_eq
  intro j h
  rw [reverseNibbles_getLsbD _ _ h, reverseNibbles_getLsbD _ _ (by omega)]
  congr 1
  omega

@[simp] theorem lowByte_setWidth (x : Byte) : lowByte (x.setWidth 16) = x := by
  apply BitVec.eq_of_toNat_eq
  have := x.isLt
  simp [lowByte, BitVec.toNat_setWidth]
  omega

@[simp] theorem lowByte_append (x y : Byte) : lowByte (x ++ y) = y := by
  apply BitVec.eq_of_getLsbD_eq
  intro j h
  simp only [lowByte, BitVec.getLsbD_extractLsb', BitVec.getLsbD_append, h, Nat.zero_add, decide_true, Bool.true_and,
    if_true]

@[simp] theorem highByte_append (x y : Byte) : highByte (x ++ y) = x := by
  apply BitVec.eq_of_getLsbD_eq
  intro j h
  have h1 : ¬ 8 + j < 8 := by omega
  simp only [highByte, BitVec.getLsbD_extractLsb', BitVec.getLsbD_append, h, h1, decide_true, Bool.true_and, if_false,
    Nat.add_sub_cancel_left]

theorem append_bytes (v : Unit16) : highByte v ++ lowByte v = v := by
  apply BitVec.eq_of_getLsbD_eq
  intro j h
  simp only [highByte, lowByte, BitVec.getLsbD_append, BitVec.getLsbD_extractLsb']
  split
  · next h8 => simp [h8]
  · next h8 =>
    have h1 : j - 8 < 8 := by omega
    have h2 : 8 + (j - 8) = j := by omega
    simp [h1, h2]

/-- A legal 8-bit unit is its low byte. -/
theorem setWidth_lowByte {v : Unit16} (h : unitLegal .w8 v = true) : (lowByte v).setWidth 16 = v := by
  rw [unitLegal_w8] at h
  apply BitVec.eq_of_toNat_eq
  simp [lowByte]
  omega

@[simp] theorem cutUnit_legal (u : UnitWidth) (v : Unit16) : unitLegal u (cutUnit u v) = true := by
  cases u with
  | w8 =>
    simp only [unitLegal_w8, cutUnit, BitVec.toNat_setWidth]
    have := (lowByte v).isLt
    omega
  | w16 => exact unitLegal_w16 _

theorem cutUnit_eq {u : UnitWidth} {v : Unit16} (h : unitLegal u v = true) : cutUnit u v = v := by
  cases u with
  | w8 => exact setWidth_lowByte h
  | w16 => rfl

/-- `adapt(v)[U-1-k] = v[k]` (R152). -/
theorem adapt_getLsbD (u : UnitWidth) (v : Unit16) (k : Nat) (h : k < u.bits) :
    (adapt u v).getLsbD (u.bits - 1 - k) = v.getLsbD k := by
  cases u with
  | w8 =>
    simp only [UnitWidth.bits] at h ⊢
    simp only [adapt, BitVec.getLsbD_setWidth]
    rw [reverseNibbles_getLsbD _ _ (by omega)]
    have h1 : 8 - 1 - k < 16 := by omega
    have h2 : 7 - (8 - 1 - k) = k := by omega
    simp [h1, h2, lowByte, h]
  | w16 =>
    simp only [UnitWidth.bits] at h ⊢
    simp only [adapt, BitVec.getLsbD_append]
    split
    · next h8 =>
      rw [reverseNibbles_getLsbD _ _ h8]
      have h1 : 7 - (16 - 1 - k) < 8 := by omega
      have h2 : 8 + (7 - (16 - 1 - k)) = k := by omega
      simp only [highByte, BitVec.getLsbD_extractLsb', h1, h2, decide_true, Bool.true_and]
    · next h8 =>
      rw [reverseNibbles_getLsbD _ _ (by omega)]
      have h1 : 7 - (16 - 1 - k - 8) < 8 := by omega
      have h2 : 0 + (7 - (16 - 1 - k - 8)) = k := by omega
      simp only [lowByte, BitVec.getLsbD_extractLsb', h1, h2, decide_true, Bool.true_and]

theorem adapt_getLsbD' (u : UnitWidth) (v : Unit16) (j : Nat) (h : j < u.bits) :
    (adapt u v).getLsbD j = v.getLsbD (u.bits - 1 - j) := by
  rw [← adapt_getLsbD u v (u.bits - 1 - j) (by omega)]
  congr 1
  omega

/-- The adapter undoes itself (R152). -/
theorem adapt_adapt {u : UnitWidth} {v : Unit16} (h : unitLegal u v = true) : adapt u (adapt u v) = v := by
  cases u with
  | w8 => simp [adapt, setWidth_lowByte h]
  | w16 => simp [adapt, append_bytes]

@[simp] theorem adapt_legal (u : UnitWidth) (v : Unit16) : unitLegal u (adapt u v) = true := by
  cases u with
  | w8 =>
    simp only [unitLegal_w8, adapt, BitVec.toNat_setWidth]
    have := (reverseNibbles (lowByte v)).isLt
    omega
  | w16 => exact unitLegal_w16 _

/-! Units and bytes. -/

theorem bit_lt (buf : List Byte) (i : Nat) : bit buf i = (buf.getD (i / 8) 0).getLsbD (i % 8) := rfl

/-- `v[k] = bit(buf, 8p + k)` (R152). -/
theorem unitFromBytes_getLsbD (u : UnitWidth) (buf : List Byte) (p k : Nat) (h : k < u.bits) :
    (unitFromBytes u buf p).getLsbD k = bit buf (8 * p + k) := by
  cases u with
  | w8 =>
    simp only [UnitWidth.bits] at h
    have h1 : (8 * p + k) / 8 = p := by omega
    have h2 : (8 * p + k) % 8 = k := by omega
    have h3 : k < 16 := by omega
    simp only [unitFromBytes, bit, h1, h2, BitVec.getLsbD_setWidth, h3, decide_true, Bool.true_and]
  | w16 =>
    simp only [UnitWidth.bits] at h
    simp only [unitFromBytes, bit, BitVec.getLsbD_append]
    split
    · next h8 =>
      have h1 : (8 * p + k) / 8 = p := by omega
      have h2 : (8 * p + k) % 8 = k := by omega
      rw [h1, h2]
    · next h8 =>
      have h1 : (8 * p + k) / 8 = p + 1 := by omega
      have h2 : (8 * p + k) % 8 = k - 8 := by omega
      rw [h1, h2]

@[simp] theorem unitFromBytes_legal (u : UnitWidth) (buf : List Byte) (p : Nat) :
    unitLegal u (unitFromBytes u buf p) = true := by
  cases u with
  | w8 =>
    simp only [unitLegal_w8, unitFromBytes, BitVec.toNat_setWidth]
    have := (buf.getD p 0).isLt
    omega
  | w16 => exact unitLegal_w16 _

@[simp] theorem unitToBytes_length (u : UnitWidth) (v : Unit16) : (unitToBytes u v).length = u.bytes := by
  cases u <;> rfl

/-- Bit `k` of a unit's bytes is bit `k` of the unit (R152). -/
theorem bit_unitToBytes (u : UnitWidth) (v : Unit16) (k : Nat) (h : k < u.bits) :
    bit (unitToBytes u v) k = v.getLsbD k := by
  cases u with
  | w8 =>
    simp only [UnitWidth.bits] at h
    have h1 : k / 8 = 0 := by omega
    have h2 : k % 8 = k := by omega
    simp [bit, unitToBytes, h1, h2, lowByte, h]
  | w16 =>
    simp only [UnitWidth.bits] at h
    by_cases h8 : k < 8
    · have h1 : k / 8 = 0 := by omega
      have h2 : k % 8 = k := by omega
      simp [bit, unitToBytes, h1, h2, lowByte, h8]
    · have h1 : k / 8 = 1 := by omega
      have h2 : k % 8 < 8 := by omega
      have h3 : 8 + k % 8 = k := by omega
      simp [bit, unitToBytes, h1, h2, highByte, h3]

theorem unitFromBytes_unitToBytes {u : UnitWidth} {v : Unit16} (h : unitLegal u v = true) :
    unitFromBytes u (unitToBytes u v) 0 = v := by
  cases u with
  | w8 => simpa [unitFromBytes, unitToBytes] using setWidth_lowByte h
  | w16 => simpa [unitFromBytes, unitToBytes] using append_bytes v

@[simp] theorem unitBits_length (u : UnitWidth) (v : Unit16) : (unitBits u v).length = u.bits := by simp [unitBits]

/-- The peripheral emits an adapted unit in protocol order (R160). -/
theorem unitMsbFirst_adapt (u : UnitWidth) (v : Unit16) : unitMsbFirst u (adapt u v) = unitBits u v := by
  apply List.ext_getElem
  · simp [unitMsbFirst]
  · intro k h1 h2
    simp only [unitBits_length] at h2
    simp [unitMsbFirst, unitBits, adapt_getLsbD u v k h2]

theorem unitMsbFirst_eq (u : UnitWidth) (w : Unit16) : unitMsbFirst u w = unitBits u (adapt u w) := by
  apply List.ext_getElem
  · simp [unitMsbFirst]
  · intro k h1 h2
    simp only [unitBits_length] at h2
    simp [unitMsbFirst, unitBits, adapt_getLsbD' u w k h2]

/-! The unit the peripheral assembles. -/

theorem foldl_samples_getLsbD (l : List Bool) (r : Unit16) (j : Nat) (hj : j < 16) :
    (l.foldl (fun (r : Unit16) t => (r <<< 1) ||| (if t then 1#16 else 0#16)) r).getLsbD j =
      if j < l.length then l.getD (l.length - 1 - j) false else r.getLsbD (j - l.length) := by
  induction l generalizing r with
  | nil => simp
  | cons x xs ih =>
    rw [List.foldl_cons, ih]
    simp only [List.length_cons]
    by_cases h : j < xs.length
    · have h1 : j < xs.length + 1 := by omega
      have h2 : xs.length + 1 - 1 - j = (xs.length - 1 - j) + 1 := by omega
      simp only [h, h1, if_true, h2, List.getD_cons_succ]
    · by_cases he : j = xs.length
      · subst he
        simp only [Nat.lt_irrefl, if_false, Nat.sub_self, Nat.lt_succ_self, if_true, Nat.add_sub_cancel,
          List.getD_cons_zero, BitVec.getLsbD_or, BitVec.getLsbD_shiftLeft]
        cases x <;> simp
      · have h1 : ¬ j < xs.length + 1 := by omega
        simp only [h, h1, if_false, BitVec.getLsbD_or, BitVec.getLsbD_shiftLeft]
        have h2 : j - xs.length < 16 := by omega
        have h3 : ¬ j - xs.length < 1 := by omega
        have h4 : j - xs.length - 1 = j - (xs.length + 1) := by omega
        have h5 : (if x = true then 1#16 else 0#16).getLsbD (j - xs.length) = false := by
          cases x
          · simp
          · simp only [if_true, BitVec.getLsbD_one]
            have : ¬ (j - xs.length = 0) := by omega
            simp [this]
        rw [h5]
        simp [h2, h3, h4]

/-- `adapt(r)[j]` is the bit sampled in cycle `j` (R160). -/
theorem adapt_unitOfSamples {u : UnitWidth} {samples : List Bool} (hl : samples.length = u.bits) (j : Nat)
    (hj : j < u.bits) : (adapt u (unitOfSamples samples)).getLsbD j = samples.getD j false := by
  have hb := u.bits_le
  rw [adapt_getLsbD' u _ j hj, unitOfSamples, foldl_samples_getLsbD _ _ _ (by omega)]
  have h1 : u.bits - 1 - j < samples.length := by omega
  have h2 : samples.length - 1 - (u.bits - 1 - j) = j := by omega
  simp only [h1, if_true, h2]

@[simp] theorem unitOfSamples_legal {u : UnitWidth} {samples : List Bool} (hl : samples.length = u.bits) :
    unitLegal u (unitOfSamples samples) = true := by
  cases u with
  | w16 => exact unitLegal_w16 _
  | w8 =>
    simp only [UnitWidth.bits] at hl
    rw [unitLegal_w8]
    apply Nat.lt_pow_two_of_testBit (n := 8)
    intro j hj
    rw [← BitVec.getLsbD]
    by_cases h16 : j < 16
    · rw [unitOfSamples, foldl_samples_getLsbD _ _ _ h16]
      have : ¬ j < samples.length := by omega
      simp [this]
    · exact BitVec.getLsbD_of_ge _ _ (by omega)

end Machine

end Sys2Proof
end

