-- ==== Sys2Proof/Laws/Channel.lean ====
section
/-! SUPPORT. The hardware shift channel: the peripheral's step, configure, send, receive, and the two variants when the
peripheral is healthy. -/

namespace Sys2Proof.Machine

/-! The peripheral. -/

theorem linesAfterBits_tms (s : State) (bits : List Bool) : (linesAfterBits s bits).tms = s.lines.tms := by
  unfold linesAfterBits
  split <;> rfl

/-- A run of hardware cycles (R160). -/
theorem shiftCycles_eq (path : Path) (bits : List Bool) (s : State) :
    shiftCycles path bits s = ((drawTdos bits s).1, s.shifted path bits) := by
  induction bits generalizing s with
  | nil => simp [shiftCycles, State.shifted, linesAfterBits, sampledEvents]
  | cons b bs ih =>
    have key : (((s.driveTdi b).setLine .tck true).drawTdo b).1 = (s.drawTdo b).1 ∧
        ((((s.driveTdi b).setLine .tck true).drawTdo b).2.setLine .tck false).emit
            (.cycle path s.lines.tms b (some (s.drawTdo b).1)) =
          (s.drawTdo b).2.wired { s.lines with tck := false, tdiPeripheral := b } s.lastTmsLevel
            [.cycle path s.lines.tms b (some (s.drawTdo b).1)] := by
      obtain ⟨h1, h2, h3⟩ := State.drawTdo_congr (s := (s.driveTdi b).setLine .tck true) (t := s) b rfl rfl
      exact ⟨h1, by simp_all [State.ext_iff]⟩
    have ht : ((((s.driveTdi b).setLine .tck true).drawTdo b).2.setLine .tck false).lines.tms = s.lines.tms := by
      simp
    simp only [shiftCycles, ht, key.1, key.2, ih]
    refine Prod.ext ?_ ?_
    · simp [drawTdos, drawTdos_wired]
    · simp only [State.shifted, drawTdos, drawTdos_wired, State.wired_wired]
      cases bs with
      | nil => simp [linesAfterBits, sampledEvents]
      | cons c cs => simp [linesAfterBits, sampledEvents, List.getLast?_cons]

/-- What a run through the peripheral leaves. -/
@[simp] theorem shifted_chan (s : State) (p : Path) (l : List Bool) : (s.shifted p l).chan = s.chan := by
  simp [State.shifted]
@[simp] theorem shifted_params (s : State) (p : Path) (l : List Bool) : (s.shifted p l).params = s.params := by
  simp [State.shifted]
@[simp] theorem shifted_unit (s : State) (p : Path) (l : List Bool) : (s.shifted p l).unit = s.unit := by
  simp [State.shifted]
@[simp] theorem shifted_currentState (s : State) (p : Path) (l : List Bool) :
    (s.shifted p l).currentState = s.currentState := by
  simp [State.shifted]
@[simp] theorem shifted_xfer (s : State) (p : Path) (l : List Bool) : (s.shifted p l).xfer = s.xfer := by
  simp [State.shifted]
@[simp] theorem shifted_xferLock (s : State) (p : Path) (l : List Bool) : (s.shifted p l).xferLock = s.xferLock := by
  simp [State.shifted]
@[simp] theorem shifted_lastTmsLevel (s : State) (p : Path) (l : List Bool) :
    (s.shifted p l).lastTmsLevel = s.lastTmsLevel := by
  simp [State.shifted]
@[simp] theorem shifted_tms (s : State) (p : Path) (l : List Bool) : (s.shifted p l).lines.tms = s.lines.tms := by
  simp [State.shifted, linesAfterBits_tms]
@[simp] theorem shifted_polls (s : State) (p : Path) (l : List Bool) : (s.shifted p l).env.polls = s.env.polls := by
  simp [State.shifted]
@[simp] theorem shifted_interruptDriven (s : State) (p : Path) (l : List Bool) :
    (s.shifted p l).interruptDriven = s.interruptDriven := by
  simp [State.shifted]
@[simp] theorem shifted_nil (s : State) (p : Path) : s.shifted p [] = s := by
  simp [State.shifted, linesAfterBits, sampledEvents]
theorem shifted_trace (s : State) (p : Path) (l : List Bool) :
    (s.shifted p l).trace = s.trace ++ sampledEvents p s.lines.tms l (drawTdos l s).1 := by
  simp [State.shifted]

theorem drawTdos_shifted (s : State) (p : Path) (a b : List Bool) :
    drawTdos b (s.shifted p a) = ((drawTdos b (drawTdos a s).2).1, (drawTdos b (drawTdos a s).2).2.wired
      (linesAfterBits s a) s.lastTmsLevel (sampledEvents p s.lines.tms a (drawTdos a s).1)) := by
  rw [State.shifted, drawTdos_wired]

/-- Two runs are one. -/
theorem shifted_shifted (s : State) (p : Path) (a b : List Bool) : (s.shifted p a).shifted p b = s.shifted p (a ++ b) := by
  conv_lhs => rw [State.shifted, drawTdos_shifted]
  conv_rhs => rw [State.shifted, drawTdos_append]
  simp only [State.wired_wired, shifted_tms, shifted_lastTmsLevel]
  congr 1
  · cases b using List.reverseRecOn with
    | nil => simp [linesAfterBits, State.shifted]
    | append_singleton xs x => simp [linesAfterBits, ← List.append_assoc, State.shifted]; split <;> simp
  · simp [sampledEvents, List.zipWith_append]

theorem shifted_setChan (s : State) (c : Channel) (p : Path) (l : List Bool) :
    (s.setChan c).shifted p l = (s.shifted p l).setChan c := by
  simp only [State.shifted, drawTdos_setChan]
  rfl

/-- The peripheral's step (R160). -/
theorem peripheralShift_eq (s : State) :
    peripheralShift s = (s.shifted (channelPath s) (unitInFlight s)).unitDone
      (unitOfSamples (drawTdos (unitInFlight s) s).1) := by
  simp [peripheralShift, shiftCycles_eq]

theorem peripheralStep_enabled {s : State} (h : s.peripheralEnabled = true) : peripheralStep s = peripheralShift s := by
  simp [peripheralStep, h]

theorem peripheralStep_disabled {s : State} (h : s.peripheralEnabled = false) : peripheralStep s = s := by
  simp [peripheralStep, h]

theorem peripheralStep_idle {s : State} (h : s.chan.stat.busy = false) : peripheralStep s = s := by
  simp [peripheralStep, State.peripheralEnabled, h]

/-- An idle peripheral has no step to take when the caller goes on (R160). -/
theorem letPeripheral_idle {s : State} (h : s.peripheralEnabled = false) : letPeripheral s = s := by
  simp [letPeripheral, h]

theorem peripheralEnabled_idle {s : State} (h : s.chan.stat.busy = true → s.chan.abandoned = true) :
    s.peripheralEnabled = false := by
  unfold State.peripheralEnabled
  cases hb : s.chan.stat.busy with
  | false => simp
  | true => simp [h hb]

/-- When the caller goes on, the peripheral has at most taken its step, at the cost of at most a draw (R11, R46). -/
theorem letPeripheral_cases (s : State) : ∃ e n, (letPeripheral s = { s with env := e, draws := n } ∨
    letPeripheral s = peripheralStep { s with env := e, draws := n }) ∧ e.tdo = s.env.tdo ∧ e.polls = s.env.polls ∧
      e.alloc = s.env.alloc := by
  unfold letPeripheral
  split
  · next he =>
    obtain ⟨e, n, h, hr⟩ := s.whoMoves_frame .peripheral .caller
    refine ⟨e, n, ?_, hr⟩
    dsimp only
    split
    · exact .inl h
    · rw [h, peripheralStep_enabled (by exact he)]
      exact .inr rfl
  · exact ⟨s.env, s.draws, .inl rfl, rfl, rfl, rfl⟩

/-! configure. -/

/-- The divisor test in the source's words (R156). -/
theorem usableDivisor_eq_some {p : Params} {f d : Nat} :
    usableDivisor p f = some d ↔ f ≠ 0 ∧ 0 < d ∧ (d : Int) = divisorOf p.refRate f ∧ ∀ m, p.divMax = some m → d ≤ m := by
  unfold usableDivisor
  by_cases hf : f = 0
  · simp [hf]
  · by_cases hd : divisorOf p.refRate f ≤ 0
    · simp only [hf, hd, if_false, if_true, reduceCtorEq, ne_eq, not_false_eq_true, true_and, false_iff]
      rintro ⟨h1, h2, -⟩
      omega
    · simp only [hf, hd, if_false]
      cases hm : p.divMax with
      | none =>
        simp only [Option.some.injEq]
        constructor
        · rintro rfl
          exact ⟨hf, by omega, by omega, by simp⟩
        · rintro ⟨-, -, h, -⟩
          omega
      | some m =>
        simp only [Option.some.injEq]
        split
        · next hm =>
          simp only [reduceCtorEq, false_iff]
          rintro ⟨-, -, h, h'⟩
          have := h' m rfl
          omega
        · simp only [Option.some.injEq]
          constructor
          · rintro rfl
            exact ⟨hf, by omega, by omega, by rintro m' rfl; omega⟩
          · rintro ⟨-, -, h, -⟩
            omega

/-- The channel right after an enable that found no unit in flight (R157). -/
def State.channelOn (d : Nat) (s : State) : State :=
  (s.setChan { s.chan with
    divisor := d
    pinFunction := .peripheral
    idleClockLow := true
    sampleEdge := s.params.sampleEdge
    stat := { s.chan.stat with ready := false } }).emit (.mux .peripheral)

theorem enableChannel_idle (d : Nat) {s : State} (h : s.chan.stat.busy = true → s.chan.abandoned = true) :
    enableChannel d s = s.channelOn d := by
  rw [enableChannel, letPeripheral_idle (peripheralEnabled_idle h),
    letPeripheral_idle (peripheralEnabled_idle (s := switchPins d s) h)]
  rfl

theorem configureOn_eq {s : State} {d : Nat} (h : usableDivisor s.params s.requestedFreq = some d) :
    configureOn s = .ok () (enableChannel d s) := by
  simp [configureOn, h]

theorem configureOn_none {s : State} (h : usableDivisor s.params s.requestedFreq = none) :
    configureOn s = .error .invalidFrequency s := by
  simp [configureOn, h]

/-- The enable of a scan or an idle run that finds no unit in flight (R182, R200). -/
theorem openChannel_idle {s : State} {d : Nat} (h : usableDivisor s.params s.requestedFreq = some d)
    (hi : s.chan.stat.busy = true → s.chan.abandoned = true) : openChannel s = .ok () (s.channelOn d) := by
  rw [openChannel, configureOn_eq h, enableChannel_idle d hi, Res.bind_ok,
    letPeripheral_idle (peripheralEnabled_idle (s := s.channelOn d) hi)]

theorem openChannel_none {s : State} (h : usableDivisor s.params s.requestedFreq = none) :
    openChannel s = .error .invalidFrequency s := by
  rw [openChannel, configureOn_none h]
  rfl

theorem closeChannel_idle {s : State} (h : s.peripheralEnabled = false) : closeChannel s = configureOff s := by
  rw [closeChannel, letPeripheral_idle h]

theorem configureOff_enabled {s : State} (h : s.chan.pinFunction = .peripheral) :
    configureOff s = ((s.setChan { s.chan with pinFunction := .line, abandoned := s.chan.stat.busy }).wired s.lines
      s.lines.tms [.mux .line]) := by
  simp [configureOff, State.channelEnabled, h, State.ext_iff, State.readLine]

theorem configureOff_disabled {s : State} (h : s.chan.pinFunction = .line) : configureOff s = s.setCache s.lines.tms := by
  simp [configureOff, State.channelEnabled, h, State.readLine]

/-- After `configure(false)` the pins are lines, whatever they were (R158). -/
@[simp] theorem configureOff_line (s : State) : (configureOff s).chan.pinFunction = .line := by
  unfold configureOff
  simp only [State.setCache_chan]
  split
  · rfl
  · next h => simpa [State.channelEnabled] using (by
      cases hp : s.chan.pinFunction with
      | line => rfl
      | peripheral => simp [State.channelEnabled, hp] at h : s.chan.pinFunction = .line)

/-! send and receive. -/

theorem send_eq (v : Unit16) {s : State} (h : s.chan.pinFunction = .peripheral) (hb : s.chan.stat.busy = false) :
    send v s = .ok () (s.loadUnit (adapt s.unit v)) := by
  simp [send, State.channelEnabled, h, hb]

theorem atomic_send (v : Unit16) {s : State} (h : s.chan.pinFunction = .peripheral) (hb : s.chan.stat.busy = false) :
    atomic (send v) s = .ok () (s.loadUnit (adapt s.unit v)) := by
  rw [atomic_ok (send_eq v (by exact h) (by exact hb))]
  simp [State.ext_iff, State.loadUnit, State.unit]

theorem receive_ready {s : State} (h : s.chan.stat.ready = true) :
    receive s = (adapt s.unit s.chan.rxData, s.setReady false) := by
  simp [receive, h]

theorem atomic_receive_ready {s : State} (h : s.chan.stat.ready = true) :
    atomic (fun s => .ok (receive s).1 (receive s).2) s = .ok (adapt s.unit s.chan.rxData) (s.setReady false) := by
  rw [atomic_ok (t := (s.setLock true).setReady false) (a := adapt s.unit s.chan.rxData)
    (by rw [receive_ready (by exact h)]; rfl)]
  simp [State.ext_iff]

/-! The polled variant on a healthy peripheral. -/

theorem pollUntil_healthy (cond : State → Bool) {s : State} (h : s.env.polls = .healthy) :
    pollUntil cond s = (cond (peripheralStep s), peripheralStep s) := by
  simp [pollUntil, h]

/-- A unit handed to an idle, enabled peripheral goes out on its next step (R160, R161). -/
theorem peripheralStep_loadUnit (v : Unit16) {s : State} (h : s.chan.pinFunction = .peripheral) :
    peripheralStep (s.loadUnit (adapt s.unit v)) =
      (s.shifted (channelPath s) (unitBits s.unit v)).setChan { s.chan with
        txData := adapt s.unit v
        rxData := unitOfSamples (drawTdos (unitBits s.unit v) s).1
        stat := ⟨false, true⟩
        abandoned := false } := by
  have he : (s.loadUnit (adapt s.unit v)).peripheralEnabled = true := by
    simp [State.peripheralEnabled, State.channelEnabled, State.loadUnit, h]
  have hp : channelPath (s.loadUnit (adapt s.unit v)) = channelPath s := rfl
  have hu : unitInFlight (s.loadUnit (adapt s.unit v)) = unitBits s.unit v := unitMsbFirst_adapt s.unit v
  rw [peripheralStep_enabled he, peripheralShift_eq, hp, hu]
  simp only [State.loadUnit, shifted_setChan, drawTdos_setChan]
  rfl

/-- One unit, polled, on a healthy idle peripheral (R163). -/
theorem shiftUnitPolled_healthy (v : Unit16) {s : State} (h : s.chan.pinFunction = .peripheral)
    (hb : s.chan.stat.busy = false) (hp : s.env.polls = .healthy) :
    shiftUnitPolled v s = .ok (adapt s.unit (unitOfSamples (drawTdos (unitBits s.unit v) s).1))
      ((s.shifted (channelPath s) (unitBits s.unit v)).setChan
        (s.chan.rested (adapt s.unit v) (unitOfSamples (drawTdos (unitBits s.unit v) s).1))) := by
  unfold shiftUnitPolled
  rw [pollUntil_healthy _ hp, peripheralStep_idle hb]
  simp only [hb, Bool.not_false, if_true]
  rw [atomic_send v h hb]
  simp only [Res.bind]
  rw [pollUntil_healthy _ (by exact hp), peripheralStep_loadUnit v h]
  simp only [State.setChan_chan, if_true]
  rw [atomic_receive_ready (by rfl)]
  simp only [State.setChan_chan, State.unit_setChan, shifted_unit]
  rfl

end Sys2Proof.Machine
end

