-- ==== Sys2Proof/Laws/Buffer.lean ====
section
/-! SUPPORT. Buffers: what `setbit` and `memWrite` store, bit by bit (R62 to R64). -/

namespace Sys2Proof.Machine

@[simp] theorem bit_nil (i : Nat) : bit [] i = false := by simp [bit]

/-- Zeros read as zero. -/
@[simp] theorem bit_zeroBytes (n i : Nat) : bit (zeroBytes n) i = false := by
  unfold bit zeroBytes
  by_cases h : i / 8 < n <;> simp [List.getD_eq_getElem?_getD, h]

@[simp] theorem zeroBytes_length (n : Nat) : (zeroBytes n).length = n := by simp [zeroBytes]

/-- Past the end a buffer reads as zero (R63). -/
theorem bit_past {buf : List Byte} {i : Nat} (h : 8 * buf.length ≤ i) : bit buf i = false := by
  have h1 : buf.length ≤ i / 8 := by omega
  simp [bit, List.getD_eq_getElem?_getD, List.getElem?_eq_none h1]

/-- Two arrays of one length with the same bits are equal. -/
theorem bytes_ext {a b : List Byte} (hl : a.length = b.length) (h : ∀ i < 8 * a.length, bit a i = bit b i) : a = b := by
  apply List.ext_getElem hl
  intro k h1 h2
  apply BitVec.eq_of_getLsbD_eq
  intro j hj
  have := h (8 * k + j) (by omega)
  have e1 : (8 * k + j) / 8 = k := by omega
  have e2 : (8 * k + j) % 8 = j := by omega
  simpa [bit, e1, e2, List.getD_eq_getElem?_getD, h1, h2] using this

theorem memWrite_length {out v : List Byte} {k : Nat} (h : k + v.length ≤ out.length) :
    (memWrite out k v).length = out.length := by
  simp [memWrite]
  omega

theorem memWrite_getD {out v : List Byte} {k : Nat} (h : k + v.length ≤ out.length) (i : Nat) :
    (memWrite out k v).getD i 0 = if k ≤ i ∧ i < k + v.length then v.getD (i - k) 0 else out.getD i 0 := by
  have hk : (out.take k).length = k := by simp; omega
  simp only [memWrite, List.getD_eq_getElem?_getD, List.append_assoc]
  by_cases h1 : i < k
  · have : ¬ (k ≤ i ∧ i < k + v.length) := by omega
    rw [List.getElem?_append_left (by omega), if_neg this, List.getElem?_take]
    simp [h1]
  · rw [List.getElem?_append_right (by omega), hk]
    by_cases h2 : i < k + v.length
    · rw [List.getElem?_append_left (by omega), if_pos (by omega)]
    · rw [List.getElem?_append_right (by omega), if_neg (by omega), List.getElem?_drop]
      congr 2
      omega

/-- `MemWrite` stores the bits it is given and keeps every other (R64). -/
theorem bit_memWrite {out v : List Byte} {k : Nat} (h : k + v.length ≤ out.length) (i : Nat) :
    bit (memWrite out k v) i = if 8 * k ≤ i ∧ i < 8 * k + 8 * v.length then bit v (i - 8 * k) else bit out i := by
  simp only [bit]
  rw [memWrite_getD h]
  have e1 : (i - 8 * k) / 8 = i / 8 - k := by omega
  by_cases hc : 8 * k ≤ i ∧ i < 8 * k + 8 * v.length
  · have e2 : (i - 8 * k) % 8 = i % 8 := by omega
    rw [if_pos (by omega), if_pos hc, e1, e2]
  · rw [if_neg (by omega), if_neg hc]

/-- `MemRead` gives the bits of its bytes (R63). -/
theorem bit_memRead (buf : List Byte) (k n i : Nat) (h : i < 8 * n) : bit (memRead buf k n) i = bit buf (8 * k + i) := by
  have h1 : i / 8 < n := by omega
  have h2 : (8 * k + i) / 8 = k + i / 8 := by omega
  have h3 : (8 * k + i) % 8 = i % 8 := by omega
  simp [bit, memRead, List.getD_eq_getElem?_getD, h1, h2, h3]

@[simp] theorem memRead_length (buf : List Byte) (k n : Nat) : (memRead buf k n).length = n := by simp [memRead]

@[simp] theorem setbit_length (out : List Byte) (i : Nat) (b : Bool) : (setbit out i b).length = out.length := by
  simp [setbit]

theorem setByteBit_getLsbD (x : Byte) (k j : Nat) (b : Bool) (hk : k < 8) (hj : j < 8) :
    (setByteBit x k b).getLsbD j = if j = k then b else x.getLsbD j := by
  have key : ∀ k j : Fin 8, (1#8 <<< k.val).getLsbD j.val = decide (j.val = k.val) := by decide
  have := key ⟨k, hk⟩ ⟨j, hj⟩
  simp only at this
  unfold setByteBit
  split
  · next hb =>
    simp only [BitVec.getLsbD_or, this]
    by_cases h : j = k <;> simp [h, hb]
  · next hb =>
    simp only [BitVec.getLsbD_and, BitVec.getLsbD_not, this, hj, decide_true, Bool.true_and]
    by_cases h : j = k <;> simp [h, hb]

/-- `setbit` stores one bit and keeps every other (R64). -/
theorem bit_setbit {out : List Byte} {i : Nat} (h : i < 8 * out.length) (b : Bool) (j : Nat) :
    bit (setbit out i b) j = if j = i then b else bit out j := by
  have hi : i / 8 < out.length := by omega
  simp only [bit, setbit, List.getD_eq_getElem?_getD, List.getElem?_modify]
  by_cases hc : i / 8 = j / 8
  · rw [← hc, List.getElem?_eq_getElem hi]
    simp only [if_true, Option.map_eq_map, Option.map_some, Option.getD_some]
    rw [setByteBit_getLsbD _ _ _ _ (Nat.mod_lt _ (by omega)) (Nat.mod_lt _ (by omega))]
    by_cases he : j = i
    · simp [he]
    · have : ¬ j % 8 = i % 8 := by omega
      simp [he, this]
  · have he : ¬ j = i := by
      rintro rfl
      exact hc rfl
    simp [hc, he]

/-! Bits of cut and joined buffers. -/

theorem bit_take {buf : List Byte} (m : Nat) {i : Nat} (h : i < 8 * m) : bit (buf.take m) i = bit buf i := by
  have : i / 8 < m := by omega
  simp [bit, List.getD_eq_getElem?_getD, this]

theorem bit_drop (buf : List Byte) (m i : Nat) : bit (buf.drop m) i = bit buf (8 * m + i) := by
  have h1 : (8 * m + i) / 8 = m + i / 8 := by omega
  have h2 : (8 * m + i) % 8 = i % 8 := by omega
  simp [bit, List.getD_eq_getElem?_getD, List.getElem?_drop, h1, h2]

theorem bit_append_left {a b : List Byte} {i : Nat} (h : i < 8 * a.length) : bit (a ++ b) i = bit a i := by
  have : i / 8 < a.length := by omega
  simp [bit, List.getD_eq_getElem?_getD, List.getElem?_append_left this]

theorem bit_append_right {a b : List Byte} {i : Nat} (h : 8 * a.length ≤ i) :
    bit (a ++ b) i = bit b (i - 8 * a.length) := by
  have h1 : a.length ≤ i / 8 := by omega
  have h2 : (i - 8 * a.length) / 8 = i / 8 - a.length := by omega
  have h3 : (i - 8 * a.length) % 8 = i % 8 := by omega
  simp [bit, List.getD_eq_getElem?_getD, List.getElem?_append_right h1, h2, h3]

end Sys2Proof.Machine
end

