-- ==== Sys2Proof/Laws/Transfer.lean ====
section
/-! SUPPORT. Whole transfers through a healthy channel: the polled loop and the interrupt-driven transfer (R163, R165, R167). -/

namespace Sys2Proof.Machine

/-- `m` bits of a buffer from byte `p` on. -/
def bitsFrom (buf : List Byte) (p m : Nat) : List Bool := (List.range m).map fun k => bit buf (8 * p + k)

@[simp] theorem bitsFrom_length (buf : List Byte) (p m : Nat) : (bitsFrom buf p m).length = m := by simp [bitsFrom]

@[simp] theorem bitsFrom_zero (buf : List Byte) (p : Nat) : bitsFrom buf p 0 = [] := rfl

theorem bitsFrom_start (buf : List Byte) (m : Nat) : bitsFrom buf 0 m = bitsOf buf m := by simp [bitsFrom, bitsOf]

theorem unitBits_unitFromBytes (u : UnitWidth) (buf : List Byte) (p : Nat) :
    unitBits u (unitFromBytes u buf p) = bitsFrom buf p u.bits := by
  apply List.ext_getElem
  · simp
  · intro k h1 h2
    simp only [bitsFrom_length] at h2
    simp [unitBits, bitsFrom, unitFromBytes_getLsbD u buf p k h2]

theorem bitsFrom_add (buf : List Byte) (p a m : Nat) :
    bitsFrom buf p (8 * a + m) = bitsFrom buf p (8 * a) ++ bitsFrom buf (p + a) m := by
  apply List.ext_getElem
  · simp
  · intro k h1 h2
    by_cases h : k < 8 * a
    · rw [List.getElem_append_left (by simpa using h)]
      simp [bitsFrom]
    · rw [List.getElem_append_right (by simpa using h)]
      simp only [bitsFrom, List.getElem_map, List.getElem_range, List.length_map, List.length_range]
      congr 1
      omega

theorem bitsFrom_units (u : UnitWidth) (buf : List Byte) (p n : Nat) :
    bitsFrom buf p ((n + 1) * u.bits) = bitsFrom buf p u.bits ++ bitsFrom buf (p + u.bytes) (n * u.bits) := by
  have : (n + 1) * u.bits = 8 * u.bytes + n * u.bits := by rw [← u.bits_eq]; ring
  rw [this, bitsFrom_add, u.bits_eq]

/-- The bits of a received unit's bytes are the samples (R160, R162). -/
theorem bit_received {u : UnitWidth} {samples : List Bool} (hl : samples.length = u.bits) (k : Nat) (hk : k < u.bits) :
    bit (unitToBytes u (adapt u (unitOfSamples samples))) k = samples.getD k false := by
  rw [bit_unitToBytes u _ k hk, adapt_unitOfSamples hl k hk]

/-- What one received unit leaves in the receive buffer. -/
theorem bit_store_unit {u : UnitWidth} {samples : List Bool} {rx : List Byte} {p : Nat} (hl : samples.length = u.bits)
    (hrx : p + u.bytes ≤ rx.length) (i : Nat) :
    bit (memWrite rx p (unitToBytes u (adapt u (unitOfSamples samples)))) i =
      if 8 * p ≤ i ∧ i < 8 * p + u.bits then samples.getD (i - 8 * p) false else bit rx i := by
  rw [bit_memWrite (by simpa using hrx), unitToBytes_length, ← u.bits_eq]
  split
  · next h => rw [bit_received hl _ (by omega)]
  · rfl

/-- The two parts of a receive buffer filled unit by unit are one. -/
theorem getD_append_samples {a b : List Bool} {m i base : Nat} {d : Bool} (ha : a.length = m) (n : Nat) (hb : b.length = n) :
    (if base + m ≤ i ∧ i < base + m + n then b.getD (i - (base + m)) false
      else if base ≤ i ∧ i < base + m then a.getD (i - base) false else d) =
    if base ≤ i ∧ i < base + (m + n) then (a ++ b).getD (i - base) false else d := by
  by_cases h1 : base ≤ i ∧ i < base + m
  · rw [if_neg (by omega), if_pos h1, if_pos (by omega)]
    rw [List.getD_append _ _ _ _ (by omega)]
  · by_cases h2 : base + m ≤ i ∧ i < base + m + n
    · rw [if_pos h2, if_pos (by omega), List.getD_append_right _ _ _ _ (by omega)]
      congr 1
      omega
    · rw [if_neg h2, if_neg h1, if_neg (by omega)]

/-- The loop of polled units (R163, R169, R185). -/
theorem polledTransfer_healthy (tx : List Byte) (n p : Nat) (rx : List Byte) {s : State}
    (h : s.chan.pinFunction = .peripheral) (hb : s.chan.stat.busy = false)
    (hp : s.env.polls = .healthy) (hrx : p + n * s.unit.bytes ≤ rx.length) :
    ∃ rx' c, polledTransfer tx n p rx s =
        .ok rx' ((s.shifted (channelPath s) (bitsFrom tx p (n * s.unit.bits))).setChan c) ∧
      (c = s.chan ∧ n = 0 ∨ ∃ w r, c = s.chan.rested w r ∧ unitLegal s.unit w = true ∧ unitLegal s.unit r = true) ∧
      rx'.length = rx.length ∧
      ∀ i, bit rx' i = if 8 * p ≤ i ∧ i < 8 * p + n * s.unit.bits then
        (drawTdos (bitsFrom tx p (n * s.unit.bits)) s).1.getD (i - 8 * p) false else bit rx i := by
  induction n generalizing s p rx with
  | zero =>
    refine ⟨rx, s.chan, ?_, .inl ⟨rfl, rfl⟩, rfl, ?_⟩
    · simp [polledTransfer, State.ext_iff]
    · intro i
      rw [if_neg (by omega)]
  | succ n ih =>
    have hrx1 : p + s.unit.bytes ≤ rx.length := by
      have : s.unit.bytes ≤ (n + 1) * s.unit.bytes := Nat.le_mul_of_pos_left _ (by omega)
      omega
    rw [polledTransfer, shiftUnitPolled_healthy _ h hb hp]
    simp only [Res.bind, unitBits_unitFromBytes]
    have hlen : (drawTdos (bitsFrom tx p s.unit.bits) s).1.length = s.unit.bits := by simp
    generalize hs' : (s.shifted (channelPath s) (bitsFrom tx p s.unit.bits)).setChan (s.chan.rested
      (adapt s.unit (unitFromBytes s.unit tx p)) (unitOfSamples (drawTdos (bitsFrom tx p s.unit.bits) s).1)) = s'
    have hu : s'.unit = s.unit := by rw [← hs']; simp
    have hch : s'.chan = s.chan.rested (adapt s.unit (unitFromBytes s.unit tx p))
        (unitOfSamples (drawTdos (bitsFrom tx p s.unit.bits) s).1) := by rw [← hs']; rfl
    obtain ⟨rx', c, he, hc, hlen', hbits⟩ := ih (s := s') (p + s.unit.bytes)
      (memWrite rx p (unitToBytes s.unit (adapt s.unit (unitOfSamples (drawTdos (bitsFrom tx p s.unit.bits) s).1))))
      (by rw [hch]; exact h) (by rw [hch]; rfl) (by rw [← hs']; simpa using hp)
      (by
        rw [hu, memWrite_length (by simpa using hrx1)]
        have : (n + 1) * s.unit.bytes = n * s.unit.bytes + s.unit.bytes := by ring
        omega)
    rw [hu] at he hbits hc
    have hpath : channelPath s' = channelPath s := by simp [channelPath, hch, Channel.rested]
    refine ⟨rx', c, ?_, .inr ?_, ?_, ?_⟩
    · rw [he, hpath, ← hs', shifted_setChan, shifted_shifted, ← bitsFrom_units]
      rfl
    · rcases hc with ⟨rfl, -⟩ | ⟨w, r, rfl, hw, hr⟩
      · exact ⟨_, _, hch, adapt_legal _ _, unitOfSamples_legal hlen⟩
      · exact ⟨w, r, by rw [hch]; rfl, hw, hr⟩
    · rw [hlen', memWrite_length (by simpa using hrx1)]
    · intro i
      have hd : (drawTdos (bitsFrom tx (p + s.unit.bytes) (n * s.unit.bits)) s').1 =
          (drawTdos (bitsFrom tx (p + s.unit.bytes) (n * s.unit.bits)) (drawTdos (bitsFrom tx p s.unit.bits) s).2).1 := by
        rw [← hs', drawTdos_setChan, drawTdos_shifted]
      rw [hbits, hd, bit_store_unit hlen hrx1, bitsFrom_units, drawTdos_append]
      have e1 : 8 * (p + s.unit.bytes) = 8 * p + s.unit.bits := by rw [s.unit.bits_eq]; ring
      have e2 : (n + 1) * s.unit.bits = s.unit.bits + n * s.unit.bits := by ring
      rw [e1, e2]
      exact getD_append_samples hlen _ (by simp)

/-! The interrupt-driven transfer. -/

theorem drawTdo_setXfer (s : State) (x : Option Xfer) (b : Bool) :
    (s.setXfer x).drawTdo b = ((s.drawTdo b).1, (s.drawTdo b).2.setXfer x) := by
  unfold State.drawTdo
  simp only [State.setXfer_env]
  split <;> rfl

theorem drawTdos_setXfer (s : State) (x : Option Xfer) (bs : List Bool) :
    drawTdos bs (s.setXfer x) = ((drawTdos bs s).1, (drawTdos bs s).2.setXfer x) := by
  induction bs generalizing s with
  | nil => rfl
  | cons b bs ih => simp [drawTdos, drawTdo_setXfer, ih]

theorem shifted_setXfer (s : State) (x : Option Xfer) (p : Path) (l : List Bool) :
    (s.setXfer x).shifted p l = (s.shifted p l).setXfer x := by
  simp only [State.shifted, drawTdos_setXfer]
  rfl

/-- What the handler's critical section does when there is a received unit (R167). -/
theorem receiveAndSendNext_ready (v : Unit16) {s : State} {x : Xfer} (hr : s.chan.stat.ready = true) (hx : s.xfer = some x)
    (hv : adapt s.unit s.chan.rxData = v) :
    receiveAndSendNext s =
      (if 0 < x.remainingTxUnits then
        sendNext (x.received s.unit v) ((s.setReady false).setXfer (some (x.received s.unit v)))
      else .ok () ((s.setReady false).setXfer (some (x.received s.unit v)))).bind fun _ t =>
        .ok (decide (x.remainingRxUnits - 1 = 0)) t := by
  simp only [receiveAndSendNext, hx, receive_ready hr, hv]
  rfl

/-- A send of the next unit to an idle, enabled peripheral (R161, R165). -/
theorem sendNext_eq (x : Xfer) {s : State} (h : s.chan.pinFunction = .peripheral) (hb : s.chan.stat.busy = false) :
    sendNext x s = .ok () ((s.setXfer (some (x.sent s.unit))).loadUnit
      (adapt s.unit (unitFromBytes s.unit x.tx x.txCursor))) := by
  rw [sendNext, send_eq _ h hb]
  rfl

theorem handlerEnabled_iff {s : State} :
    s.handlerEnabled = true ↔ s.chan.irqEnable = true ∧ s.chan.stat.ready = true ∧ s.xferLock = false := by
  simp [State.handlerEnabled, State.interruptPending, and_assoc]

theorem handlerStep_disabled {s : State} (h : s.handlerEnabled = false) : handlerStep s = .ok () s := by
  simp [handlerStep, h]

/-- Without a received word it is the peripheral's turn (R251). -/
theorem nextTurn_peripheral {s : State} (h : s.chan.stat.ready = false) : nextTurn s = (.peripheral, s) := by
  simp [nextTurn, State.handlerEnabled, State.interruptPending, h]

/-- With no unit in flight the completion flag ends the wait (R168). -/
theorem waitForWire_idle {s : State} (h : s.peripheralEnabled = false) : waitForWire s = .ok true s := by
  simp [waitForWire, h]

/-- The handler on the last unit: it stores it and signals completion (R167). -/
theorem handlerStep_last (v : Unit16) {s : State} {x : Xfer} (hq : s.chan.irqEnable = true) (hl : s.xferLock = false)
    (hr : s.chan.stat.ready = true) (hx : s.xfer = some x) (ht : x.remainingTxUnits = 0) (hn : x.remainingRxUnits = 1)
    (hv : adapt s.unit s.chan.rxData = v) :
    handlerStep s = .ok () ((s.setReady false).setXfer (some { x.received s.unit v with done := true })) := by
  rw [handlerStep, if_pos (handlerEnabled_iff.mpr ⟨hq, hr, hl⟩), onReceiveInterrupt]
  rw [atomic_ok (a := true) (t := ((s.setLock true).setReady false).setXfer (some (x.received s.unit v)))
    (by rw [receiveAndSendNext_ready v (by exact hr) (by exact hx) (by exact hv)]; simp [ht, hn])]
  simp [State.ext_iff]

/-- The handler while units remain: it stores one and sends the next (R167). -/
theorem handlerStep_next (v : Unit16) {s : State} {x : Xfer} (hq : s.chan.irqEnable = true) (hl : s.xferLock = false)
    (h : s.chan.pinFunction = .peripheral) (hb : s.chan.stat.busy = false) (hr : s.chan.stat.ready = true)
    (hx : s.xfer = some x) (ht : 0 < x.remainingTxUnits) (hn : 1 < x.remainingRxUnits)
    (hv : adapt s.unit s.chan.rxData = v) :
    handlerStep s = .ok () (((s.setReady false).setXfer (some ((x.received s.unit v).sent s.unit))).loadUnit
        (adapt s.unit (unitFromBytes s.unit x.tx x.txCursor))) := by
  have h1 : x.remainingRxUnits - 1 ≠ 0 := by omega
  rw [handlerStep, if_pos (handlerEnabled_iff.mpr ⟨hq, hr, hl⟩), onReceiveInterrupt]
  rw [atomic_ok (a := false) (t := (((s.setLock true).setReady false).setXfer (some ((x.received s.unit v).sent s.unit))).loadUnit
      (adapt s.unit (unitFromBytes s.unit x.tx x.txCursor)))
    (by
      rw [receiveAndSendNext_ready v (by exact hr) (by exact hx) (by exact hv), if_pos ht, sendNext_eq _ (by exact h)
        (by exact hb)]
      simp [h1]
      rfl)]
  simp [State.ext_iff]

/-- The blocking wait on a healthy peripheral: all units go out, all are stored, the completion flag comes (R167, R168). -/
theorem blockingWait_healthy (m c : Nat) (x : Xfer) {s : State} (h : s.chan.pinFunction = .peripheral)
    (hq : s.chan.irqEnable = true) (hl : s.xferLock = false) (hp : s.env.polls = .healthy)
    (hr0 : s.chan.stat.ready = false) (hd : x.done = false)
    (hrem : x.remainingRxUnits = m + 1) (htrem : x.remainingTxUnits = m) (hrc : x.rxCursor = c)
    (htc : x.txCursor = c + s.unit.bytes) (hlen : c + (m + 1) * s.unit.bytes ≤ x.rx.length) :
    ∃ x' w r, blockingWait (m + 1) ((s.setXfer (some x)).loadUnit (adapt s.unit (unitFromBytes s.unit x.tx c))) =
        .ok true (((s.shifted .hwi (bitsFrom x.tx c ((m + 1) * s.unit.bits))).setChan (s.chan.rested w r)).setXfer (some x')) ∧
      unitLegal s.unit w = true ∧ unitLegal s.unit r = true ∧ x'.rx.length = x.rx.length ∧
      ∀ i, bit x'.rx i = if 8 * c ≤ i ∧ i < 8 * c + (m + 1) * s.unit.bits then
        (drawTdos (bitsFrom x.tx c ((m + 1) * s.unit.bits)) s).1.getD (i - 8 * c) false else bit x.rx i := by
  induction m generalizing s x c with
  | zero =>
    have hlen1 : c + s.unit.bytes ≤ x.rx.length := by omega
    have hsamples : (drawTdos (bitsFrom x.tx c s.unit.bits) s).1.length = s.unit.bits := by simp
    have hstep := peripheralStep_loadUnit (unitFromBytes s.unit x.tx c) (s := s.setXfer (some x)) h
    rw [shifted_setXfer, drawTdos_setXfer, State.unit_setXfer, unitBits_unitFromBytes] at hstep
    have hpath : channelPath (s.setXfer (some x)) = .hwi := by simp [channelPath, hq]
    rw [hpath] at hstep
    generalize hq' : peripheralStep ((s.setXfer (some x)).loadUnit (adapt s.unit (unitFromBytes s.unit x.tx c))) = q at hstep
    have hh := handlerStep_last (adapt s.unit (unitOfSamples (drawTdos (bitsFrom x.tx c s.unit.bits) s).1)) (s := q) (x := x)
      (by rw [hstep]; exact hq) (by rw [hstep]; simpa using hl) (by rw [hstep]; rfl) (by rw [hstep]; rfl) htrem hrem
      (by rw [hstep]; simp)
    have hqu : q.unit = s.unit := by rw [hstep]; simp
    rw [hqu] at hh
    generalize hx1 : ({ x.received s.unit (adapt s.unit (unitOfSamples (drawTdos (bitsFrom x.tx c s.unit.bits) s).1)) with
      done := true } : Xfer) = x1 at hh
    have hrx1 : x1.rx = memWrite x.rx c
        (unitToBytes s.unit (adapt s.unit (unitOfSamples (drawTdos (bitsFrom x.tx c s.unit.bits) s).1))) := by
      rw [← hx1, ← hrc]; rfl
    have hdone : x1.done = true := by rw [← hx1]
    refine ⟨x1, adapt s.unit (unitFromBytes s.unit x.tx c), unitOfSamples (drawTdos (bitsFrom x.tx c s.unit.bits) s).1,
      ?_, adapt_legal _ _, unitOfSamples_legal hsamples, ?_, ?_⟩
    · have hnd : ((s.setXfer (some x)).loadUnit (adapt s.unit (unitFromBytes s.unit x.tx c))).transferDone = false := hd
      have hdone' : ((q.setReady false).setXfer (some x1)).transferDone = true := hdone
      simp only [blockingWait, nextTurn_peripheral (s := (s.setXfer (some x)).loadUnit _) (by exact hr0),
        State.drawPoll_healthy ((s.setXfer (some x)).loadUnit _) (by exact hp), hnd, Bool.false_eq_true, if_false, hq', hh,
        Res.bind_ok, hdone', if_true, reduceCtorEq]
      rw [waitForWire_idle (by rw [hstep]; simp [State.peripheralEnabled, State.setReady])]
      rw [hstep]
      simp only [Nat.zero_add, Nat.one_mul]
      rfl
    · rw [hrx1, memWrite_length (by simpa using hlen1)]
    · intro i
      simp only [hrx1, Nat.zero_add, Nat.one_mul]
      exact bit_store_unit hsamples hlen1 i
  | succ m ih =>
    have hlen1 : c + s.unit.bytes ≤ x.rx.length := by
      have : s.unit.bytes ≤ (m + 1 + 1) * s.unit.bytes := Nat.le_mul_of_pos_left _ (by omega)
      omega
    have hsamples : (drawTdos (bitsFrom x.tx c s.unit.bits) s).1.length = s.unit.bits := by simp
    have hstep := peripheralStep_loadUnit (unitFromBytes s.unit x.tx c) (s := s.setXfer (some x)) h
    rw [shifted_setXfer, drawTdos_setXfer, State.unit_setXfer, unitBits_unitFromBytes] at hstep
    have hpath : channelPath (s.setXfer (some x)) = .hwi := by simp [channelPath, hq]
    rw [hpath] at hstep
    generalize hq' : peripheralStep ((s.setXfer (some x)).loadUnit (adapt s.unit (unitFromBytes s.unit x.tx c))) = q at hstep
    have hqu : q.unit = s.unit := by rw [hstep]; simp
    have hh := handlerStep_next (adapt s.unit (unitOfSamples (drawTdos (bitsFrom x.tx c s.unit.bits) s).1)) (s := q) (x := x)
      (by rw [hstep]; exact hq) (by rw [hstep]; simpa using hl) (by rw [hstep]; exact h) (by rw [hstep]; rfl)
      (by rw [hstep]; rfl) (by rw [hstep]; rfl) (by omega) (by omega) (by rw [hstep]; simp)
    rw [hqu] at hh
    generalize hs' : (s.shifted .hwi (bitsFrom x.tx c s.unit.bits)).setChan (s.chan.rested
      (adapt s.unit (unitFromBytes s.unit x.tx c)) (unitOfSamples (drawTdos (bitsFrom x.tx c s.unit.bits) s).1)) = s'
    have hu : s'.unit = s.unit := by rw [← hs']; simp
    have hch : s'.chan = s.chan.rested (adapt s.unit (unitFromBytes s.unit x.tx c))
        (unitOfSamples (drawTdos (bitsFrom x.tx c s.unit.bits) s).1) := by rw [← hs']; rfl
    generalize hx1 : (x.received s.unit (adapt s.unit
      (unitOfSamples (drawTdos (bitsFrom x.tx c s.unit.bits) s).1))).sent s.unit = x1 at hh
    have hrx1 : x1.rx = memWrite x.rx c
        (unitToBytes s.unit (adapt s.unit (unitOfSamples (drawTdos (bitsFrom x.tx c s.unit.bits) s).1))) := by
      rw [← hx1, ← hrc]; rfl
    have hhs : handlerStep q = .ok () ((s'.setXfer (some x1)).loadUnit (adapt s'.unit (unitFromBytes s'.unit x1.tx (c + s.unit.bytes)))) := by
      rw [hh, hu, ← hs', hstep, ← hx1, htc]
      rfl
    obtain ⟨x', w, r, he, hw, hr, hlen', hbits⟩ := ih (c + s.unit.bytes) x1 (s := s') (by rw [hch]; exact h)
      (by rw [hch]; exact hq) (by rw [← hs']; simpa using hl) (by rw [← hs']; simpa using hp) (by rw [hch]; rfl)
      (by rw [← hx1]; exact hd) (by rw [← hx1]; simp [Xfer.received, Xfer.sent]; omega)
      (by rw [← hx1]; simp [Xfer.received, Xfer.sent]; omega) (by rw [← hx1]; simp [Xfer.received, Xfer.sent, hrc])
      (by rw [← hx1, hu]; simp [Xfer.received, Xfer.sent, htc])
      (by
        rw [hrx1, hu, memWrite_length (by simpa using hlen1)]
        have : (m + 1 + 1) * s.unit.bytes = s.unit.bytes + (m + 1) * s.unit.bytes := by ring
        omega)
    have htx1 : x1.tx = x.tx := by rw [← hx1]; rfl
    rw [hu] at he hbits hw hr
    rw [htx1] at he hbits
    refine ⟨x', w, r, ?_, hw, hr, ?_, ?_⟩
    · have hnd : ((s.setXfer (some x)).loadUnit (adapt s.unit (unitFromBytes s.unit x.tx c))).transferDone = false := hd
      rw [blockingWait, nextTurn_peripheral (s := (s.setXfer (some x)).loadUnit _) (by exact hr0)]
      simp only [State.drawPoll_healthy ((s.setXfer (some x)).loadUnit _) (by exact hp), hnd, Bool.false_eq_true, if_false,
        reduceCtorEq, hq', hhs, Res.bind_ok, hu, htx1, he]
      rw [← hs', shifted_setChan, shifted_shifted, ← bitsFrom_units]
      rfl
    · rw [hlen', hrx1, memWrite_length (by simpa using hlen1)]
    · intro i
      have hdr : (drawTdos (bitsFrom x.tx (c + s.unit.bytes) ((m + 1) * s.unit.bits)) s').1 =
          (drawTdos (bitsFrom x.tx (c + s.unit.bytes) ((m + 1) * s.unit.bits))
            (drawTdos (bitsFrom x.tx c s.unit.bits) s).2).1 := by
        rw [← hs', drawTdos_setChan, drawTdos_shifted]
      rw [hbits, hdr, hrx1, bit_store_unit hsamples hlen1, bitsFrom_units s.unit x.tx c (m + 1),
        drawTdos_append]
      have e1 : 8 * (c + s.unit.bytes) = 8 * c + s.unit.bits := by rw [s.unit.bits_eq]; ring
      have e2 : (m + 1 + 1) * s.unit.bits = s.unit.bits + (m + 1) * s.unit.bits := by ring
      rw [e1, e2]
      exact getD_append_samples hsamples _ (by simp)

/-- The bits of a cut buffer are those of the buffer. -/
theorem bitsFrom_take (buf : List Byte) (m b : Nat) (h : b ≤ 8 * m) : bitsFrom (buf.take m) 0 b = bitsFrom buf 0 b := by
  simp only [bitsFrom]
  apply List.map_congr_left
  intro k hk
  rw [List.mem_range] at hk
  rw [bit_take _ (by omega)]

/-- `transferBlocking` on a healthy, idle, drained, enabled channel (R165, R168). -/
theorem transferBlocking_healthy (tx rx : List Byte) (n : Nat) {s : State} (hn : 0 < n)
    (h : s.chan.pinFunction = .peripheral) (hb : s.chan.stat.busy = false) (hr0 : s.chan.stat.ready = false)
    (hl : s.xferLock = false) (hp : s.env.polls = .healthy) (hx : s.xfer = none) (hq : s.chan.irqEnable = false)
    (htx : n * s.unit.bytes ≤ tx.length) (hrx : n * s.unit.bytes ≤ rx.length) :
    ∃ rx' w r, transferBlocking tx rx (n * s.unit.bytes) s =
        .ok rx' ((s.shifted .hwi (bitsFrom tx 0 (n * s.unit.bits))).setChan (s.chan.rested w r)) ∧
      unitLegal s.unit w = true ∧ unitLegal s.unit r = true ∧ rx'.length = rx.length ∧
      ∀ i, bit rx' i = if i < n * s.unit.bits then
        (drawTdos (bitsFrom tx 0 (n * s.unit.bits)) s).1.getD i false else bit rx i := by
  have hub := s.unit.bytes_pos
  have hpos : 0 < n * s.unit.bytes := Nat.mul_pos hn hub
  have hdiv : n * s.unit.bytes / s.unit.bytes = n := Nat.mul_div_cancel _ hub
  have hbits8 : n * s.unit.bits = 8 * (n * s.unit.bytes) := by rw [s.unit.bits_eq]; ring
  obtain ⟨m, rfl⟩ : ∃ m, n = m + 1 := ⟨n - 1, by omega⟩
  generalize hcount : (m + 1) * s.unit.bytes = count at *
  obtain ⟨x1, hx1⟩ : ∃ x1, x1 = (newTransfer s.unit (tx.take count) (rx.take count) (m + 1)).sent s.unit := ⟨_, rfl⟩
  have hstart : atomic (startTransfer tx rx count) s = .ok () (((s.setIrqEnable true).setXfer (some x1)).loadUnit
      (adapt (s.setIrqEnable true).unit (unitFromBytes (s.setIrqEnable true).unit x1.tx 0))) := by
    rw [atomic_ok (t := ((((s.setLock true).setIrqEnable true).setXfer (some x1)).loadUnit
      (adapt (s.setIrqEnable true).unit (unitFromBytes (s.setIrqEnable true).unit x1.tx 0)))) (a := ())]
    · simp [State.ext_iff]
    · rw [startTransfer, if_neg (by simp [State.transferBusy, hx, hb])]
      simp only [State.unit_setLock, hdiv]
      rw [sendNext_eq _ (by exact h) (by exact hb), hx1]
      rfl
  obtain ⟨x', w, r, he, hw, hr, hlen, hbits⟩ := blockingWait_healthy m 0 x1 (s := s.setIrqEnable true) h rfl hl hp hr0
    (by rw [hx1]; rfl) (by rw [hx1]; rfl) (by rw [hx1]; rfl) (by rw [hx1]; rfl)
    (by rw [hx1]; rfl) (by rw [hx1, Nat.zero_add]; simp [newTransfer, Xfer.sent, hcount]; omega)
  have hu : (s.setIrqEnable true).unit = s.unit := rfl
  have hx1tx : x1.tx = tx.take count := by rw [hx1]; rfl
  have hx1rx : x1.rx = rx.take count := by rw [hx1]; rfl
  rw [hu] at hw hr he hbits
  rw [hx1tx, bitsFrom_take _ _ _ (by omega)] at he hbits
  have hlen' : x'.rx.length = count := by rw [hlen, hx1rx, List.length_take]; omega
  refine ⟨x'.rx ++ rx.drop count, w, r, ?_, hw, hr, by simp [hlen']; omega, ?_⟩
  · unfold transferBlocking
    rw [if_neg (by omega), if_neg (by rw [← hcount]; simp; omega), hstart, Res.bind_ok, hdiv, finishTransfer, hu, hx1tx, he]
    simp only [Res.bind_ok, if_true, State.setIrqEnable, shifted_setChan]
    simp [State.ext_iff, endTransfer, receivedBytes, State.setIrqEnable, Channel.rested, hx, hq]
  · intro i
    have hd : ∀ l, (drawTdos l (s.setIrqEnable true)).1 = (drawTdos l s).1 := by
      intro l
      rw [State.setIrqEnable, drawTdos_setChan]
    by_cases hi : i < (m + 1) * s.unit.bits
    · rw [bit_append_left (by omega), hbits, hd, if_pos hi, if_pos (by omega)]
      simp
    · rw [bit_append_right (by omega), if_neg hi, hlen', bit_drop]
      congr 1
      omega

/-- The polled bulk of a scan is the polled transfer of its whole units (R185). -/
theorem bulkPolled_eq_polledTransfer (n : Nat) (inp : List Byte) (units fuel p : Nat) (out : List Byte) {s : State}
    (hf : units < fuel) (hr : ∀ k < units, s.unit.bits < n - (8 * p + k * s.unit.bits))
    (hend : ¬ s.unit.bits < n - (8 * p + units * s.unit.bits)) (h : s.chan.pinFunction = .peripheral)
    (hb : s.chan.stat.busy = false) (hp : s.env.polls = .healthy) :
    bulkPolled n inp fuel (8 * p) out s =
      (polledTransfer inp units p out s).bind fun o s' => .ok (8 * p + units * s.unit.bits, o) s' := by
  induction units generalizing fuel p out s with
  | zero =>
    obtain ⟨f, rfl⟩ : ∃ f, fuel = f + 1 := ⟨fuel - 1, by omega⟩
    simp only [Nat.zero_mul, Nat.add_zero] at hend
    simp [bulkPolled, hend, polledTransfer, Res.bind]
  | succ k ih =>
    obtain ⟨f, rfl⟩ : ∃ f, fuel = f + 1 := ⟨fuel - 1, by omega⟩
    have h0 : s.unit.bits < n - 8 * p := by simpa using hr 0 (by omega)
    have hpd : 8 * p / 8 = p := by omega
    have e1 : 8 * p + s.unit.bits = 8 * (p + s.unit.bytes) := by rw [s.unit.bits_eq]; ring
    have e2 : ∀ j, 8 * (p + s.unit.bytes) + j * s.unit.bits = 8 * p + (j + 1) * s.unit.bits := by
      intro j
      rw [← e1]
      ring
    simp only [bulkPolled, h0, if_true, hpd, polledTransfer]
    rw [shiftUnitPolled_healthy _ h hb hp]
    simp only [Res.bind]
    rw [e1]
    rw [ih f (p + s.unit.bytes) _ (by omega)
      (by
        intro j hj
        simp only [State.unit_setChan, shifted_unit, e2]
        exact hr (j + 1) (by omega))
      (by
        simp only [State.unit_setChan, shifted_unit, e2]
        exact hend)
      (by exact h) (by rfl) (by simpa using hp)]
    simp only [State.unit_setChan, shifted_unit, e2]
    rfl

/-- Idle units are a polled transfer of zeros (R203). -/
theorem idleUnits_healthy (n : Nat) {s : State} (h : s.chan.pinFunction = .peripheral) (hb : s.chan.stat.busy = false)
    (hp : s.env.polls = .healthy) :
    ∃ c, idleUnits n s = .ok () ((s.shifted (channelPath s) (List.replicate (n * s.unit.bits) false)).setChan c) ∧
      (c = s.chan ∧ n = 0 ∨ ∃ w r, c = s.chan.rested w r ∧ unitLegal s.unit w = true ∧ unitLegal s.unit r = true) := by
  induction n generalizing s with
  | zero => exact ⟨s.chan, by simp [idleUnits, State.ext_iff], .inl ⟨rfl, rfl⟩⟩
  | succ n ih =>
    have hz : unitBits s.unit 0 = List.replicate s.unit.bits false := by
      simp [unitBits]
    have hlen : (drawTdos (List.replicate s.unit.bits false) s).1.length = s.unit.bits := by simp
    rw [idleUnits, shiftUnitPolled_healthy _ h hb hp, hz]
    simp only [Res.bind]
    generalize hs' : (s.shifted (channelPath s) (List.replicate s.unit.bits false)).setChan (s.chan.rested
      (adapt s.unit 0) (unitOfSamples (drawTdos (List.replicate s.unit.bits false) s).1)) = s'
    have hu : s'.unit = s.unit := by rw [← hs']; simp
    have hch : s'.chan = s.chan.rested (adapt s.unit 0)
        (unitOfSamples (drawTdos (List.replicate s.unit.bits false) s).1) := by rw [← hs']; rfl
    obtain ⟨c, he, hc⟩ := ih (s := s') (by rw [hch]; exact h) (by rw [hch]; rfl)
      (by rw [← hs']; simpa using hp)
    have hpath : channelPath s' = channelPath s := by simp [channelPath, hch, Channel.rested]
    rw [hu] at he hc
    refine ⟨c, ?_, .inr ?_⟩
    · have : (n + 1) * s.unit.bits = s.unit.bits + n * s.unit.bits := by ring
      rw [he, hpath, ← hs', shifted_setChan, shifted_shifted, this, List.replicate_add]
      rfl
    · rcases hc with ⟨rfl, -⟩ | ⟨w, r, rfl, hw, hr⟩
      · exact ⟨_, _, hch, adapt_legal _ _, unitOfSamples_legal hlen⟩
      · exact ⟨w, r, by rw [hch]; rfl, hw, hr⟩

end Sys2Proof.Machine
end

