-- ==== Sys2Proof/Laws/Scan.lean ====
section
/-! SUPPORT. The scan engine on a healthy channel or without one (R180 to R191). -/

namespace Sys2Proof.Machine

/-! The partition. -/

/-- The two ways to compute the bulk agree (R183). -/
theorem bulkBits_eq {u : UnitWidth} {n : Nat} (h : u.bits < n) : bulkBits u n = (n - 1) / u.bits * u.bits := by
  have hp := u.bits_pos
  have h1 := Nat.div_add_mod n u.bits
  unfold bulkBits
  split
  · next h0 =>
    obtain ⟨k, hk⟩ : ∃ k, n = k * u.bits := ⟨n / u.bits, by rw [h0, Nat.add_zero, Nat.mul_comm] at h1; exact h1.symm⟩
    subst hk
    obtain ⟨m, rfl⟩ : ∃ m, k = m + 1 := by
      cases k with
      | zero => simp at h
      | succ m => exact ⟨m, rfl⟩
    rw [Nat.mul_div_cancel _ hp]
    have : ((m + 1) * u.bits - 1) / u.bits = m := by
      rw [show (m + 1) * u.bits - 1 = (u.bits - 1) + m * u.bits by
        have : (m + 1) * u.bits = m * u.bits + u.bits := by ring
        omega]
      rw [Nat.add_mul_div_right _ _ hp, Nat.div_eq_of_lt (by omega), Nat.zero_add]
    rw [this]
    have : (m + 1) * u.bits = m * u.bits + u.bits := by ring
    omega
  · next h0 =>
    congr 1
    have h2 : n % u.bits < u.bits := Nat.mod_lt _ hp
    have : n - 1 = (n % u.bits - 1) + n / u.bits * u.bits := by
      rw [Nat.mul_comm] at h1
      generalize n / u.bits * u.bits = b at h1
      omega
    rw [this, Nat.add_mul_div_right _ _ hp, Nat.div_eq_of_lt (show n % u.bits - 1 < u.bits by omega), Nat.zero_add]

theorem wantsChannel_iff {n : Nat} {s : State} :
    wantsChannel n s = true ↔ s.unit.bits < n ∧ s.activeTransferMode = .hardwareAssisted := by
  simp [wantsChannel]

/-- Between one and `U` bits are left to the bit-bang path, and the bulk is at least a unit (R183). -/
theorem scanBulk_bounds {n : Nat} {s : State} (h : wantsChannel n s = true) :
    scanBulk n s = (n - 1) / s.unit.bits * s.unit.bits ∧ s.unit.bits ≤ scanBulk n s ∧ scanBulk n s < n ∧
      n ≤ scanBulk n s + s.unit.bits := by
  have hp := s.unit.bits_pos
  have hlt := (wantsChannel_iff.mp h).1
  have h1 : (n - 1) / s.unit.bits * s.unit.bits + (n - 1) % s.unit.bits = n - 1 := by
    rw [Nat.mul_comm]
    exact Nat.div_add_mod (n - 1) s.unit.bits
  have h2 : (n - 1) % s.unit.bits < s.unit.bits := Nat.mod_lt _ hp
  have h3 : 1 ≤ (n - 1) / s.unit.bits := by
    rw [Nat.le_div_iff_mul_le hp]
    omega
  have h4 : s.unit.bits ≤ (n - 1) / s.unit.bits * s.unit.bits := Nat.le_mul_of_pos_left _ h3
  simp only [scanBulk, h, if_true, true_and]
  generalize (n - 1) / s.unit.bits * s.unit.bits = b at h1 h4 ⊢
  generalize (n - 1) % s.unit.bits = m at h1 h2
  omega

theorem scanBulk_none {n : Nat} {s : State} (h : wantsChannel n s = false) : scanBulk n s = 0 := by
  simp [scanBulk, h]

/-! The bit-bang bits. -/

theorem tailEvents_succ (endState : TapState) (buf : List Byte) (i rem : Nat) (b : Bool) (tdos : List Bool) :
    tailEvents endState buf i (rem + 1) (b :: tdos) =
      .cycle .bb (decide (rem = 0) && !endState.isShift) (bit buf i) (some b) :: tailEvents endState buf (i + 1) rem tdos := by
  simp only [tailEvents, List.range_succ_eq_map, List.map_cons, List.map_map]
  congr 1
  · simp
  · apply List.map_congr_left
    intro k _
    simp only [Function.comp_apply, Nat.succ_eq_add_one, List.getD_cons_succ]
    congr 2
    · simp
    · omega

/-- Step 6 of a scan on plain lines (R187). -/
theorem tailBits_line (shift endState : TapState) (inp : List Byte) (rem i : Nat) (out : List Byte) {s : State}
    (h : s.chan.pinFunction = .line) (hc : s.lastTmsLevel = s.lines.tms) (hlen : i + rem ≤ 8 * out.length) :
    ∃ out' l, tailBits shift endState inp rem i out s =
        .ok out' (((drawTdos ((List.range rem).map fun k => bit inp (i + k)) s).2.wired l l.tms
          (tailEvents endState inp i rem (drawTdos ((List.range rem).map fun k => bit inp (i + k)) s).1)).setCurrentState
            (if rem = 0 ∨ endState.isShift = true then s.currentState else shift.exit1)) ∧
      (rem = 0 → l = s.lines) ∧
      (0 < rem → l = s.lines.pulsed (!endState.isShift) (bit inp (i + (rem - 1)))) ∧
      out'.length = out.length ∧
      ∀ j, bit out' j = if i ≤ j ∧ j < i + rem then
        (drawTdos ((List.range rem).map fun k => bit inp (i + k)) s).1.getD (j - i) false else bit out j := by
  induction rem generalizing i out s with
  | zero =>
    refine ⟨out, s.lines, ?_, fun _ => rfl, by simp, rfl, ?_⟩
    · simp [tailBits, tailEvents, State.ext_iff, hc]
    · intro j
      rw [if_neg (by omega)]
  | succ rem ih =>
    have hbits : ((List.range (rem + 1)).map fun k => bit inp (i + k)) =
        bit inp i :: ((List.range rem).map fun k => bit inp (i + 1 + k)) := by
      simp only [List.range_succ_eq_map, List.map_cons, List.map_map, Nat.add_zero, List.cons.injEq, true_and]
      apply List.map_congr_left
      intro k _
      simp only [Function.comp_apply, Nat.succ_eq_add_one]
      congr 1
      omega
    rw [tailBits, pulseClock_line _ _ _ h, pulse_sampled, pulsedTms_cached _ hc]
    simp only [Res.bind]
    generalize ht : (decide (rem = 0) && !endState.isShift) = tms
    generalize hs' : (if tms = true then ((s.drawTdo (bit inp i)).2.wired (s.lines.pulsed tms (bit inp i)) tms
        [.cycle .bb tms (bit inp i) (some (s.drawTdo (bit inp i)).1)]).setCurrentState shift.exit1
      else (s.drawTdo (bit inp i)).2.wired (s.lines.pulsed tms (bit inp i)) tms
        [.cycle .bb tms (bit inp i) (some (s.drawTdo (bit inp i)).1)]) = s'
    have hs2 : s' = ((s.drawTdo (bit inp i)).2.wired (s.lines.pulsed tms (bit inp i)) tms
        [.cycle .bb tms (bit inp i) (some (s.drawTdo (bit inp i)).1)]).setCurrentState
          (if tms = true then shift.exit1 else s.currentState) := by
      rw [← hs']
      split
      · rfl
      · simp [State.ext_iff]
    obtain ⟨out', l, he, hz, hpos, hlen', hb⟩ := ih (i + 1) (setbit out i (s.drawTdo (bit inp i)).1) (s := s')
      (by rw [hs2]; simpa using h) (by rw [hs2]; rfl) (by simp; omega)
    have hd : drawTdos ((List.range rem).map fun k => bit inp (i + 1 + k)) s' =
        ((drawTdos ((List.range rem).map fun k => bit inp (i + 1 + k)) (s.drawTdo (bit inp i)).2).1,
          ((drawTdos ((List.range rem).map fun k => bit inp (i + 1 + k)) (s.drawTdo (bit inp i)).2).2.wired
            (s.lines.pulsed tms (bit inp i)) tms [.cycle .bb tms (bit inp i) (some (s.drawTdo (bit inp i)).1)]).setCurrentState
              (if tms = true then shift.exit1 else s.currentState)) := by
      rw [hs2, drawTdos_setCurrentState, drawTdos_wired]
    have hcur : s'.currentState = if tms = true then shift.exit1 else s.currentState := by rw [hs2]; rfl
    refine ⟨out', l, ?_, by simp, ?_, by rw [hlen', setbit_length], ?_⟩
    · have hstate : (if rem = 0 ∨ endState.isShift = true then s'.currentState else shift.exit1) =
          if rem + 1 = 0 ∨ endState.isShift = true then s.currentState else shift.exit1 := by
        rw [hcur, ← ht]
        by_cases hr : rem = 0 <;> cases endState.isShift <;> simp [hr]
      rw [he, hd, hbits, drawTdos, hstate, tailEvents_succ, ht]
      simp [State.ext_iff]
    · intro _
      rcases Nat.eq_zero_or_pos rem with rfl | hr
      · rw [hz rfl, hs2]
        simp only [State.setCurrentState_lines, State.wired_lines, Nat.add_sub_cancel, Nat.add_zero]
        simp [← ht]
      · have : i + 1 + (rem - 1) = i + (rem + 1 - 1) := by omega
        rw [hpos hr, hs2, this]
        simp
    · intro j
      rw [hb, hd, hbits, drawTdos, bit_setbit (out := out) (i := i) (by omega)]
      dsimp only
      by_cases h1 : j = i
      · subst h1
        rw [if_neg (by omega), if_pos rfl, if_pos (by omega)]
        simp
      · by_cases h2 : i + 1 ≤ j ∧ j < i + 1 + rem
        · rw [if_pos h2, if_pos (by omega)]
          have : j - i = (j - (i + 1)) + 1 := by omega
          rw [this, List.getD_cons_succ]
        · rw [if_neg h2, if_neg h1, if_neg (by omega)]

/-! The output. -/

theorem padOutput_length (n : Nat) (out : List Byte) (s : State) : (padOutput n out s).1.length = out.length := by
  unfold padOutput
  split <;> simp

/-- Only the pad bits are free (R66). -/
theorem bit_padOutput (n : Nat) (out : List Byte) (s : State) (j : Nat) (h : j < n) :
    bit (padOutput n out s).1 j = bit out j := by
  unfold padOutput
  split
  · rfl
  · next hn =>
    simp only [bit, List.getD_eq_getElem?_getD, List.getElem?_modify]
    by_cases hc : n / 8 = j / 8
    · rw [hc]
      cases ho : out[j / 8]? with
      | none => simp
      | some x =>
        simp only [if_true, Option.map_eq_map, Option.map_some, Option.getD_some, BitVec.getLsbD_or,
          BitVec.getLsbD_shiftLeft]
        have : j % 8 < n % 8 := by omega
        simp [this]
    · simp [hc]

theorem padOutput_state (n : Nat) (out : List Byte) (s : State) :
    ∃ k, (padOutput n out s).2 = { s with draws := k } := by
  unfold padOutput
  split
  · exact ⟨s.draws, rfl⟩
  · exact ⟨s.draws + 1, rfl⟩

/-! The bulk. -/

theorem emit_eq_wired (s : State) (e : Event) : s.emit e = s.wired s.lines s.lastTmsLevel [e] := rfl

theorem bitsOf_add (buf : List Byte) (a b : Nat) :
    bitsOf buf (a + b) = bitsOf buf a ++ (List.range b).map fun k => bit buf (a + k) := by
  simp [bitsOf, List.range_add]

@[simp] theorem bitsOf_length (buf : List Byte) (n : Nat) : (bitsOf buf n).length = n := by simp [bitsOf]

/-- Enable, whole units, disable, on a healthy idle channel: what goes out and what is left (R182 to R186). -/
theorem bulkPhase_healthy (n : Nat) (inp out : List Byte) {s : State} {d : Nat} (hw : wantsChannel n s = true)
    (hd : usableDivisor s.params s.requestedFreq = some d)
    (hb : s.chan.stat.busy = false) (hl : s.xferLock = false) (hp : s.env.polls = .healthy) (hx : s.xfer = none)
    (hq : s.chan.irqEnable = false) (hlen : n ≤ 8 * out.length) :
    ∃ out' w r, ((enableForScan n s).bind fun useHw s1 => bulkPhase useHw n inp out s1) =
        .ok (scanBulk n s, out') (((drawTdos (bitsOf inp (scanBulk n s)) s).2.wired
          (linesAfterBits s (bitsOf inp (scanBulk n s))) s.lines.tms (bulkEvents n inp s)).setChan
            (s.chan.used s.params d w r)) ∧
      unitLegal s.unit w = true ∧ unitLegal s.unit r = true ∧ out'.length = out.length ∧
      ∀ j, bit out' j = if j < scanBulk n s then (drawTdos (bitsOf inp (scanBulk n s)) s).1.getD j false else bit out j := by
  obtain ⟨hB, hB1, hB2, hB3⟩ := scanBulk_bounds hw
  have hubits := s.unit.bits_eq
  generalize hs1 : s.channelOn d = s1
  have hu1 : s1.unit = s.unit := by rw [← hs1]; rfl
  have hch1 : s1.chan.pinFunction = .peripheral := by rw [← hs1]; rfl
  have hbusy1 : s1.chan.stat.busy = false := by rw [← hs1]; exact hb
  have hready1 : s1.chan.stat.ready = false := by rw [← hs1]; rfl
  have hl1 : s1.xferLock = false := by rw [← hs1]; exact hl
  have hp1 : s1.env.polls = .healthy := by rw [← hs1]; exact hp
  have hx1 : s1.xfer = none := by rw [← hs1]; exact hx
  have hq1 : s1.chan.irqEnable = false := by rw [← hs1]; exact hq
  have hi1 : s1.interruptDriven = s.interruptDriven := by rw [← hs1]; rfl
  obtain ⟨k, hk⟩ : ∃ k, k = (n - 1) / s.unit.bits := ⟨_, rfl⟩
  have hBk : scanBulk n s = k * s.unit.bits := by rw [hB, hk]
  have hk0 : 0 < k := by
    rcases Nat.eq_zero_or_pos k with h0 | h0
    · rw [hBk, h0, Nat.zero_mul] at hB1
      have := s.unit.bits_pos
      omega
    · exact h0
  have hkb : k * s.unit.bits = 8 * (k * s.unit.bytes) := by rw [hubits]; ring
  -- what either variant does between enable and disable
  have hmid : ∃ out' w r, (if s1.interruptDriven then bulkInterrupt n inp out s1 else .ok (0, out) s1).bind
      (fun p s' => bulkPolled n inp n p.1 p.2 s') =
        .ok (scanBulk n s, out') ((s1.shifted (hardwarePath s) (bitsOf inp (scanBulk n s))).setChan (s1.chan.rested w r)) ∧
      unitLegal s.unit w = true ∧ unitLegal s.unit r = true ∧ out'.length = out.length ∧
      ∀ j, bit out' j = if j < scanBulk n s then (drawTdos (bitsOf inp (scanBulk n s)) s1).1.getD j false else bit out j := by
    rw [hi1, hBk]
    cases hi : s.interruptDriven with
    | false =>
      have hpath : channelPath s1 = .hwp := by simp [channelPath, hq1]
      obtain ⟨rx', c, he, hc', hlen', hbits⟩ := polledTransfer_healthy inp k 0 out hch1 hbusy1 hp1
        (by rw [hu1]; omega)
      rcases hc' with ⟨-, h0⟩ | ⟨w, r, rfl, hw', hr'⟩
      · omega
      refine ⟨rx', w, r, ?_, by rwa [hu1] at hw', by rwa [hu1] at hr', hlen', ?_⟩
      · have := bulkPolled_eq_polledTransfer n inp k n 0 out (s := s1) ?_ ?_ ?_ hch1 hbusy1 hp1
        · simp only [Bool.false_eq_true, if_false, Res.bind]
          simp only [Nat.mul_zero, Nat.zero_add] at this
          rw [this, he, hpath, bitsFrom_start, hu1]
          simp [Res.bind, hardwarePath, hi]
        · rw [hk]
          have := Nat.div_le_self (n - 1) s.unit.bits
          omega
        · intro j hj
          rw [hu1, Nat.mul_zero, Nat.zero_add]
          have : (j + 1) * s.unit.bits ≤ k * s.unit.bits := Nat.mul_le_mul_right _ (by omega)
          rw [Nat.add_mul, Nat.one_mul] at this
          omega
        · rw [hu1, Nat.mul_zero, Nat.zero_add]
          omega
      · intro j
        rw [hbits, bitsFrom_start, hu1]
        simp
    | true =>
      have hbb : bulkBits s1.unit n = k * s.unit.bits := by
        rw [hu1, bulkBits_eq (wantsChannel_iff.mp hw).1, hk]
      have hbytes : k * s.unit.bits / 8 = k * s.unit.bytes := by omega
      obtain ⟨rx', w, r, he, hw', hr', hlen', hbits⟩ := transferBlocking_healthy (memRead inp 0 (k * s.unit.bytes))
        (zeroBytes (k * s.unit.bytes)) k hk0 hch1 hbusy1 hready1 hl1 hp1 hx1 hq1 (by rw [hu1]; simp) (by rw [hu1]; simp)
      have hmr : bitsFrom (memRead inp 0 (k * s.unit.bytes)) 0 (k * s.unit.bits) = bitsOf inp (k * s.unit.bits) := by
        simp only [bitsFrom, bitsOf]
        apply List.map_congr_left
        intro j hj
        rw [List.mem_range] at hj
        rw [bit_memRead _ _ _ _ (by omega)]
        congr 1
        omega
      rw [hu1] at he hbits
      rw [hmr] at he hbits
      have hlen2 : 0 + rx'.length ≤ out.length := by simp at hlen'; omega
      refine ⟨memWrite out 0 rx', w, r, ?_, by rwa [hu1] at hw', by rwa [hu1] at hr', memWrite_length hlen2, ?_⟩
      · simp only [if_true, bulkInterrupt, hbb, hbytes, he, Res.onError, Res.bind]
        obtain ⟨f, hf⟩ : ∃ f, n = f + 1 := ⟨n - 1, by omega⟩
        have hstop : ¬ s.unit.bits < n - k * s.unit.bits := by omega
        have hun : ((s1.shifted .hwi (bitsOf inp (k * s.unit.bits))).setChan (s1.chan.rested w r)).unit = s.unit := by simp [hu1]
        conv_lhs => rw [hf]
        rw [bulkPolled, ← hf, hun, if_neg hstop]
        simp [hardwarePath, hi]
      · intro j
        rw [bit_memWrite hlen2, hbits]
        have e : 8 * rx'.length = k * s.unit.bits := by rw [hlen', zeroBytes_length]; omega
        rw [e]
        simp only [Nat.mul_zero, Nat.zero_le, true_and, Nat.zero_add, Nat.sub_zero]
        split <;> rfl
  obtain ⟨out', w, r, he, hw', hr', hlen', hbits⟩ := hmid
  have hdr : ∀ l, drawTdos l s1 = ((drawTdos l s).1, (drawTdos l s).2.channelOn d) := by
    intro l
    rw [← hs1, State.channelOn, emit_eq_wired, drawTdos_wired, drawTdos_setChan]
    simp [State.channelOn, emit_eq_wired]
  refine ⟨out', w, r, ?_, hw', hr', hlen', ?_⟩
  · have hen : enableForScan n s = .ok true s1 := by
      simp [enableForScan, hw, openChannel_idle hd (by simp [hb]), Res.bind, hs1]
    rw [hen]
    change bulkPhase true n inp out s1 = _
    rw [bulkPhase, if_pos rfl, ← Res.bind_assoc, he]
    change Res.ok (scanBulk n s, out') (closeChannel _) = _
    rw [closeChannel_idle (peripheralEnabled_idle (by simp [Channel.rested])), configureOff_enabled (by exact hch1)]
    simp only [State.shifted, hdr, bulkEvents, hw, if_true]
    rw [← hs1]
    simp [State.ext_iff, State.channelOn, linesAfterBits, Channel.rested, Channel.used, hb]
    split <;> rfl
  · intro j
    rw [hbits, hdr]

/-! The whole scan. -/

theorem linesAfterTms_tck {s : State} (l : List Bool) (h : s.lines.tck = false) : (linesAfterTms s l).tck = false := by
  unfold linesAfterTms
  split
  · rfl
  · exact h

/-- The first two parts of a scan, with and without the channel (R182 to R186). -/
theorem bulk_completes (n : Nat) (inp out : List Byte) {s : State} (hs : AtBoundary s) (hu : ScanUsable n s)
    (hlen : n ≤ 8 * out.length) :
    ∃ out' l c, ((enableForScan n s).bind fun useHw s1 => bulkPhase useHw n inp out s1) =
        .ok (scanBulk n s, out') (((drawTdos (bitsOf inp (scanBulk n s)) s).2.wired l s.lines.tms
          (bulkEvents n inp s)).setChan c) ∧
      l.tck = false ∧ l.tms = s.lines.tms ∧
      (wantsChannel n s = false ∧ c = s.chan ∨ ∃ d w r, wantsChannel n s = true ∧
        usableDivisor s.params s.requestedFreq = some d ∧ c = s.chan.used s.params d w r ∧ unitLegal s.unit w = true ∧
        unitLegal s.unit r = true) ∧
      out'.length = out.length ∧
      ∀ j, bit out' j = if j < scanBulk n s then (drawTdos (bitsOf inp (scanBulk n s)) s).1.getD j false else bit out j := by
  have hset := hs.settled
  cases hw : wantsChannel n s with
  | false =>
    refine ⟨out, s.lines, s.chan, ?_, hset.tckLow, rfl, .inl ⟨rfl, rfl⟩, rfl, ?_⟩
    · have hen : enableForScan n s = .ok false s := by simp [enableForScan, hw]
      rw [hen]
      change bulkPhase false n inp out s = _
      simp [bulkPhase, scanBulk_none hw, bulkEvents, hw, bitsOf, State.ext_iff, hset.tmsCached]
    · intro j
      rw [scanBulk_none hw, if_neg (by omega)]
  | true =>
    obtain ⟨hch, -⟩ := hu hw
    obtain ⟨d, hd⟩ := Option.isSome_iff_exists.mp hch.frequency
    obtain ⟨out', w, r, he, hw', hr', hlen', hbits⟩ := bulkPhase_healthy n inp out hw hd hch.idle hset.lockFree hch.healthy
      hset.noTransfer hset.irqOff hlen
    refine ⟨out', _, _, he, ?_, linesAfterBits_tms _ _, .inr ⟨d, w, r, rfl, hd, rfl, hw', hr'⟩, hlen', hbits⟩
    unfold linesAfterBits
    split
    · rfl
    · exact hset.tckLow

/-- A scan whose entry checks have passed, on plain lines and a channel that is usable if it is used (R180 to R191). -/
theorem scanBody_completes (n : Nat) (endState : TapState) (inp : List Byte) {s : State} (hs : AtBoundary s) (hn : 0 < n)
    (hu : ScanUsable n s) :
    ∃ out t, scanBody n endState inp s = .ok out t ∧ out.length = ceil8 n ∧
      (∀ k, k < n → bit out k = (drawTdos (bitsOf inp n) s).1.getD k false) ∧
      t.trace = s.trace ++ (bulkEvents n inp s ++
        tailEvents endState inp (scanBulk n s) (n - scanBulk n s) ((drawTdos (bitsOf inp n) s).1.drop (scanBulk n s)) ++
        transitionEvents (transitionTms (scanExit s.currentState endState) endState)) ∧
      OnlyWireAndChannel (s.setCurrentState endState) t ∧ t.env = (drawTdos (bitsOf inp n) s).2.env ∧
      t.lastTmsLevel = t.lines.tms ∧ t.lines.tck = false ∧
      (wantsChannel n s = false ∧ t.chan = s.chan ∨ ∃ d w r, wantsChannel n s = true ∧
        usableDivisor s.params s.requestedFreq = some d ∧ t.chan = s.chan.used s.params d w r ∧ unitLegal s.unit w = true ∧
        unitLegal s.unit r = true) := by
  have hceil : n ≤ 8 * (zeroBytes (ceil8 n)).length := by
    rw [zeroBytes_length, ceil8]
    omega
  obtain ⟨out1, l, c, he, htck, htms, hc, hlen1, hbits1⟩ := bulk_completes n inp (zeroBytes (ceil8 n)) hs hu hceil
  have hB : scanBulk n s < n := by
    cases hw : wantsChannel n s with
    | false => rw [scanBulk_none hw]; exact hn
    | true => exact (scanBulk_bounds hw).2.2.1
  have hcline : c.pinFunction = .line := by
    rcases hc with ⟨-, rfl⟩ | ⟨d, w, r, -, -, rfl, -⟩
    · exact hs.lines
    · rfl
  generalize hs2 : ((drawTdos (bitsOf inp (scanBulk n s)) s).2.wired l s.lines.tms (bulkEvents n inp s)).setChan c = s2 at he
  obtain ⟨out2, l2, he2, -, hl2, hlen2, hbits2⟩ := tailBits_line s.currentState endState inp (n - scanBulk n s) (scanBulk n s)
    out1 (s := s2) (by rw [← hs2]; exact hcline) (by rw [← hs2]; exact htms.symm) (by rw [hlen1]; omega)
  replace hl2 := hl2 (by omega)
  have hsplit : bitsOf inp n = bitsOf inp (scanBulk n s) ++ (List.range (n - scanBulk n s)).map fun k =>
      bit inp (scanBulk n s + k) := by
    rw [← bitsOf_add]
    congr 1
    omega
  have hd2 : ∀ bs, drawTdos bs s2 = ((drawTdos bs (drawTdos (bitsOf inp (scanBulk n s)) s).2).1,
      ((drawTdos bs (drawTdos (bitsOf inp (scanBulk n s)) s).2).2.wired l s.lines.tms (bulkEvents n inp s)).setChan c) := by
    intro bs
    rw [← hs2, drawTdos_setChan, drawTdos_wired]
  have hcur2 : s2.currentState = s.currentState := by rw [← hs2]; simp
  have hans : (drawTdos (bitsOf inp n) s).1 = (drawTdos (bitsOf inp (scanBulk n s)) s).1 ++
      (drawTdos ((List.range (n - scanBulk n s)).map fun k => bit inp (scanBulk n s + k))
        (drawTdos (bitsOf inp (scanBulk n s)) s).2).1 := by
    rw [hsplit, drawTdos_append]
  have hst : (drawTdos (bitsOf inp n) s).2 =
      (drawTdos ((List.range (n - scanBulk n s)).map fun k => bit inp (scanBulk n s + k))
        (drawTdos (bitsOf inp (scanBulk n s)) s).2).2 := by
    rw [hsplit, drawTdos_append]
  have hlen3 : (drawTdos (bitsOf inp (scanBulk n s)) s).1.length = scanBulk n s := by simp
  have hexit : (if n - scanBulk n s = 0 ∨ endState.isShift = true then s2.currentState else s.currentState.exit1) =
      scanExit s.currentState endState := by
    have h0 : ¬ n - scanBulk n s = 0 := by omega
    simp [scanExit, h0, hcur2]
  rw [hexit, hd2] at he2
  dsimp only at he2
  rw [← hst] at he2
  have hdrop : (drawTdos ((List.range (n - scanBulk n s)).map fun k => bit inp (scanBulk n s + k))
      (drawTdos (bitsOf inp (scanBulk n s)) s).2).1 = (drawTdos (bitsOf inp n) s).1.drop (scanBulk n s) := by
    rw [hans, List.drop_left' hlen3]
  rw [hdrop] at he2
  generalize hs3 : ((((drawTdos (bitsOf inp n) s).2.wired l s.lines.tms (bulkEvents n inp s)).setChan c).wired l2 l2.tms
    (tailEvents endState inp (scanBulk n s) (n - scanBulk n s)
      ((drawTdos (bitsOf inp n) s).1.drop (scanBulk n s)))).setCurrentState (scanExit s.currentState endState) = s3 at he2
  have hdrive := driveTransition_line s3.currentState endState (s := s3) (by rw [← hs3]; exact hcline) (by rw [← hs3]; rfl)
  have hcur3 : s3.currentState = scanExit s.currentState endState := by rw [← hs3]; rfl
  generalize htm : transitionTms (scanExit s.currentState endState) endState = tms
  rw [hcur3, htm] at hdrive
  generalize hs4 : (s3.wired (linesAfterTms s3 tms) (linesAfterTms s3 tms).tms (transitionEvents tms)).setCurrentState
    endState = s4 at hdrive
  obtain ⟨k, hk⟩ := padOutput_state n out2 s4
  refine ⟨(padOutput n out2 s4).1, (padOutput n out2 s4).2, ?_, ?_, ?_, ?_, ?_, ?_, ?_, ?_, ?_⟩
  · rw [scanBody, ← Res.bind_assoc, he]
    change (tailBits _ _ _ _ _ _ _).bind _ = _
    rw [he2]
    change (driveTransition _ _ _).bind _ = _
    rw [hcur3, hdrive]
    rfl
  · rw [padOutput_length, hlen2, hlen1, zeroBytes_length]
  · intro j hj
    rw [bit_padOutput n out2 s4 j hj, hbits2, hd2]
    dsimp only
    rw [hans]
    by_cases h : j < scanBulk n s
    · rw [if_neg (by omega), hbits1, if_pos h, List.getD_append _ _ _ _ (by rw [hlen3]; exact h)]
    · rw [if_pos (by omega), List.getD_append_right _ _ _ _ (by rw [hlen3]; omega), hlen3]
  · rw [hk, ← hs4, ← hs3]
    simp
  · rw [hk, ← hs4, ← hs3]
    simp [OnlyWireAndChannel]
  · rw [hk, ← hs4, ← hs3]
    rfl
  · rw [hk, ← hs4]
    rfl
  · rw [hk, ← hs4]
    apply linesAfterTms_tck
    rw [← hs3]
    simp [hl2]
  · rw [hk, ← hs4, ← hs3]
    exact hc

end Sys2Proof.Machine
end

