-- ==== Sys2Proof/Laws/RunClock.lean ====
section
/-! SUPPORT. The run-clock primitive on a usable channel or without one (R200 to R204). -/

namespace Sys2Proof.Machine

theorem tmsLow_eq {s : State} (hc : s.lastTmsLevel = s.lines.tms) :
    tmsLow s = s.wired { s.lines with tms := false } false (if s.lastTmsLevel then [.tmsWrite false] else []) := by
  unfold tmsLow
  split
  · rfl
  · next h => simp_all [State.ext_iff, Lines.ext_iff]

theorem bitsOf_zeroBytes (k n : Nat) : bitsOf (zeroBytes k) n = List.replicate n false := by
  simp [bitsOf, List.eq_replicate_iff]

/-- The hardware part of an idle run, either variant (R203). -/
theorem idlePart_healthy (units : Nat) {s : State} (h : s.chan.pinFunction = .peripheral) (hb : s.chan.stat.busy = false)
    (hr0 : s.chan.stat.ready = false) (hl : s.xferLock = false) (hp : s.env.polls = .healthy) (hx : s.xfer = none) (hq : s.chan.irqEnable = false) :
    ∃ c, (if s.interruptDriven then idleTransfer units s else idleUnits units s) =
        .ok () ((s.shifted (hardwarePath s) (List.replicate (units * s.unit.bits) false)).setChan c) ∧
      (c = s.chan ∧ units = 0 ∨ ∃ w r, c = s.chan.rested w r ∧ unitLegal s.unit w = true ∧ unitLegal s.unit r = true) := by
  cases hi : s.interruptDriven with
  | false =>
    have hpath : channelPath s = hardwarePath s := by simp [channelPath, hardwarePath, hq, hi]
    simp only [Bool.false_eq_true, if_false]
    rw [← hpath]
    exact idleUnits_healthy units h hb hp
  | true =>
    simp only [if_true, idleTransfer]
    rcases Nat.eq_zero_or_pos units with rfl | hu
    · exact ⟨s.chan, by simp [State.ext_iff], .inl ⟨rfl, rfl⟩⟩
    · obtain ⟨rx', w, r, he, hw, hr, -, -⟩ := transferBlocking_healthy (zeroBytes (units * s.unit.bytes))
        (zeroBytes (units * s.unit.bytes)) units hu h hb hr0 hl hp hx hq (by simp) (by simp)
      refine ⟨s.chan.rested w r, ?_, .inr ⟨w, r, rfl, hw, hr⟩⟩
      rw [if_pos hu, he, bitsFrom_start, bitsOf_zeroBytes]
      simp [hardwarePath, hi]

theorem linesAfterTms_replicate_tms (s : State) (n : Nat) (h : s.lines.tms = false) :
    (linesAfterTms s (List.replicate n false)).tms = false := by
  unfold linesAfterTms
  split
  · next t ht => exact List.eq_of_mem_replicate (List.mem_of_getLast? ht)
  · exact h

/-- The run-clock primitive when its channel, if it uses one, is usable (R200 to R204). -/
theorem runIdle_completes (cycles : Nat) {s : State} (hs : AtBoundary s) (hu : IdleUsable s) :
    ∃ t, runIdle cycles s = .ok () t ∧ t.trace = s.trace ++ idleEvents cycles s ∧ OnlyWireAndChannel s t ∧
      t.env = (drawTdos (List.replicate (idleBulk cycles s) false) s).2.env ∧
      t.lastTmsLevel = t.lines.tms ∧ t.lines.tck = false ∧
      (0 < cycles ∨ s.activeTransferMode = .hardwareAssisted → t.lines.tms = false) ∧
      (s.activeTransferMode = .bitBang ∧ t.chan = s.chan ∨ ∃ d, s.activeTransferMode = .hardwareAssisted ∧
        usableDivisor s.params s.requestedFreq = some d ∧ (t.chan = s.chan.opened s.params d ∧ cycles < s.unit.bits ∨
          ∃ w r, t.chan = s.chan.used s.params d w r ∧ unitLegal s.unit w = true ∧ unitLegal s.unit r = true)) := by
  have hset := hs.settled
  unfold runIdle
  cases hm : s.activeTransferMode with
  | bitBang =>
    simp only [reduceCtorEq, if_false]
    rw [clockIdle_eq_clockTms, clockTms_line _ hs.lines hset.tmsCached]
    refine ⟨_, rfl, ?_, ?_, ?_, rfl, linesAfterTms_tck _ hset.tckLow, ?_, .inl ⟨trivial, rfl⟩⟩
    · simp [idleEvents, hm]
    · simp [OnlyWireAndChannel, State.wired]
    · simp [idleBulk, hm]
    · rintro (h | h)
      · obtain ⟨k, rfl⟩ : ∃ k, cycles = k + 1 := ⟨cycles - 1, by omega⟩
        simp [linesAfterTms, List.getLast?_replicate]
      · exact absurd h (by simp)
  | hardwareAssisted =>
    obtain hch := hu hm
    obtain ⟨d, hd⟩ := Option.isSome_iff_exists.mp hch.frequency
    have hbulk : idleBulk cycles s = cycles / s.unit.bits * s.unit.bits := by simp [idleBulk, hm]
    have hmod : cycles - idleBulk cycles s = cycles % s.unit.bits := by
      rw [hbulk, Nat.mod_eq_sub_div_mul]
    have hlow := tmsLow_eq hset.tmsCached
    generalize htl : (if s.lastTmsLevel then [Event.tmsWrite false] else []) = pre at hlow
    generalize hs0 : tmsLow s = s0 at hlow
    have hon : openChannel s0 = .ok () (s0.channelOn d) := openChannel_idle (by rw [hlow]; exact hd)
      (by rw [hlow]; exact fun h => absurd (hch.idle.symm.trans h) (by simp))
    generalize hs1 : s0.channelOn d = s1 at hon
    have hu1 : s1.unit = s.unit := by rw [← hs1, hlow]; rfl
    have hi1 : s1.interruptDriven = s.interruptDriven := by rw [← hs1, hlow]; rfl
    have hpath : hardwarePath s1 = hardwarePath s := by simp [hardwarePath, hi1]
    obtain ⟨c, he, hc⟩ := idlePart_healthy (cycles / s.unit.bits) (s := s1) (by rw [← hs1]; rfl)
      (by rw [← hs1, hlow]; exact hch.idle) (by rw [← hs1]; rfl) (by rw [← hs1, hlow]; exact hset.lockFree)
      (by rw [← hs1, hlow]; exact hch.healthy) (by rw [← hs1, hlow]; exact hset.noTransfer)
      (by rw [← hs1, hlow]; exact hset.irqOff)
    have hcp : c.pinFunction = .peripheral := by
      rcases hc with ⟨rfl, -⟩ | ⟨w, r, rfl, -⟩
      · rw [← hs1]; rfl
      · rw [← hs1]; rfl
    have hcb : c.stat.busy = false := by
      rcases hc with ⟨rfl, -⟩ | ⟨w, r, rfl, -⟩
      · rw [← hs1, hlow]; exact hch.idle
      · rfl
    rw [hi1, hu1, ← hbulk, hpath] at he
    rw [hu1] at hc
    have hs1eq : s1 = (s.wired { s.lines with tms := false } false (pre ++ [.mux .peripheral])).setChan s1.chan := by
      rw [← hs1, hlow]
      simp [State.ext_iff, State.channelOn]
    have hc1 : s1.chan = { s.chan with
        divisor := d
        pinFunction := .peripheral
        idleClockLow := true
        sampleEdge := s.params.sampleEdge
        stat := { s.chan.stat with ready := false } } := by
      rw [← hs1, hlow]
      rfl
    generalize hbits : List.replicate (idleBulk cycles s) false = bits at he
    have hshift : ∃ l, l.tms = false ∧ l.tck = false ∧ s1.shifted (hardwarePath s) bits =
        ((drawTdos bits s).2.wired l false (pre ++ [.mux .peripheral] ++
          sampledEvents (hardwarePath s) false bits (drawTdos bits s).1)).setChan s1.chan := by
      refine ⟨linesAfterBits (s.wired { s.lines with tms := false } false (pre ++ [.mux .peripheral])) bits, ?_, ?_, ?_⟩
      · rw [linesAfterBits_tms]
        rfl
      · unfold linesAfterBits
        split
        · rfl
        · exact hset.tckLow
      · conv_lhs => rw [hs1eq, shifted_setChan, State.shifted, drawTdos_wired, State.wired_wired]
        rfl
    obtain ⟨l, hltms, hltck, hshift⟩ := hshift
    rw [hshift] at he
    have hoff := configureOff_enabled (s := (((drawTdos bits s).2.wired l false (pre ++ [.mux .peripheral] ++
      sampledEvents (hardwarePath s) false bits (drawTdos bits s).1)).setChan s1.chan).setChan c) hcp
    generalize hc3 : ({ c with pinFunction := .line, abandoned := c.stat.busy } : Channel) = c3
    have hs3 : closeChannel ((((drawTdos bits s).2.wired l false (pre ++ [.mux .peripheral] ++
        sampledEvents (hardwarePath s) false bits (drawTdos bits s).1)).setChan s1.chan).setChan c) =
        ((drawTdos bits s).2.wired l false (pre ++ [.mux .peripheral] ++
          sampledEvents (hardwarePath s) false bits (drawTdos bits s).1 ++ [.mux .line])).setChan c3 := by
      rw [closeChannel_idle (peripheralEnabled_idle (by simp [hcb])), hoff, ← hc3]
      simp [State.ext_iff, hltms]
    generalize hs3' : ((drawTdos bits s).2.wired l false (pre ++ [.mux .peripheral] ++
          sampledEvents (hardwarePath s) false bits (drawTdos bits s).1 ++ [.mux .line])).setChan c3 = s3 at hs3
    have h3l : s3.lines = l := by rw [← hs3']; rfl
    have h3c : s3.chan = c3 := by rw [← hs3']; rfl
    have hclk := clockTms_line (List.replicate (cycles % s.unit.bits) false) (s := s3) (by rw [h3c, ← hc3])
      (by rw [h3l, hltms, ← hs3']; rfl)
    simp only [if_true, runIdleHardware, hs0, hon, Res.bind_ok, he, hs3, clockIdle_eq_clockTms, hclk]
    refine ⟨_, rfl, ?_, ?_, ?_, rfl, linesAfterTms_tck _ (by rw [h3l]; exact hltck),
      fun _ => linesAfterTms_replicate_tms s3 _ (by rw [h3l]; exact hltms), .inr ⟨d, trivial, hd, ?_⟩⟩
    · rw [State.wired_trace, ← hs3', idleEvents, if_pos hm, htl, hmod, hbits]
      simp
    · rw [← hs3']
      simp [OnlyWireAndChannel, State.ext_iff]
    · rw [State.wired_env, ← hs3']
      rfl
    · rw [State.wired_chan, h3c, ← hc3]
      rcases hc with ⟨rfl, h0⟩ | ⟨w, r, rfl, hw, hr⟩
      · refine .inl ⟨by rw [hc1]; rfl, ?_⟩
        have := Nat.div_eq_zero_iff.mp h0
        have := s.unit.bits_pos
        omega
      · exact .inr ⟨w, r, by rw [hc1]; rfl, hw, hr⟩

end Sys2Proof.Machine
end

