-- ==== Sys2Proof/Laws/HwRun.lean ====
section
/-! SUPPORT. What the hardware channel can do on every path, healthy or not: one relation between the state before and the state
after, kept by every operation of the channel. -/

namespace Sys2Proof.Machine

/-! Outcomes. -/

/-- What holds after success, after an error, and in a hang. -/
def Res.Post {α : Type} (good : α → State → Prop) (bad : ErrorKind → State → Prop) (hung : State → Prop) : Res α → Prop
  | .ok a s => good a s
  | .error e s => bad e s
  | .hang s => hung s
  | .refused _ => True

theorem Res.Post.bind {α β : Type} {r : Res α} {f : α → State → Res β} {good : α → State → Prop}
    {good' : β → State → Prop} {bad : ErrorKind → State → Prop} {hung : State → Prop} (h : r.Post good bad hung)
    (hf : ∀ a s, good a s → (f a s).Post good' bad hung) : (r.bind f).Post good' bad hung := by
  cases r with
  | ok a s => exact hf a s h
  | error e s => exact h
  | hang s => exact h
  | refused q => trivial

theorem Res.Post.mono {α : Type} {r : Res α} {good good' : α → State → Prop} {bad bad' : ErrorKind → State → Prop}
    {hung hung' : State → Prop} (h : r.Post good bad hung) (hg : ∀ a s, good a s → good' a s)
    (hb : ∀ e s, bad e s → bad' e s) (hh : ∀ s, hung s → hung' s) : r.Post good' bad' hung' := by
  cases r with
  | ok a s => exact hg _ _ h
  | error e s => exact hb _ _ h
  | hang s => exact hh _ h
  | refused q => trivial

theorem Res.Post.onError {α : Type} {r : Res α} {c : State → State} {good : α → State → Prop}
    {bad bad' : ErrorKind → State → Prop} {hung : State → Prop} (h : r.Post good bad hung)
    (hb : ∀ e s, bad e s → bad' e (c s)) : (r.onError c).Post good bad' hung := by
  cases r with
  | ok a s => exact h
  | error e s => exact hb _ _ h
  | hang s => exact h
  | refused q => trivial

theorem Res.Post.of_ok {α : Type} {r : Res α} {good : α → State → Prop} {bad : ErrorKind → State → Prop}
    {hung : State → Prop} {a : α} {s : State} (h : r.Post good bad hung) (hr : r = .ok a s) : good a s := by
  subst hr
  exact h

theorem Res.Post.of_error {α : Type} {r : Res α} {good : α → State → Prop} {bad : ErrorKind → State → Prop}
    {hung : State → Prop} {e : ErrorKind} {s : State} (h : r.Post good bad hung) (hr : r = .error e s) : bad e s := by
  subst hr
  exact h

theorem Res.Post.of_hang {α : Type} {r : Res α} {good : α → State → Prop} {bad : ErrorKind → State → Prop}
    {hung : State → Prop} {s : State} (h : r.Post good bad hung) (hr : r = .hang s) : hung s := by
  subst hr
  exact h

/-- A critical section does what its body does under the lock, and leaves the lock as it was (R170). -/
theorem atomic_post {α : Type} {f : State → Res α} {s : State} {good : α → State → Prop} {bad : ErrorKind → State → Prop}
    {hung : State → Prop}
    (h : (f (s.setLock true)).Post (fun a t => good a (t.setLock s.xferLock)) (fun e t => bad e (t.setLock s.xferLock)) hung) :
    (atomic f s).Post good bad hung := by
  unfold atomic
  split <;> simp_all [Res.Post]

/-! What holds inside operations too. -/

/-- The part of `Settled` that holds in the middle of an operation. -/
structure Sound (s : State) : Prop where
  admissible : s.params.admissible
  tckLow     : s.lines.tck = false
  tmsCached  : s.lastTmsLevel = s.lines.tms
  freqLegal  : s.requestedFreq ≤ s.params.maxFreq
  txLegal    : unitLegal s.unit s.chan.txData = true
  rxLegal    : unitLegal s.unit s.chan.rxData = true
  stuckBusy  : s.chan.abandoned = true → s.chan.stat.busy = true
  busyStuck  : s.chan.pinFunction = .line → s.chan.stat.busy = true → s.chan.abandoned = true

theorem settled_iff {s : State} :
    Settled s ↔ Sound s ∧ s.xfer = none ∧ s.chan.irqEnable = false ∧ s.xferLock = false :=
  ⟨fun h => ⟨⟨h.admissible, h.tckLow, h.tmsCached, h.freqLegal, h.txLegal, h.rxLegal, h.stuckBusy, h.busyStuck⟩,
    h.noTransfer, h.irqOff, h.lockFree⟩,
   fun ⟨h, hx, hq, hl⟩ => ⟨h.admissible, h.tckLow, h.tmsCached, hx, hq, hl, h.freqLegal, h.txLegal, h.rxLegal, h.stuckBusy,
    h.busyStuck⟩⟩

/-- A cycle of the hardware path with the given TMS level, or a change of pin function. -/
def isChannelEvent (tms : Bool) : Event → Prop
  | .cycle .bb _ _ _ => False
  | .cycle _ t _ r => t = tms ∧ r.isSome = true
  | .mux _ => True
  | .tmsWrite _ => False

/-- A run of the channel: no session field and no tracked state changes, TMS stays, only channel events are added, and what is
sound stays sound. -/
structure HwRun (s t : State) : Prop where
  frame  : t = { s with
    lines := t.lines
    lastTmsLevel := t.lastTmsLevel
    trace := t.trace
    env := t.env
    draws := t.draws
    chan := t.chan
    xfer := t.xfer
    xferLock := t.xferLock }
  tms    : t.lines.tms = s.lines.tms
  events : ∃ evs, t.trace = s.trace ++ evs ∧ ∀ e ∈ evs, isChannelEvent s.lines.tms e
  sound  : Sound s → Sound t

namespace HwRun

theorem refl (s : State) : HwRun s s := ⟨rfl, rfl, ⟨[], by simp⟩, id⟩

theorem trans {s t u : State} (h : HwRun s t) (h' : HwRun t u) : HwRun s u := by
  obtain ⟨evs, he, ha⟩ := h.events
  obtain ⟨evs', he', ha'⟩ := h'.events
  refine ⟨?_, h'.tms.trans h.tms, ⟨evs ++ evs', by rw [he', he, List.append_assoc], ?_⟩, fun hs => h'.sound (h.sound hs)⟩
  · rw [h'.frame, h.frame]
  · intro e hm
    rcases List.mem_append.mp hm with hm | hm
    · exact ha e hm
    · rw [← h.tms]
      exact ha' e hm

theorem params {s t : State} (h : HwRun s t) : t.params = s.params := by rw [h.frame]
theorem unit {s t : State} (h : HwRun s t) : t.unit = s.unit := by rw [State.unit, h.params]; rfl
theorem currentState {s t : State} (h : HwRun s t) : t.currentState = s.currentState := by rw [h.frame]
theorem activeTransferMode {s t : State} (h : HwRun s t) : t.activeTransferMode = s.activeTransferMode := by rw [h.frame]
theorem interruptDriven {s t : State} (h : HwRun s t) : t.interruptDriven = s.interruptDriven := by rw [h.frame]
theorem requestedFreq {s t : State} (h : HwRun s t) : t.requestedFreq = s.requestedFreq := by rw [h.frame]

end HwRun

/-- An update of the peripheral, the transfer record, the lock or the environment that leaves the registers sound. -/
theorem HwRun.quiet {s t : State}
    (hf : t = { s with env := t.env, draws := t.draws, chan := t.chan, xfer := t.xfer, xferLock := t.xferLock })
    (hs : Sound s → unitLegal t.unit t.chan.txData = true ∧ unitLegal t.unit t.chan.rxData = true ∧
      (t.chan.abandoned = true → t.chan.stat.busy = true) ∧
      (t.chan.pinFunction = .line → t.chan.stat.busy = true → t.chan.abandoned = true)) : HwRun s t := by
  refine ⟨?_, ?_, ⟨[], ?_, by simp⟩, ?_⟩
  · rw [hf]
  · rw [hf]
  · rw [hf]
    simp
  · intro h
    obtain ⟨h1, h2, h3, h4⟩ := hs h
    refine ⟨?_, ?_, ?_, ?_, h1, h2, h3, h4⟩ <;> rw [hf]
    · exact h.admissible
    · exact h.tckLow
    · exact h.tmsCached
    · exact h.freqLegal

theorem HwRun.of_env {s t : State} (hf : ∃ e n, t = { s with env := e, draws := n }) : HwRun s t := by
  obtain ⟨e, n, rfl⟩ := hf
  exact .quiet rfl fun h => ⟨h.txLegal, h.rxLegal, h.stuckBusy, h.busyStuck⟩

theorem HwRun.drawPoll (s : State) : HwRun s s.drawPoll.2 := by
  obtain ⟨e, n, h, -⟩ := s.drawPoll_frame
  exact .of_env ⟨e, n, h⟩

theorem HwRun.advance (s : State) (n : Nat) : HwRun s (s.advance n) := .of_env ⟨s.env, s.draws + n, rfl⟩

theorem HwRun.setLock (s : State) (b : Bool) : HwRun s (s.setLock b) :=
  .quiet rfl fun h => ⟨h.txLegal, h.rxLegal, h.stuckBusy, h.busyStuck⟩

theorem HwRun.setXfer (s : State) (x : Option Xfer) : HwRun s (s.setXfer x) :=
  .quiet rfl fun h => ⟨h.txLegal, h.rxLegal, h.stuckBusy, h.busyStuck⟩

theorem HwRun.setIrqEnable (s : State) (b : Bool) : HwRun s (s.setIrqEnable b) :=
  .quiet rfl fun h => ⟨h.txLegal, h.rxLegal, h.stuckBusy, h.busyStuck⟩

theorem HwRun.setReady (s : State) (b : Bool) : HwRun s (s.setReady b) :=
  .quiet rfl fun h => ⟨h.txLegal, h.rxLegal, h.stuckBusy, h.busyStuck⟩

theorem HwRun.loadUnit {s : State} {w : Unit16} (hp : s.chan.pinFunction = .peripheral) (hw : unitLegal s.unit w = true) :
    HwRun s (s.loadUnit w) :=
  .quiet rfl fun h => ⟨hw, h.rxLegal, fun hc => absurd hc (by simp [State.loadUnit]),
    fun hc => absurd hc (by simp [State.loadUnit, hp])⟩

theorem HwRun.unspecified (s : State) : HwRun s s.peripheralUnspecified :=
  .quiet rfl fun h => ⟨h.txLegal, cutUnit_legal _ _, id, fun _ => id⟩

theorem HwRun.abandonUnit (s : State) : HwRun s s.abandonUnit :=
  .quiet rfl fun h => ⟨h.txLegal, h.rxLegal, id, fun _ => id⟩

theorem HwRun.signalDone (s : State) : HwRun s s.signalDone := .setXfer s _

theorem HwRun.drawTurn (s : State) : HwRun s s.drawTurn.2 := by
  obtain ⟨e, n, h, -⟩ := s.drawTurn_frame
  exact .of_env ⟨e, n, h⟩

theorem HwRun.receive (s : State) : HwRun s (Machine.receive s).2 := by
  unfold Machine.receive
  split
  · exact .setReady s false
  · exact .advance s 1

/-! The peripheral's cycles. -/

theorem channelPath_isChannel (s : State) (tms b r : Bool) : isChannelEvent tms (.cycle (channelPath s) tms b (some r)) := by
  unfold channelPath
  split <;> exact ⟨rfl, rfl⟩

theorem sampledEvents_isChannel (s : State) (tms : Bool) (bits tdos : List Bool) :
    ∀ e ∈ sampledEvents (channelPath s) tms bits tdos, isChannelEvent tms e := by
  intro e he
  rw [sampledEvents, List.mem_iff_getElem] at he
  obtain ⟨i, hi, rfl⟩ := he
  rw [List.getElem_zipWith]
  exact channelPath_isChannel s _ _ _

theorem HwRun.shifted (s : State) (bits : List Bool) : HwRun s (s.shifted (channelPath s) bits) := by
  refine ⟨?_, shifted_tms _ _ _, ⟨_, shifted_trace _ _ _, sampledEvents_isChannel _ _ _ _⟩, fun h => ⟨?_, ?_, ?_, ?_, ?_, ?_, ?_, ?_⟩⟩
  · simp [State.shifted, State.ext_iff]
  · simpa using h.admissible
  · simp only [State.shifted, State.wired_lines, linesAfterBits]
    split
    · rfl
    · exact h.tckLow
  · simpa using h.tmsCached
  · simpa [State.shifted] using h.freqLegal
  · simpa using h.txLegal
  · simpa using h.rxLegal
  · simpa using h.stuckBusy
  · simpa using h.busyStuck

theorem unitInFlight_length (s : State) : (unitInFlight s).length = s.unit.bits := by
  simp [unitInFlight, unitMsbFirst]

theorem HwRun.peripheralStep (s : State) : HwRun s (Machine.peripheralStep s) := by
  cases he : s.peripheralEnabled with
  | false => rw [peripheralStep_disabled he]; exact .refl s
  | true =>
    have hst : s.chan.abandoned = false := by
      simp [State.peripheralEnabled] at he
      exact he.2
    rw [peripheralStep_enabled he, peripheralShift_eq]
    refine (HwRun.shifted s (unitInFlight s)).trans (.quiet rfl fun h => ⟨?_, ?_, ?_, ?_⟩)
    · exact h.txLegal
    · exact unitOfSamples_legal (by simp [unitInFlight_length, State.unitDone])
    · simp [State.unitDone, hst]
    · simp [State.unitDone]

theorem HwRun.partialShift (j : Nat) (s : State) : HwRun s (Machine.partialShift j s) := by
  unfold Machine.partialShift
  split
  · rw [shiftCycles_eq]
    exact (HwRun.shifted s _).trans (.abandonUnit _)
  · exact .refl s

/-- A poll leaves the pins, the transfer, the interrupt enable and the lock. -/
theorem peripheralStep_keeps (s : State) : (peripheralStep s).chan.pinFunction = s.chan.pinFunction ∧
    (peripheralStep s).xfer = s.xfer ∧ (peripheralStep s).chan.irqEnable = s.chan.irqEnable ∧
    (peripheralStep s).xferLock = s.xferLock := by
  cases he : s.peripheralEnabled with
  | false => rw [peripheralStep_disabled he]; exact ⟨rfl, rfl, rfl, rfl⟩
  | true =>
    rw [peripheralStep_enabled he, peripheralShift_eq]
    simp [State.unitDone]

theorem partialShift_keeps (j : Nat) (s : State) : (partialShift j s).chan.pinFunction = s.chan.pinFunction ∧
    (partialShift j s).xfer = s.xfer ∧ (partialShift j s).chan.irqEnable = s.chan.irqEnable ∧
    (partialShift j s).xferLock = s.xferLock := by
  unfold partialShift
  split
  · rw [shiftCycles_eq]
    simp
  · exact ⟨rfl, rfl, rfl, rfl⟩

theorem pollUntil_run (cond : State → Bool) (s : State) : HwRun s (pollUntil cond s).2 ∧
    (pollUntil cond s).2.chan.pinFunction = s.chan.pinFunction ∧ (pollUntil cond s).2.xfer = s.xfer ∧
    (pollUntil cond s).2.chan.irqEnable = s.chan.irqEnable ∧ (pollUntil cond s).2.xferLock = s.xferLock := by
  unfold pollUntil
  dsimp only
  split
  · have := peripheralStep_keeps s.drawPoll.2
    simp only [State.drawPoll_chan, State.drawPoll_xfer, State.drawPoll_xferLock] at this
    exact ⟨(HwRun.drawPoll s).trans (.peripheralStep _), this⟩
  · next j _ =>
    have := partialShift_keeps j s.drawPoll.2
    simp only [State.drawPoll_chan, State.drawPoll_xfer, State.drawPoll_xferLock] at this
    exact ⟨(HwRun.drawPoll s).trans (.partialShift _ _), this⟩

theorem HwRun.whoMoves (s : State) (a b : Agent) : HwRun s (s.whoMoves a b).2 := .drawTurn s

/-- The caller goes on: the peripheral has at most taken its step (R11, R46). -/
theorem letPeripheral_run (s : State) : HwRun s (letPeripheral s) ∧
    (letPeripheral s).chan.pinFunction = s.chan.pinFunction ∧ (letPeripheral s).xfer = s.xfer ∧
    (letPeripheral s).chan.irqEnable = s.chan.irqEnable ∧ (letPeripheral s).xferLock = s.xferLock := by
  obtain ⟨e, n, h | h, -⟩ := letPeripheral_cases s
  · rw [h]
    exact ⟨.of_env ⟨e, n, rfl⟩, rfl, rfl, rfl, rfl⟩
  · rw [h]
    exact ⟨HwRun.trans (.of_env ⟨e, n, rfl⟩) (.peripheralStep _), peripheralStep_keeps { s with env := e, draws := n }⟩

/-! configure. -/

theorem HwRun.switchPins {s : State} (d : Nat) : HwRun s (Machine.switchPins d s) := by
  refine ⟨rfl, rfl, ⟨[.mux .peripheral], rfl, by simp [isChannelEvent]⟩, fun h => ?_⟩
  exact ⟨h.admissible, h.tckLow, h.tmsCached, h.freqLegal, h.txLegal, h.rxLegal, h.stuckBusy,
    fun hc => absurd hc (by simp [Machine.switchPins])⟩

/-- An enable, whatever is in flight (R157). -/
theorem enableChannel_run (d : Nat) (s : State) : HwRun s (enableChannel d s) ∧
    (enableChannel d s).chan.pinFunction = .peripheral ∧ (enableChannel d s).xfer = s.xfer ∧
    (enableChannel d s).chan.irqEnable = s.chan.irqEnable ∧ (enableChannel d s).xferLock = s.xferLock := by
  obtain ⟨h1, -, h1x, h1q, h1l⟩ := letPeripheral_run s
  obtain ⟨h2, h2p, h2x, h2q, h2l⟩ := letPeripheral_run (switchPins d (letPeripheral s))
  exact ⟨((h1.trans (.switchPins d)).trans h2).trans (.setReady _ false), h2p, h2x.trans h1x, h2q.trans h1q, h2l.trans h1l⟩

theorem HwRun.configureOff (s : State) : HwRun s (Machine.configureOff s) := by
  cases hp : s.chan.pinFunction with
  | line =>
    rw [configureOff_disabled hp]
    refine ⟨rfl, rfl, ⟨[], by simp, by simp⟩, fun h => ?_⟩
    exact ⟨h.admissible, h.tckLow, rfl, h.freqLegal, h.txLegal, h.rxLegal, h.stuckBusy, h.busyStuck⟩
  | peripheral =>
    rw [configureOff_enabled hp]
    refine ⟨rfl, rfl, ⟨[.mux .line], rfl, by simp [isChannelEvent]⟩, fun h => ?_⟩
    exact ⟨h.admissible, h.tckLow, rfl, h.freqLegal, h.txLegal, h.rxLegal, id, fun _ => id⟩

@[simp] theorem configureOff_xfer (s : State) : (configureOff s).xfer = s.xfer := by
  unfold configureOff
  dsimp only
  split <;> rfl
@[simp] theorem configureOff_irqEnable (s : State) : (configureOff s).chan.irqEnable = s.chan.irqEnable := by
  unfold configureOff
  dsimp only
  split <;> rfl
@[simp] theorem configureOff_xferLock (s : State) : (configureOff s).xferLock = s.xferLock := by
  unfold configureOff
  dsimp only
  split <;> rfl

/-- A disable, whatever is in flight (R158, R186). -/
theorem closeChannel_run (s : State) : HwRun s (closeChannel s) ∧ (closeChannel s).chan.pinFunction = .line ∧
    (closeChannel s).xfer = s.xfer ∧ (closeChannel s).chan.irqEnable = s.chan.irqEnable ∧
    (closeChannel s).xferLock = s.xferLock := by
  obtain ⟨h, -, hx, hq, hl⟩ := letPeripheral_run s
  exact ⟨h.trans (.configureOff _), by simp [closeChannel], by simpa [closeChannel] using hx,
    by simpa [closeChannel] using hq, by simpa [closeChannel] using hl⟩

/-- The clean-up of an expired wait (R163, R164). -/
theorem timeoutCleanup_run (s : State) : HwRun s (timeoutCleanup s) ∧ (timeoutCleanup s).chan.pinFunction = .line ∧
    (timeoutCleanup s).xfer = s.xfer ∧ (timeoutCleanup s).chan.irqEnable = s.chan.irqEnable ∧
    (timeoutCleanup s).xferLock = s.xferLock := by
  refine ⟨(HwRun.configureOff s).trans (.unspecified _), ?_, ?_, ?_, ?_⟩ <;> simp [timeoutCleanup, State.peripheralUnspecified]

/-! The polled variant on every path. -/

/-- `send` sends, or is refused (R161). -/
theorem send_cases (v : Unit16) (s : State) :
    (s.chan.pinFunction = .peripheral ∧ s.chan.stat.busy = false ∧ send v s = .ok () (s.loadUnit (adapt s.unit v))) ∨
    ∃ q, send v s = .refused q := by
  unfold send
  cases hp : s.chan.pinFunction with
  | line => right; exact ⟨.sendWhileDisabled, by simp [State.channelEnabled, hp]⟩
  | peripheral =>
    cases hb : s.chan.stat.busy with
    | true => right; exact ⟨.sendWhileBusy, by simp [State.channelEnabled, hp]⟩
    | false => left; exact ⟨rfl, rfl, by simp [State.channelEnabled, hp]⟩

/-- A send in a critical section keeps all but the peripheral's data register and flags (R161, R170). -/
theorem atomic_send_run (v : Unit16) (s : State) : (atomic (send v) s).Post
    (fun _ t => HwRun s t ∧ t.chan.pinFunction = .peripheral ∧ t.xfer = s.xfer ∧ t.chan.irqEnable = s.chan.irqEnable ∧
      t.xferLock = s.xferLock)
    (fun _ _ => False) (fun _ => False) := by
  apply atomic_post
  rcases send_cases v (s.setLock true) with ⟨hp, hb, he⟩ | ⟨q, he⟩
  · rw [he]
    exact ⟨((HwRun.setLock s true).trans (.loadUnit hp (adapt_legal _ _))).trans (.setLock _ _), hp, rfl, rfl, rfl⟩
  · rw [he]
    trivial

/-- A received unit taken in a critical section (R162, R170). -/
theorem atomic_receive_run (s : State) : (atomic (fun s => .ok (receive s).1 (receive s).2) s).Post
    (fun _ t => HwRun s t ∧ t.chan.pinFunction = s.chan.pinFunction ∧ t.xfer = s.xfer ∧
      t.chan.irqEnable = s.chan.irqEnable ∧ t.xferLock = s.xferLock)
    (fun _ _ => False) (fun _ => False) := by
  apply atomic_post
  refine ⟨((HwRun.setLock s true).trans (.receive _)).trans (.setLock _ _), ?_, ?_, ?_, rfl⟩ <;>
  · unfold receive
    split <;> rfl

/-- One polled unit, whatever happens: a run of the channel that keeps the transfer record and the lock; the only error is Timeout,
with the pins back as lines; it never hangs (R163). -/
theorem shiftUnitPolled_run (v : Unit16) (s : State) : (shiftUnitPolled v s).Post
    (fun _ t => HwRun s t ∧ t.chan.pinFunction = .peripheral ∧ t.xfer = s.xfer ∧ t.chan.irqEnable = s.chan.irqEnable ∧
      t.xferLock = s.xferLock)
    (fun e t => HwRun s t ∧ e = .timeout ∧ t.chan.pinFunction = .line ∧ t.xfer = s.xfer ∧
      t.chan.irqEnable = s.chan.irqEnable ∧ t.xferLock = s.xferLock)
    (fun _ => False) := by
  unfold shiftUnitPolled
  dsimp only
  obtain ⟨h1, h1p, h1x, h1q, h1l⟩ := pollUntil_run (fun s => !s.chan.stat.busy) s
  generalize pollUntil (fun s => !s.chan.stat.busy) s = p at h1 h1p h1x h1q h1l
  split
  · refine Res.Post.bind ((atomic_send_run v p.2).mono (fun _ _ h => h) (fun _ _ h => h.elim) (fun _ => id)) ?_
    rintro _ s1 ⟨h2, h2p, h2x, h2q, h2l⟩
    obtain ⟨h3, h3p, h3x, h3q, h3l⟩ := pollUntil_run (fun s => s.chan.stat.ready) s1
    generalize pollUntil (fun s => s.chan.stat.ready) s1 = q at h3 h3p h3x h3q h3l
    have h4 := (h1.trans h2).trans h3
    split
    · refine (atomic_receive_run q.2).mono ?_ (fun _ _ h => h.elim) (fun _ => id)
      rintro _ t ⟨h5, h5p, h5x, h5q, h5l⟩
      exact ⟨h4.trans h5, h5p.trans (h3p.trans h2p), h5x.trans (h3x.trans (h2x.trans h1x)),
        h5q.trans (h3q.trans (h2q.trans h1q)), h5l.trans (h3l.trans (h2l.trans h1l))⟩
    · obtain ⟨h5, h5p, h5x, h5q, h5l⟩ := timeoutCleanup_run q.2
      exact ⟨h4.trans h5, rfl, h5p, h5x.trans (h3x.trans (h2x.trans h1x)), h5q.trans (h3q.trans (h2q.trans h1q)),
        h5l.trans (h3l.trans (h2l.trans h1l))⟩
  · obtain ⟨h5, h5p, h5x, h5q, h5l⟩ := timeoutCleanup_run p.2
    exact ⟨h1.trans h5, rfl, h5p, h5x.trans h1x, h5q.trans h1q, h5l.trans h1l⟩

/-! The interrupt-driven variant on every path. -/

/-- A run of the channel with a transfer in progress at its end: pins with the peripheral, interrupt on, a record, the lock as it
was (R165). -/
structure InTransfer (s t : State) : Prop where
  run     : HwRun s t
  enabled : t.chan.pinFunction = .peripheral
  irqOn   : t.chan.irqEnable = true
  busy    : t.transferBusy = true
  lock    : t.xferLock = s.xferLock

theorem InTransfer.after {s t u : State} (h : HwRun s t) (hl : t.xferLock = s.xferLock) (h' : InTransfer t u) :
    InTransfer s u :=
  ⟨h.trans h'.run, h'.enabled, h'.irqOn, h'.busy, h'.lock.trans hl⟩

theorem InTransfer.trans {s t u : State} (h : InTransfer s t) (h' : InTransfer t u) : InTransfer s u := .after h.run h.lock h'

/-- A send of the next unit, whatever happens (R161, R165, R167). -/
theorem sendNext_run (x : Xfer) (s : State) : (sendNext x s).Post
    (fun _ t => HwRun s t ∧ t.chan.pinFunction = .peripheral ∧ t.chan.irqEnable = s.chan.irqEnable ∧ t.transferBusy = true ∧
      t.xferLock = s.xferLock)
    (fun _ _ => False) (fun _ => False) := by
  unfold sendNext
  rcases send_cases (unitFromBytes s.unit x.tx x.txCursor) s with ⟨hp, hb, he⟩ | ⟨q, he⟩
  · rw [he]
    exact ⟨(HwRun.loadUnit hp (adapt_legal _ _)).trans (.setXfer _ _), hp, rfl, rfl, rfl⟩
  · rw [he]
    trivial

/-- The handler's turn, whatever happens: the transfer stays in progress (R167). -/
theorem handlerStep_run {s : State} (hp : s.chan.pinFunction = .peripheral) (hq : s.chan.irqEnable = true)
    (hx : s.transferBusy = true) : (handlerStep s).Post (fun _ t => InTransfer s t) (fun _ _ => False) (fun _ => False) := by
  unfold handlerStep
  split
  · unfold onReceiveInterrupt
    refine Res.Post.bind (good := fun _ t => InTransfer s t) (atomic_post ?_) ?_
    · obtain ⟨x, hx⟩ := Option.isSome_iff_exists.mp hx
      simp only [receiveAndSendNext, State.setLock_xfer, hx]
      have hrec : (receive (s.setLock true)).2.chan.pinFunction = .peripheral ∧
          (receive (s.setLock true)).2.chan.irqEnable = true := by
        unfold receive
        split <;> exact ⟨hp, hq⟩
      generalize hs1 : (receive (s.setLock true)).2.setXfer _ = s1
      have h1 : HwRun s s1 := by
        rw [← hs1]
        exact ((HwRun.setLock s true).trans (.receive _)).trans (.setXfer _ _)
      have h1q : s1.chan.irqEnable = true := by rw [← hs1]; exact hrec.2
      refine Res.Post.bind (good := fun _ t => HwRun s t ∧ t.chan.pinFunction = .peripheral ∧ t.chan.irqEnable = true ∧
        t.transferBusy = true) ?_ ?_
      · split
        · exact (sendNext_run _ s1).mono (fun _ t h => ⟨h1.trans h.1, h.2.1, h.2.2.1.trans h1q, h.2.2.2.1⟩)
            (fun _ _ h => h.elim) (fun _ => id)
        · exact ⟨h1, by rw [← hs1]; exact hrec.1, h1q, by rw [← hs1]; rfl⟩
      · rintro _ t ⟨h, hp1, hq1, hx1⟩
        exact ⟨h.trans (.setLock _ _), hp1, hq1, hx1, rfl⟩
    · rintro last t h
      cases last with
      | false => exact h
      | true => exact h.trans ⟨.signalDone t, h.enabled, h.irqOn, by simpa [State.transferBusy] using h.busy, rfl⟩
  · exact ⟨.refl s, hp, hq, hx, rfl⟩

/-- A handler's turn after the completion flag leaves the transfer in progress (R46, R167). -/
theorem lateDelivery_run {s : State} (hp : s.chan.pinFunction = .peripheral) (hq : s.chan.irqEnable = true)
    (hx : s.transferBusy = true) : InTransfer s (lateDelivery s) := by
  have h0 : InTransfer s (s.whoMoves .handler .caller).2 := by
    obtain ⟨e, n, h, -⟩ := s.whoMoves_frame .handler .caller
    rw [h]
    exact ⟨.of_env ⟨e, n, rfl⟩, hp, hq, hx, rfl⟩
  unfold lateDelivery
  dsimp only
  split
  · split
    · exact h0
    · refine h0.trans ⟨.receive _, ?_, ?_, ?_, ?_⟩ <;> unfold receive <;> split <;> first | rfl | skip
      · exact h0.enabled
      · exact h0.enabled
      · exact h0.irqOn
      · exact h0.irqOn
      · exact h0.busy
      · exact h0.busy
  · exact ⟨.refl s, hp, hq, hx, rfl⟩

/-- The end of the wait, whatever happens: the transfer stays in progress, and if the wait is over no unit is in flight (R77). -/
theorem waitForWire_run {s : State} (hp : s.chan.pinFunction = .peripheral) (hq : s.chan.irqEnable = true)
    (hx : s.transferBusy = true) : (waitForWire s).Post (fun _ t => InTransfer s t) (fun _ _ => False) (fun _ => False) := by
  unfold waitForWire
  split
  · have h1 : InTransfer s s.drawPoll.2 := by
      obtain ⟨e, k, h, -⟩ := s.drawPoll_frame
      rw [h]
      exact ⟨.of_env ⟨e, k, rfl⟩, hp, hq, hx, rfl⟩
    have he : s.drawPoll.2.peripheralEnabled = true := by
      simpa [State.peripheralEnabled, State.channelEnabled] using ‹s.peripheralEnabled = true›
    generalize s.drawPoll = a at h1 he
    dsimp only
    split
    · obtain ⟨k1, k2, k3, k4⟩ := peripheralStep_keeps a.2
      have h2 : InTransfer s (Machine.peripheralStep a.2) := h1.trans ⟨.peripheralStep _, k1.trans h1.enabled,
        k3.trans h1.irqOn, by rw [State.transferBusy, k2]; exact h1.busy, k4⟩
      rw [← peripheralStep_enabled he]
      exact h2.trans (lateDelivery_run h2.enabled h2.irqOn h2.busy)
    · next j _ =>
      obtain ⟨k1, k2, k3, k4⟩ := partialShift_keeps j a.2
      exact h1.trans ⟨.partialShift _ _, k1.trans h1.enabled, k3.trans h1.irqOn,
        by rw [State.transferBusy, k2]; exact h1.busy, k4⟩
  · exact ⟨.refl s, hp, hq, hx, rfl⟩

/-- Whose turn it is costs at most a draw (R46, R251). -/
theorem nextTurn_frame (s : State) : ∃ e n, (nextTurn s).2 = { s with env := e, draws := n } := by
  unfold nextTurn
  split
  · split
    · obtain ⟨e, n, h, -⟩ := s.drawTurn_frame
      exact ⟨e, n, h⟩
    · exact ⟨s.env, s.draws, rfl⟩
  · exact ⟨s.env, s.draws, rfl⟩

/-- A wait whose unit does not come leaves the transfer in progress (R168, R251). -/
theorem lastTurn_run {s : State} (hp : s.chan.pinFunction = .peripheral) (hq : s.chan.irqEnable = true)
    (hx : s.transferBusy = true) : (lastTurn s).Post (fun _ t => InTransfer s t) (fun _ _ => False) (fun _ => False) := by
  unfold lastTurn
  refine Res.Post.bind (good := fun _ t => InTransfer s t) ?_ (fun _ _ h => h)
  split
  · exact handlerStep_run hp hq hx
  · exact ⟨.refl s, hp, hq, hx, rfl⟩

/-- The blocking wait, whatever happens: the transfer stays in progress (R168). -/
theorem blockingWait_run (n : Nat) {s : State} (hp : s.chan.pinFunction = .peripheral) (hq : s.chan.irqEnable = true)
    (hx : s.transferBusy = true) : (blockingWait n s).Post (fun _ t => InTransfer s t) (fun _ _ => False) (fun _ => False) := by
  induction n generalizing s with
  | zero =>
    rw [blockingWait]
    split
    · exact waitForWire_run hp hq hx
    · exact ⟨.refl s, hp, hq, hx, rfl⟩
  | succ n ih =>
    rw [blockingWait]
    split
    · exact waitForWire_run hp hq hx
    dsimp only
    have h0 : InTransfer s (nextTurn s).2 := by
      obtain ⟨e, k, h⟩ := nextTurn_frame s
      rw [h]
      exact ⟨.of_env ⟨e, k, rfl⟩, hp, hq, hx, rfl⟩
    have next : ∀ {u : State}, InTransfer s u →
        ((handlerStep u).bind fun _ t => blockingWait n t).Post (fun _ t => InTransfer s t) (fun _ _ => False)
          (fun _ => False) := by
      intro u hu
      refine Res.Post.bind (handlerStep_run hu.enabled hu.irqOn hu.busy) ?_
      intro _ t ht
      exact (ih ht.enabled ht.irqOn ht.busy).mono (fun _ _ h => (hu.trans ht).trans h) (fun _ _ => id) (fun _ => id)
    generalize nextTurn s = g at h0
    split
    · exact next h0
    · have h1 : InTransfer s g.2.drawPoll.2 := by
        obtain ⟨e, k, h, -⟩ := g.2.drawPoll_frame
        rw [h]
        exact h0.trans ⟨.of_env ⟨e, k, rfl⟩, h0.enabled, h0.irqOn, h0.busy, rfl⟩
      generalize g.2.drawPoll = a at h1
      split
      · obtain ⟨k1, k2, k3, k4⟩ := peripheralStep_keeps a.2
        exact next (h1.trans ⟨.peripheralStep _, k1.trans h1.enabled, k3.trans h1.irqOn,
          by rw [State.transferBusy, k2]; exact h1.busy, k4⟩)
      · next j _ =>
        obtain ⟨k1, k2, k3, k4⟩ := partialShift_keeps j a.2
        have h2 : InTransfer s (Machine.partialShift j a.2) := h1.trans ⟨.partialShift _ _, k1.trans h1.enabled,
          k3.trans h1.irqOn, by rw [State.transferBusy, k2]; exact h1.busy, k4⟩
        exact (lastTurn_run h2.enabled h2.irqOn h2.busy).mono (fun _ _ h => h2.trans h) (fun _ _ => id) (fun _ => id)

/-- A call that hangs: its transfer in progress, the wait without a bound (R168). -/
def Stuck (s t : State) : Prop := InTransfer s t ∧ s.params.irqWaitBound = none

theorem Stuck.after {s t u : State} (h : HwRun s t) (hl : t.xferLock = s.xferLock) (h' : Stuck t u) : Stuck s u :=
  ⟨.after h hl h'.1, by rw [← h.params]; exact h'.2⟩

/-- An interrupt-driven transfer, whatever happens (R165, R168): on success the channel stays enabled and nothing is in progress;
ShortBuffer, InvalidArgument and Busy change nothing, the first two only for the arguments R165 names; Timeout leaves the pins as
lines; a hang leaves the transfer in progress. -/
theorem transferBlocking_run (tx rx : List Byte) (n : Nat) (s : State) : (transferBlocking tx rx n s).Post
    (fun _ t => HwRun s t ∧ t.chan.pinFunction = .peripheral ∧ t.xfer = none ∧ t.chan.irqEnable = false ∧
      t.xferLock = s.xferLock)
    (fun e t => HwRun s t ∧ ((e = .shortBuffer ∧ (tx.length < n ∨ rx.length < n) ∨
        e = .invalidArgument ∧ (n = 0 ∨ n % s.unit.bytes ≠ 0) ∨ e = .busy) ∧ t = s ∨
      e = .timeout ∧ t.chan.pinFunction = .line ∧ t.xfer = none ∧ t.chan.irqEnable = false ∧ t.xferLock = s.xferLock))
    (Stuck s) := by
  unfold transferBlocking
  split
  · next h => exact ⟨.refl s, .inl ⟨.inl ⟨rfl, h⟩, rfl⟩⟩
  split
  · next h => exact ⟨.refl s, .inl ⟨.inr (.inl ⟨rfl, h⟩), rfl⟩⟩
  refine Res.Post.bind (good := fun _ t => InTransfer s t) (atomic_post ?_) ?_
  · unfold startTransfer
    split
    · have : (s.setLock true).setLock s.xferLock = s := by simp [State.ext_iff]
      exact ⟨by rw [this]; exact .refl s, .inl ⟨.inr (.inr rfl), this⟩⟩
    · dsimp only
      refine (sendNext_run _ _).mono ?_ (fun _ _ h => h.elim) (fun _ h => h.elim)
      rintro _ t ⟨h, hp, hq, hx, hl⟩
      exact ⟨(((HwRun.setLock s true).trans (.setXfer _ _)).trans (.setIrqEnable _ true)).trans (h.trans (.setLock _ _)), hp, hq,
        hx, rfl⟩
  · intro _ u hu
    unfold finishTransfer
    refine Res.Post.bind (good := fun _ t => InTransfer s t) ((blockingWait_run _ hu.enabled hu.irqOn hu.busy).mono
      (fun _ _ h => hu.trans h) (fun _ _ h => h.elim) (fun _ h => h.elim)) ?_
    intro done t ht
    have hend : HwRun s (endTransfer t) := ht.run.trans ((HwRun.setIrqEnable _ false).trans (.setXfer _ none))
    split
    · exact ⟨hend, ht.enabled, rfl, rfl, ht.lock⟩
    · split
      · next hb => exact ⟨ht, by rw [← hu.run.params]; exact hb⟩
      · obtain ⟨h3, h3p, h3x, h3q, h3l⟩ := timeoutCleanup_run (endTransfer t)
        exact ⟨hend.trans h3, .inr ⟨rfl, h3p, h3x, h3q, h3l.trans ht.lock⟩⟩

/-! The channel part of a scan and of an idle run, on every path. -/

/-- The errors the hardware path can end in (R189, R205). -/
def HardwareError (e : ErrorKind) : Prop := e = .invalidFrequency ∨ e = .timeout ∨ e = .busy

theorem HwRun.settled {s t : State} (h : HwRun s t) (hs : Settled s) (hx : t.xfer = none) (hq : t.chan.irqEnable = false)
    (hl : t.xferLock = false) : Settled t :=
  settled_iff.mpr ⟨h.sound (settled_iff.mp hs).1, hx, hq, hl⟩

/-- A call from a settled state that hangs leaves the state `Hung` describes. -/
theorem Stuck.hung {s t : State} (hs : Settled s) (h : Stuck s t) : Hung (t.setResponse none) := by
  have ht := h.1.run.sound (settled_iff.mp hs).1
  exact ⟨ht.admissible, ht.tckLow, ht.tmsCached, h.1.busy, h.1.irqOn, h.1.lock.trans hs.lockFree, ht.freqLegal, ht.txLegal,
    ht.rxLegal, ht.stuckBusy, h.1.enabled, by rw [← h.2, ← h.1.run.params]; rfl, rfl⟩

/-- A disable ends at a boundary (R186, R203, R293). -/
theorem closeChannel_boundary {s : State} (hs : Settled s) : AtBoundary (closeChannel s) := by
  obtain ⟨h, hp, hx, hq, hl⟩ := closeChannel_run s
  exact ⟨h.settled hs (hx.trans hs.noTransfer) (hq.trans hs.irqOff) (hl.trans hs.lockFree), hp⟩

/-- The loop of polled units of a scan (R185). -/
theorem bulkPolled_run (n : Nat) (inp : List Byte) (fuel i : Nat) (out : List Byte) {s : State} (hs : Settled s)
    (hp : s.chan.pinFunction = .peripheral) : (bulkPolled n inp fuel i out s).Post
      (fun _ t => HwRun s t ∧ Settled t ∧ t.chan.pinFunction = .peripheral)
      (fun e t => HwRun s t ∧ Settled t ∧ t.chan.pinFunction = .line ∧ e = .timeout) (fun _ => False) := by
  induction fuel generalizing i out s with
  | zero => exact ⟨.refl s, hs, hp⟩
  | succ fuel ih =>
    rw [bulkPolled]
    split
    · have h1 := shiftUnitPolled_run (unitFromBytes s.unit inp (i / 8)) s
      refine Res.Post.bind (good := fun _ t => HwRun s t ∧ Settled t ∧ t.chan.pinFunction = .peripheral) (h1.mono ?_ ?_ (fun _ => id)) ?_
      · rintro _ t ⟨h, hp', hx, hq, hl⟩
        exact ⟨h, h.settled hs (hx.trans hs.noTransfer) (hq.trans hs.irqOff) (hl.trans hs.lockFree), hp'⟩
      · rintro e t ⟨h, he, hp', hx, hq, hl⟩
        exact ⟨h, h.settled hs (hx.trans hs.noTransfer) (hq.trans hs.irqOff) (hl.trans hs.lockFree), hp', he⟩
      · rintro v t ⟨h, ht, hp'⟩
        exact (ih _ _ ht hp').mono (fun _ u hu => ⟨h.trans hu.1, hu.2⟩) (fun _ u hu => ⟨h.trans hu.1, hu.2⟩) (fun _ => id)
    · exact ⟨.refl s, hs, hp⟩

/-- Both variants of the bulk, and the disable that ends them (R184 to R186, R189). -/
theorem bulkPhase_run (n : Nat) (inp out : List Byte) {s : State} (hn : s.unit.bits < n) (hs : Settled s)
    (hp : s.chan.pinFunction = .peripheral) : (bulkPhase true n inp out s).Post
      (fun _ t => HwRun s t ∧ AtBoundary t)
      (fun e t => HwRun s t ∧ AtBoundary t ∧ (e = .timeout ∨ e = .busy)) (Stuck s) := by
  rw [bulkPhase, if_pos rfl]
  refine Res.Post.bind (good := fun _ t => HwRun s t ∧ Settled t ∧ t.chan.pinFunction = .peripheral) ?_ ?_
  · split
    · have hbb := bulkBits_eq hn
      have hdiv : 1 ≤ (n - 1) / s.unit.bits := by
        rw [Nat.le_div_iff_mul_le s.unit.bits_pos]
        omega
      have hbytes : bulkBits s.unit n / 8 = (n - 1) / s.unit.bits * s.unit.bytes := by
        rw [hbb, s.unit.bits_eq, ← Nat.mul_assoc, Nat.mul_comm _ 8, Nat.mul_assoc]
        exact Nat.mul_div_cancel_left _ (by omega)
      have hpos : 0 < (n - 1) / s.unit.bits * s.unit.bytes := Nat.mul_pos (by omega) s.unit.bytes_pos
      rw [bulkInterrupt, hbytes]
      have h1 := transferBlocking_run (memRead inp 0 ((n - 1) / s.unit.bits * s.unit.bytes))
        (zeroBytes ((n - 1) / s.unit.bits * s.unit.bytes)) ((n - 1) / s.unit.bits * s.unit.bytes) s
      refine Res.Post.bind (good := fun _ t => HwRun s t ∧ Settled t ∧ t.chan.pinFunction = .peripheral)
        (Res.Post.onError (bad := fun e t => HwRun s t ∧ Settled t ∧ (e = .timeout ∨ e = .busy))
          (h1.mono ?_ ?_ (fun _ => id)) ?_) ?_
      · rintro _ t ⟨h, hp', hx, hq, hl⟩
        exact ⟨h, h.settled hs hx hq (hl.trans hs.lockFree), hp'⟩
      · rintro e t ⟨h, ⟨⟨-, hc⟩ | ⟨-, hc⟩ | rfl, rfl⟩ | ⟨rfl, hp', hx, hq, hl⟩⟩
        · simp at hc
        · rw [Nat.mul_mod_left] at hc
          omega
        · exact ⟨h, hs, .inr rfl⟩
        · exact ⟨h, h.settled hs hx hq (hl.trans hs.lockFree), .inl rfl⟩
      · rintro e t ⟨h, ht, he⟩
        exact ⟨h.trans (closeChannel_run t).1, closeChannel_boundary ht, he⟩
      · rintro _ t h
        exact h
    · exact ⟨.refl s, hs, hp⟩
  · rintro p t ⟨h, ht, hp'⟩
    refine Res.Post.bind (good := fun _ u => HwRun s u ∧ Settled u ∧ u.chan.pinFunction = .peripheral)
      ((bulkPolled_run n inp n p.1 p.2 ht hp').mono (fun _ u hu => ⟨h.trans hu.1, hu.2⟩)
      (fun e u hu => ⟨h.trans hu.1, ⟨hu.2.1, hu.2.2.1⟩, .inl hu.2.2.2⟩) (fun _ h => h.elim)) ?_
    rintro q u ⟨hu, hset, -⟩
    exact ⟨hu.trans (closeChannel_run u).1, closeChannel_boundary hset⟩

/-- Steps 2 to 5 of a scan on every path: at a boundary again, or a hardware error with only channel events added (R189). -/
theorem enableAndBulk_run (n : Nat) (inp out : List Byte) {s : State} (hs : AtBoundary s) :
    ((enableForScan n s).bind fun useHw s1 => bulkPhase useHw n inp out s1).Post
      (fun _ t => HwRun s t ∧ AtBoundary t)
      (fun e t => HwRun s t ∧ AtBoundary t ∧ HardwareError e) (Stuck s) := by
  unfold enableForScan
  cases hw : wantsChannel n s with
  | false => exact ⟨.refl s, hs⟩
  | true =>
    cases hd : usableDivisor s.params s.requestedFreq with
    | none =>
      rw [if_pos rfl, openChannel_none hd]
      exact ⟨.refl s, hs, .inl rfl⟩
    | some d =>
      have hi := hs.settled.busyStuck hs.lines
      rw [if_pos rfl, openChannel_idle hd hi, Res.bind_ok, Res.bind_ok, ← enableChannel_idle d hi]
      obtain ⟨h1, h1p, h1x, h1q, h1l⟩ := enableChannel_run d s
      have hset := h1.settled hs.settled (h1x.trans hs.settled.noTransfer) (h1q.trans hs.settled.irqOff)
        (h1l.trans hs.settled.lockFree)
      exact (bulkPhase_run n inp out (by rw [h1.unit]; exact (wantsChannel_iff.mp hw).1) hset h1p).mono (fun _ u hu => ⟨h1.trans hu.1, hu.2⟩)
        (fun e u hu => ⟨h1.trans hu.1, hu.2.1, .inr hu.2.2⟩) (fun _ hu => hu.after h1 h1l)

/-- The polled units of an idle run (R203). -/
theorem idleUnits_run (n : Nat) {s : State} (hs : Settled s) (hp : s.chan.pinFunction = .peripheral) :
    (idleUnits n s).Post
      (fun _ t => HwRun s t ∧ Settled t)
      (fun e t => HwRun s t ∧ AtBoundary t ∧ e = .timeout) (fun _ => False) := by
  induction n generalizing s with
  | zero => exact ⟨.refl s, hs⟩
  | succ n ih =>
    rw [idleUnits]
    have h1 := shiftUnitPolled_run 0 s
    refine Res.Post.bind (good := fun _ t => HwRun s t ∧ Settled t ∧ t.chan.pinFunction = .peripheral) (h1.mono ?_ ?_ (fun _ => id)) ?_
    · rintro _ t ⟨h, hp', hx, hq, hl⟩
      exact ⟨h, h.settled hs (hx.trans hs.noTransfer) (hq.trans hs.irqOff) (hl.trans hs.lockFree), hp'⟩
    · rintro e t ⟨h, he, hp', hx, hq, hl⟩
      exact ⟨h, ⟨h.settled hs (hx.trans hs.noTransfer) (hq.trans hs.irqOff) (hl.trans hs.lockFree), hp'⟩, he⟩
    · rintro v t ⟨h, ht, hp'⟩
      exact (ih ht hp').mono (fun _ u hu => ⟨h.trans hu.1, hu.2⟩) (fun _ u hu => ⟨h.trans hu.1, hu.2⟩) (fun _ => id)

/-- The aggregate transfer of an idle run (R203, R205). -/
theorem idleTransfer_run (units : Nat) {s : State} (hs : Settled s) : (idleTransfer units s).Post
      (fun _ t => HwRun s t ∧ Settled t)
      (fun e t => HwRun s t ∧ AtBoundary t ∧ (e = .timeout ∨ e = .busy)) (Stuck s) := by
  unfold idleTransfer
  split
  · next hu =>
    have hpos : 0 < units * s.unit.bytes := Nat.mul_pos hu s.unit.bytes_pos
    have h1 := transferBlocking_run (zeroBytes (units * s.unit.bytes)) (zeroBytes (units * s.unit.bytes))
      (units * s.unit.bytes) s
    refine Res.Post.bind (good := fun _ t => HwRun s t ∧ Settled t)
      (Res.Post.onError (bad := fun e t => HwRun s t ∧ Settled t ∧ (e = .timeout ∨ e = .busy))
        (h1.mono ?_ ?_ (fun _ => id)) ?_) ?_
    · rintro _ t ⟨h, hp', hx, hq, hl⟩
      exact ⟨h, h.settled hs hx hq (hl.trans hs.lockFree)⟩
    · rintro e t ⟨h, ⟨⟨-, hc⟩ | ⟨-, hc⟩ | rfl, rfl⟩ | ⟨rfl, hp', hx, hq, hl⟩⟩
      · simp at hc
      · rw [Nat.mul_mod_left] at hc
        omega
      · exact ⟨h, hs, .inr rfl⟩
      · exact ⟨h, h.settled hs hx hq (hl.trans hs.lockFree), .inl rfl⟩
    · rintro e t ⟨h, ht, he⟩
      exact ⟨h.trans (closeChannel_run t).1, closeChannel_boundary ht, he⟩
    · rintro _ t h
      exact h
  · exact ⟨.refl s, hs⟩

/-! Bit-bang runs at a boundary. -/

theorem AtBoundary.wired {s : State} (hs : AtBoundary s) (l : Lines) (evs : List Event) (hl : l.tck = false) :
    AtBoundary (s.wired l l.tms evs) :=
  ⟨⟨hs.settled.admissible, hl, rfl, hs.settled.noTransfer, hs.settled.irqOff, hs.settled.lockFree, hs.settled.freqLegal,
    hs.settled.txLegal, hs.settled.rxLegal, hs.settled.stuckBusy, hs.settled.busyStuck⟩, hs.lines⟩

theorem AtBoundary.setCurrentState {s : State} (hs : AtBoundary s) (t : TapState) : AtBoundary (s.setCurrentState t) :=
  ⟨⟨hs.settled.admissible, hs.settled.tckLow, hs.settled.tmsCached, hs.settled.noTransfer, hs.settled.irqOff,
    hs.settled.lockFree, hs.settled.freqLegal, hs.settled.txLegal, hs.settled.rxLegal, hs.settled.stuckBusy,
    hs.settled.busyStuck⟩, hs.lines⟩

theorem AtBoundary.of_env {s t : State} (hs : AtBoundary s) (h : ∃ e n, t = { s with env := e, draws := n }) :
    AtBoundary t := by
  obtain ⟨e, n, rfl⟩ := h
  exact ⟨⟨hs.settled.admissible, hs.settled.tckLow, hs.settled.tmsCached, hs.settled.noTransfer, hs.settled.irqOff,
    hs.settled.lockFree, hs.settled.freqLegal, hs.settled.txLegal, hs.settled.rxLegal, hs.settled.stuckBusy,
    hs.settled.busyStuck⟩, hs.lines⟩

theorem AtBoundary.drawTdos {s : State} (hs : AtBoundary s) (l : List Bool) : AtBoundary (Machine.drawTdos l s).2 := by
  obtain ⟨e, n, h, -⟩ := drawTdos_frame l s
  exact hs.of_env ⟨e, n, h⟩

theorem AtBoundary.setResponse {s : State} (hs : AtBoundary s) (r : Option Response) : AtBoundary (s.setResponse r) :=
  ⟨⟨hs.settled.admissible, hs.settled.tckLow, hs.settled.tmsCached, hs.settled.noTransfer, hs.settled.irqOff,
    hs.settled.lockFree, hs.settled.freqLegal, hs.settled.txLegal, hs.settled.rxLegal, hs.settled.stuckBusy,
    hs.settled.busyStuck⟩, hs.lines⟩

theorem AtBoundary.answer {s : State} (hs : AtBoundary s) (v : Word) (out : List Byte) : AtBoundary (s.answer v out) :=
  hs.setResponse _

theorem AtBoundary.raise {s : State} (hs : AtBoundary s) (e : ErrorKind) : AtBoundary (s.raise e) :=
  (hs.setResponse (some ⟨.error e, Config.freeVal s.draws, Config.freeBytes s.draws⟩)).of_env ⟨s.env, s.draws + 1, rfl⟩

end Sys2Proof.Machine
end

