-- ==== Sys2Proof/Laws/PerInstr.lean ====
section
/-! SUPPORT. What holds of every operation as syntax, one lemma per constructor: its encoding carries its code in `W0[31:24]`,
and the code says whether it is a command (R90, R92, R93). -/

namespace Sys2Proof.Laws.EncodesOpcode

open Sys2Proof.Machine

/-- The operation codes (R92, R93). -/
def opcode : Instr → Byte
  | .setFrequency _ => 0x01
  | .getFrequency => 0x02
  | .rawBitbang _ _ => 0x03
  | .setTapState _ _ _ => 0x04
  | .getTapState => 0x05
  | .scanCommand _ _ _ _ _ => 0x06
  | .runTest _ => 0x07
  | .setDirectPinControl _ => 0x08
  | .setHardwareAssisted _ => 0x09
  | .setInterruptDriven _ => 0x0A
  | .openSession => 0x0B
  | .releaseSession => 0x0C
  | .tapNext _ _ => 0x80
  | .computeTransition _ _ => 0x81
  | .applyTransition _ _ => 0x82
  | .pulseClock _ _ _ => 0x83
  | .reverseNibbles _ => 0x84
  | .configure _ => 0x85
  | .send _ => 0x86
  | .receive => 0x87
  | .shiftUnitPolled _ => 0x88
  | .transferBlocking _ _ => 0x89
  | .scan _ _ _ => 0x8A
  | .xfer _ _ _ _ _ => 0x8B
  | .runIdle _ => 0x8C

/-- The code is in the top byte, and a command's is below 0x80. -/
def Statement (i : Instr) : Prop := (encode i).op = opcode i ∧ (isCommand i = !(encode i).isPrimitiveOp)

theorem word0_op (o a b c : Byte) (w1 : Word) (buf : List Byte) : (Descriptor.mk (word0 o a b c) w1 buf).op = o := by
  apply BitVec.eq_of_getLsbD_eq
  intro j h
  have h1 : ¬ 24 + j < 8 := by omega
  have h2 : ¬ 24 + j - 8 < 8 := by omega
  have h3 : ¬ 24 + j - 8 - 8 < 8 := by omega
  have h4 : 24 + j - 8 - 8 - 8 = j := by omega
  simp only [Descriptor.op, word0, BitVec.getLsbD_extractLsb', BitVec.getLsbD_append, h, h1, h2, h3, h4, decide_true,
    Bool.true_and, if_false]

theorem word0_a (o a b c : Byte) (w1 : Word) (buf : List Byte) : (Descriptor.mk (word0 o a b c) w1 buf).a = a := by
  apply BitVec.eq_of_getLsbD_eq
  intro j h
  have h1 : ¬ 16 + j < 8 := by omega
  have h2 : ¬ 16 + j - 8 < 8 := by omega
  have h3 : 16 + j - 8 - 8 < 8 := by omega
  have h4 : 16 + j - 8 - 8 = j := by omega
  simp only [Descriptor.a, word0, BitVec.getLsbD_extractLsb', BitVec.getLsbD_append, h, h1, h2, h4, decide_true,
    Bool.true_and, if_false, if_true]

theorem word0_b (o a b c : Byte) (w1 : Word) (buf : List Byte) : (Descriptor.mk (word0 o a b c) w1 buf).b = b := by
  apply BitVec.eq_of_getLsbD_eq
  intro j h
  have h1 : ¬ 8 + j < 8 := by omega
  have h4 : 8 + j - 8 = j := by omega
  simp only [Descriptor.b, word0, BitVec.getLsbD_extractLsb', BitVec.getLsbD_append, h, h1, h4, decide_true,
    Bool.true_and, if_false, if_true]

theorem word0_c (o a b c : Byte) (w1 : Word) (buf : List Byte) : (Descriptor.mk (word0 o a b c) w1 buf).c = c := by
  apply BitVec.eq_of_getLsbD_eq
  intro j h
  have h1 : 0 + j < 8 := by omega
  have h4 : 0 + j = j := by omega
  simp only [Descriptor.c, word0, BitVec.getLsbD_extractLsb', BitVec.getLsbD_append, h, h4, decide_true,
    Bool.true_and, if_true]

theorem of_word0 {i : Instr} {o a b c : Byte} {w1 : Word} {buf : List Byte} (h : encode i = ⟨word0 o a b c, w1, buf⟩)
    (ho : o = opcode i) (hc : isCommand i = !o.getLsbD 7) : Statement i := by
  unfold Statement Descriptor.isPrimitiveOp
  rw [h, word0_op]
  exact ⟨ho, hc⟩

theorem setFrequency (hz : Word) : Statement (.setFrequency hz) := of_word0 rfl rfl rfl
theorem getFrequency : Statement .getFrequency := of_word0 rfl rfl rfl
theorem rawBitbang (length : Word) (buf : List Byte) : Statement (.rawBitbang length buf) := of_word0 rfl rfl rfl
theorem setTapState (fromCode toCode : Byte) (forceReset : Bool) : Statement (.setTapState fromCode toCode forceReset) :=
  of_word0 rfl rfl rfl
theorem getTapState : Statement .getTapState := of_word0 rfl rfl rfl
theorem scanCommand (scanType fromCode endCode : Byte) (lengthBits : Word) (buf : List Byte) :
    Statement (.scanCommand scanType fromCode endCode lengthBits buf) := of_word0 rfl rfl rfl
theorem runTest (cycles : Word) : Statement (.runTest cycles) := of_word0 rfl rfl rfl
theorem setDirectPinControl (flag : Bool) : Statement (.setDirectPinControl flag) := of_word0 rfl rfl rfl
theorem setHardwareAssisted (flag : Bool) : Statement (.setHardwareAssisted flag) := of_word0 rfl rfl rfl
theorem setInterruptDriven (flag : Bool) : Statement (.setInterruptDriven flag) := of_word0 rfl rfl rfl
theorem openSession : Statement .openSession := of_word0 rfl rfl rfl
theorem releaseSession : Statement .releaseSession := of_word0 rfl rfl rfl
theorem tapNext (stateCode : Byte) (tms : Bool) : Statement (.tapNext stateCode tms) := of_word0 rfl rfl rfl
theorem computeTransition (fromCode toCode : Byte) : Statement (.computeTransition fromCode toCode) := of_word0 rfl rfl rfl
theorem applyTransition (fromCode toCode : Byte) : Statement (.applyTransition fromCode toCode) := of_word0 rfl rfl rfl
theorem pulseClock (sampleTdo tms tdi : Bool) : Statement (.pulseClock sampleTdo tms tdi) := of_word0 rfl rfl rfl
theorem reverseNibbles (x : Byte) : Statement (.reverseNibbles x) := of_word0 rfl rfl rfl
theorem configure (enable : Bool) : Statement (.configure enable) := of_word0 rfl rfl rfl
theorem send (unit : Unit16) : Statement (.send unit) := of_word0 rfl rfl rfl
theorem receive : Statement .receive := of_word0 rfl rfl rfl
theorem shiftUnitPolled (unit : Unit16) : Statement (.shiftUnitPolled unit) := of_word0 rfl rfl rfl
theorem transferBlocking (byteCount : Word) (buf : List Byte) : Statement (.transferBlocking byteCount buf) :=
  of_word0 rfl rfl rfl
theorem scan (endCode : Byte) (lengthBits : Word) (buf : List Byte) : Statement (.scan endCode lengthBits buf) :=
  of_word0 rfl rfl rfl
theorem xfer (scanType fromCode endCode : Byte) (lengthBits : Word) (buf : List Byte) :
    Statement (.xfer scanType fromCode endCode lengthBits buf) := of_word0 rfl rfl rfl
theorem runIdle (cycles : Word) : Statement (.runIdle cycles) := of_word0 rfl rfl rfl

end Sys2Proof.Laws.EncodesOpcode
end

