-- ==== Sys2Proof/Tests/Slice0.lean ====
section
/-! SUPPORT. The model's own tests: what the well-formedness check refuses, words of the spec's encoding decoded, single steps
whose results are taken from spec/95_test_vectors.md and the rules cited, and one witness per clause of every statement that has
hypotheses. -/

namespace Sys2Proof.Tests

open Sys2Proof.Machine

/-! Well-formedness refuses (R99, R101). -/

theorem test_wf_refuses_a_missing_pair : Instr.wellFormed (.rawBitbang 3 [1, 2]) = false := by decide
theorem test_wf_refuses_a_reserved_pair_bit : Instr.wellFormed (.rawBitbang 1 [4]) = false := by decide
theorem test_wf_refuses_a_short_scan_buffer : Instr.wellFormed (.scanCommand 0 16 1 9 [0xA5]) = false := by decide
theorem test_wf_refuses_a_bad_scan_type : Instr.wellFormed (.scanCommand 2 16 1 8 [0xA5]) = false := by decide
theorem test_wf_accepts_the_boundaries :
    Instr.wellFormed (.rawBitbang 2 [3, 0, 0xFF]) = true ∧ Instr.wellFormed (.scanCommand 0 16 1 8 [0xA5]) = true := by decide

/-- R6: DIV_MAX is unbounded or above 0. -/
theorem test_admissible_divMax :
    Params.admissible Params.suggested ∧ Params.admissible { Params.suggested with divMax := some 1 } ∧
    ¬Params.admissible { Params.suggested with divMax := some 0 } := by decide

/-! Words of the spec's encoding (R91 to R93, R106, and the encodings printed in spec/95_test_vectors.md). -/

theorem test_decode_plain_commands :
    decode ⟨0x01000000, 0x000F4240, []⟩ = .instr (.setFrequency 1000000) ∧
    decode ⟨0x02000000, 0, []⟩ = .instr .getFrequency ∧
    decode ⟨0x05000000, 0, []⟩ = .instr .getTapState ∧
    decode ⟨0x07000000, 0x13, []⟩ = .instr (.runTest 19) ∧
    decode ⟨0x0B000000, 0, []⟩ = .instr .openSession ∧
    decode ⟨0x0C000000, 0, []⟩ = .instr .releaseSession := by decide

theorem test_decode_flag_commands :
    decode ⟨0x08000001, 0, []⟩ = .instr (.setDirectPinControl true) ∧
    decode ⟨0x09000001, 0, []⟩ = .instr (.setHardwareAssisted true) ∧
    decode ⟨0x0A000000, 0, []⟩ = .instr (.setInterruptDriven false) ∧
    decode ⟨0x09000002, 0, []⟩ = .illegal .reservedBit := by decide

theorem test_decode_buffer_commands :
    decode ⟨0x03000000, 2, [1, 2]⟩ = .instr (.rawBitbang 2 [1, 2]) ∧
    decode ⟨0x03000000, 3, [1, 2]⟩ = .illegal .shortBuffer ∧
    decode ⟨0x03000000, 1, [4]⟩ = .illegal .reservedBit ∧
    decode ⟨0x06010D01, 0x20, [0x01, 0x80, 0xFF, 0x00]⟩ = .instr (.scanCommand 1 1 13 32 [0x01, 0x80, 0xFF, 0x00]) ∧
    decode ⟨0x06100100, 9, [0xA5]⟩ = .illegal .shortBuffer ∧
    decode ⟨0x06100102, 8, [0xA5]⟩ = .illegal .badType := by decide

theorem test_decode_transitions :
    decode ⟨0x04040001, 0, []⟩ = .instr (.setTapState 4 0 true) ∧
    decode ⟨0x80040001, 0, []⟩ = .instr (.tapNext 4 true) ∧
    decode ⟨0x81010900, 0, []⟩ = .instr (.computeTransition 1 9) ∧
    decode ⟨0x82100000, 0, []⟩ = .instr (.applyTransition 16 0) ∧
    decode ⟨0x82100001, 0, []⟩ = .illegal .reservedField := by decide

theorem test_decode_pulses :
    decode ⟨0x83000001, 0, []⟩ = .instr (.pulseClock false true false) ∧
    decode ⟨0x83000006, 0, []⟩ = .instr (.pulseClock true false true) ∧
    decode ⟨0x83000008, 0, []⟩ = .illegal .reservedBit ∧
    decode ⟨0x84000012, 0, []⟩ = .instr (.reverseNibbles 0x12) := by decide

theorem test_decode_channel :
    decode ⟨0x85000001, 0, []⟩ = .instr (.configure true) ∧
    decode ⟨0x86000000, 0x12, []⟩ = .instr (.send 0x12) ∧
    decode ⟨0x87000000, 0, []⟩ = .instr .receive ∧
    decode ⟨0x88000000, 0x3412, []⟩ = .instr (.shiftUnitPolled 0x3412) ∧
    decode ⟨0x88000000, 0x13412, []⟩ = .illegal .reservedField ∧
    decode ⟨0x89000000, 2, [0x12, 0x34]⟩ = .instr (.transferBlocking 2 [0x12, 0x34]) := by decide

theorem test_decode_scans :
    decode ⟨0x8A000100, 8, [0xA5]⟩ = .instr (.scan 1 8 [0xA5]) ∧
    decode ⟨0x8B100100, 8, [0xA5]⟩ = .instr (.xfer 0 16 1 8 [0xA5]) ∧
    decode ⟨0x8C000000, 0x13, []⟩ = .instr (.runIdle 19) := by decide

theorem test_decode_rejects :
    decode ⟨0, 0, []⟩ = .illegal .unknownOp ∧ decode ⟨0x0D000000, 0, []⟩ = .illegal .unknownOp ∧
    decode ⟨0x8D000000, 0, []⟩ = .illegal .unknownOp ∧ decode ⟨0x0B000100, 0, []⟩ = .illegal .reservedField ∧
    decodeAt .command ⟨0x82100100, 0, []⟩ = .illegal .primitiveAtCommandSurface := by decide

/-- R211 (1): a bad scan type is found before admission. -/
theorem test_bad_scan_type_without_a_session :
    (match step { State.reset with inbox := [.request ⟨.command, ⟨0x06100102, 8, [0xA5]⟩⟩] } with
      | .next t => decide (t.status = some (.error .invalidArgument))
      | .fault _ => false
      | .refused _ => false) = true := by decide

theorem test_table_word_numbering :
    decodeTableWord 64 0x0000001307000000 = some (.runTest 19) ∧ decodeTableWord 32 0x07000000 = some (.runTest 0) := by decide

/-! The test bench: an open session, TMS low, no event yet, the loop-back fixture (spec/95_test_vectors.md section 0). -/

def loopEnv : Env := ⟨.loopback, .healthy, .granted, .answers []⟩

/-- An open session in `cur`, with unit width `u`; TMS and its cache at `level`. -/
def bench (u : UnitWidth) (cur : TapState) (level : Bool) : State :=
  { State.resetWith { Params.suggested with unitWidth := u } loopEnv with
    currentState := cur
    lastTmsLevel := level
    lines := ⟨false, level, false, false⟩
    exclusiveOpen := true
    trace := [] }

/-- The same in HardwareAssisted mode, polled or interrupt-driven. -/
def hwBench (u : UnitWidth) (cur : TapState) (irq : Bool) : State :=
  { bench u cur false with
    activeTransferMode := .hardwareAssisted
    interruptDriven := irq }

/-- The channel enabled with divisor 11. -/
def channelBench (u : UnitWidth) : State :=
  { bench u .runTestIdle false with
    chan := { Channel.reset with
      pinFunction := .peripheral
      divisor := 11
      idleClockLow := true } }

/-- A state with one request waiting. -/
def asked (s : State) (surface : Surface) (w0 w1 : Word) (buf : List Byte) : State :=
  { s with inbox := [.request ⟨surface, ⟨w0, w1, buf⟩⟩] }

/-- The state after one step, if there is one. -/
def nextOf (o : Host.Outcome State Fault Refusal) : Option State :=
  match o with
  | .next t => some t
  | .fault _ => none
  | .refused _ => none

/-- The state after a request at the command surface. -/
def commanded (s : State) (w0 w1 : Word) (buf : List Byte) : Option State := nextOf (step (asked s .command w0 w1 buf))

/-- The state after a request by a harness. -/
def harnessed (s : State) (w0 w1 : Word) (buf : List Byte) : Option State := nextOf (step (asked s .harness w0 w1 buf))

def responded (t : State) (e : Option ErrorKind) (val : Word) (out : List Byte) : Bool :=
  match e with
  | none => decide (t.response = some ⟨.ok, val, out⟩)
  | some k => decide (t.status = some (.error k))

def levels (f : WireCycle → Bool) (t : State) : List Nat := (wireCycles t.trace).map fun c => (f c).toNat

/-- TDO of each cycle, 2 where it was not sampled. -/
def tdoLevels (t : State) : List Nat :=
  (wireCycles t.trace).map fun c => match c.tdo with
    | none => 2
    | some b => b.toNat

def pathOf : Event → Nat
  | .cycle .bb _ _ _ => 0
  | .cycle .hwp _ _ _ => 1
  | .cycle .hwi _ _ _ => 2
  | .mux .peripheral => 3
  | .mux .line => 4
  | .tmsWrite _ => 5

/-- The `paths` line of a trace: 0 a BB cycle, 1 an HWP cycle, 2 an HWI cycle, 3 Mux(P), 4 Mux(L), 5 TmsWrite. -/
def paths (t : State) : List Nat := t.trace.map pathOf

/-! Single steps. Expected results: spec/95_test_vectors.md, the section named. -/

/-- 2.6. -/
theorem test_setFrequency :
    (commanded (bench .w8 .runTestIdle false) 0x01000000 25000000 []).map (·.requestedFreq) = some 25000000 ∧
    (commanded (bench .w8 .runTestIdle false) 0x01000000 25000001 []).map
      (fun t => (t.status, t.requestedFreq)) = some (some (.error .invalidArgument), 1000000) := by decide

/-- 2.6. -/
theorem test_getFrequency :
    (commanded (bench .w8 .runTestIdle false) 0x02000000 0 []).map (responded · none 1000000 []) = some true := by decide

/-- 2.4. -/
theorem test_rawBitbang :
    (commanded (bench .w8 .pauseDR false) 0x03000000 2 [1, 2]).map
      (fun t => (responded t none 0 [0, 1], levels (·.tms) t, levels (·.tdi) t, tdoLevels t, t.lastTmsLevel)) =
      some (true, [1, 0], [0, 1], [0, 1], false) := by decide

/-- 2.4: a length above MAX_BITBANG (here 1) is refused before any pulse. -/
theorem test_rawBitbang_too_long :
    (commanded { bench .w8 .pauseDR false with params := { Params.suggested with maxBitbang := 1 } } 0x03000000 2 [1, 2]).map
      (fun t => (responded t (some .invalidArgument) 0 [], t.trace)) = some (true, []) := by decide

/-- 2.3, rows 2 and 6. -/
theorem test_setTapState :
    (commanded (bench .w8 .testLogicReset true) 0x04100101 0 []).map
      (fun t => (levels (·.tms) t, t.currentState, t.lastTmsLevel)) =
      some ([1, 1, 1, 1, 1, 1, 1, 1, 1, 0], .runTestIdle, false) ∧
    (commanded (bench .w8 .selectIR true) 0x04100600 0 []).map (fun t => (levels (·.tms) t, t.currentState)) =
      some ([1, 0, 1, 0, 1, 0], .pauseDR) := by decide

/-- 2.3, rows 4 and 8. -/
theorem test_setTapState_range_and_reset :
    (commanded (bench .w8 .selectIR true) 0x04101000 0 []).map
      (fun t => (responded t (some .invalidState) 0 [], t.trace, t.currentState)) = some (true, [], .selectIR) ∧
    (commanded (bench .w8 .pauseDR false) 0x04040001 0 []).map (fun t => (levels (·.tms) t, t.currentState)) =
      some (List.replicate 18 1, .testLogicReset) := by decide

/-- 2.12. -/
theorem test_getTapState :
    (commanded (bench .w8 .runTestIdle false) 0x05000000 0 []).map (responded · none 1 []) = some true := by decide

/-- 2.10. -/
theorem test_scanCommand :
    (commanded (bench .w8 .runTestIdle false) 0x06100100 8 [0xA5]).map
      (fun t => (responded t none 0 [0xA5], levels (·.tms) t, levels (·.tdi) t, tdoLevels t, t.currentState)) =
      some (true, [1, 0, 0, 0, 0, 0, 0, 0, 0, 0, 1, 1, 0], [0, 0, 0, 1, 0, 1, 0, 0, 1, 0, 1, 0, 0],
        [2, 2, 2, 1, 0, 1, 0, 0, 1, 0, 1, 2, 2], .runTestIdle) := by decide

/-- 2.10: a frequency that gives no divisor is IOError after the transition. -/
theorem test_scanCommand_maps_errors :
    (commanded { hwBench .w8 .runTestIdle false with requestedFreq := 12500000 } 0x06100100 16 [0x12, 0x34]).map
      (fun t => (responded t (some .ioError) 0 [], levels (·.tms) t, t.currentState)) =
      some (true, [1, 0, 0], .shiftDR) := by decide

/-- 2.11, row 4. -/
theorem test_runTest :
    (commanded (hwBench .w16 .runTestIdle true) 0x07000000 0x13 []).map (fun t => (responded t none 0 [], paths t)) =
      some (true, [3] ++ List.replicate 16 2 ++ [4, 0, 0, 0]) := by decide

/-- 2.11, row 9. -/
theorem test_runTest_frequency_error :
    (commanded { hwBench .w8 .testLogicReset false with
        requestedFreq := 12500000, lastTmsLevel := true, lines := ⟨false, true, false, false⟩ } 0x07000000 3 []).map
      (fun t => (responded t (some .invalidFrequency) 0 [], paths t, t.lastTmsLevel)) = some (true, [5], false) := by decide

/-- 2.12. -/
theorem test_mode_setters :
    (commanded (bench .w8 .runTestIdle false) 0x08000001 0 []).map (·.pinControlStrategy) = some .directRegister ∧
    (commanded (bench .w8 .runTestIdle false) 0x09000001 0 []).map (·.activeTransferMode) = some .hardwareAssisted ∧
    (commanded (bench .w8 .runTestIdle false) 0x0A000001 0 []).map (·.interruptDriven) = some true := by decide

/-- R232 to R234; 2.12. -/
theorem test_session :
    (commanded State.reset 0x0B000000 0 []).map (·.exclusiveOpen) = some true ∧
    (commanded (bench .w8 .runTestIdle false) 0x0B000000 0 []).map (responded · (some .busy) 0 []) = some true ∧
    (commanded (bench .w8 .runTestIdle false) 0x0C000000 0 []).map (·.exclusiveOpen) = some false ∧
    commanded State.reset 0x02000000 0 [] = none := by decide

/-- 2.1. -/
theorem test_tapNext :
    (harnessed State.reset 0x80040001 0 []).map (responded · none 5 []) = some true ∧
    (harnessed State.reset 0x80100000 0 []).map (responded · (some .invalidState) 0 []) = some true := by decide

/-- 2.2. -/
theorem test_computeTransition :
    (harnessed State.reset 0x81010900 0 []).map (responded · none 0x203 []) = some true ∧
    (harnessed State.reset 0x81040E00 0 []).map (responded · none 0x8AF []) = some true := by decide

/-- 2.3: nine ones to TestLogicReset, where computeTransition has count 0. -/
theorem test_applyTransition :
    (harnessed (bench .w8 .testLogicReset true) 0x82100000 0 []).map (fun t => (levels (·.tms) t, t.currentState)) =
      some (List.replicate 9 1, .testLogicReset) := by decide

/-- 2.4. -/
theorem test_pulseClock :
    (harnessed (bench .w8 .pauseDR true) 0x83000006 0 []).map
      (fun t => (responded t none 1 [], t.trace, t.lines, t.lastTmsLevel, t.currentState)) =
      some (true, [.cycle .bb false true (some true)], ⟨false, false, true, false⟩, false, .pauseDR) := by decide

/-- 2.5. -/
theorem test_reverseNibbles :
    (harnessed State.reset 0x84000012 0 []).map (responded · none 0x48 []) = some true ∧
    (harnessed State.reset 0x840000F0 0 []).map (responded · none 0x0F []) = some true := by decide

/-- 2.6: the fastest accepted frequency, and one above it. -/
theorem test_configure_on :
    (harnessed { bench .w8 .runTestIdle false with requestedFreq := 6250000 } 0x85000001 0 []).map
      (fun t => (t.chan.divisor, paths t, t.chan.pinFunction)) = some (1, [3], .peripheral) ∧
    (harnessed { bench .w8 .runTestIdle false with requestedFreq := 6250001 } 0x85000001 0 []).map
      (fun t => (responded t (some .invalidFrequency) 0 [], t.trace, t.chan.pinFunction)) = some (true, [], .line) := by decide

/-- 2.6: the read-back of R158. -/
theorem test_configure_off :
    (harnessed { channelBench .w8 with lastTmsLevel := true } 0x85000000 0 []).map
      (fun t => (paths t, t.lastTmsLevel, t.chan.pinFunction)) = some ([4], false, .line) := by decide

/-- R158: TDI resumes the level `setLine` last gave, after the peripheral has driven the other one. -/
theorem test_configure_off_resumes_tdi :
    { channelBench .w8 with lines := ⟨false, false, false, true⟩ }.readLine .tdi = true ∧
    (harnessed { channelBench .w8 with lines := ⟨false, false, false, true⟩ } 0x85000000 0 []).map (·.readLine .tdi) =
      some false := by decide

/-- 2.7. -/
theorem test_send :
    (harnessed (channelBench .w8) 0x86000000 0x12 []).map (fun t => (t.chan.txData, t.chan.stat.busy)) =
      some (0x48, true) := by decide

/-- 2.7: the peripheral's step after it, most significant bit of 0x48 first. -/
theorem test_peripheral_step :
    (nextOf (step { channelBench .w8 with
        chan := { (channelBench .w8).chan with txData := 0x48, stat := ⟨true, false⟩ } })).map
      (fun t => (paths t, levels (·.tdi) t, t.chan.rxData, t.chan.stat)) =
      some (List.replicate 8 1, [0, 1, 0, 0, 1, 0, 0, 0], 0x48, ⟨false, true⟩) := by decide

/-- 2.7. -/
theorem test_receive :
    (harnessed { channelBench .w8 with chan := { (channelBench .w8).chan with rxData := 0x80, stat := ⟨false, true⟩ } }
        0x87000000 0 []).map (fun t => (responded t none 1 [], t.chan.stat.ready)) = some (true, false) := by decide

/-- 2.7. -/
theorem test_shiftUnitPolled :
    (harnessed (channelBench .w16) 0x88000000 0x3412 []).map
      (fun t => (responded t none 0x3412 [], paths t, levels (·.tdi) t)) =
      some (true, List.replicate 16 1, [0, 1, 0, 0, 1, 0, 0, 0, 0, 0, 1, 0, 1, 1, 0, 0]) := by decide

/-- 2.7, `E_stuck`. -/
theorem test_shiftUnitPolled_times_out :
    (harnessed { channelBench .w8 with env := ⟨.loopback, .stuck, .granted, .answers []⟩ } 0x88000000 0x12 []).map
      (fun t => (responded t (some .timeout) 0 [], paths t)) = some (true, [4]) := by decide

/-- 2.7. -/
theorem test_transferBlocking :
    (harnessed (channelBench .w8) 0x89000000 2 [0x12, 0x34]).map
      (fun t => (responded t none 0 [0x12, 0x34], paths t, levels (·.tdi) t, t.xfer, t.chan.irqEnable)) =
      some (true, List.replicate 16 2, [0, 1, 0, 0, 1, 0, 0, 0, 0, 0, 1, 0, 1, 1, 0, 0], none, false) := by decide

/-- 2.7: no whole number of units. -/
theorem test_transferBlocking_alignment :
    (harnessed (channelBench .w16) 0x89000000 3 [0x12, 0x34, 0x56]).map
      (fun t => (responded t (some .invalidArgument) 0 [], t.trace)) = some (true, []) := by decide

/-- R35, R43: the bytes of `tx` past `byteCount` are not sent, and `rx` has `byteCount` bytes. -/
theorem test_transferBlocking_takes_byteCount :
    (harnessed (channelBench .w8) 0x89000000 1 [0x12, 0x34]).map (fun t => (responded t none 0 [0x12], levels (·.tdi) t)) =
      some (true, [0, 1, 0, 0, 1, 0, 0, 0]) := by decide

/-- The enabled channel with an unread word 0x12 (in protocol order), and a schedule. -/
def staleBench (schedule : ScheduleEnv) : State :=
  { channelBench .w8 with
    chan := { (channelBench .w8).chan with rxData := 0x48, stat := ⟨false, true⟩ }
    env := ⟨.loopback, .healthy, .granted, schedule⟩ }

/-- R46, R77, R251: with an unread word the handler may run at once, or after the peripheral; the unit is clocked either way, and
a word received after the completion flag is taken by the handler or left. -/
theorem test_handler_may_go_first :
    [ScheduleEnv.answers [.handler, .caller], .answers [.handler, .handler], .answers [.peripheral]].map (fun turns =>
      (harnessed (staleBench turns) 0x89000000 1 [0xFF]).map fun t =>
        ((responded t none 0 [0x12], responded t none 0 [0xFF]), paths t, t.chan.stat.ready)) =
      [some ((true, false), List.replicate 8 2, true), some ((true, false), List.replicate 8 2, false),
        some ((false, true), List.replicate 8 2, false)] := by decide

/-- The enabled channel in HardwareAssisted mode with a unit in flight, and a schedule. -/
def flightBench (turns : List Agent) : State :=
  { channelBench .w8 with
    activeTransferMode := .hardwareAssisted
    chan := { (channelBench .w8).chan with txData := 0x48, stat := ⟨true, false⟩ }
    env := ⟨.loopback, .healthy, .granted, .answers turns⟩ }

/-- R46, R203: an idle run of no units finds a unit in flight; the peripheral moves before the switch, after it, before the disable,
or not at all. -/
theorem test_runIdle_with_a_unit_in_flight :
    [[Agent.peripheral], [.caller, .peripheral], [.caller, .caller, .caller, .peripheral],
      [.caller, .caller, .caller, .caller]].map (fun turns =>
        (harnessed (flightBench turns) 0x8C000000 0 []).map fun t => (paths t, t.chan.abandoned, t.chan.stat.ready)) =
      [some (List.replicate 8 1 ++ [3, 4], false, false), some (3 :: List.replicate 8 1 ++ [4], false, false),
        some (3 :: List.replicate 8 1 ++ [4], false, true), some ([3, 4], true, false)] := by decide

/-- 2.9, S12. -/
theorem test_scan_interrupt_driven :
    (harnessed (hwBench .w16 .shiftIR true) 0x8A000D00 32 [0x01, 0x80, 0xFF, 0x00]).map
      (fun t => (responded t none 0 [0x01, 0x80, 0xFF, 0x00], paths t, levels (·.tms) t, t.currentState)) =
      some (true, [3] ++ List.replicate 16 2 ++ [4] ++ List.replicate 17 0,
        List.replicate 31 0 ++ [1, 0], .pauseIR) := by decide

/-- 2.9, S5: the end state is the other Shift state. -/
theorem test_scan_to_the_other_shift_state :
    (harnessed (bench .w8 .shiftIR false) 0x8A000400 8 [0x0F]).map
      (fun t => (responded t none 0 [0x0F], levels (·.tms) t, t.currentState)) =
      some (true, [0, 0, 0, 0, 0, 0, 0, 0, 1, 1, 1, 0, 0], .shiftDR) := by decide

/-- 2.10. -/
theorem test_xfer :
    (harnessed (bench .w8 .runTestIdle false) 0x8B100100 8 [0xA5]).map
      (fun t => (responded t none 0 [0xA5], levels (·.tms) t)) =
      some (true, [1, 0, 0, 0, 0, 0, 0, 0, 0, 0, 1, 1, 0]) := by decide

/-- R36, R98, R190: MAX_SCAN_BITS itself is in range; one bit more is found by the scan, after the transition. -/
theorem test_scan_length_bound :
    let s := { bench .w8 .runTestIdle false with params := { Params.suggested with maxScanBits := 8 } }
    (harnessed s 0x8B100100 8 [0xA5]).map (responded · none 0 [0xA5]) = some true ∧
    (harnessed s 0x8B100100 9 [0xA5, 1]).map
      (fun t => (responded t (some .invalidArgument) 0 [], levels (·.tms) t, t.currentState)) =
      some (true, [1, 0, 0], .shiftDR) := by decide

/-- 2.11, row 7. -/
theorem test_runIdle :
    (harnessed (hwBench .w8 .runTestIdle false) 0x8C000000 5 []).map (fun t => (responded t none 0 [], paths t)) =
      some (true, [3, 4, 0, 0, 0, 0, 0]) := by decide

/-- R281: nine pulses, and a closed session. -/
theorem test_initialise :
    (nextOf (step { bench .w8 .pauseDR false with inbox := [.initialise] })).map
      (fun t => (levels (·.tms) t, t.currentState, t.exclusiveOpen, t.lastTmsLevel)) =
      some (List.replicate 9 1, .testLogicReset, false, true) := by decide

/-- R280: re-initialised after five of the thirteen cycles of the `xfer` above. -/
theorem test_initialise_during :
    (nextOf (step { bench .w8 .runTestIdle false with
        inbox := [.initialiseDuring ⟨.harness, ⟨0x8B100100, 8, [0xA5]⟩⟩ 5] })).map
      (fun t => (levels (·.tms) t, t.currentState, t.exclusiveOpen, t.response)) =
      some ([1, 0, 0, 0, 0] ++ List.replicate 9 1, .testLogicReset, false, none) := by decide

/-! Witnesses: for every statement with hypotheses, states and operands that meet them, clause by clause, at the boundaries. -/

theorem suggested_admissible (u : UnitWidth) : Params.admissible { Params.suggested with unitWidth := u } := by
  cases u <;> decide

theorem zero_unit_legal (u : UnitWidth) : unitLegal u 0 = true := by cases u <;> decide

theorem suggested_freq : (1000000 : Nat) ≤ 25000000 := by decide

/-- The bench is at a command boundary, at every unit width and place. -/
theorem bench_atBoundary (u : UnitWidth) (cur : TapState) (level : Bool) : AtBoundary (bench u cur level) :=
  ⟨⟨suggested_admissible u, rfl, rfl, rfl, rfl, rfl, suggested_freq, zero_unit_legal u, zero_unit_legal u, nofun, nofun⟩, rfl⟩

/-- So it is in HardwareAssisted mode. -/
theorem hwBench_atBoundary (u : UnitWidth) (cur : TapState) (irq : Bool) : AtBoundary (hwBench u cur irq) :=
  ⟨⟨suggested_admissible u, rfl, rfl, rfl, rfl, rfl, suggested_freq, zero_unit_legal u, zero_unit_legal u, nofun, nofun⟩, rfl⟩

/-- The channel of the bench can be used. -/
theorem hwBench_usable (u : UnitWidth) (cur : TapState) (irq : Bool) : ChannelUsable (hwBench u cur irq) :=
  ⟨(by decide : (usableDivisor Params.suggested 1000000).isSome = true), rfl, rfl⟩

/-- With the channel enabled the bench is settled. -/
theorem channelBench_settled (u : UnitWidth) : Settled (channelBench u) :=
  ⟨suggested_admissible u, rfl, rfl, rfl, rfl, rfl, suggested_freq, zero_unit_legal u, zero_unit_legal u, nofun, nofun⟩

theorem witness_DecodeInvertsEncode : Instr.wellFormed (.rawBitbang 2 [3, 0, 0xFF]) = true := by decide

theorem witness_EncodeInvertsDecode : decode ⟨0x03000000, 1, [3, 0xFF]⟩ = .instr (.rawBitbang 1 [3, 0xFF]) := by decide

theorem witness_WorkedEncodingsDecode :
    (asked State.reset .command 0x0D000000 0 []).inbox = [.request ⟨.command, ⟨0x0D000000, 0, []⟩⟩] ∧
    (asked State.reset .command 0x82100100 0 []).inbox = [.request ⟨.command, ⟨0x82100100, 0, []⟩⟩] ∧
    (asked State.reset .command 0x82100100 0 []).xfer = none := ⟨rfl, rfl, rfl⟩

/-- `op` 0, the first `op` above the commands, the first primitive, and the code of `Open` with a field that must be zero set. -/
theorem witness_IllegalDescriptorIsInvalidArgument :
    (Descriptor.op ⟨0x00000000, 0, []⟩ = 0 ∧ 0x0D ≤ (Descriptor.op ⟨0x0D000000, 0, []⟩).toNat ∧
      0x0D ≤ (Descriptor.op ⟨0x80000000, 0, []⟩).toNat) ∧
    ∀ i : Instr, i.wellFormed = true →
      ¬((encode i).w0 = 0x0B000001 ∧ (encode i).w1 = 0 ∧ ((encode i).buf = [] ∨ (encode i).buf = [])) := by
  refine ⟨by decide, fun i _ h => ?_⟩
  cases i <;> first
    | exact absurd ((Laws.EncodesOpcode.word0_op _ _ _ _ 0 []).symm.trans
        (congrArg (fun w => Descriptor.op ⟨w, 0, []⟩) h.1)) (by decide)
    | exact absurd h.1 (by decide)

/-- The status a machine answers, if it goes on. -/
def statusOf (o : Host.Outcome State Fault Refusal) : Option Status := (nextOf o).bind (·.status)

/-- The bench with a stuck peripheral and, or without, a bound on the blocking wait. -/
def stuckBench (irq : Bool) (bound : Option Nat) : State :=
  { hwBench .w8 .shiftDR irq with
    env := ⟨.loopback, .stuck, .granted, .answers []⟩
    params := { Params.suggested with unitWidth := .w8, irqWaitBound := bound } }

theorem stuckBench_atBoundary (irq : Bool) (bound : Option Nat) : AtBoundary (stuckBench irq bound) :=
  ⟨⟨(by decide : Params.admissible Params.suggested), rfl, rfl, rfl, rfl, rfl, suggested_freq, zero_unit_legal .w8,
    zero_unit_legal .w8, nofun, nofun⟩, rfl⟩

/-- The enabled channel with a stuck peripheral. -/
def stuckChannel (bound : Option Nat) : State :=
  { channelBench .w8 with
    env := ⟨.loopback, .stuck, .granted, .answers []⟩
    params := { Params.suggested with unitWidth := .w8, irqWaitBound := bound } }

/-- The bench in which an interrupt-driven RunTest hangs, and the state the hang leaves. -/
def hangBench : State := stuckBench true none

/-- A call that hangs on the stuck channel: a transfer of one unit, its only one in flight and cut off. -/
def hungChannel (inbox : List Input) : State :=
  { stuckChannel none with
    xfer := some ((newTransfer .w8 [0x12] [0] 1).sent .w8)
    chan := { (stuckChannel none).chan with
      txData := 0x48
      stat := ⟨true, false⟩
      irqEnable := true
      abandoned := true }
    response := none
    inbox := inbox }

theorem hungChannel_hung (inbox : List Input) : Hung (hungChannel inbox) :=
  ⟨(by decide : Params.admissible Params.suggested), rfl, rfl, rfl, rfl, rfl, suggested_freq,
    (by decide : unitLegal .w8 0x48 = true), zero_unit_legal .w8, fun _ => rfl, rfl, rfl, rfl⟩

/-- R14, R168: a RunTest whose completion signal never comes answers nothing and leaves its events in the trace; R246, R280: a
re-initialisation ends it, and nothing else does. -/
theorem test_hang_and_the_way_out :
    (commanded hangBench 0x07000000 16 []).map (fun t => (paths t, t.response, t.transferBusy)) = some ([3], none, true) ∧
    ((commanded hangBench 0x07000000 16 []).bind fun t => nextOf (step { t with inbox := [.peripheralTurn, .initialise] })).map
      (fun t => (paths t, t.transferBusy, t.chan.pinFunction, t.inbox)) =
      some ([3] ++ List.replicate 9 0, false, .line, [.peripheralTurn]) ∧
    (match step (hungChannel [.peripheralTurn]) with
      | .fault q => decide (q = .hang)
      | .next _ => false
      | .refused _ => false) = true := by decide

/-- The bench in which no allocation is granted. -/
def poorBench : State := { hwBench .w8 .runTestIdle true with env := ⟨.loopback, .healthy, .answers [false], .answers []⟩ }

theorem witness_StepRunsTheDecodedOperation :
    (asked State.reset .command 0x0B000000 0 []).inbox = [.request ⟨.command, ⟨0x0B000000, 0, []⟩⟩] ∧
    decodeAt .command ⟨0x0B000000, 0, []⟩ = .instr .openSession ∧ (Descriptor.op ⟨0x7F000000, 0, []⟩).toNat < 0x80 ∧
    { State.reset with inbox := [.initialise] }.inbox = [Input.initialise] ∧
    { State.reset with inbox := [.peripheralTurn] }.inbox = [Input.peripheralTurn] ∧ State.reset.inbox = [] ∧
    State.reset.xfer = none ∧
    { State.reset with inbox := [.initialiseDuring ⟨.command, ⟨0x0B000000, 0, []⟩⟩ 0] }.inbox =
      [Input.initialiseDuring ⟨.command, ⟨0x0B000000, 0, []⟩⟩ 0] ∧
    (nextOf (exec .openSession State.reset)).isSome = true ∧ (hungChannel []).xfer ≠ none ∧
    .initialise ∉ (hungChannel [.peripheralTurn]).inbox ∧ .initialise ∈ (hungChannel [.peripheralTurn, .initialise]).inbox := by
  decide

theorem witness_TapNextFollowsTheGraph :
    (TapState.testLogicReset, TapState.runTestIdle, TapState.testLogicReset) ∈ graphRows ∧
    (TapState.updateIR, TapState.runTestIdle, TapState.selectDR) ∈ graphRows ∧ 15 < (16 : Byte).toNat := by decide

theorem witness_GraphFacts :
    (5 ≤ (5 : Nat)) ∧ walk .captureDR (List.replicate 4 true) ≠ .testLogicReset ∧ (tapNext .exit2IR false).isShift = true := by
  decide

theorem witness_ComputeTransitionIsTheShortestPath :
    walk .runTestIdle [true, true] = .selectIR ∧ (computeTransition .runTestIdle .selectIR).length = [true, true].length ∧
    walk .pauseDR [] = .pauseDR ∧ 15 < currentCode.toNat := by decide

theorem witness_TransitionTable : TapState.testLogicReset ∈ allStates ∧ TapState.updateIR ∈ allStates := by decide

theorem witness_PackedTransitionReadsBack : (List.replicate 8 true).length ≤ 8 ∧ 7 < 8 := by decide

theorem witness_ApplyTransitionDrivesThePath :
    (bench .w8 .shiftDR true).chan.pinFunction = .line ∧
    (bench .w8 .shiftDR true).lastTmsLevel = (bench .w8 .shiftDR true).lines.tms ∧
    (currentCode = currentCode ∧ TapState.shiftDR = (bench .w8 .shiftDR true).currentState) ∧
    (15 : Byte) = TapState.updateIR.code ∧ 16 < (17 : Byte).toNat ∧ 15 < (16 : Byte).toNat := by decide

theorem witness_ResetOverrideIsNinePulses :
    (bench .w8 .pauseIR false).chan.pinFunction = .line ∧
    (bench .w8 .pauseIR false).lastTmsLevel = (bench .w8 .pauseIR false).lines.tms ∧ (16 : Byte).toNat ≤ 16 := by decide

theorem witness_TransitionKeepsTrack :
    (bench .w8 .pauseIR false).chan.pinFunction = .line ∧
    (bench .w8 .pauseIR false).lastTmsLevel = (bench .w8 .pauseIR false).lines.tms ∧
    (currentCode = currentCode ∧ TapState.pauseIR = (bench .w8 .pauseIR false).currentState) ∧
    targetAfter .pauseIR (bench .w8 .pauseIR false).trace = .pauseIR := by decide

theorem witness_PulseClockEffect :
    (bench .w8 .pauseDR true).chan.pinFunction = .line ∧
    (bench .w8 .pauseDR true).lastTmsLevel = (bench .w8 .pauseDR true).lines.tms := by decide

theorem witness_RefusedOutsideTheirPreconditions :
    (channelBench .w8).chan.pinFunction = .peripheral ∧ (255 : Unit16).toNat < 2 ^ (bench .w8 .shiftDR false).unit.bits ∧
    (bench .w8 .shiftDR false).chan.pinFunction = .line ∧
    { (channelBench .w8).chan with stat := ⟨true, false⟩ }.stat.busy = true := by decide

theorem witness_AdapterReversesTheUnit :
    7 < UnitWidth.w8.bits ∧ 15 < UnitWidth.w16.bits ∧ (255 : Unit16).toNat < 2 ^ UnitWidth.w8.bits ∧
    (65535 : Unit16).toNat < 2 ^ UnitWidth.w16.bits := by decide

/-- The fastest accepted frequency and the next; frequency 0; a divisor equal to DIV_MAX and one above it. -/
theorem witness_ConfigureOnChecksTheFrequency :
    (1 ≤ 6250000 ∧ 6250000 ≤ 25000000 / 4 ∧ ¬6250001 ≤ 25000000 / 4) ∧ ((25000000 / (2 * 6250001) : Nat) : Int) - 1 ≤ 0 ∧
    ¬((25000000 / (2 * 6250000) : Nat) : Int) - 1 ≤ 0 ∧ ((25000000 / (2 * 1000000) : Nat) : Int) - 1 = 11 ∧
    ¬((11 : Nat) : Int) < 11 ∧ ((10 : Nat) : Int) < 11 ∧ Params.suggested.divMax = none ∧
    (flightBench []).peripheralEnabled = true := by decide

theorem witness_ConfigureOffReturnsTheLines :
    (channelBench .w16).chan.pinFunction = .peripheral ∧ (bench .w16 .shiftDR false).chan.pinFunction = .line := by decide

theorem witness_SendLoadsTheDataRegister :
    (channelBench .w8).chan.pinFunction = .peripheral ∧ (channelBench .w8).chan.stat.busy = false ∧
    (255 : Unit16).toNat < 2 ^ (channelBench .w8).unit.bits := by decide

theorem witness_UnitOutOfRangeIsInvalidArgument : 2 ^ (channelBench .w8).unit.bits ≤ (256 : Unit16).toNat := by decide

theorem witness_ReceiveReadsOneUnit :
    { (channelBench .w8).chan with stat := ⟨false, true⟩ }.stat.ready = true := by decide

theorem witness_PeripheralShiftsOneUnit :
    let s := { channelBench .w8 with chan := { (channelBench .w8).chan with stat := ⟨true, false⟩ } }
    s.xfer = none ∧ s.inbox = [] ∧ (s.chan.pinFunction = .peripheral ∧ s.chan.stat.busy = true ∧ s.chan.abandoned = false) ∧
      7 < s.unit.bits ∧ ¬(channelBench .w8).chan.stat.busy = true := by decide

theorem witness_ShiftUnitPolledCompletes :
    Settled (channelBench .w8) ∧ (channelBench .w8).chan.pinFunction = .peripheral ∧
    (channelBench .w8).chan.stat.busy = false ∧ (channelBench .w8).env.polls = .healthy ∧
    (channelBench .w8).chan.stat.ready = false ∧
    (255 : Unit16).toNat < 2 ^ (channelBench .w8).unit.bits ∧ 7 < (channelBench .w8).unit.bits :=
  ⟨channelBench_settled .w8, by decide⟩

theorem witness_ShiftUnitPolledTimesOut :
    Settled (stuckBench false none) ∧ statusOf (exec (.shiftUnitPolled 255) (stuckBench false none)) = some (.error .timeout) ∧
    (255 : Unit16).toNat < 2 ^ (stuckBench false none).unit.bits ∧ (stuckBench false none).chan.stat.busy = false ∧
    (stuckChannel none).chan.pinFunction = .peripheral ∧ (stuckChannel none).env.polls = .stuck :=
  ⟨(stuckBench_atBoundary false none).settled, by decide⟩

theorem witness_TransferBlockingCompletes :
    Settled (channelBench .w16) ∧ (channelBench .w16).chan.pinFunction = .peripheral ∧
    (channelBench .w16).chan.stat.busy = false ∧ (channelBench .w16).env.polls = .healthy ∧
    (channelBench .w16).chan.stat.ready = false ∧ 0 < (2 : Word).toNat ∧
    (2 : Word).toNat % (channelBench .w16).unit.bytes = 0 ∧ (2 : Word).toNat ≤ [0x12#8, 0x34#8].length ∧
    15 < 8 * (2 : Word).toNat ∧
    Settled (staleBench (.answers [.handler, .caller])) ∧
    statusOf (exec (.transferBlocking 1 [0xFF]) (staleBench (.answers [.handler, .caller]))) = some .ok :=
  ⟨channelBench_settled .w16, by decide, by decide, by decide, by decide, by decide, by decide, by decide, by decide,
    ⟨suggested_admissible .w8, rfl, rfl, rfl, rfl, rfl, suggested_freq, zero_unit_legal .w8, (by decide : unitLegal .w8 0x48 = true),
      nofun, nofun⟩, by decide⟩

theorem witness_TransferBlockingErrorOrder :
    ([] : List Byte).length < (1 : Word).toNat ∧ ((0 : Word).toNat ≤ ([] : List Byte).length ∧ (0 : Word).toNat = 0) ∧
    ((1 : Word).toNat ≤ [0x12#8].length ∧ (1 : Word).toNat % (channelBench .w16).unit.bytes ≠ 0) ∧
    ((1 : Word).toNat ≤ [0x12#8].length ∧ (1 : Word).toNat ≠ 0 ∧ (1 : Word).toNat % (channelBench .w8).unit.bytes = 0 ∧
      ({ (channelBench .w8).chan with stat := ⟨true, false⟩ }.stat.busy = true ∧
        { channelBench .w8 with xfer := some (newTransfer .w8 [] [] 1) }.xfer.isSome = true)) := by decide

theorem witness_BothVariantsAgree :
    Settled (channelBench .w16) ∧ (channelBench .w16).chan.pinFunction = .peripheral ∧
    (channelBench .w16).chan.stat.busy = false ∧ (channelBench .w16).env.polls = .healthy ∧
    (channelBench .w16).chan.stat.ready = false ∧ 0 < 1 ∧
    1 * (channelBench .w16).unit.bytes ≤ [0x12#8, 0x34#8].length :=
  ⟨channelBench_settled .w16, by decide⟩

theorem witness_HangNeedsAnUnboundedWait :
    Settled hangBench ∧ ((nextOf (exec (.runTest 16) hangBench)).map fun t => decide (t.xfer ≠ none)) = some true ∧
    (stuckChannel none).chan.pinFunction = .peripheral ∧
    (stuckChannel none).chan.stat = ⟨false, false⟩ ∧ (stuckChannel none).xfer = none ∧ (stuckChannel none).env.polls = .stuck ∧
    0 < (1 : Word).toNat ∧ (1 : Word).toNat % (stuckChannel none).unit.bytes = 0 ∧ (1 : Word).toNat ≤ [0x12#8].length ∧
    (stuckChannel none).params.irqWaitBound = none ∧ (stuckChannel (some 5)).params.irqWaitBound ≠ none :=
  ⟨(stuckBench_atBoundary true none).settled, by decide⟩

/-- One bit more than a unit, which uses the channel, and a single bit, which does not. -/
theorem witness_ScanShiftsEveryBitOnce :
    AtBoundary (hwBench .w8 .shiftDR true) ∧ (hwBench .w8 .shiftDR true).currentState.isShift = true ∧
    (0 < (9 : Word).toNat ∧ 0 < (1 : Word).toNat ∧
      (9 : Word).toNat ≤ (hwBench .w8 .shiftDR true).params.maxScanBits) ∧ ScanUsable 9 (hwBench .w8 .shiftDR true) ∧
    ScanUsable 1 (hwBench .w8 .shiftDR true) ∧ (hwBench .w8 .shiftDR true).env.tdo = .loopback :=
  ⟨hwBench_atBoundary .w8 .shiftDR true, rfl, by decide, fun _ => ⟨hwBench_usable .w8 .shiftDR true, rfl⟩,
    fun _ => ⟨hwBench_usable .w8 .shiftDR true, rfl⟩, rfl⟩

/-- Both cases of the partition: `U` bits and `U + 1` bits. -/
theorem witness_ScanPartition :
    AtBoundary (hwBench .w16 .shiftIR false) ∧ (hwBench .w16 .shiftIR false).currentState.isShift = true ∧
    ScanUsable 17 (hwBench .w16 .shiftIR false) ∧ ScanUsable 16 (hwBench .w16 .shiftIR false) ∧
    ((hwBench .w16 .shiftIR false).unit.bits < (17 : Word).toNat ∧
      (hwBench .w16 .shiftIR false).activeTransferMode = .hardwareAssisted) ∧
    ¬((hwBench .w16 .shiftIR false).unit.bits < (16 : Word).toNat) ∧
    (0 < (16 : Word).toNat ∧ (17 : Word).toNat ≤ (hwBench .w16 .shiftIR false).params.maxScanBits) :=
  ⟨hwBench_atBoundary .w16 .shiftIR false, rfl, fun _ => ⟨hwBench_usable .w16 .shiftIR false, rfl⟩,
    fun _ => ⟨hwBench_usable .w16 .shiftIR false, rfl⟩, by decide⟩

theorem witness_ScanIsIndependentOfThePath :
    hwBench .w16 .shiftDR true = { bench .w8 .shiftDR false with
      activeTransferMode := .hardwareAssisted
      interruptDriven := true
      params := { (bench .w8 .shiftDR false).params with unitWidth := .w16 } } ∧
    AtBoundary (bench .w8 .shiftDR false) ∧ AtBoundary (hwBench .w16 .shiftDR true) ∧
    (bench .w8 .shiftDR false).currentState.isShift = true ∧ 0 < (17 : Word).toNat ∧
    (17 : Word).toNat ≤ (bench .w8 .shiftDR false).params.maxScanBits ∧
    ScanUsable 17 (bench .w8 .shiftDR false) ∧ ScanUsable 17 (hwBench .w16 .shiftDR true) :=
  ⟨rfl, bench_atBoundary .w8 .shiftDR false, hwBench_atBoundary .w16 .shiftDR true, rfl, by decide, by decide,
    fun h => absurd h (by decide), fun _ => ⟨hwBench_usable .w16 .shiftDR true, rfl⟩⟩

/-- Both ends of the length range, and an `xfer` between two Shift states. -/
theorem witness_ScanEntryChecks :
    (bench .w8 .exit1DR false).currentState.isShift = false ∧ (bench .w8 .shiftIR false).currentState.isShift = true ∧
    15 < (16 : Byte).toNat ∧ (15 : Byte).toNat ≤ 15 ∧ (0 : Word) = 0 ∧
    (bench .w8 .shiftIR false).params.maxScanBits < (65537 : Word).toNat ∧ AtBoundary (bench .w8 .shiftIR false) ∧
    (1 : Byte).toNat ≤ 1 ∧ (16 : Byte).toNat ≤ 16 ∧
    exec (.scan 15 65537 [0xA5]) (bench .w8 .shiftIR false) =
      .next ((bench .w8 .shiftIR false).raise .invalidArgument) :=
  ⟨rfl, rfl, by decide, by decide, rfl, by decide, bench_atBoundary .w8 .shiftIR false, by decide, by decide, rfl⟩

theorem witness_FailedScanStaysInTheShiftState :
    AtBoundary (stuckBench false none) ∧
    statusOf (exec (.scan 1 9 [0xA5, 1]) (stuckBench false none)) = some (.error .timeout) ∧
    statusOf (exec (.scan 1 9 [0xA5, 1]) (stuckBench true (some 5))) = some (.error .timeout) ∧
    statusOf (exec (.scan 1 0 []) (stuckBench false none)) = some (.error .invalidArgument) ∧
    ((1 : Byte) = 1 ∧ TapState.shiftIR = .shiftIR) ∧
    (currentCode = currentCode ∧ TapState.shiftDR = (stuckBench false none).currentState) ∧
    TapState.exit2DR.code = TapState.code .exit2DR ∧
    statusOf (exec (.xfer 1 16 1 9 [0xA5, 1]) (stuckBench false none)) = some (.error .timeout) ∧
    statusOf (exec (.xfer 0 16 16 9 [0xA5, 1]) (stuckBench false none)) = some (.error .invalidState) ∧
    statusOf (exec (.scanCommand 1 7 1 9 [0xA5, 1]) (stuckBench false none)) = some (.error .ioError) :=
  ⟨stuckBench_atBoundary false none, by decide⟩

/-- From elsewhere and from the Shift state itself, both scan types. -/
theorem witness_XferDrivesThenScans :
    AtBoundary (hwBench .w8 .shiftDR true) ∧ ((0 : Byte) = 0 ∧ TapState.shiftDR = .shiftDR) ∧
    ((1 : Byte) = 1 ∧ TapState.shiftIR = .shiftIR) ∧
    (currentCode = currentCode ∧ TapState.shiftDR = (hwBench .w8 .shiftDR true).currentState) ∧ 0 < (8 : Word).toNat ∧
    ChannelUsable (hwBench .w8 .shiftDR true) ∧ (hwBench .w8 .shiftDR true).lines.tms = false ∧
    (hwBench .w8 .shiftDR true).exclusiveOpen = true ∧ (hwBench .w8 .shiftDR true).env.alloc = .granted ∧
    (8 : Word).toNat ≤ (hwBench .w8 .shiftDR true).params.maxScanBits ∧ ceil8 (8 : Word).toNat ≤ [0xA5#8].length :=
  ⟨hwBench_atBoundary .w8 .shiftDR true, by decide, by decide, by decide, by decide, hwBench_usable .w8 .shiftDR true, by decide⟩

theorem witness_ScanCommandMapsErrors :
    (bench .w8 .runTestIdle false).exclusiveOpen = true ∧ (bench .w8 .runTestIdle false).env.alloc = .granted ∧
    ((1 : Byte).toNat ≤ 1 ∧ (16 : Byte).toNat ≤ 16 ∧ (15 : Byte).toNat ≤ 15 ∧ 0 < (8 : Word).toNat ∧
      (8 : Word).toNat ≤ (bench .w8 .runTestIdle false).params.maxScanBits ∧ ceil8 (8 : Word).toNat ≤ [0xA5#8].length) ∧
    ¬(2 : Byte).toNat ≤ 1 ∧ ¬(17 : Byte).toNat ≤ 16 ∧ ¬(16 : Byte).toNat ≤ 15 ∧ ¬0 < (0 : Word).toNat ∧
    ¬(65537 : Word).toNat ≤ (bench .w8 .runTestIdle false).params.maxScanBits ∧
    ¬ceil8 (9 : Word).toNat ≤ [0xA5#8].length := by decide

/-- Both modes; no cycle and some. -/
theorem witness_RunIdleClocksExactly :
    AtBoundary (hwBench .w16 .runTestIdle true) ∧ (hwBench .w16 .runTestIdle true).env.alloc = .granted ∧
    IdleUsable (hwBench .w16 .runTestIdle true) ∧ (hwBench .w16 .runTestIdle true).activeTransferMode = .hardwareAssisted ∧
    AtBoundary (bench .w8 .runTestIdle true) ∧ IdleUsable (bench .w8 .runTestIdle true) ∧
    (bench .w8 .runTestIdle true).activeTransferMode = .bitBang ∧ 0 < (1 : Word).toNat ∧
    (hwBench .w16 .runTestIdle true).exclusiveOpen = true :=
  ⟨hwBench_atBoundary .w16 .runTestIdle true, rfl, fun _ => hwBench_usable .w16 .runTestIdle true, rfl,
    bench_atBoundary .w8 .runTestIdle true, fun h => absurd h (by decide), rfl, by decide, rfl⟩

theorem witness_RunIdleInBitBangMode :
    (bench .w8 .runTestIdle true).activeTransferMode = .bitBang ∧ (bench .w8 .runTestIdle true).chan.pinFunction = .line ∧
    (bench .w8 .runTestIdle true).lastTmsLevel = (bench .w8 .runTestIdle true).lines.tms := by decide

theorem witness_RunIdleFrequencyError :
    let s := { hwBench .w8 .runTestIdle false with requestedFreq := 6250001 }
    s.activeTransferMode = .hardwareAssisted ∧ s.env.alloc = .granted ∧
    usableDivisor s.params s.requestedFreq = none ∧ s.lastTmsLevel = false ∧
    { s with lastTmsLevel := true }.lastTmsLevel = true := by decide

theorem witness_FailedRunIdle :
    AtBoundary (stuckBench false none) ∧
    statusOf (exec (.runIdle 16) (stuckBench false none)) = some (.error .timeout) ∧
    statusOf (exec (.runIdle 16) poorBench) = some (.error .outOfMemory) :=
  ⟨stuckBench_atBoundary false none, by decide⟩

theorem witness_ClockingIgnoresTheTrackedState :
    ignoresCurrentState (.runIdle 3) = true ∧ (nextOf (exec (.runIdle 3) (bench .w8 .runTestIdle false))).isSome = true := by
  decide

theorem witness_SetFrequencyStores :
    (bench .w8 .runTestIdle false).exclusiveOpen = true ∧
    (25000000 : Word).toNat ≤ (bench .w8 .runTestIdle false).params.maxFreq ∧
    (bench .w8 .runTestIdle false).params.maxFreq < (25000001 : Word).toNat := by decide

theorem witness_GettersRead :
    (bench .w8 .runTestIdle false).exclusiveOpen = true ∧ (bench .w8 .runTestIdle false).requestedFreq < 2 ^ 32 := by decide

theorem witness_RawBitbangPulsesPerPair :
    let s := bench .w8 .pauseDR false
    s.exclusiveOpen = true ∧ s.env.alloc = .granted ∧ (256 : Word).toNat ≤ s.params.maxBitbang ∧
    (2 : Word).toNat ≤ [1#8, 2#8].length ∧ s.chan.pinFunction = .line ∧ s.lastTmsLevel = s.lines.tms ∧
    s.params.maxBitbang < (257 : Word).toNat ∧ [1#8, 2#8].length < (3 : Word).toNat := by decide

theorem witness_SetTapStateNavigates :
    let s := bench .w8 .pauseDR false
    s.exclusiveOpen = true ∧ s.chan.pinFunction = .line ∧ s.lastTmsLevel = s.lines.tms ∧
    (currentCode = currentCode ∧ TapState.pauseDR = (if false then .testLogicReset else s.currentState)) ∧
    (currentCode = currentCode ∧ TapState.testLogicReset = (if true then .testLogicReset else s.currentState)) ∧
    16 < (17 : Byte).toNat ∧ 15 < (16 : Byte).toNat := by decide

theorem witness_SettersWriteOneField : (bench .w8 .pauseDR false).exclusiveOpen = true := by decide

theorem witness_OpenIsExclusive :
    State.reset.exclusiveOpen = false ∧ (bench .w8 .pauseDR false).exclusiveOpen = true := by decide

theorem witness_ClosedSessionRefuses :
    needsOpenSession (.setFrequency 0) = true ∧ needsOpenSession (.setInterruptDriven true) = true ∧
    State.reset.exclusiveOpen = false := by decide

theorem witness_OutOfMemoryComesFirst :
    poorBench.env.alloc = .answers (false :: []) ∧ poorBench.exclusiveOpen = true ∧
    poorBench.activeTransferMode = .hardwareAssisted ∧ poorBench.interruptDriven = true ∧
    poorBench.unit.bits ≤ (8 : Word).toNat ∧
    statusOf (exec (.rawBitbang 0 []) poorBench) = some (.error .outOfMemory) := by decide

theorem witness_CommandErrorMatrix :
    isCommand (.runTest 16) = true ∧ statusOf (exec (.runTest 16) (stuckBench false none)) = some (.error .timeout) ∧
    isCommand .openSession = true ∧ statusOf (exec .openSession (stuckBench false none)) = some (.error .busy) := by decide

theorem witness_EarlyErrorsChangeNothing :
    statusOf (exec (.setTapState 16 16 true) (bench .w8 .pauseDR false)) = some (.error .invalidState) ∧
    statusOf (exec (.transferBlocking 1 []) (channelBench .w8)) = some (.error .shortBuffer) ∧
    statusOf (exec .openSession (bench .w8 .pauseDR false)) = some (.error .busy) ∧ 1 < (2 : Byte).toNat ∧
    (1 : Byte).toNat ≤ 1 ∧ 16 < (17 : Byte).toNat := by decide

theorem witness_SessionFieldsHaveTheirWriters :
    (nextOf (exec .releaseSession (bench .w8 .pauseDR false))).map (·.exclusiveOpen) = some false ∧
    (nextOf (exec (.setFrequency 0) (bench .w8 .pauseDR false))).map (·.requestedFreq) = some 0 ∧
    (nextOf (exec (.setTapState 16 1 false) (bench .w8 .pauseDR false))).map (·.currentState) = some .runTestIdle ∧
    (nextOf (exec (.configure false) { channelBench .w8 with lastTmsLevel := true })).map (·.lastTmsLevel) = some false := by
  decide

theorem witness_StepKeepsSettled :
    Settled (channelBench .w8) ∧ (nextOf (step (channelBench .w8))).isSome = true ∧
    Settled (bench .w8 .pauseDR true) ∧ (nextOf (step (bench .w8 .pauseDR true))).isSome = true ∧
    Hung (hungChannel [.initialise]) ∧ (nextOf (step (hungChannel [.initialise]))).isSome = true :=
  ⟨channelBench_settled .w8, by decide, (bench_atBoundary .w8 .pauseDR true).settled, by decide, hungChannel_hung _, by decide⟩

theorem witness_ResetIsAtBoundary : Params.admissible Params.suggested := by decide

theorem witness_CommandKeepsBoundary :
    isCommand (.runTest 16) = true ∧ AtBoundary (stuckBench false none) ∧
    (nextOf (exec (.runTest 16) (stuckBench false none))).isSome = true ∧ (channelBench .w8).params.admissible :=
  ⟨by decide, stuckBench_atBoundary false none, by decide, suggested_admissible .w8⟩

theorem witness_StaysInTrack :
    AtBoundary (bench .w8 .pauseDR false) ∧ TmsOnWire (bench .w8 .pauseDR false) ∧
    InTrack .pauseDR (bench .w8 .pauseDR false) ∧ keepsTrack (.setTapState 16 4 false) (bench .w8 .pauseDR false) = true ∧
    (nextOf (exec (.setTapState 16 4 false) (bench .w8 .pauseDR false))).isSome = true :=
  ⟨bench_atBoundary .w8 .pauseDR false, nofun, rfl, by decide⟩

theorem witness_InitialisationSequence :
    { bench .w8 .pauseDR false with inbox := [.initialise] }.inbox = .initialise :: [] ∧
    (bench .w8 .pauseDR false).xfer = none ∧
    ((hungChannel [.peripheralTurn, .initialise]).xfer ≠ none ∧
      .initialise ∈ (hungChannel [.peripheralTurn, .initialise]).inbox) ∧
    { bench .w8 .pauseDR false with inbox := [.initialiseDuring ⟨.command, ⟨0x07000000, 16, []⟩⟩ 3] }.inbox =
      .initialiseDuring ⟨.command, ⟨0x07000000, 16, []⟩⟩ 3 :: [] ∧
    (nextOf (perform ⟨.command, ⟨0x07000000, 16, []⟩⟩ (bench .w8 .pauseDR false))).isSome = true := by decide

theorem witness_BackendAndUnusedSettingAreInvisible :
    (∀ b, Instr.runTest 3 ≠ .setDirectPinControl b) ∧ (∀ b, Instr.runTest 3 ≠ .setInterruptDriven b) ∧
    (bench .w8 .pauseDR false).activeTransferMode = .bitBang :=
  ⟨nofun, nofun, rfl⟩

theorem witness_BitBangWorksAfterAFailure :
    AtBoundary (stuckBench false none) ∧
    statusOf (exec (.runTest 16) (stuckBench false none)) = some (.error .timeout) ∧
    statusOf (exec (.scanCommand 0 16 1 9 [0xA5, 1]) (stuckBench false none)) = some (.error .ioError) :=
  ⟨stuckBench_atBoundary false none, by decide⟩

end Sys2Proof.Tests
end

/-! What one step of the block does with its input (spec/00_scope.md R11, spec/45_commands.md R210). -/

namespace Sys2Proof.Machine

/-- While no call hangs the oldest input is taken off the queue and carried out. -/
theorem step_input {s : State} {input : Input} {rest : List Input} (hx : s.xfer = none) (hi : s.inbox = input :: rest) :
    step s = takeInput input (s.setInbox rest) := by
  simp [step, State.transferBusy, hx, hi]

/-- While no call hangs and nothing is asked, the peripheral has its turn. -/
theorem step_no_input {s : State} (hx : s.xfer = none) (hi : s.inbox = []) : step s = .next (peripheralStep s) := by
  simp [step, State.transferBusy, hx, hi]

/-- While a call hangs, only a re-initialisation is taken. -/
theorem step_hung {s : State} (hx : s.xfer ≠ none) : step s = leaveHang s := by
  simp [step, State.transferBusy, Option.isSome_iff_ne_none.mpr hx]

/-- A descriptor that decodes at its surface is executed. -/
theorem perform_instr {r : Request} {i : Instr} (h : decodeAt r.surface r.descriptor = .instr i) (s : State) :
    perform r s = exec i s := by
  simp [perform, h]

/-- A request that ends is cut short by the initialisation that came during it (R280). -/
theorem performInterrupted_next {r : Request} {s t : State} (h : perform r s = .next t) (k : Nat) :
    performInterrupted r k s = .next (endedByInitialise k s t) := by
  simp [performInterrupted, h]

theorem isPrimitiveOp_eq_false {d : Descriptor} (h : d.op.toNat < 0x80) : d.isPrimitiveOp = false :=
  Nat.testBit_lt_two_pow h

/-- The command surface decodes the lower half of the code space as the table does (R93). -/
theorem decodeAt_command {d : Descriptor} (h : d.op.toNat < 0x80) : decodeAt .command d = decode d := by
  simp [decodeAt, isPrimitiveOp_eq_false h]

/-- Settles O5: each clause is the lemma on `step` for its kind of input, then the meaning of that input. -/
theorem stepRunsTheDecodedOperation : Obligations.StepRunsTheDecodedOperation := by
  refine ⟨?request, fun d => ⟨rfl, decodeAt_command⟩, ?initialise, ?during, ?turn, fun _ => step_no_input, ?hung⟩
  case request =>
    intro s r rest i hx hi hd
    exact (step_input hx hi).trans (perform_instr hd _)
  case initialise => exact fun s rest hx hi => step_input hx hi
  case during =>
    intro s t r k rest i hx hi hd he
    exact (step_input hx hi).trans (performInterrupted_next ((perform_instr hd _).trans he) k)
  case turn => exact fun s rest hx hi => step_input hx hi
  case hung =>
    intro s hx
    rw [step_hung hx, leaveHang]
    exact ⟨fun h => if_pos h, fun h => if_neg h⟩

end Sys2Proof.Machine

/-! Which operations can hang (spec/00_scope.md R10, spec/42_hw_shift_channel.md R168): on a healthy peripheral an interrupt-driven
transfer completes or is refused, and no other operation waits for its completion signal. -/

namespace Sys2Proof.Machine

/-! On a healthy peripheral the completion flag comes (R168). -/

/-- A transfer in progress on a healthy peripheral, with `n` units still to be received and all of them but one to be sent. -/
structure Receiving (n : Nat) (s : State) : Prop where
  healthy : s.env.polls = .healthy
  enabled : s.chan.pinFunction = .peripheral
  irqOn   : s.chan.irqEnable = true
  lock    : s.xferLock = false
  record  : ∃ x, s.xfer = some x ∧ x.done = false ∧ x.remainingRxUnits = n ∧ x.remainingTxUnits + 1 = n

theorem Receiving.notDone {n : Nat} {s : State} (h : Receiving n s) : s.transferDone = false := by
  obtain ⟨x, hx, hd, -, -⟩ := h.record
  simp [State.transferDone, hx, hd]

/-- Whose turn it is changes nothing a transfer depends on. -/
theorem Receiving.nextTurn {n : Nat} {s : State} (h : Receiving n s) : Receiving n (nextTurn s).2 := by
  unfold Machine.nextTurn
  split
  · split
    · obtain ⟨e, k, hf, -, hp, -⟩ := s.whoMoves_frame .peripheral .handler
      rw [hf]
      exact ⟨hp.trans h.healthy, h.enabled, h.irqOn, h.lock, h.record⟩
    · exact h
  · exact h

theorem peripheralEnabled_nextTurn (s : State) : (nextTurn s).2.peripheralEnabled = s.peripheralEnabled := by
  obtain ⟨e, n, h⟩ := nextTurn_frame s
  rw [h]
  rfl

/-- The handler is named only when it is enabled (R251). -/
theorem ready_of_nextTurn_handler {s : State} (h : (nextTurn s).1 = .handler) : (nextTurn s).2.chan.stat.ready = true := by
  have hr : s.chan.stat.ready = true := by
    by_contra hc
    rw [nextTurn_peripheral (by simpa using hc)] at h
    cases h
  obtain ⟨e, n, hf⟩ := nextTurn_frame s
  rw [hf]
  exact hr

@[simp] theorem peripheralStep_polls (s : State) : (peripheralStep s).env.polls = s.env.polls := by
  cases he : s.peripheralEnabled with
  | false => rw [peripheralStep_disabled he]
  | true => rw [peripheralStep_enabled he, peripheralShift_eq]; simp

@[simp] theorem letPeripheral_polls (s : State) : (letPeripheral s).env.polls = s.env.polls := by
  obtain ⟨e, n, h | h, -, hp, -⟩ := letPeripheral_cases s <;> simp [h, hp]

@[simp] theorem enableChannel_polls (d : Nat) (s : State) : (enableChannel d s).env.polls = s.env.polls := by
  simp [enableChannel, switchPins]

/-- The peripheral's step keeps the transfer (R160). -/
theorem Receiving.peripheralStep {n : Nat} {s : State} (h : Receiving n s) : Receiving n (peripheralStep s) := by
  obtain ⟨hp, hx, hq, hl⟩ := peripheralStep_keeps s
  exact ⟨(peripheralStep_polls s).trans h.healthy, hp.trans h.enabled, hq.trans h.irqOn, hl.trans h.lock,
    by rw [hx]; exact h.record⟩

/-- After the peripheral's step its received word is there (R160). -/
theorem peripheralStep_ready {s : State} (h : s.peripheralEnabled = true) : (peripheralStep s).chan.stat.ready = true := by
  rw [peripheralStep_enabled h]
  rfl

/-- A send of the next unit is refused while one is in flight (R161). -/
theorem sendNext_busy (x : Xfer) {s : State} (hp : s.chan.pinFunction = .peripheral) (hb : s.chan.stat.busy = true) :
    sendNext x s = .refused .sendWhileBusy := by
  simp [sendNext, send, State.channelEnabled, hp, hb]

/-- A send of the next unit is refused while the channel is disabled (R161). -/
theorem sendNext_disabled (x : Xfer) {s : State} (hp : s.chan.pinFunction = .line) :
    sendNext x s = .refused .sendWhileDisabled := by
  simp [sendNext, send, State.channelEnabled, hp]

/-- The handler's step is refused when a unit is in flight and another remains to be sent (R161, R167). -/
theorem handlerStep_busy {s : State} {x : Xfer} (hp : s.chan.pinFunction = .peripheral) (hq : s.chan.irqEnable = true)
    (hl : s.xferLock = false) (hb : s.chan.stat.busy = true) (hr : s.chan.stat.ready = true) (hx : s.xfer = some x)
    (ht : 0 < x.remainingTxUnits) : handlerStep s = .refused .sendWhileBusy := by
  have hbody : receiveAndSendNext (s.setLock true) = .refused .sendWhileBusy := by
    rw [receiveAndSendNext_ready _ (by exact hr) (by exact hx) rfl, if_pos ht, sendNext_busy _ (by exact hp) (by exact hb)]
    rfl
  rw [handlerStep, if_pos (handlerEnabled_iff.mpr ⟨hq, hr, hl⟩), onReceiveInterrupt, atomic_refused hbody]
  rfl

theorem peripheralEnabled_loadUnit {s : State} (w : Unit16) (hp : s.chan.pinFunction = .peripheral) :
    (s.loadUnit w).peripheralEnabled = true := by
  simp [State.peripheralEnabled, State.channelEnabled, hp]

/-- The handler with a received word: the completion flag after the last unit, the next unit in flight before; or its send is
refused (R167). -/
theorem Receiving.handlerStep {n : Nat} {s : State} (h : Receiving (n + 1) s) (hr : s.chan.stat.ready = true) :
    (handlerStep s).Post (fun _ t => t.env.polls = .healthy ∧
      (t.transferDone = true ∨ Receiving n t ∧ t.peripheralEnabled = true)) (fun _ _ => False) (fun _ => False) := by
  obtain ⟨x, hx, hd, hrx, htx⟩ := h.record
  rcases Nat.eq_zero_or_pos n with rfl | hn
  · rw [handlerStep_last _ h.irqOn h.lock hr hx (by omega) hrx rfl]
    exact ⟨h.healthy, .inl rfl⟩
  · cases hb : s.chan.stat.busy with
    | true =>
      rw [handlerStep_busy h.enabled h.irqOn h.lock hb hr hx (by omega)]
      trivial
    | false =>
      rw [handlerStep_next _ h.irqOn h.lock h.enabled hb hr hx (by omega) (by omega) rfl]
      have hrx' : x.remainingRxUnits - 1 = n := by omega
      have htx' : x.remainingTxUnits - 1 + 1 = n := by omega
      exact ⟨h.healthy, .inr ⟨⟨h.healthy, h.enabled, h.irqOn, h.lock, _, rfl, hd, hrx', htx'⟩,
        peripheralEnabled_loadUnit _ h.enabled⟩⟩

/-- Once the completion flag is set a healthy peripheral clocks what is still in flight (R77). -/
theorem blockingWait_done (n : Nat) {s : State} (hp : s.env.polls = .healthy) (hd : s.transferDone = true) :
    ∃ t, blockingWait n s = .ok true t := by
  have hw : ∃ t, waitForWire s = .ok true t := by
    unfold waitForWire
    split
    · exact ⟨_, by rw [State.drawPoll_healthy s hp]⟩
    · exact ⟨s, rfl⟩
  cases n <;> simpa [blockingWait, hd] using hw

/-- The blocking wait of a healthy peripheral ends with the completion flag, whatever the schedule and a stale received word do, or
the handler's send is refused (R168, R251). -/
theorem blockingWait_completes {n : Nat} {s : State} (h : Receiving n s) (he : s.peripheralEnabled = true) :
    (blockingWait n s).Post (fun done _ => done = true) (fun _ _ => False) (fun _ => False) := by
  induction n generalizing s with
  | zero =>
    obtain ⟨x, -, -, -, htx⟩ := h.record
    omega
  | succ n ih =>
    have turn : ∀ {u : State}, Receiving (n + 1) u → u.chan.stat.ready = true →
        ((handlerStep u).bind fun _ t => blockingWait n t).Post (fun done _ => done = true) (fun _ _ => False)
          (fun _ => False) := by
      refine fun hu hr => (hu.handlerStep hr).bind ?_
      rintro _ t ⟨hp, hd | ⟨ht, het⟩⟩
      · obtain ⟨v, hv⟩ := blockingWait_done n hp hd
        rw [hv]
        rfl
      · exact ih ht het
    rw [blockingWait, h.notDone, if_neg (by simp)]
    dsimp only
    split
    · next hh => exact turn h.nextTurn (ready_of_nextTurn_handler hh)
    · rw [State.drawPoll_healthy _ h.nextTurn.healthy]
      exact turn h.nextTurn.peripheralStep (peripheralStep_ready ((peripheralEnabled_nextTurn s).trans he))

/-! The start of a transfer (R165). -/

/-- The state right after the start of a transfer: the record one unit on, the interrupt on, the first unit in flight (R165). -/
def transferStarted (tx rx : List Byte) (byteCount : Nat) (s : State) : State :=
  ((s.setIrqEnable true).setXfer (some ((newTransfer s.unit (tx.take byteCount) (rx.take byteCount)
    (byteCount / s.unit.bytes)).sent s.unit))).loadUnit (adapt s.unit (unitFromBytes s.unit (tx.take byteCount) 0))

/-- A transfer starts, is answered Busy, or is refused for want of an enabled channel (R165). -/
theorem startTransfer_cases (tx rx : List Byte) (byteCount : Nat) (s : State) :
    (s.chan.pinFunction = .peripheral ∧
      atomic (startTransfer tx rx byteCount) s = .ok () (transferStarted tx rx byteCount s)) ∨
    ((s.xfer ≠ none ∨ s.chan.stat.busy = true) ∧ atomic (startTransfer tx rx byteCount) s = .error .busy s) ∨
    s.chan.pinFunction = .line ∧ atomic (startTransfer tx rx byteCount) s = .refused .sendWhileDisabled := by
  have hlock : ∀ t : State, (t.setLock true).setLock t.xferLock = t := fun t => rfl
  by_cases hb : s.xfer ≠ none ∨ s.chan.stat.busy = true
  · refine .inr (.inl ⟨hb, ?_⟩)
    rw [atomic_error (t := s.setLock true), hlock]
    exact if_pos (by simpa [State.transferBusy, Option.isSome_iff_ne_none] using hb)
  · obtain ⟨hx, hb⟩ := not_or.mp hb
    simp only [ne_eq, not_not, Bool.not_eq_true] at hx hb
    cases hp : s.chan.pinFunction with
    | line =>
      refine .inr (.inr ⟨rfl, atomic_refused ?_⟩)
      rw [startTransfer, if_neg (by simp [State.transferBusy, hx, hb]), sendNext_disabled _ (by exact hp)]
    | peripheral =>
      refine .inl ⟨rfl, ?_⟩
      rw [atomic_ok (t := (transferStarted tx rx byteCount s).setLock true) (a := ())]
      · exact congrArg (Res.ok ()) (hlock (transferStarted tx rx byteCount s))
      · rw [startTransfer, if_neg (by simp [State.transferBusy, hx, hb]), sendNext_eq _ (by exact hp) (by exact hb)]
        simp [State.ext_iff, transferStarted, newTransfer, Xfer.sent]

/-- A transfer that starts on a healthy peripheral has its first unit in flight and all of them still to be received (R165). -/
theorem transferStarted_receiving (tx rx : List Byte) {byteCount : Nat} {s : State} (hp : s.env.polls = .healthy)
    (hpin : s.chan.pinFunction = .peripheral) (hl : s.xferLock = false) (hn : 0 < byteCount / s.unit.bytes) :
    Receiving (byteCount / s.unit.bytes) (transferStarted tx rx byteCount s) :=
  ⟨hp, hpin, rfl, hl, _, rfl, rfl, rfl, Nat.sub_add_cancel hn⟩

/-- On a healthy peripheral an interrupt-driven transfer never hangs (R168). -/
theorem transferBlocking_healthy_ends (tx rx : List Byte) (byteCount : Nat) {s : State} (hp : s.env.polls = .healthy)
    (hl : s.xferLock = false) :
    (transferBlocking tx rx byteCount s).Post (fun _ _ => True) (fun _ _ => True) (fun _ => False) := by
  unfold transferBlocking
  split
  · trivial
  split
  · trivial
  next hc =>
    obtain ⟨h0, hm⟩ := not_or.mp hc
    have hn : 0 < byteCount / s.unit.bytes :=
      Nat.div_pos (Nat.le_of_dvd (by omega) (Nat.dvd_of_mod_eq_zero (not_not.mp hm))) s.unit.bytes_pos
    rcases startTransfer_cases tx rx byteCount s with ⟨hpin, he⟩ | ⟨-, he⟩ | ⟨-, he⟩ <;> rw [he]
    · refine ((blockingWait_completes (transferStarted_receiving tx rx hp hpin hl hn) (peripheralEnabled_loadUnit _ hpin)).mono
        (fun _ _ => id) (fun _ _ => False.elim) (fun _ => id)).bind ?_
      rintro done u rfl
      trivial
    · trivial
    · trivial

end Sys2Proof.Machine

/-! Which states an operation passes through before and after the one wait that can hang (spec/00_scope.md R10,
spec/42_hw_shift_channel.md R168): the pulses, the transitions and the enable of the channel leave the waits' answers untouched. -/

namespace Sys2Proof.Machine

/-! Settled again, with no wait answered. -/

/-- What an operation has done while it waited for nothing: the state is settled again, no answer to a wait is used up, and the
trace has only grown. -/
structure LeadsTo (s t : State) : Prop where
  settled  : Settled t
  params   : t.params = s.params
  polls    : t.env.polls = s.env.polls
  appended : s.trace <+: t.trace

theorem LeadsTo.refl {s : State} (hs : Settled s) : LeadsTo s s := ⟨hs, rfl, rfl, [], List.append_nil _⟩

theorem LeadsTo.trans {s t u : State} (h : LeadsTo s t) (h' : LeadsTo t u) : LeadsTo s u :=
  ⟨h'.settled, h'.params.trans h.params, h'.polls.trans h.polls, h.appended.trans h'.appended⟩

theorem HwRun.appended {s t : State} (h : HwRun s t) : s.trace <+: t.trace := by
  obtain ⟨evs, he, -⟩ := h.events
  exact ⟨evs, he.symm⟩

/-- A run of the channel that keeps the transfer, the interrupt enable, the lock and the answers to waits. -/
theorem LeadsTo.of_run {s t : State} (hs : Settled s) (h : HwRun s t) (hx : t.xfer = s.xfer)
    (hq : t.chan.irqEnable = s.chan.irqEnable) (hl : t.xferLock = s.xferLock) (hp : t.env.polls = s.env.polls) : LeadsTo s t :=
  ⟨h.settled hs (hx.trans hs.noTransfer) (hq.trans hs.irqOff) (hl.trans hs.lockFree), h.params, hp, h.appended⟩

/-- Draws that are no answers to a wait. -/
theorem LeadsTo.of_env {s t : State} (hs : Settled s) (h : ∃ e n, t = { s with env := e, draws := n } ∧ e.polls = s.env.polls) :
    LeadsTo s t := by
  obtain ⟨e, n, rfl, hp⟩ := h
  exact .of_run hs (.of_env ⟨e, n, rfl⟩) rfl rfl rfl hp

theorem LeadsTo.drawTdo {s : State} (hs : Settled s) (b : Bool) : LeadsTo s (s.drawTdo b).2 := by
  obtain ⟨e, n, h, hp, -⟩ := s.drawTdo_frame b
  exact .of_env hs ⟨e, n, h, hp⟩

theorem LeadsTo.drawAlloc {s : State} (hs : Settled s) : LeadsTo s s.drawAlloc.2 := by
  obtain ⟨e, n, h, -, hp, -⟩ := s.drawAlloc_frame
  exact .of_env hs ⟨e, n, h, hp⟩

theorem LeadsTo.wired {s : State} (hs : Settled s) {l : Lines} {c : Bool} (events : List Event) (hl : l.tck = false)
    (hc : c = l.tms) : LeadsTo s (s.wired l c events) :=
  ⟨⟨hs.admissible, hl, hc, hs.noTransfer, hs.irqOff, hs.lockFree, hs.freqLegal, hs.txLegal, hs.rxLegal, hs.stuckBusy,
    hs.busyStuck⟩, rfl, rfl, _, rfl⟩

theorem LeadsTo.setCurrentState {s : State} (hs : Settled s) (t : TapState) : LeadsTo s (s.setCurrentState t) :=
  ⟨⟨hs.admissible, hs.tckLow, hs.tmsCached, hs.noTransfer, hs.irqOff, hs.lockFree, hs.freqLegal, hs.txLegal, hs.rxLegal,
    hs.stuckBusy, hs.busyStuck⟩, rfl, rfl, [], List.append_nil _⟩

/-! Operations that wait for nothing. -/

/-- An operation that waits for nothing: whether it succeeds or fails, it has only led on from `s`. -/
def Res.WaitsForNothing {α : Type} (s : State) (r : Res α) : Prop :=
  r.Post (fun _ t => LeadsTo s t) (fun _ t => LeadsTo s t) (fun _ => False)

theorem Res.WaitsForNothing.after {α : Type} {s t : State} {r : Res α} (h : LeadsTo s t) (hr : r.WaitsForNothing t) :
    r.WaitsForNothing s :=
  hr.mono (fun _ _ => h.trans) (fun _ _ => h.trans) (fun _ => id)

theorem Res.WaitsForNothing.bind {α β : Type} {s : State} {r : Res α} {f : α → State → Res β} (h : r.WaitsForNothing s)
    (hf : ∀ a t, Settled t → (f a t).WaitsForNothing t) : (r.bind f).WaitsForNothing s :=
  Res.Post.bind h fun a t ht => (hf a t ht.settled).after ht

theorem allocate_waitsForNothing {α : Type} {s : State} {k : State → Res α} (hs : Settled s)
    (hk : ∀ t, Settled t → (k t).WaitsForNothing t) : (allocate s k).WaitsForNothing s := by
  have ha := LeadsTo.drawAlloc hs
  rcases allocate_cases s k with ⟨-, h⟩ | ⟨-, h⟩ <;> rw [h]
  · exact (hk _ ha.settled).after ha
  · exact ha

theorem pulse_leadsTo {s : State} (hs : Settled s) (sampleTdo tms tdi : Bool) : LeadsTo s (pulse sampleTdo tms tdi s).2 := by
  cases sampleTdo with
  | false =>
    rw [pulse_unsampled]
    exact .wired hs _ rfl (pulsedTms_cached tms hs.tmsCached).symm
  | true =>
    rw [pulse_sampled]
    have hd := LeadsTo.drawTdo hs tdi
    exact hd.trans (.wired hd.settled _ rfl (pulsedTms_cached tms hs.tmsCached).symm)

theorem pulseClock_waitsForNothing {s : State} (hs : Settled s) (sampleTdo tms tdi : Bool) :
    (pulseClock sampleTdo tms tdi s).WaitsForNothing s := by
  unfold pulseClock
  split
  · trivial
  · exact pulse_leadsTo hs sampleTdo tms tdi

theorem clockTms_waitsForNothing (l : List Bool) {s : State} (hs : Settled s) : (clockTms l s).WaitsForNothing s := by
  induction l generalizing s with
  | nil => exact .refl hs
  | cons x xs ih => exact (pulseClock_waitsForNothing hs false x false).bind fun _ _ ht => ih ht

theorem clockIdle_waitsForNothing (n : Nat) {s : State} (hs : Settled s) : (clockIdle n s).WaitsForNothing s := by
  rw [clockIdle_eq_clockTms]
  exact clockTms_waitsForNothing _ hs

theorem clockPairs_waitsForNothing (l : List Byte) {s : State} (hs : Settled s) : (clockPairs l s).WaitsForNothing s := by
  induction l generalizing s with
  | nil => exact .refl hs
  | cons x xs ih =>
    exact (pulseClock_waitsForNothing hs true _ _).bind fun _ _ ht => (ih ht).bind fun _ _ hu => LeadsTo.refl hu

theorem driveTransition_waitsForNothing (src dest : TapState) {s : State} (hs : Settled s) :
    (driveTransition src dest s).WaitsForNothing s :=
  (clockTms_waitsForNothing _ hs).bind fun _ _ ht => LeadsTo.setCurrentState ht dest

theorem applyTransition_waitsForNothing (fromCode toCode : Byte) {s : State} (hs : Settled s) :
    (applyTransition fromCode toCode s).WaitsForNothing s := by
  unfold applyTransition
  split
  · exact driveTransition_waitsForNothing _ _ hs
  · exact .refl hs

theorem tailBits_waitsForNothing (shift endState : TapState) (inp : List Byte) (rem i : Nat) (out : List Byte) {s : State}
    (hs : Settled s) : (tailBits shift endState inp rem i out s).WaitsForNothing s := by
  induction rem generalizing i out s with
  | zero => exact .refl hs
  | succ rem ih =>
    refine (pulseClock_waitsForNothing hs true _ _).bind fun _ _ ht => ?_
    split
    · exact (ih _ _ (LeadsTo.setCurrentState ht _).settled).after (.setCurrentState ht _)
    · exact ih _ _ ht

theorem padOutput_leadsTo (n : Nat) (out : List Byte) {s : State} (hs : Settled s) : LeadsTo s (padOutput n out s).2 := by
  obtain ⟨k, h⟩ := padOutput_state n out s
  exact .of_env hs ⟨s.env, k, h, rfl⟩

theorem rawBitbang_waitsForNothing (length : Nat) (pairs : List Byte) {s : State} (hs : Settled s) :
    (rawBitbang length pairs s).WaitsForNothing s := by
  unfold rawBitbang
  split
  · exact .refl hs
  · split
    · exact .refl hs
    · exact clockPairs_waitsForNothing _ hs

theorem setTapState_waitsForNothing (fromCode toCode : Byte) (forceReset : Bool) {s : State} (hs : Settled s) :
    (setTapState fromCode toCode forceReset s).WaitsForNothing s := by
  unfold setTapState
  split
  · refine Res.WaitsForNothing.bind ?_ fun _ t ht => applyTransition_waitsForNothing fromCode toCode ht
    split
    · exact driveTransition_waitsForNothing _ _ hs
    · exact LeadsTo.refl hs
  · exact .refl hs

theorem tmsLow_leadsTo {s : State} (hs : Settled s) : LeadsTo s (tmsLow s) := by
  rw [tmsLow_eq hs.tmsCached]
  exact .wired hs _ hs.tckLow rfl

theorem letPeripheral_leadsTo {s : State} (hs : Settled s) : LeadsTo s (letPeripheral s) := by
  obtain ⟨h, -, hx, hq, hl⟩ := letPeripheral_run s
  exact .of_run hs h hx hq hl (letPeripheral_polls s)

/-- The enable of a scan or an idle run waits for nothing and ends with the pins at the peripheral (R182, R200). -/
theorem openChannel_post {s : State} (hs : Settled s) : (openChannel s).Post
    (fun _ t => LeadsTo s t ∧ t.chan.pinFunction = .peripheral) (fun _ t => LeadsTo s t) (fun _ => False) := by
  cases hd : usableDivisor s.params s.requestedFreq with
  | none =>
    rw [openChannel_none hd]
    exact .refl hs
  | some d =>
    obtain ⟨h, hp, hx, hq, hl⟩ := enableChannel_run d s
    have he : LeadsTo s (enableChannel d s) := .of_run hs h hx hq hl (enableChannel_polls d s)
    obtain ⟨-, hp', -⟩ := letPeripheral_run (enableChannel d s)
    rw [openChannel, configureOn_eq hd]
    exact ⟨he.trans (letPeripheral_leadsTo he.settled), hp'.trans hp⟩

end Sys2Proof.Machine

/-! Which operations can hang, and what a hang leaves (spec/00_scope.md R10, spec/42_hw_shift_channel.md R168,
spec/70_reset_and_hazards.md R293). -/

namespace Sys2Proof.Machine

/-! Operations that can wait for the completion signal. -/

/-- What a call that hangs leaves, before its missing answer is recorded: its transfer waits, the peripheral is not healthy, and the
trace has only grown (R168). -/
structure HangsFrom (s t : State) : Prop where
  hung      : Hung (t.setResponse none)
  unhealthy : s.env.polls ≠ .healthy
  appended  : s.trace <+: t.trace

theorem HangsFrom.after {s t u : State} (h : LeadsTo s t) (h' : HangsFrom t u) : HangsFrom s u :=
  ⟨h'.hung, fun hp => h'.unhealthy (h.polls.trans hp), h.appended.trans h'.appended⟩

theorem transferBlocking_hang {tx rx : List Byte} {byteCount : Nat} {s t : State} (hs : Settled s)
    (h : transferBlocking tx rx byteCount s = .hang t) : HangsFrom s t := by
  have hst : Stuck s t := (transferBlocking_run tx rx byteCount s).of_hang h
  have hrun : HwRun s t := hst.1.run
  exact ⟨hst.hung hs, fun hp => (transferBlocking_healthy_ends tx rx byteCount hp hs.lockFree).of_hang h, hrun.appended⟩

/-- An operation that ends settled unless it hangs. -/
def Res.SettlesOrHangs {α : Type} (s : State) (r : Res α) : Prop :=
  r.Post (fun _ t => Settled t) (fun _ t => Settled t) (HangsFrom s)

theorem Res.SettlesOrHangs.after {α : Type} {s t : State} {r : Res α} (h : LeadsTo s t) (hr : r.SettlesOrHangs t) :
    r.SettlesOrHangs s :=
  hr.mono (fun _ _ => id) (fun _ _ => id) (fun _ => .after h)

/-- An operation that waits for nothing does not hang. -/
theorem Res.WaitsForNothing.settlesOrHangs {α : Type} {s u : State} {r : Res α} (h : r.WaitsForNothing u) : r.SettlesOrHangs s :=
  h.mono (fun _ _ => LeadsTo.settled) (fun _ _ => LeadsTo.settled) (fun _ => False.elim)

theorem Res.SettlesOrHangs.failAs {α : Type} {s : State} {r : Res α} (h : r.SettlesOrHangs s) (k : ErrorKind) :
    (r.failAs k).SettlesOrHangs s := by
  cases r <;> exact h

/-- What follows an operation that waits for nothing. -/
theorem Res.WaitsForNothing.bind_settlesOrHangs {α β : Type} {s : State} {r : Res α} {f : α → State → Res β}
    (h : r.WaitsForNothing s) (hf : ∀ a t, Settled t → (f a t).SettlesOrHangs t) : (r.bind f).SettlesOrHangs s :=
  Res.Post.bind (h.mono (fun _ _ => id) (fun _ _ => LeadsTo.settled) (fun _ => False.elim))
    fun a t ht => (hf a t ht.settled).after ht

/-- A sequence that ends in a step which waits for nothing. -/
theorem Res.SettlesOrHangs.bind {α β : Type} {s : State} {r : Res α} {f : α → State → Res β} (h : r.SettlesOrHangs s)
    (hf : ∀ a t, Settled t → (f a t).WaitsForNothing t) : (r.bind f).SettlesOrHangs s :=
  Res.Post.bind h fun a t ht => (hf a t ht).settlesOrHangs

theorem allocate_settlesOrHangs {α : Type} {s : State} {k : State → Res α} (hs : Settled s)
    (hk : ∀ t, Settled t → (k t).SettlesOrHangs t) : (allocate s k).SettlesOrHangs s := by
  have ha := LeadsTo.drawAlloc hs
  rcases allocate_cases s k with ⟨-, h⟩ | ⟨-, h⟩ <;> rw [h]
  · exact (hk _ ha.settled).after ha
  · exact ha.settled

/-- What is known of an outcome, with more known of a hang. -/
theorem Res.Post.of_hangs {α : Type} {r : Res α} {good : α → State → Prop} {bad : ErrorKind → State → Prop}
    {hung hung' : State → Prop} (h : r.Post good bad hung) (hh : ∀ t, r = .hang t → hung' t) : r.Post good bad hung' := by
  cases r with
  | hang t => exact hh t rfl
  | _ => exact h

theorem transferBlocking_settlesOrHangs (tx rx : List Byte) (byteCount : Nat) {s : State} (hs : Settled s) :
    (transferBlocking tx rx byteCount s).SettlesOrHangs s := by
  refine ((transferBlocking_run tx rx byteCount s).of_hangs fun t => transferBlocking_hang hs).mono ?_ ?_ (fun _ => id)
  · rintro _ t ⟨h, -, hx, hq, hl⟩
    exact h.settled hs hx hq (hl.trans hs.lockFree)
  · rintro e t ⟨h, ⟨-, rfl⟩ | ⟨-, -, hx, hq, hl⟩⟩
    · exact hs
    · exact h.settled hs hx hq (hl.trans hs.lockFree)

/-! The scan. -/

theorem bulkPolled_never_hangs (n : Nat) (inp : List Byte) (fuel i : Nat) (out : List Byte) (s : State) :
    (bulkPolled n inp fuel i out s).Post (fun _ _ => True) (fun _ _ => True) (fun _ => False) := by
  induction fuel generalizing i out s with
  | zero => trivial
  | succ fuel ih =>
    rw [bulkPolled]
    split
    · exact ((shiftUnitPolled_run _ s).mono (fun _ _ _ => trivial) (fun _ _ _ => trivial) (fun _ => id)).bind
        fun v t _ => ih _ _ t
    · trivial

/-- The bulk of a scan hangs in its interrupt-driven transfer only (R184, R185). -/
theorem bulkPhase_hang {n : Nat} {inp out : List Byte} {s t : State} (hs : Settled s)
    (h : bulkPhase true n inp out s = .hang t) : HangsFrom s t := by
  rw [bulkPhase, if_pos rfl] at h
  rcases Res.bind_eq_hang.mp h with h | ⟨p, u, -, h⟩
  · split at h
    · rcases Res.bind_eq_hang.mp h with h | ⟨rx, u, -, h⟩
      · exact transferBlocking_hang hs (Res.onError_eq_hang.mp h)
      · cases h
    · cases h
  · rcases Res.bind_eq_hang.mp h with h | ⟨q, v, -, h⟩
    · exact ((bulkPolled_never_hangs n inp n p.1 p.2 u).of_hang h).elim
    · cases h

theorem enableForScan_post (n : Nat) {s : State} (hs : Settled s) : (enableForScan n s).Post
    (fun useHw t => LeadsTo s t ∧ (useHw = true → t.chan.pinFunction = .peripheral ∧ t.unit.bits < n))
    (fun _ t => LeadsTo s t) (fun _ => False) := by
  unfold enableForScan
  split
  · next hw =>
    refine (openChannel_post hs).bind ?_
    rintro _ t ⟨h, hp⟩
    refine ⟨h, fun _ => ⟨hp, ?_⟩⟩
    rw [State.unit, h.params]
    exact (wantsChannel_iff.mp hw).1
  · exact ⟨.refl hs, nofun⟩

theorem scanBody_settlesOrHangs (n : Nat) (endState : TapState) (inp : List Byte) {s : State} (hs : Settled s) :
    (scanBody n endState inp s).SettlesOrHangs s := by
  refine Res.Post.bind ((enableForScan_post n hs).mono (fun _ _ => id) (fun _ _ => LeadsTo.settled) (fun _ => False.elim)) ?_
  rintro useHw t ⟨h, huse⟩
  refine Res.SettlesOrHangs.bind (Res.SettlesOrHangs.after h ?_) fun p u hu =>
    (tailBits_waitsForNothing _ _ _ _ _ _ hu).bind fun out v hv =>
      (driveTransition_waitsForNothing _ _ hv).bind fun _ w hw => padOutput_leadsTo n out hw
  cases useHw with
  | false => exact h.settled
  | true =>
    obtain ⟨hp, hn⟩ := huse rfl
    exact ((bulkPhase_run n inp _ hn h.settled hp).of_hangs fun u => bulkPhase_hang h.settled).mono
      (fun _ _ ⟨_, hb⟩ => hb.settled) (fun _ _ ⟨_, hb, _⟩ => hb.settled) (fun _ => id)

theorem scan_settlesOrHangs (n : Nat) (endCode : Byte) (inp : List Byte) {s : State} (hs : Settled s) :
    (scan n endCode inp s).SettlesOrHangs s := by
  unfold scan
  split
  · exact hs
  · split
    · exact hs
    · split
      · exact scanBody_settlesOrHangs n _ inp hs
      · exact hs

theorem xfer_settlesOrHangs (scanType fromCode endCode : Byte) (n : Nat) (inp : List Byte) {s : State} (hs : Settled s) :
    (xfer scanType fromCode endCode n inp s).SettlesOrHangs s := by
  unfold xfer
  split
  · exact (applyTransition_waitsForNothing _ _ hs).bind_settlesOrHangs fun _ t ht => scan_settlesOrHangs n endCode inp ht
  · exact hs

theorem scanCommand_settlesOrHangs (scanType fromCode endCode : Byte) (n : Nat) (buf : List Byte) {s : State}
    (hs : Settled s) : (scanCommand scanType fromCode endCode n buf s).SettlesOrHangs s := by
  unfold scanCommand
  split
  · exact (xfer_settlesOrHangs _ _ _ _ _ hs).failAs _
  · exact hs

/-! The idle run. -/

theorem idleTransfer_hang {units : Nat} {s t : State} (hs : Settled s) (h : idleTransfer units s = .hang t) :
    HangsFrom s t := by
  unfold idleTransfer at h
  split at h
  · rcases Res.bind_eq_hang.mp h with h | ⟨rx, u, -, h⟩
    · exact transferBlocking_hang hs (Res.onError_eq_hang.mp h)
    · cases h
  · cases h

theorem runIdleHardware_settlesOrHangs (cycles : Nat) {s : State} (hs : Settled s) :
    (runIdleHardware cycles s).SettlesOrHangs s := by
  have hlow := tmsLow_leadsTo hs
  refine Res.SettlesOrHangs.after hlow (Res.Post.bind ((openChannel_post hlow.settled).mono (fun _ _ => id)
    (fun _ _ => LeadsTo.settled) (fun _ => False.elim)) ?_)
  rintro _ t ⟨h, hp⟩
  refine Res.SettlesOrHangs.after h (Res.Post.bind (good := fun _ u => Settled u) ?_ fun _ u hu =>
    (clockIdle_waitsForNothing _ (closeChannel_boundary hu).settled).settlesOrHangs)
  split
  · exact ((idleTransfer_run _ h.settled).of_hangs fun u => idleTransfer_hang h.settled).mono (fun _ _ ⟨_, hu⟩ => hu)
      (fun _ _ ⟨_, hb, _⟩ => hb.settled) (fun _ => id)
  · exact (idleUnits_run _ h.settled hp).mono (fun _ _ ⟨_, hu⟩ => hu) (fun _ _ ⟨_, hb, _⟩ => hb.settled)
      (fun _ => False.elim)

theorem runIdle_settlesOrHangs (cycles : Nat) {s : State} (hs : Settled s) : (runIdle cycles s).SettlesOrHangs s := by
  unfold runIdle
  split
  · exact runIdleHardware_settlesOrHangs cycles hs
  · exact (clockIdle_waitsForNothing cycles hs).settlesOrHangs

theorem runIdleAllocating_settlesOrHangs (cycles : Nat) {s : State} (hs : Settled s) :
    (runIdleAllocating cycles s).SettlesOrHangs s := by
  unfold runIdleAllocating
  split
  · exact allocate_settlesOrHangs hs fun _ => runIdle_settlesOrHangs cycles
  · exact runIdle_settlesOrHangs cycles hs

end Sys2Proof.Machine

/-! Which operations can hang, row by row, and the two ends of a transfer whose completion signal never comes
(spec/42_hw_shift_channel.md R164, R168). -/

namespace Sys2Proof.Machine

/-! The end of an operation. -/

/-- The outcome has no transfer in progress. -/
def NoTransfer (o : Host.Outcome State Fault Refusal) : Prop := ∀ t, o = .next t → t.xfer = none

/-- The outcome has no transfer in progress, or is a hang that began in `s`. -/
def EndsOrHangs (s : State) (o : Host.Outcome State Fault Refusal) : Prop :=
  ∀ t, o = .next t → t.xfer ≠ none → ∃ u, HangsFrom s u ∧ t = u.setResponse none

theorem noTransfer_next {t : State} (h : t.xfer = none) : NoTransfer (.next t) := by
  rintro _ ⟨⟩
  exact h

theorem noTransfer_withSession {s : State} {k : Host.Outcome State Fault Refusal} (h : NoTransfer k) :
    NoTransfer (withSession s k) :=
  fun t ht => h t (withSession_eq_next.mp ht).2

/-- An operation whose success and failure leave no transfer, and which does not hang. -/
theorem noTransfer_finish {r : Res (Word × List Byte)}
    (h : r.Post (fun _ t => t.xfer = none) (fun _ t => t.xfer = none) (fun _ => False)) : NoTransfer r.finish := by
  intro t ht
  rcases Res.finish_eq_next.mp ht with ⟨p, u, rfl, rfl⟩ | ⟨e, u, rfl, rfl⟩ | ⟨u, rfl, rfl⟩
  · exact h
  · exact h
  · exact False.elim h

theorem noTransfer_finishUnit {r : Res Unit}
    (h : r.Post (fun _ t => t.xfer = none) (fun _ t => t.xfer = none) (fun _ => False)) : NoTransfer r.finishUnit :=
  noTransfer_finish (h.bind (f := fun _ t => .ok (0, []) t) fun _ _ => id)

theorem Res.WaitsForNothing.noTransfer {α : Type} {s : State} {r : Res α} (h : r.WaitsForNothing s) :
    r.Post (fun _ t => t.xfer = none) (fun _ t => t.xfer = none) (fun _ => False) :=
  h.mono (fun _ _ h => h.settled.noTransfer) (fun _ _ h => h.settled.noTransfer) (fun _ => id)

theorem endsOrHangs_withSession {s : State} {k : Host.Outcome State Fault Refusal} (h : EndsOrHangs s k) :
    EndsOrHangs s (withSession s k) :=
  fun t ht => h t (withSession_eq_next.mp ht).2

theorem Res.SettlesOrHangs.finish {s : State} {r : Res (Word × List Byte)} (h : r.SettlesOrHangs s) :
    EndsOrHangs s r.finish := by
  intro t ht hx
  rcases Res.finish_eq_next.mp ht with ⟨p, u, rfl, rfl⟩ | ⟨e, u, rfl, rfl⟩ | ⟨u, rfl, rfl⟩
  · exact absurd (Settled.noTransfer h) hx
  · exact absurd (Settled.noTransfer h) hx
  · exact ⟨u, h, rfl⟩

theorem Res.SettlesOrHangs.finishUnit {s : State} {r : Res Unit} (h : r.SettlesOrHangs s) : EndsOrHangs s r.finishUnit :=
  (h.bind (f := fun _ t => .ok (0, []) t) fun _ _ => LeadsTo.refl).finish

theorem Res.SettlesOrHangs.finishBytes {s : State} {r : Res (List Byte)} (h : r.SettlesOrHangs s) :
    EndsOrHangs s r.finishBytes :=
  (h.bind (f := fun out t => .ok (0, out) t) fun _ _ => LeadsTo.refl).finish

/-! The rows of the table. -/

@[simp] theorem receive_xfer (s : State) : (receive s).2.xfer = s.xfer := by
  unfold receive
  split <;> rfl

theorem execConfigure_noTransfer (enable : Bool) {s : State} (hx : s.xfer = none) : NoTransfer (execConfigure enable s) := by
  cases enable with
  | false => exact noTransfer_next (by simpa using hx)
  | true =>
    refine noTransfer_finishUnit ?_
    cases hd : usableDivisor s.params s.requestedFreq with
    | none => rw [configureOn_none hd]; exact hx
    | some d =>
      obtain ⟨-, -, h, -⟩ := enableChannel_run d s
      rw [configureOn_eq hd]
      exact h.trans hx

theorem execSend_noTransfer (v : Unit16) {s : State} (hx : s.xfer = none) : NoTransfer (execSend v s) := by
  unfold execSend
  split
  · refine noTransfer_finishUnit ?_
    rcases send_cases v s with ⟨-, -, he⟩ | ⟨q, he⟩ <;> rw [he]
    · exact hx
    · trivial
  · exact noTransfer_next hx

theorem execShiftUnitPolled_noTransfer (v : Unit16) {s : State} (hx : s.xfer = none) :
    NoTransfer (execShiftUnitPolled v s) := by
  unfold execShiftUnitPolled
  split
  · refine noTransfer_finish (Res.Post.bind ((shiftUnitPolled_run v s).mono (good' := fun _ t => t.xfer = none) ?_ ?_
      (fun _ => id)) fun _ _ => id)
    · rintro _ t ⟨-, -, h, -⟩
      exact h.trans hx
    · rintro _ t ⟨-, -, -, h, -⟩
      exact h.trans hx
  · exact noTransfer_next hx

/-- An operation that cannot wait for the completion signal leaves no transfer in progress. -/
theorem exec_noTransfer {i : Instr} {s : State} (hs : Settled s) (hi : canHang i = false) : NoTransfer (exec i s) := by
  have hx := hs.noTransfer
  cases i with
  | transferBlocking | scan | xfer | scanCommand | runIdle | runTest => cases hi
  | setFrequency hz => exact noTransfer_withSession (by split <;> exact noTransfer_next hx)
  | getFrequency | getTapState | setDirectPinControl | setHardwareAssisted | setInterruptDriven =>
    exact noTransfer_withSession (noTransfer_next hx)
  | openSession =>
    simp only [exec, execOpenSession]
    split <;> exact noTransfer_next hx
  | tapNext stateCode tms =>
    simp only [exec, execTapNext]
    split <;> exact noTransfer_next hx
  | computeTransition fromCode toCode =>
    simp only [exec, execComputeTransition]
    split <;> exact noTransfer_next hx
  | releaseSession | reverseNibbles => exact noTransfer_next hx
  | receive => exact noTransfer_next ((receive_xfer s).trans hx)
  | configure enable => exact execConfigure_noTransfer enable hx
  | send v => exact execSend_noTransfer v hx
  | shiftUnitPolled v => exact execShiftUnitPolled_noTransfer v hx
  | rawBitbang length buf =>
    exact noTransfer_withSession (noTransfer_finish (Res.Post.bind (Res.WaitsForNothing.noTransfer
      (allocate_waitsForNothing hs fun _ => rawBitbang_waitsForNothing _ _)) fun _ _ => id))
  | setTapState fromCode toCode forceReset =>
    exact noTransfer_withSession (noTransfer_finishUnit (setTapState_waitsForNothing _ _ _ hs).noTransfer)
  | applyTransition fromCode toCode => exact noTransfer_finishUnit (applyTransition_waitsForNothing _ _ hs).noTransfer
  | pulseClock sampleTdo tms tdi =>
    exact noTransfer_finish ((pulseClock_waitsForNothing hs _ _ _).noTransfer.bind fun _ _ => id)

/-- An operation that can wait for the completion signal ends with no transfer in progress, or hangs. -/
theorem exec_endsOrHangs {i : Instr} {s : State} (hs : Settled s) (hi : canHang i = true) : EndsOrHangs s (exec i s) := by
  cases i with
  | transferBlocking byteCount buf => exact (transferBlocking_settlesOrHangs _ _ _ hs).finishBytes
  | scan endCode n buf => exact (scan_settlesOrHangs _ _ _ hs).finishBytes
  | xfer scanType fromCode endCode n buf => exact (xfer_settlesOrHangs _ _ _ _ _ hs).finishBytes
  | scanCommand scanType fromCode endCode n buf =>
    exact endsOrHangs_withSession
      (allocate_settlesOrHangs hs fun _ => scanCommand_settlesOrHangs _ _ _ _ _).finishBytes
  | runIdle cycles => exact (runIdleAllocating_settlesOrHangs _ hs).finishUnit
  | runTest cycles => exact endsOrHangs_withSession (runIdleAllocating_settlesOrHangs _ hs).finishUnit
  | _ => cases hi

/-! A completion signal that never comes (R164, R168). -/

theorem exec_transferBlocking (byteCount : Word) (buf : List Byte) (s : State) : exec (.transferBlocking byteCount buf) s =
    (transferBlocking buf (zeroBytes byteCount.toNat) byteCount.toNat s).finishBytes := rfl

/-- The unit at an offset lies within the bytes a cut keeps. -/
theorem unitFromBytes_take (u : UnitWidth) (buf : List Byte) {p n : Nat} (h : p + u.bytes ≤ n) :
    unitFromBytes u (buf.take n) p = unitFromBytes u buf p := by
  cases u with
  | w8 =>
    have hp : p < n := h
    simp [unitFromBytes, List.getD_eq_getElem?_getD, hp]
  | w16 =>
    have hp : p < n := Nat.lt_of_lt_of_le (by simp [UnitWidth.bytes]) h
    have hp1 : p + 1 < n := h
    simp [unitFromBytes, List.getD_eq_getElem?_getD, hp, hp1]

theorem partialShift_zero {s : State} (h : s.peripheralEnabled = true) : partialShift 0 s = s.abandonUnit := by
  simp [partialShift, h, shiftCycles]

/-- A wait whose unit does not come, without a received word (R168). -/
theorem lastTurn_noWord {s : State} (h : s.chan.stat.ready = false) : lastTurn s = .ok false s := by
  unfold lastTurn
  split
  · rw [handlerStep_disabled (by simp [State.handlerEnabled, State.interruptPending, h])]
    rfl
  · rfl

/-- The first unit of a transfer does not come: it is cut off, and the wait is not over (R164, R168). -/
theorem blockingWait_stuck {n : Nat} {s : State} (hn : 0 < n) (hp : s.env.polls = .stuck) (hd : s.transferDone = false)
    (hr : s.chan.stat.ready = false) (he : s.peripheralEnabled = true) : blockingWait n s = .ok false s.abandonUnit := by
  obtain ⟨m, rfl⟩ : ∃ m, n = m + 1 := ⟨n - 1, by omega⟩
  rw [blockingWait, hd, nextTurn_peripheral hr]
  simp [State.drawPoll_stuck s hp, partialShift_zero he, lastTurn_noWord (s := s.abandonUnit) hr]

/-- A transfer with legal arguments on an idle, enabled channel starts, and then waits (R165). -/
theorem transferBlocking_started {tx rx : List Byte} {byteCount : Nat} {s : State} (hpin : s.chan.pinFunction = .peripheral)
    (hb : s.chan.stat.busy = false) (hx : s.xfer = none) (h0 : 0 < byteCount) (hm : byteCount % s.unit.bytes = 0)
    (htx : byteCount ≤ tx.length) (hrx : byteCount ≤ rx.length) : transferBlocking tx rx byteCount s =
      finishTransfer (byteCount / s.unit.bytes) (rx.drop byteCount) (transferStarted tx rx byteCount s) := by
  have hstart : atomic (startTransfer tx rx byteCount) s = .ok () (transferStarted tx rx byteCount s) := by
    rcases startTransfer_cases tx rx byteCount s with ⟨-, h⟩ | ⟨h, -⟩ | ⟨h, -⟩
    · exact h
    · simp [hx, hb] at h
    · simp [hpin] at h
  rw [transferBlocking, if_neg (by omega), if_neg (by omega), hstart]
  rfl

/-- The wait of a transfer whose first unit does not come (R164, R168). -/
theorem blockingWait_transferStarted (tx rx : List Byte) {byteCount : Nat} {s : State} (hp : s.env.polls = .stuck)
    (hpin : s.chan.pinFunction = .peripheral) (hr : s.chan.stat.ready = false) (hn : 0 < byteCount / s.unit.bytes) :
    blockingWait (byteCount / s.unit.bytes) (transferStarted tx rx byteCount s) =
      .ok false (transferStarted tx rx byteCount s).abandonUnit :=
  blockingWait_stuck hn hp rfl hr (peripheralEnabled_loadUnit _ hpin)

/-- Such a transfer hangs when its wait has no bound (R168). -/
theorem finishTransfer_stuck_unbounded {n : Nat} {beyond : List Byte} {s t : State} (hw : blockingWait n s = .ok false t)
    (hb : s.params.irqWaitBound = none) : finishTransfer n beyond s = .hang t := by
  simp [finishTransfer, hw, hb]

/-- Such a transfer times out when its wait has a bound (R164, R168). -/
theorem finishTransfer_stuck_bounded {n : Nat} {beyond : List Byte} {s t : State} (hw : blockingWait n s = .ok false t)
    (hb : s.params.irqWaitBound ≠ none) : finishTransfer n beyond s = .error .timeout (timeoutCleanup (endTransfer t)) := by
  obtain ⟨m, hm⟩ := Option.ne_none_iff_exists'.mp hb
  simp [finishTransfer, hw, hm]

/-- The clean-up of an expired wait on an enabled channel adds the change of the pins (R163). -/
theorem timeoutCleanup_trace {s : State} (h : s.chan.pinFunction = .peripheral) :
    (timeoutCleanup s).trace = s.trace ++ [.mux .line] := by
  rw [timeoutCleanup, configureOff_enabled h]
  rfl

/-- Settles O29: an operation of a settled state that leaves a transfer in progress is a hang of its interrupt-driven transfer, and
that one completes or is refused on a healthy peripheral; on the stuck one the first unit of a transfer is cut off. -/
theorem hangNeedsAnUnboundedWait : Obligations.HangNeedsAnUnboundedWait := by
  refine ⟨?hangs, ?stuck⟩
  case hangs =>
    intro i s t hs he hx
    cases hi : canHang i with
    | false => exact absurd (exec_noTransfer hs hi t he) hx
    | true =>
      obtain ⟨u, hu, rfl⟩ := exec_endsOrHangs hs hi t he hx
      obtain ⟨evs, hevs⟩ := hu.appended
      exact ⟨rfl, hu.unhealthy, hu.hung, by simp [newEvents, ← hevs]⟩
  case stuck =>
    intro s byteCount tx hpin hst hx hp h0 hm htx
    have hstart := transferBlocking_started hpin (by rw [hst]) hx h0 hm htx (rx := zeroBytes byteCount.toNat) (by simp)
    have hle : s.unit.bytes ≤ byteCount.toNat := Nat.le_of_dvd h0 (Nat.dvd_of_mod_eq_zero hm)
    have hw := blockingWait_transferStarted tx (zeroBytes byteCount.toNat) hp hpin (by rw [hst])
      (Nat.div_pos hle s.unit.bytes_pos)
    refine ⟨fun hb => ?_, fun hb => ?_⟩
    · rw [exec_transferBlocking, hstart, finishTransfer_stuck_unbounded hw hb, Res.finishBytes_hang]
      have hunit : unitFromBytes s.unit (tx.take byteCount.toNat) 0 = unitFromBytes s.unit tx 0 :=
        unitFromBytes_take s.unit tx (by omega)
      simp [State.ext_iff, transferStarted, newTransfer, Xfer.sent, hunit, hst]
    · rw [exec_transferBlocking, hstart, finishTransfer_stuck_bounded hw hb, Res.finishBytes_error]
      obtain ⟨-, hline, hnone, hirq, -⟩ := timeoutCleanup_run (endTransfer (transferStarted tx
        (zeroBytes byteCount.toNat) byteCount.toNat s).abandonUnit)
      refine ⟨_, rfl, State.raise_status _ _, hline, hnone, hirq, ?_⟩
      rw [State.raise_trace, timeoutCleanup_trace (by simpa [endTransfer, transferStarted] using hpin)]
      simp [endTransfer, transferStarted]

end Sys2Proof.Machine

/-! What every step keeps between operations, a hang apart (spec/10_state.md R25, R30, R35 to R41, spec/70_reset_and_hazards.md R293),
and where initialisation leads (R45, R281). -/

namespace Sys2Proof.Machine

/-! Settled states. -/

/-- `Settled` does not speak of the tracked state, the settings, the session, the trace, the response, the inputs, the environment and
the counter. -/
theorem Settled.of_frame {s t : State} (hs : Settled s) (h : t = { s with
    currentState := t.currentState
    activeTransferMode := t.activeTransferMode
    interruptDriven := t.interruptDriven
    pinControlStrategy := t.pinControlStrategy
    exclusiveOpen := t.exclusiveOpen
    trace := t.trace
    response := t.response
    inbox := t.inbox
    env := t.env
    draws := t.draws }) : Settled t := by
  rw [h]
  exact ⟨hs.admissible, hs.tckLow, hs.tmsCached, hs.noTransfer, hs.irqOff, hs.lockFree, hs.freqLegal, hs.txLegal, hs.rxLegal,
    hs.stuckBusy, hs.busyStuck⟩

theorem Settled.answer {s : State} (hs : Settled s) (v : Word) (out : List Byte) : Settled (s.answer v out) := hs.of_frame rfl

theorem Settled.raise {s : State} (hs : Settled s) (e : ErrorKind) : Settled (s.raise e) := hs.of_frame rfl

theorem Settled.setInbox {s : State} (hs : Settled s) (l : List Input) : Settled (s.setInbox l) := hs.of_frame rfl

theorem Settled.setFreq {s : State} (hs : Settled s) {hz : Nat} (h : hz ≤ s.params.maxFreq) : Settled (s.setFreq hz) :=
  ⟨hs.admissible, hs.tckLow, hs.tmsCached, hs.noTransfer, hs.irqOff, hs.lockFree, h, hs.txLegal, hs.rxLegal, hs.stuckBusy,
    hs.busyStuck⟩

/-- A run of the channel that keeps the transfer, the interrupt enable and the lock. -/
theorem Settled.of_run {s t : State} (hs : Settled s) (h : HwRun s t) (hx : t.xfer = s.xfer)
    (hq : t.chan.irqEnable = s.chan.irqEnable) (hl : t.xferLock = s.xferLock) : Settled t :=
  h.settled hs (hx.trans hs.noTransfer) (hq.trans hs.irqOff) (hl.trans hs.lockFree)

theorem Settled.peripheralStep {s : State} (hs : Settled s) : Settled (peripheralStep s) := by
  obtain ⟨-, hx, hq, hl⟩ := peripheralStep_keeps s
  exact hs.of_run (.peripheralStep s) hx hq hl

theorem Settled.configureOff {s : State} (hs : Settled s) : Settled (configureOff s) :=
  hs.of_run (.configureOff s) (configureOff_xfer s) (configureOff_irqEnable s) (configureOff_xferLock s)

theorem Settled.receive {s : State} (hs : Settled s) : Settled (receive s).2 := by
  refine hs.of_run (.receive s) (receive_xfer s) ?_ ?_ <;>
  · unfold Machine.receive
    split <;> rfl

/-! Outcomes. -/

/-- The outcome is no next state but a settled one or that of a call that hangs. -/
def KeepsSettled (o : Host.Outcome State Fault Refusal) : Prop := ∀ t, o = .next t → Settled t ∨ Hung t

theorem keepsSettled_next {t : State} (h : Settled t) : KeepsSettled (.next t) := by
  rintro _ ⟨⟩
  exact .inl h

theorem keepsSettled_withSession {s : State} {k : Host.Outcome State Fault Refusal} (h : KeepsSettled k) :
    KeepsSettled (withSession s k) :=
  fun t ht => h t (withSession_eq_next.mp ht).2

theorem Res.SettlesOrHangs.finish_keepsSettled {s : State} {r : Res (Word × List Byte)} (h : r.SettlesOrHangs s) :
    KeepsSettled r.finish := by
  intro t ht
  rcases Res.finish_eq_next.mp ht with ⟨p, u, rfl, rfl⟩ | ⟨e, u, rfl, rfl⟩ | ⟨u, rfl, rfl⟩
  · exact .inl (Settled.answer h p.1 p.2)
  · exact .inl (Settled.raise h e)
  · exact .inr (HangsFrom.hung h)

theorem Res.SettlesOrHangs.finishUnit_keepsSettled {s : State} {r : Res Unit} (h : r.SettlesOrHangs s) :
    KeepsSettled r.finishUnit :=
  (h.bind (f := fun _ t => .ok (0, []) t) fun _ _ => LeadsTo.refl).finish_keepsSettled

theorem Res.SettlesOrHangs.finishBytes_keepsSettled {s : State} {r : Res (List Byte)} (h : r.SettlesOrHangs s) :
    KeepsSettled r.finishBytes :=
  (h.bind (f := fun out t => .ok (0, out) t) fun _ _ => LeadsTo.refl).finish_keepsSettled

/-! The rows of the table. -/

theorem configureOn_settlesOrHangs {s : State} (hs : Settled s) : (configureOn s).SettlesOrHangs s := by
  cases hd : usableDivisor s.params s.requestedFreq with
  | none =>
    rw [configureOn_none hd]
    exact hs
  | some d =>
    obtain ⟨hrun, -, hx, hq, hl⟩ := enableChannel_run d s
    rw [configureOn_eq hd]
    exact hs.of_run hrun hx hq hl

theorem send_settlesOrHangs (v : Unit16) {s : State} (hs : Settled s) : (send v s).SettlesOrHangs s := by
  rcases send_cases v s with ⟨hp, -, he⟩ | ⟨q, he⟩ <;> rw [he]
  · exact hs.of_run (.loadUnit hp (adapt_legal s.unit v)) rfl rfl rfl
  · trivial

theorem shiftUnitPolled_settlesOrHangs (v : Unit16) {s : State} (hs : Settled s) : (shiftUnitPolled v s).SettlesOrHangs s := by
  refine (shiftUnitPolled_run v s).mono ?_ ?_ (fun _ => False.elim)
  · rintro _ t ⟨hrun, -, hx, hq, hl⟩
    exact hs.of_run hrun hx hq hl
  · rintro e t ⟨hrun, -, -, hx, hq, hl⟩
    exact hs.of_run hrun hx hq hl

theorem execSend_keepsSettled (v : Unit16) {s : State} (hs : Settled s) : KeepsSettled (execSend v s) := by
  unfold execSend
  split
  · exact (send_settlesOrHangs v hs).finishUnit_keepsSettled
  · exact keepsSettled_next (hs.raise _)

theorem execShiftUnitPolled_keepsSettled (v : Unit16) {s : State} (hs : Settled s) :
    KeepsSettled (execShiftUnitPolled v s) := by
  unfold execShiftUnitPolled
  split
  · exact ((shiftUnitPolled_settlesOrHangs v hs).bind fun _ _ => LeadsTo.refl).finish_keepsSettled
  · exact keepsSettled_next (hs.raise _)

theorem execSetFrequency_keepsSettled (hz : Word) {s : State} (hs : Settled s) : KeepsSettled (execSetFrequency hz s) := by
  refine keepsSettled_withSession ?_
  split
  · exact keepsSettled_next (hs.raise _)
  · next hle => exact keepsSettled_next ((hs.setFreq (Nat.le_of_not_lt hle)).answer _ _)

/-- An operation that starts settled ends settled, whatever it answers, unless it hangs (R293). -/
theorem exec_keepsSettled (i : Instr) {s : State} (hs : Settled s) : KeepsSettled (exec i s) := by
  cases i with
  | setFrequency hz => exact execSetFrequency_keepsSettled hz hs
  | getFrequency | getTapState => exact keepsSettled_withSession (keepsSettled_next (hs.answer _ _))
  | setDirectPinControl | setHardwareAssisted | setInterruptDriven =>
    exact keepsSettled_withSession (keepsSettled_next (hs.of_frame rfl))
  | openSession =>
    simp only [exec, execOpenSession]
    split <;> exact keepsSettled_next (hs.of_frame rfl)
  | releaseSession => exact keepsSettled_next (hs.of_frame rfl)
  | reverseNibbles x => exact keepsSettled_next (hs.answer _ _)
  | tapNext stateCode tms =>
    simp only [exec, execTapNext]
    split <;> exact keepsSettled_next (hs.of_frame rfl)
  | computeTransition fromCode toCode =>
    simp only [exec, execComputeTransition]
    split <;> exact keepsSettled_next (hs.of_frame rfl)
  | receive => exact keepsSettled_next (hs.receive.answer _ _)
  | configure enable =>
    cases enable with
    | false => exact keepsSettled_next (hs.configureOff.answer _ _)
    | true => exact (configureOn_settlesOrHangs hs).finishUnit_keepsSettled
  | send v => exact execSend_keepsSettled v hs
  | shiftUnitPolled v => exact execShiftUnitPolled_keepsSettled v hs
  | rawBitbang length buf =>
    exact keepsSettled_withSession (allocate_settlesOrHangs hs fun t ht =>
      (rawBitbang_waitsForNothing length.toNat buf ht).settlesOrHangs).finishBytes_keepsSettled
  | setTapState fromCode toCode forceReset =>
    exact keepsSettled_withSession ((setTapState_waitsForNothing fromCode toCode forceReset hs).settlesOrHangs
      (s := s)).finishUnit_keepsSettled
  | applyTransition fromCode toCode =>
    exact ((applyTransition_waitsForNothing fromCode toCode hs).settlesOrHangs (s := s)).finishUnit_keepsSettled
  | pulseClock sampleTdo tms tdi =>
    exact (((pulseClock_waitsForNothing hs sampleTdo tms tdi).settlesOrHangs (s := s)).bind
      fun _ _ => LeadsTo.refl).finish_keepsSettled
  | transferBlocking byteCount buf => exact (transferBlocking_settlesOrHangs _ _ _ hs).finishBytes_keepsSettled
  | scan endCode n buf => exact (scan_settlesOrHangs _ _ _ hs).finishBytes_keepsSettled
  | xfer scanType fromCode endCode n buf => exact (xfer_settlesOrHangs _ _ _ _ _ hs).finishBytes_keepsSettled
  | scanCommand scanType fromCode endCode n buf =>
    exact keepsSettled_withSession
      (allocate_settlesOrHangs hs fun _ => scanCommand_settlesOrHangs _ _ _ _ _).finishBytes_keepsSettled
  | runIdle cycles => exact (runIdleAllocating_settlesOrHangs _ hs).finishUnit_keepsSettled
  | runTest cycles => exact keepsSettled_withSession (runIdleAllocating_settlesOrHangs _ hs).finishUnit_keepsSettled

/-! Initialisation (R45, R281). -/

/-- Steps 1 to 4 of initialisation end settled, from any state. -/
theorem initialiseSettings_settled {s : State} (h : s.params.admissible) : Settled (initialiseSettings s) where
  admissible := h
  tckLow := rfl
  tmsCached := rfl
  noTransfer := rfl
  irqOff := rfl
  lockFree := rfl
  freqLegal := by
    obtain ⟨-, -, -, hfreq, -⟩ := h
    exact hfreq
  txLegal := cutUnit_legal _ _
  rxLegal := cutUnit_legal _ _
  stuckBusy := nofun
  busyStuck := fun _ => nofun

theorem resetPulses_settled (n : Nat) {s : State} (hs : Settled s) : Settled (resetPulses n s) := by
  induction n generalizing s with
  | zero => exact hs
  | succ n ih => exact ih (pulse_leadsTo hs false true false).settled

theorem initialise_settled {s : State} (h : s.params.admissible) : Settled (initialise s) :=
  (resetPulses_settled 9 (initialiseSettings_settled h)).of_frame rfl

/-! One step. -/

theorem perform_keepsSettled (r : Request) {s : State} (hs : Settled s) : KeepsSettled (perform r s) := by
  unfold perform
  split
  · exact exec_keepsSettled _ hs
  · exact keepsSettled_next (hs.raise _)

/-- A call that is ended by a re-initialisation leaves a settled state, had it hung or not (R280). -/
theorem performInterrupted_keepsSettled (r : Request) (k : Nat) {s : State} (hs : Settled s) :
    KeepsSettled (performInterrupted r k s) := by
  cases hr : perform r s with
  | next t =>
    have hadm : t.params.admissible := (perform_keepsSettled r hs t hr).elim Settled.admissible Hung.admissible
    rw [performInterrupted_next hr]
    exact keepsSettled_next (initialise_settled hadm)
  | fault q => simp [performInterrupted, hr, KeepsSettled]
  | refused q => simp [performInterrupted, hr, KeepsSettled]

theorem takeInput_keepsSettled (input : Input) {s : State} (hs : Settled s) : KeepsSettled (takeInput input s) := by
  cases input with
  | request r => exact perform_keepsSettled r hs
  | initialise => exact keepsSettled_next (initialise_settled hs.admissible)
  | initialiseDuring r k => exact performInterrupted_keepsSettled r k hs
  | peripheralTurn => exact keepsSettled_next hs.peripheralStep

theorem step_keepsSettled {s : State} (hs : Settled s) : KeepsSettled (step s) := by
  cases hi : s.inbox with
  | nil =>
    rw [step_no_input hs.noTransfer hi]
    exact keepsSettled_next hs.peripheralStep
  | cons input rest =>
    rw [step_input hs.noTransfer hi]
    exact takeInput_keepsSettled input (hs.setInbox rest)

/-- A call that hangs is left by a re-initialisation only, which settles the block (R246, R280). -/
theorem leaveHang_settled {s t : State} (h : s.params.admissible) (ht : leaveHang s = .next t) : Settled t := by
  unfold leaveHang at ht
  split at ht <;> cases ht
  exact initialise_settled h

/-- Settles O54: a step takes one input, and each operation and each initialisation keeps `Settled`; a hang is left by an
initialisation only. -/
theorem stepKeepsSettled : Obligations.StepKeepsSettled := by
  refine ⟨fun s t hs => step_keepsSettled hs t, fun s t hs ht => ?_⟩
  rw [step_hung (Option.isSome_iff_ne_none.mp hs.waiting)] at ht
  exact leaveHang_settled hs.admissible ht

theorem resetWith_atBoundary {p : Params} (h : p.admissible) (e : Env) : AtBoundary (State.resetWith p e) where
  lines := rfl
  settled :=
    { admissible := h
      tckLow := rfl
      tmsCached := rfl
      noTransfer := rfl
      irqOff := rfl
      lockFree := rfl
      freqLegal := by
        obtain ⟨-, -, -, hfreq, -⟩ := h
        exact hfreq
      txLegal := decide_eq_true (Nat.two_pow_pos _)
      rxLegal := decide_eq_true (Nat.two_pow_pos _)
      stuckBusy := nofun
      busyStuck := fun _ => nofun }

/-- Settles O55: the values R45 states meet each invariant of R293, and the suggested parameters are admissible. -/
theorem resetIsAtBoundary : Obligations.ResetIsAtBoundary :=
  ⟨fun _ e h => resetWith_atBoundary h e, resetWith_atBoundary (by decide) Env.atReset⟩

end Sys2Proof.Machine

/-! Which fields of the session an operation writes (spec/10_state.md R24 to R30, R46). -/

namespace Sys2Proof.Machine

/-! Steps inside an operation. -/

/-- No session field but the tracked state and the TMS cache differs, no parameter and no input. -/
def SameSession (s t : State) : Prop :=
  t = { s with
    currentState := t.currentState
    lastTmsLevel := t.lastTmsLevel
    chan := t.chan
    xfer := t.xfer
    xferLock := t.xferLock
    lines := t.lines
    trace := t.trace
    response := t.response
    env := t.env
    draws := t.draws }

namespace SameSession

theorem refl (s : State) : SameSession s s := rfl

theorem trans {s t u : State} (h : SameSession s t) (h' : SameSession t u) : SameSession s u := by
  unfold SameSession at *
  rw [h', h]

theorem params {s t : State} (h : SameSession s t) : t.params = s.params := by rw [h]
theorem inbox {s t : State} (h : SameSession s t) : t.inbox = s.inbox := by rw [h]
theorem requestedFreq {s t : State} (h : SameSession s t) : t.requestedFreq = s.requestedFreq := by rw [h]
theorem activeTransferMode {s t : State} (h : SameSession s t) : t.activeTransferMode = s.activeTransferMode := by rw [h]
theorem interruptDriven {s t : State} (h : SameSession s t) : t.interruptDriven = s.interruptDriven := by rw [h]
theorem pinControlStrategy {s t : State} (h : SameSession s t) : t.pinControlStrategy = s.pinControlStrategy := by rw [h]
theorem exclusiveOpen {s t : State} (h : SameSession s t) : t.exclusiveOpen = s.exclusiveOpen := by rw [h]

theorem of_env {s t : State} (h : ∃ e n, t = { s with env := e, draws := n }) : SameSession s t := by
  obtain ⟨e, n, rfl⟩ := h
  rfl

end SameSession

theorem HwRun.sameSession {s t : State} (h : HwRun s t) : SameSession s t := by
  unfold SameSession
  rw [h.frame]

/-- However the operation ends, the session is the one it began with. -/
def Res.KeepsSession {α : Type} (s : State) (r : Res α) : Prop :=
  r.Post (fun _ t => SameSession s t) (fun _ t => SameSession s t) (SameSession s)

namespace Res.KeepsSession

theorem after {α : Type} {s t : State} {r : Res α} (h : SameSession s t) (hr : r.KeepsSession t) : r.KeepsSession s :=
  hr.mono (fun _ _ => h.trans) (fun _ _ => h.trans) (fun _ => h.trans)

theorem bind {α β : Type} {s : State} {r : Res α} {f : α → State → Res β} (h : r.KeepsSession s)
    (hf : ∀ a t, (f a t).KeepsSession t) : (r.bind f).KeepsSession s :=
  Res.Post.bind h fun a t ht => (hf a t).after ht

theorem answers {α β : Type} {s : State} {r : Res α} {f : α → β} (h : r.KeepsSession s) :
    (r.bind fun a t => .ok (f a) t).KeepsSession s :=
  h.bind fun _ t => SameSession.refl t

theorem onError {α : Type} {s : State} {r : Res α} {c : State → State} (h : r.KeepsSession s)
    (hc : ∀ t, SameSession t (c t)) : (r.onError c).KeepsSession s :=
  Res.Post.onError h fun _ t ht => ht.trans (hc t)

theorem failAs {α : Type} {s : State} {r : Res α} (h : r.KeepsSession s) (k : ErrorKind) : (r.failAs k).KeepsSession s := by
  cases r <;> exact h

end Res.KeepsSession

/-! The shared operations. -/

theorem pulse_sameSession (sampleTdo tms tdi : Bool) (s : State) : SameSession s (pulse sampleTdo tms tdi s).2 := by
  cases sampleTdo with
  | false =>
    rw [pulse_unsampled]
    rfl
  | true =>
    obtain ⟨e, n, h, -⟩ := s.drawTdo_frame tdi
    rw [pulse_sampled]
    exact (SameSession.of_env ⟨e, n, h⟩).trans rfl

theorem pulseClock_keepsSession (sampleTdo tms tdi : Bool) (s : State) : (pulseClock sampleTdo tms tdi s).KeepsSession s := by
  unfold pulseClock
  split
  · trivial
  · exact pulse_sameSession sampleTdo tms tdi s

theorem clockTms_keepsSession (l : List Bool) (s : State) : (clockTms l s).KeepsSession s := by
  induction l generalizing s with
  | nil => exact .refl s
  | cons x xs ih => exact (pulseClock_keepsSession false x false s).bind fun _ t => ih t

theorem clockIdle_keepsSession (n : Nat) (s : State) : (clockIdle n s).KeepsSession s := by
  rw [clockIdle_eq_clockTms]
  exact clockTms_keepsSession _ s

theorem clockPairs_keepsSession (l : List Byte) (s : State) : (clockPairs l s).KeepsSession s := by
  induction l generalizing s with
  | nil => exact .refl s
  | cons x xs ih => exact (pulseClock_keepsSession true _ _ s).bind fun _ t => (ih t).answers

theorem allocate_keepsSession {α : Type} (s : State) {k : State → Res α} (hk : ∀ t, (k t).KeepsSession t) :
    (allocate s k).KeepsSession s := by
  obtain ⟨e, n, h, -⟩ := s.drawAlloc_frame
  have hd : SameSession s s.drawAlloc.2 := .of_env ⟨e, n, h⟩
  rcases allocate_cases s k with ⟨-, ha⟩ | ⟨-, ha⟩ <;> rw [ha]
  · exact (hk _).after hd
  · exact hd

theorem rawBitbang_keepsSession (length : Nat) (pairs : List Byte) (s : State) :
    (rawBitbang length pairs s).KeepsSession s := by
  unfold rawBitbang
  split
  · exact .refl s
  · split
    · exact .refl s
    · exact clockPairs_keepsSession _ s

theorem driveTransition_keepsSession (src dest : TapState) (s : State) : (driveTransition src dest s).KeepsSession s :=
  (clockTms_keepsSession _ s).bind fun _ _ => rfl

theorem applyTransition_keepsSession (fromCode toCode : Byte) (s : State) :
    (applyTransition fromCode toCode s).KeepsSession s := by
  unfold applyTransition
  split
  · exact driveTransition_keepsSession _ _ s
  · exact .refl s

theorem setTapState_keepsSession (fromCode toCode : Byte) (forceReset : Bool) (s : State) :
    (setTapState fromCode toCode forceReset s).KeepsSession s := by
  unfold setTapState
  split
  · refine Res.KeepsSession.bind ?_ fun _ t => applyTransition_keepsSession fromCode toCode t
    split
    · exact driveTransition_keepsSession _ _ s
    · exact .refl s
  · exact .refl s

/-! The channel. -/

/-- The enable of a scan or an idle run, from any state (R182, R200). -/
theorem openChannel_run (s : State) : (openChannel s).Post (fun _ t => HwRun s t) (fun _ t => t = s) (fun _ => False) := by
  cases hd : usableDivisor s.params s.requestedFreq with
  | none =>
    rw [openChannel_none hd]
    rfl
  | some d =>
    rw [openChannel, configureOn_eq hd]
    exact (enableChannel_run d s).1.trans (letPeripheral_run _).1

theorem openChannel_keepsSession (s : State) : (openChannel s).KeepsSession s :=
  (openChannel_run s).mono (fun _ _ => HwRun.sameSession) (fun _ _ => (· ▸ .refl s)) (fun _ => False.elim)

theorem closeChannel_sameSession (s : State) : SameSession s (closeChannel s) := (closeChannel_run s).1.sameSession

theorem shiftUnitPolled_keepsSession (v : Unit16) (s : State) : (shiftUnitPolled v s).KeepsSession s :=
  (shiftUnitPolled_run v s).mono (fun _ _ ⟨h, _⟩ => h.sameSession) (fun _ _ ⟨h, _⟩ => h.sameSession) (fun _ => False.elim)

theorem transferBlocking_keepsSession (tx rx : List Byte) (byteCount : Nat) (s : State) :
    (transferBlocking tx rx byteCount s).KeepsSession s :=
  (transferBlocking_run tx rx byteCount s).mono (fun _ _ ⟨h, _⟩ => h.sameSession) (fun _ _ ⟨h, _⟩ => h.sameSession)
    (fun _ ⟨h, _⟩ => h.run.sameSession)

/-! The scan. -/

theorem enableForScan_keepsSession (n : Nat) (s : State) : (enableForScan n s).KeepsSession s := by
  unfold enableForScan
  split
  · exact (openChannel_keepsSession s).answers
  · exact .refl s

theorem bulkInterrupt_keepsSession (n : Nat) (inp out : List Byte) (s : State) :
    (bulkInterrupt n inp out s).KeepsSession s :=
  ((transferBlocking_keepsSession _ _ _ s).onError closeChannel_sameSession).answers

theorem bulkPolled_keepsSession (n : Nat) (inp : List Byte) (fuel i : Nat) (out : List Byte) (s : State) :
    (bulkPolled n inp fuel i out s).KeepsSession s := by
  induction fuel generalizing i out s with
  | zero => exact .refl s
  | succ fuel ih =>
    rw [bulkPolled]
    split
    · exact (shiftUnitPolled_keepsSession _ s).bind fun v t => ih _ _ t
    · exact .refl s

theorem bulkPhase_keepsSession (useHw : Bool) (n : Nat) (inp out : List Byte) (s : State) :
    (bulkPhase useHw n inp out s).KeepsSession s := by
  unfold bulkPhase
  split
  · refine Res.KeepsSession.bind ?_ fun p t =>
      (bulkPolled_keepsSession n inp n p.1 p.2 t).bind fun q u => closeChannel_sameSession u
    split
    · exact bulkInterrupt_keepsSession n inp out s
    · exact .refl s
  · exact .refl s

theorem tailBits_keepsSession (shift endState : TapState) (inp : List Byte) (rem i : Nat) (out : List Byte) (s : State) :
    (tailBits shift endState inp rem i out s).KeepsSession s := by
  induction rem generalizing i out s with
  | zero => exact .refl s
  | succ rem ih =>
    refine (pulseClock_keepsSession true _ _ s).bind fun b t => (ih _ _ _).after ?_
    split <;> rfl

theorem padOutput_sameSession (n : Nat) (out : List Byte) (s : State) : SameSession s (padOutput n out s).2 := by
  obtain ⟨k, h⟩ := padOutput_state n out s
  exact .of_env ⟨s.env, k, h⟩

theorem scanBody_keepsSession (n : Nat) (endState : TapState) (inp : List Byte) (s : State) :
    (scanBody n endState inp s).KeepsSession s :=
  (enableForScan_keepsSession n s).bind fun useHw t => (bulkPhase_keepsSession useHw n inp _ t).bind fun _ u =>
    (tailBits_keepsSession _ _ _ _ _ _ u).bind fun out v => (driveTransition_keepsSession _ _ v).bind fun _ w =>
      padOutput_sameSession n out w

theorem scan_keepsSession (n : Nat) (endCode : Byte) (inp : List Byte) (s : State) :
    (scan n endCode inp s).KeepsSession s := by
  unfold scan
  split
  · exact .refl s
  · split
    · exact .refl s
    · split
      · exact scanBody_keepsSession n _ inp s
      · exact .refl s

theorem xfer_keepsSession (scanType fromCode endCode : Byte) (n : Nat) (inp : List Byte) (s : State) :
    (xfer scanType fromCode endCode n inp s).KeepsSession s := by
  unfold xfer
  split
  · exact (applyTransition_keepsSession _ _ s).bind fun _ t => scan_keepsSession n endCode inp t
  · exact .refl s

theorem scanCommand_keepsSession (scanType fromCode endCode : Byte) (n : Nat) (buf : List Byte) (s : State) :
    (scanCommand scanType fromCode endCode n buf s).KeepsSession s := by
  unfold scanCommand
  split
  · exact (xfer_keepsSession _ _ _ _ _ s).failAs _
  · exact .refl s

/-! The idle run. -/

theorem tmsLow_sameSession (s : State) : SameSession s (tmsLow s) := by
  unfold tmsLow
  split <;> rfl

theorem idleUnits_keepsSession (n : Nat) (s : State) : (idleUnits n s).KeepsSession s := by
  induction n generalizing s with
  | zero => exact .refl s
  | succ n ih => exact (shiftUnitPolled_keepsSession 0 s).bind fun _ t => ih t

theorem idleTransfer_keepsSession (units : Nat) (s : State) : (idleTransfer units s).KeepsSession s := by
  unfold idleTransfer
  split
  · exact ((transferBlocking_keepsSession _ _ _ s).onError closeChannel_sameSession).answers
  · exact .refl s

theorem runIdleHardware_keepsSession (cycles : Nat) (s : State) : (runIdleHardware cycles s).KeepsSession s := by
  refine ((openChannel_keepsSession (tmsLow s)).after (tmsLow_sameSession s)).bind fun _ t =>
    Res.KeepsSession.bind ?_ fun _ u => (clockIdle_keepsSession _ _).after (closeChannel_sameSession u)
  split
  · exact idleTransfer_keepsSession _ t
  · exact idleUnits_keepsSession _ t

theorem runIdle_keepsSession (cycles : Nat) (s : State) : (runIdle cycles s).KeepsSession s := by
  unfold runIdle
  split
  · exact runIdleHardware_keepsSession cycles s
  · exact clockIdle_keepsSession cycles s

theorem runIdleAllocating_keepsSession (cycles : Nat) (s : State) : (runIdleAllocating cycles s).KeepsSession s := by
  unfold runIdleAllocating
  split
  · exact allocate_keepsSession s (runIdle_keepsSession cycles)
  · exact runIdle_keepsSession cycles s

/-! The rows of the table. -/

/-- What an operation that ends in `t` has done to the session: nothing, or one setting written by the command it belongs to. -/
inductive SessionChange (s : State) : Instr → State → Prop where
  | none {i : Instr} {t : State} (h : SameSession s t) : SessionChange s i t
  | frequency {hz : Word} {t : State} (h : SameSession (s.setFreq hz.toNat) t) : SessionChange s (.setFrequency hz) t
  | backend {b : Bool} {p : PinStrategy} {t : State} (h : SameSession (s.setStrategy p) t) :
      SessionChange s (.setDirectPinControl b) t
  | mode {b : Bool} {m : TransferMode} {t : State} (h : SameSession (s.setMode m) t) :
      SessionChange s (.setHardwareAssisted b) t
  | interrupt {b : Bool} {t : State} (h : SameSession (s.setInterrupt b) t) : SessionChange s (.setInterruptDriven b) t
  | opened {t : State} (h : SameSession (s.setOpen true) t) : SessionChange s .openSession t
  | released {t : State} (h : SameSession (s.setOpen false) t) : SessionChange s .releaseSession t

/-- The outcome is no next state but one the operation may leave the session in. -/
def ChangesSession (s : State) (i : Instr) (o : Host.Outcome State Fault Refusal) : Prop :=
  ∀ t, o = .next t → SessionChange s i t

theorem changesSession_next {s t : State} {i : Instr} (h : SessionChange s i t) : ChangesSession s i (.next t) := by
  rintro _ ⟨⟩
  exact h

theorem changesSession_withSession {s : State} {i : Instr} {k : Host.Outcome State Fault Refusal} (h : ChangesSession s i k) :
    ChangesSession s i (withSession s k) :=
  fun t ht => h t (withSession_eq_next.mp ht).2

namespace Res.KeepsSession

theorem finish {s : State} {i : Instr} {r : Res (Word × List Byte)} (h : r.KeepsSession s) : ChangesSession s i r.finish := by
  intro t ht
  refine .none ?_
  rcases Res.finish_eq_next.mp ht with ⟨p, u, rfl, rfl⟩ | ⟨e, u, rfl, rfl⟩ | ⟨u, rfl, rfl⟩ <;>
    exact SameSession.trans h rfl

theorem finishUnit {s : State} {i : Instr} {r : Res Unit} (h : r.KeepsSession s) : ChangesSession s i r.finishUnit :=
  h.answers.finish

theorem finishBytes {s : State} {i : Instr} {r : Res (List Byte)} (h : r.KeepsSession s) : ChangesSession s i r.finishBytes :=
  h.answers.finish

end Res.KeepsSession

theorem configureOn_keepsSession (s : State) : (configureOn s).KeepsSession s := by
  unfold configureOn
  split
  · exact (enableChannel_run _ s).1.sameSession
  · exact .refl s

theorem send_keepsSession (v : Unit16) (s : State) : (send v s).KeepsSession s := by
  rcases send_cases v s with ⟨-, -, he⟩ | ⟨q, he⟩ <;> rw [he]
  · rfl
  · trivial

theorem exec_changesSession (i : Instr) (s : State) : ChangesSession s i (exec i s) := by
  cases i with
  | setFrequency hz =>
    refine changesSession_withSession ?_
    split
    · exact changesSession_next (.none rfl)
    · exact changesSession_next (.frequency rfl)
  | setDirectPinControl flag => exact changesSession_withSession (changesSession_next (.backend rfl))
  | setHardwareAssisted flag => exact changesSession_withSession (changesSession_next (.mode rfl))
  | setInterruptDriven flag => exact changesSession_withSession (changesSession_next (.interrupt rfl))
  | openSession =>
    simp only [exec, execOpenSession]
    split
    · exact changesSession_next (.none rfl)
    · exact changesSession_next (.opened rfl)
  | releaseSession => exact changesSession_next (.released rfl)
  | getFrequency | getTapState => exact changesSession_withSession (changesSession_next (.none rfl))
  | reverseNibbles x => exact changesSession_next (.none rfl)
  | tapNext stateCode tms =>
    simp only [exec, execTapNext]
    split <;> exact changesSession_next (.none rfl)
  | computeTransition fromCode toCode =>
    simp only [exec, execComputeTransition]
    split <;> exact changesSession_next (.none rfl)
  | receive => exact changesSession_next (.none ((HwRun.receive s).sameSession.trans rfl))
  | configure enable =>
    cases enable with
    | false => exact changesSession_next (.none ((HwRun.configureOff s).sameSession.trans rfl))
    | true => exact (configureOn_keepsSession s).finishUnit
  | send v =>
    simp only [exec, execSend]
    split
    · exact (send_keepsSession v s).finishUnit
    · exact changesSession_next (.none rfl)
  | shiftUnitPolled v =>
    simp only [exec, execShiftUnitPolled]
    split
    · exact (shiftUnitPolled_keepsSession v s).answers.finish
    · exact changesSession_next (.none rfl)
  | rawBitbang length buf =>
    exact changesSession_withSession (allocate_keepsSession s (rawBitbang_keepsSession _ _)).finishBytes
  | setTapState fromCode toCode forceReset =>
    exact changesSession_withSession (setTapState_keepsSession _ _ _ s).finishUnit
  | scanCommand scanType fromCode endCode n buf =>
    exact changesSession_withSession (allocate_keepsSession s (scanCommand_keepsSession _ _ _ _ _)).finishBytes
  | runTest cycles => exact changesSession_withSession (runIdleAllocating_keepsSession _ s).finishUnit
  | applyTransition fromCode toCode => exact (applyTransition_keepsSession _ _ s).finishUnit
  | pulseClock sampleTdo tms tdi =>
    exact (pulseClock_keepsSession sampleTdo tms tdi s).answers.finish
  | transferBlocking byteCount buf => exact (transferBlocking_keepsSession _ _ _ s).finishBytes
  | scan endCode n buf => exact (scan_keepsSession _ _ _ s).finishBytes
  | xfer scanType fromCode endCode n buf => exact (xfer_keepsSession _ _ _ _ _ s).finishBytes
  | runIdle cycles => exact (runIdleAllocating_keepsSession _ s).finishUnit

end Sys2Proof.Machine

/-! Two runs from states that differ in the tracked state, the pin-control backend or the interrupt setting only: where none of
the three is read, every operation does the same (spec/10_state.md R24, R27, R28, spec/41_clock_cycle.md R143,
spec/44_run_clock.md R204, spec/45_commands.md R223, R229). -/

namespace Sys2Proof.Machine

/-- A change of the three fields that leaves the interrupt setting alone in HardwareAssisted mode, where it is read (R27). -/
structure Disguise where
  tracked      : TapState → TapState
  backend      : PinStrategy → PinStrategy
  interrupt    : TransferMode → Bool → Bool
  whenHardware : ∀ b, interrupt .hardwareAssisted b = b

/-- The state in disguise. -/
def Disguise.on (d : Disguise) (s : State) : State :=
  { s with
    currentState := d.tracked s.currentState
    pinControlStrategy := d.backend s.pinControlStrategy
    interruptDriven := d.interrupt s.activeTransferMode s.interruptDriven }

/-- An outcome with its state in disguise. -/
def Res.disguised {α : Type} (d : Disguise) : Res α → Res α
  | .ok a s => .ok a (d.on s)
  | .error e s => .error e (d.on s)
  | .hang s => .hang (d.on s)
  | .refused q => .refused q

variable (d : Disguise)

/-! What a disguise leaves to be read, and where it commutes with an update. -/

section
variable (s : State)

@[simp] theorem disguise_params : (d.on s).params = s.params := rfl
@[simp] theorem disguise_unit : (d.on s).unit = s.unit := rfl
@[simp] theorem disguise_currentState : (d.on s).currentState = d.tracked s.currentState := rfl
@[simp] theorem disguise_activeTransferMode : (d.on s).activeTransferMode = s.activeTransferMode := rfl
@[simp] theorem disguise_requestedFreq : (d.on s).requestedFreq = s.requestedFreq := rfl
@[simp] theorem disguise_chan : (d.on s).chan = s.chan := rfl
@[simp] theorem disguise_xfer : (d.on s).xfer = s.xfer := rfl
@[simp] theorem disguise_env : (d.on s).env = s.env := rfl
@[simp] theorem disguise_channelEnabled : (d.on s).channelEnabled = s.channelEnabled := rfl
@[simp] theorem disguise_peripheralEnabled : (d.on s).peripheralEnabled = s.peripheralEnabled := rfl
@[simp] theorem disguise_handlerEnabled : (d.on s).handlerEnabled = s.handlerEnabled := rfl
@[simp] theorem disguise_transferBusy : (d.on s).transferBusy = s.transferBusy := rfl
@[simp] theorem disguise_transferDone : (d.on s).transferDone = s.transferDone := rfl

@[simp] theorem setLock_on (b : Bool) : (d.on s).setLock b = d.on (s.setLock b) := rfl
@[simp] theorem setXfer_on (x : Option Xfer) : (d.on s).setXfer x = d.on (s.setXfer x) := rfl
@[simp] theorem setReady_on (b : Bool) : (d.on s).setReady b = d.on (s.setReady b) := rfl
@[simp] theorem setIrqEnable_on (b : Bool) : (d.on s).setIrqEnable b = d.on (s.setIrqEnable b) := rfl
@[simp] theorem switchPins_on (f : Nat) : switchPins f (d.on s) = d.on (switchPins f s) := rfl
@[simp] theorem endTransfer_on : endTransfer (d.on s) = d.on (endTransfer s) := rfl
@[simp] theorem receivedBytes_on : receivedBytes (d.on s) = receivedBytes s := rfl

end

/-- In HardwareAssisted mode the interrupt setting is in no disguise. -/
theorem disguise_interruptDriven {s : State} (h : s.activeTransferMode = .hardwareAssisted) :
    (d.on s).interruptDriven = s.interruptDriven := by
  simp [Disguise.on, h, d.whenHardware]

/-! Outcomes. -/

section
variable {α β : Type}

@[simp] theorem disguised_ok (a : α) (s : State) : (Res.ok a s).disguised d = .ok a (d.on s) := rfl
@[simp] theorem disguised_error (e : ErrorKind) (s : State) : (Res.error e s : Res α).disguised d = .error e (d.on s) := rfl

/-- A sequence of which the first part is in disguise, and the second on every state the first succeeds in. -/
theorem bind_disguised_of {r r' : Res α} {f f' : α → State → Res β} (h : r' = r.disguised d)
    (hf : ∀ a t, r = .ok a t → f' a (d.on t) = (f a t).disguised d) : r'.bind f' = (r.bind f).disguised d := by
  subst h
  cases r with
  | ok a t => exact hf a t rfl
  | _ => rfl

theorem bind_disguised {r r' : Res α} {f f' : α → State → Res β} (h : r' = r.disguised d)
    (hf : ∀ a t, f' a (d.on t) = (f a t).disguised d) : r'.bind f' = (r.bind f).disguised d :=
  bind_disguised_of d h fun a t _ => hf a t

theorem onError_disguised {r r' : Res α} {c : State → State} (h : r' = r.disguised d) (hc : ∀ t, c (d.on t) = d.on (c t)) :
    r'.onError c = (r.onError c).disguised d := by
  subst h
  cases r with
  | error e t => exact congrArg (Res.error e) (hc t)
  | _ => rfl

theorem failAs_disguised {r r' : Res α} (h : r' = r.disguised d) (k : ErrorKind) : r'.failAs k = (r.failAs k).disguised d := by
  subst h
  cases r <;> rfl

theorem atomic_disguised {f : State → Res α} (hf : ∀ s, f (d.on s) = (f s).disguised d) (s : State) :
    atomic f (d.on s) = (atomic f s).disguised d := by
  simp only [atomic, setLock_on, hf]
  cases f (s.setLock true) <;> rfl

end

/-- A choice of which both branches commute with `g`. -/
theorem ite_eq_apply_ite {α β : Type} {g : α → β} {c c' : Prop} [Decidable c] [Decidable c'] {a b : α} {a' b' : β}
    (hc : c' ↔ c) (ha : c → a' = g a) (hb : ¬c → b' = g b) : (if c' then a' else b') = g (if c then a else b) := by
  by_cases h : c
  · rw [if_pos h, if_pos (hc.mpr h), ha h]
  · rw [if_neg h, if_neg (mt hc.mp h), hb h]

/-! The environment's draws. -/

@[simp] theorem drawTdo_on (b : Bool) (s : State) : (d.on s).drawTdo b = ((s.drawTdo b).1, d.on (s.drawTdo b).2) := by
  unfold State.drawTdo
  rw [disguise_env]
  split <;> rfl

@[simp] theorem drawTdos_on (l : List Bool) (s : State) : drawTdos l (d.on s) = ((drawTdos l s).1, d.on (drawTdos l s).2) := by
  induction l generalizing s with
  | nil => rfl
  | cons x xs ih => simp [drawTdos, ih]

@[simp] theorem drawPoll_on (s : State) : (d.on s).drawPoll = (s.drawPoll.1, d.on s.drawPoll.2) := by
  unfold State.drawPoll
  rw [disguise_env]
  split <;> rfl

@[simp] theorem drawAlloc_on (s : State) : (d.on s).drawAlloc = (s.drawAlloc.1, d.on s.drawAlloc.2) := by
  unfold State.drawAlloc
  rw [disguise_env]
  split <;> rfl

@[simp] theorem drawTurn_on (s : State) : (d.on s).drawTurn = (s.drawTurn.1, d.on s.drawTurn.2) := by
  unfold State.drawTurn
  rw [disguise_env]
  split <;> rfl

@[simp] theorem whoMoves_on (a b : Agent) (s : State) :
    (d.on s).whoMoves a b = ((s.whoMoves a b).1, d.on (s.whoMoves a b).2) := by
  simp [State.whoMoves]

theorem allocate_disguised {α : Type} {k : State → Res α} (hk : ∀ s, k (d.on s) = (k s).disguised d) (s : State) :
    allocate (d.on s) k = (allocate s k).disguised d := by
  simp only [allocate, drawAlloc_on]
  split
  · exact hk _
  · rfl

/-! The clock. -/

theorem pulse_on (sampleTdo tms tdi : Bool) (s : State) :
    pulse sampleTdo tms tdi (d.on s) = ((pulse sampleTdo tms tdi s).1, d.on (pulse sampleTdo tms tdi s).2) := by
  cases sampleTdo with
  | false =>
    rw [pulse_unsampled, pulse_unsampled]
    rfl
  | true =>
    rw [pulse_sampled, pulse_sampled, drawTdo_on]
    rfl

theorem pulseClock_on (sampleTdo tms tdi : Bool) (s : State) :
    pulseClock sampleTdo tms tdi (d.on s) = (pulseClock sampleTdo tms tdi s).disguised d := by
  simp only [pulseClock, disguise_channelEnabled, pulse_on]
  split <;> rfl

theorem clockTms_on (l : List Bool) (s : State) : clockTms l (d.on s) = (clockTms l s).disguised d := by
  induction l generalizing s with
  | nil => rfl
  | cons x xs ih => exact bind_disguised d (pulseClock_on d false x false s) fun _ t => ih t

theorem clockIdle_on (n : Nat) (s : State) : clockIdle n (d.on s) = (clockIdle n s).disguised d := by
  simp only [clockIdle_eq_clockTms, clockTms_on]

theorem clockPairs_on (l : List Byte) (s : State) : clockPairs l (d.on s) = (clockPairs l s).disguised d := by
  induction l generalizing s with
  | nil => rfl
  | cons x xs ih =>
    exact bind_disguised d (pulseClock_on d true _ _ s) fun r t => bind_disguised d (ih t) fun out u => rfl

theorem rawBitbang_on (length : Nat) (pairs : List Byte) (s : State) :
    rawBitbang length pairs (d.on s) = (rawBitbang length pairs s).disguised d := by
  simp only [rawBitbang, disguise_params, clockPairs_on]
  split
  · rfl
  · split <;> rfl

/-! The channel. -/

theorem shifted_on (path : Path) (bits : List Bool) (s : State) : (d.on s).shifted path bits = d.on (s.shifted path bits) := by
  simp only [State.shifted, drawTdos_on]
  rfl

theorem peripheralShift_on (s : State) : peripheralShift (d.on s) = d.on (peripheralShift s) := by
  rw [peripheralShift_eq, peripheralShift_eq, shifted_on, drawTdos_on]
  rfl

@[simp] theorem peripheralStep_on (s : State) : peripheralStep (d.on s) = d.on (peripheralStep s) := by
  simp only [peripheralStep, disguise_peripheralEnabled, peripheralShift_on]
  split <;> rfl

@[simp] theorem letPeripheral_on (s : State) : letPeripheral (d.on s) = d.on (letPeripheral s) := by
  simp only [letPeripheral, disguise_peripheralEnabled, whoMoves_on, peripheralShift_on]
  split
  · split <;> rfl
  · rfl

@[simp] theorem partialShift_on (j : Nat) (s : State) : partialShift j (d.on s) = d.on (partialShift j s) := by
  simp only [partialShift, disguise_peripheralEnabled, shiftCycles_eq, shifted_on]
  split <;> rfl

@[simp] theorem enableChannel_on (f : Nat) (s : State) : enableChannel f (d.on s) = d.on (enableChannel f s) := by
  simp only [enableChannel, letPeripheral_on, switchPins_on, setReady_on]

theorem configureOn_on (s : State) : configureOn (d.on s) = (configureOn s).disguised d := by
  simp only [configureOn, disguise_params, disguise_requestedFreq, enableChannel_on]
  split <;> rfl

theorem openChannel_on (s : State) : openChannel (d.on s) = (openChannel s).disguised d :=
  bind_disguised d (configureOn_on d s) fun _ t => congrArg (Res.ok ()) (letPeripheral_on d t)

@[simp] theorem configureOff_on (s : State) : configureOff (d.on s) = d.on (configureOff s) := by
  cases hp : s.chan.pinFunction with
  | line =>
    rw [configureOff_disabled hp, configureOff_disabled (s := d.on s) hp]
    rfl
  | peripheral =>
    rw [configureOff_enabled hp, configureOff_enabled (s := d.on s) hp]
    rfl

@[simp] theorem closeChannel_on (s : State) : closeChannel (d.on s) = d.on (closeChannel s) := by
  simp only [closeChannel, letPeripheral_on, configureOff_on]

theorem send_on (v : Unit16) (s : State) : send v (d.on s) = (send v s).disguised d :=
  ite_eq_apply_ite .rfl (fun _ => rfl) fun _ => ite_eq_apply_ite .rfl (fun _ => rfl) fun _ => rfl

@[simp] theorem receive_on (s : State) : receive (d.on s) = ((receive s).1, d.on (receive s).2) :=
  ite_eq_apply_ite (g := fun r : Unit16 × State => (r.1, d.on r.2)) .rfl (fun _ => rfl) fun _ => rfl

theorem pollUntil_on {cond : State → Bool} (hc : ∀ s, cond (d.on s) = cond s) (s : State) :
    pollUntil cond (d.on s) = ((pollUntil cond s).1, d.on (pollUntil cond s).2) := by
  simp only [pollUntil, drawPoll_on, peripheralStep_on, partialShift_on, hc]
  split <;> rfl

@[simp] theorem timeoutCleanup_on (s : State) : timeoutCleanup (d.on s) = d.on (timeoutCleanup s) := by
  simp only [timeoutCleanup, configureOff_on]
  rfl

theorem shiftUnitPolled_on (v : Unit16) (s : State) : shiftUnitPolled v (d.on s) = (shiftUnitPolled v s).disguised d := by
  simp only [shiftUnitPolled, pollUntil_on d (cond := fun s => !s.chan.stat.busy) fun _ => rfl]
  split
  · refine bind_disguised d (atomic_disguised d (send_on d v) _) fun _ t => ?_
    simp only [pollUntil_on d (cond := fun s => s.chan.stat.ready) fun _ => rfl]
    split
    · exact atomic_disguised d (fun u => by simp only [receive_on, disguised_ok]) _
    · simp only [timeoutCleanup_on, disguised_error]
  · simp only [timeoutCleanup_on, disguised_error]

/-! The interrupt-driven variant. -/

theorem sendNext_on (x : Xfer) (s : State) : sendNext x (d.on s) = (sendNext x s).disguised d :=
  bind_disguised d (send_on d _ s) fun _ _ => rfl

theorem receiveAndSendNext_on (s : State) : receiveAndSendNext (d.on s) = (receiveAndSendNext s).disguised d := by
  simp only [receiveAndSendNext, disguise_xfer, disguise_unit, receive_on, setXfer_on]
  split
  · rfl
  · refine bind_disguised d ?_ fun _ _ => rfl
    split
    · exact sendNext_on d _ _
    · rfl

theorem onReceiveInterrupt_on (s : State) : onReceiveInterrupt (d.on s) = (onReceiveInterrupt s).disguised d := by
  refine bind_disguised d (atomic_disguised d (receiveAndSendNext_on d) s) fun last t => ?_
  cases last <;> rfl

theorem handlerStep_on (s : State) : handlerStep (d.on s) = (handlerStep s).disguised d :=
  ite_eq_apply_ite .rfl (fun _ => onReceiveInterrupt_on d s) fun _ => rfl

theorem nextTurn_on (s : State) : nextTurn (d.on s) = ((nextTurn s).1, d.on (nextTurn s).2) := by
  simp only [nextTurn, disguise_handlerEnabled, disguise_peripheralEnabled, whoMoves_on]
  split
  · split <;> rfl
  · rfl

theorem lastTurn_on (s : State) : lastTurn (d.on s) = (lastTurn s).disguised d := by
  refine bind_disguised d ?_ fun _ _ => rfl
  simp only [disguise_params, handlerStep_on]
  split <;> rfl

@[simp] theorem lateDelivery_on (s : State) : lateDelivery (d.on s) = d.on (lateDelivery s) := by
  simp only [lateDelivery, disguise_handlerEnabled, whoMoves_on, receive_on]
  split
  · split <;> rfl
  · rfl

theorem waitForWire_on (s : State) : waitForWire (d.on s) = (waitForWire s).disguised d := by
  simp only [waitForWire, disguise_peripheralEnabled, drawPoll_on, peripheralShift_on, lateDelivery_on, partialShift_on]
  split
  · split <;> rfl
  · rfl

theorem blockingWait_on (n : Nat) (s : State) : blockingWait n (d.on s) = (blockingWait n s).disguised d := by
  induction n generalizing s with
  | zero =>
    simp only [blockingWait, disguise_transferDone, waitForWire_on]
    split <;> rfl
  | succ n ih =>
    simp only [blockingWait, disguise_transferDone, waitForWire_on, nextTurn_on, drawPoll_on, peripheralStep_on, partialShift_on,
      lastTurn_on]
    split
    · rfl
    · split
      · exact bind_disguised d (handlerStep_on d _) fun _ t => ih t
      · split
        · exact bind_disguised d (handlerStep_on d _) fun _ t => ih t
        · rfl

theorem startTransfer_on (tx rx : List Byte) (byteCount : Nat) (s : State) :
    startTransfer tx rx byteCount (d.on s) = (startTransfer tx rx byteCount s).disguised d := by
  simp only [startTransfer, disguise_transferBusy, disguise_chan, disguise_unit, setXfer_on, setIrqEnable_on, sendNext_on]
  split <;> rfl

theorem finishTransfer_on (units : Nat) (beyond : List Byte) (s : State) :
    finishTransfer units beyond (d.on s) = (finishTransfer units beyond s).disguised d := by
  refine bind_disguised d (blockingWait_on d units s) fun done t => ?_
  simp only [disguise_params, receivedBytes_on, endTransfer_on, timeoutCleanup_on]
  split
  · rfl
  · split <;> rfl

theorem transferBlocking_on (tx rx : List Byte) (byteCount : Nat) (s : State) :
    transferBlocking tx rx byteCount (d.on s) = (transferBlocking tx rx byteCount s).disguised d :=
  ite_eq_apply_ite .rfl (fun _ => rfl) fun _ => ite_eq_apply_ite .rfl (fun _ => rfl) fun _ =>
    bind_disguised d (atomic_disguised d (startTransfer_on d tx rx byteCount) s) fun _ t => finishTransfer_on d _ _ t

/-! The idle run. -/

@[simp] theorem tmsLow_on (s : State) : tmsLow (d.on s) = d.on (tmsLow s) :=
  ite_eq_apply_ite .rfl (fun _ => rfl) fun _ => rfl

theorem idleUnits_on (n : Nat) (s : State) : idleUnits n (d.on s) = (idleUnits n s).disguised d := by
  induction n generalizing s with
  | zero => rfl
  | succ n ih => exact bind_disguised d (shiftUnitPolled_on d 0 s) fun _ t => ih t

theorem idleTransfer_on (units : Nat) (s : State) : idleTransfer units (d.on s) = (idleTransfer units s).disguised d := by
  simp only [idleTransfer, disguise_unit]
  split
  · exact bind_disguised d (onError_disguised d (transferBlocking_on d _ _ _ s) (closeChannel_on d)) fun _ _ => rfl
  · rfl

theorem runIdleHardware_on (cycles : Nat) {s : State} (h : s.activeTransferMode = .hardwareAssisted) :
    runIdleHardware cycles (d.on s) = (runIdleHardware cycles s).disguised d := by
  simp only [runIdleHardware, tmsLow_on, disguise_interruptDriven d h]
  refine bind_disguised d (openChannel_on d _) fun _ t => bind_disguised d ?_ fun _ u => ?_
  · simp only [disguise_unit, idleTransfer_on, idleUnits_on]
    split <;> rfl
  · simp only [disguise_unit, closeChannel_on, clockIdle_on]

theorem runIdle_on (cycles : Nat) (s : State) : runIdle cycles (d.on s) = (runIdle cycles s).disguised d :=
  ite_eq_apply_ite .rfl (runIdleHardware_on d cycles) fun _ => clockIdle_on d cycles s

theorem needsScratch_on (cycles : Nat) (s : State) : needsScratch cycles (d.on s) = needsScratch cycles s := by
  cases hm : s.activeTransferMode with
  | bitBang => simp [needsScratch, hm]
  | hardwareAssisted =>
    rw [needsScratch, disguise_interruptDriven d hm]
    rfl

theorem runIdleAllocating_on (cycles : Nat) (s : State) :
    runIdleAllocating cycles (d.on s) = (runIdleAllocating cycles s).disguised d := by
  simp only [runIdleAllocating, needsScratch_on, runIdle_on]
  split
  · exact allocate_disguised d (runIdle_on d cycles) s
  · rfl

/-! The channel part of a scan: the interrupt setting is read when the channel is enabled, in HardwareAssisted mode only. -/

/-- The channel is enabled for a scan in HardwareAssisted mode only (R182). -/
theorem enableForScan_mode (n : Nat) (s : State) : (enableForScan n s).Post
    (fun useHw t => useHw = true → t.activeTransferMode = .hardwareAssisted) (fun _ _ => True) (fun _ => True) := by
  unfold enableForScan
  split
  · next hw =>
    refine ((openChannel_run s).mono (fun _ _ => id) (fun _ _ _ => trivial) (fun _ _ => trivial)).bind fun _ t ht _ => ?_
    exact ht.activeTransferMode.trans (wantsChannel_iff.mp hw).2
  · exact nofun

theorem padOutput_on (n : Nat) (out : List Byte) (s : State) :
    padOutput n out (d.on s) = ((padOutput n out s).1, d.on (padOutput n out s).2) :=
  ite_eq_apply_ite (g := fun r : List Byte × State => (r.1, d.on r.2)) .rfl (fun _ => rfl) fun _ => rfl

theorem enableForScan_on (n : Nat) (s : State) : enableForScan n (d.on s) = (enableForScan n s).disguised d :=
  ite_eq_apply_ite .rfl (fun _ => bind_disguised d (openChannel_on d s) fun _ _ => rfl) fun _ => rfl

theorem bulkInterrupt_on (n : Nat) (inp out : List Byte) (s : State) :
    bulkInterrupt n inp out (d.on s) = (bulkInterrupt n inp out s).disguised d :=
  bind_disguised d (onError_disguised d (transferBlocking_on d _ _ _ s) (closeChannel_on d)) fun _ _ => rfl

theorem bulkPolled_on (n : Nat) (inp : List Byte) (fuel i : Nat) (out : List Byte) (s : State) :
    bulkPolled n inp fuel i out (d.on s) = (bulkPolled n inp fuel i out s).disguised d := by
  induction fuel generalizing i out s with
  | zero => rfl
  | succ fuel ih =>
    exact ite_eq_apply_ite .rfl (fun _ => bind_disguised d (shiftUnitPolled_on d _ s) fun _ t => ih _ _ t) fun _ => rfl

theorem bulkPhase_on {useHw : Bool} (n : Nat) (inp out : List Byte) {s : State}
    (h : useHw = true → s.activeTransferMode = .hardwareAssisted) :
    bulkPhase useHw n inp out (d.on s) = (bulkPhase useHw n inp out s).disguised d := by
  refine ite_eq_apply_ite .rfl (fun hu => bind_disguised d ?_ fun p t => bind_disguised d (bulkPolled_on d n inp n p.1 p.2 t)
    fun q u => congrArg (Res.ok q) (closeChannel_on d u)) fun _ => rfl
  exact ite_eq_apply_ite (by rw [disguise_interruptDriven d (h hu)]) (fun _ => bulkInterrupt_on d n inp out s) fun _ => rfl

/-! The operations that read the tracked state, which must be in no disguise for them. -/

section
variable {d} (hd : d.tracked = id)
include hd

theorem disguise_currentState_eq (s : State) : (d.on s).currentState = s.currentState := by
  rw [disguise_currentState, hd]
  rfl

theorem setCurrentState_on (t : TapState) (s : State) : (d.on s).setCurrentState t = d.on (s.setCurrentState t) := by
  simp [State.setCurrentState, Disguise.on, hd]

theorem driveTransition_on (src dest : TapState) (s : State) :
    driveTransition src dest (d.on s) = (driveTransition src dest s).disguised d :=
  bind_disguised d (clockTms_on d _ s) fun _ t => congrArg (Res.ok ()) (setCurrentState_on hd dest t)

theorem applyTransition_on (fromCode toCode : Byte) (s : State) :
    applyTransition fromCode toCode (d.on s) = (applyTransition fromCode toCode s).disguised d := by
  simp only [applyTransition, disguise_currentState_eq hd, driveTransition_on hd]
  split <;> rfl

theorem setTapState_on (fromCode toCode : Byte) (forceReset : Bool) (s : State) :
    setTapState fromCode toCode forceReset (d.on s) = (setTapState fromCode toCode forceReset s).disguised d := by
  simp only [setTapState, disguise_currentState_eq hd, driveTransition_on hd]
  split
  · refine bind_disguised d ?_ fun _ t => applyTransition_on hd fromCode toCode t
    split <;> rfl
  · rfl

theorem tailBits_on (shift endState : TapState) (inp : List Byte) (rem i : Nat) (out : List Byte) (s : State) :
    tailBits shift endState inp rem i out (d.on s) = (tailBits shift endState inp rem i out s).disguised d := by
  induction rem generalizing i out s with
  | zero => rfl
  | succ rem ih =>
    refine bind_disguised d (pulseClock_on d true _ _ s) fun b t => ?_
    simp only [setCurrentState_on hd, ← apply_ite d.on]
    exact ih _ _ _

theorem scanBody_on (n : Nat) (endState : TapState) (inp : List Byte) (s : State) :
    scanBody n endState inp (d.on s) = (scanBody n endState inp s).disguised d := by
  refine bind_disguised_of d (enableForScan_on d n s) fun useHw t ht => ?_
  refine bind_disguised d (bulkPhase_on d n inp _ ((enableForScan_mode n s).of_ok ht)) fun p u => ?_
  rw [disguise_currentState_eq hd]
  refine bind_disguised d (tailBits_on hd _ _ _ _ _ _ u) fun out v => ?_
  rw [disguise_currentState_eq hd]
  exact bind_disguised d (driveTransition_on hd _ _ v) fun _ w => by rw [padOutput_on]; rfl

theorem scan_on (n : Nat) (endCode : Byte) (inp : List Byte) (s : State) :
    scan n endCode inp (d.on s) = (scan n endCode inp s).disguised d := by
  refine ite_eq_apply_ite (by rw [disguise_currentState_eq hd]) (fun _ => rfl) fun _ => ?_
  split
  · rfl
  · exact ite_eq_apply_ite .rfl (fun _ => scanBody_on hd n _ inp s) fun _ => rfl

theorem xfer_on (scanType fromCode endCode : Byte) (n : Nat) (inp : List Byte) (s : State) :
    xfer scanType fromCode endCode n inp (d.on s) = (xfer scanType fromCode endCode n inp s).disguised d := by
  unfold xfer
  split
  · exact bind_disguised d (applyTransition_on hd _ _ s) fun _ t => scan_on hd n endCode inp t
  · rfl

theorem scanCommand_on (scanType fromCode endCode : Byte) (n : Nat) (buf : List Byte) (s : State) :
    scanCommand scanType fromCode endCode n buf (d.on s) = (scanCommand scanType fromCode endCode n buf s).disguised d :=
  ite_eq_apply_ite .rfl (fun _ => failAs_disguised d (xfer_on hd _ _ _ _ _ s) _) fun _ => rfl

end

/-! The rows of the table. -/

/-- The commands that write a setting: under a disguise they need not do the same (R229 to R231). -/
def writesSetting : Instr → Bool
  | .setDirectPinControl _ | .setHardwareAssisted _ | .setInterruptDriven _ => true
  | _ => false

section
variable {d}

theorem finish_disguised {r r' : Res (Word × List Byte)} (h : r' = r.disguised d) : r'.finish = mapNext d.on r.finish := by
  subst h
  cases r <;> rfl

theorem finishUnit_disguised {r r' : Res Unit} (h : r' = r.disguised d) : r'.finishUnit = mapNext d.on r.finishUnit :=
  finish_disguised (bind_disguised d h fun _ _ => rfl)

theorem finishBytes_disguised {r r' : Res (List Byte)} (h : r' = r.disguised d) :
    r'.finishBytes = mapNext d.on r.finishBytes :=
  finish_disguised (bind_disguised d h fun _ _ => rfl)

/-- Admission reads whether the session is open, and nothing else (R234). -/
theorem withSession_mapNext {g : State → State} {s : State} {k k' : Host.Outcome State Fault Refusal}
    (ho : (g s).exclusiveOpen = s.exclusiveOpen) (hk : k' = mapNext g k) :
    withSession (g s) k' = mapNext g (withSession s k) :=
  ite_eq_apply_ite (by rw [ho]) (fun _ => hk) fun _ => rfl

/-- An operation that writes no setting does the same in disguise, if it does not know the tracked state or that is in no
disguise. -/
theorem exec_on {i : Instr} (hw : writesSetting i = false) (ht : ignoresCurrentState i = true ∨ d.tracked = id) (s : State) :
    exec i (d.on s) = mapNext d.on (exec i s) := by
  cases i with
  | setDirectPinControl | setHardwareAssisted | setInterruptDriven => cases hw
  | setFrequency hz =>
    exact withSession_mapNext rfl (ite_eq_apply_ite .rfl (fun _ => rfl) fun _ => rfl)
  | getFrequency => exact withSession_mapNext rfl rfl
  | rawBitbang length buf =>
    exact withSession_mapNext rfl (finishBytes_disguised (allocate_disguised d (rawBitbang_on d _ _) s))
  | runTest cycles => exact withSession_mapNext rfl (finishUnit_disguised (runIdleAllocating_on d _ s))
  | openSession => exact ite_eq_apply_ite .rfl (fun _ => rfl) fun _ => rfl
  | releaseSession | reverseNibbles => rfl
  | tapNext stateCode tms =>
    simp only [exec, execTapNext]
    split <;> rfl
  | computeTransition fromCode toCode =>
    simp only [exec, execComputeTransition]
    split <;> rfl
  | pulseClock sampleTdo tms tdi => exact finish_disguised (bind_disguised d (pulseClock_on d _ _ _ s) fun _ _ => rfl)
  | configure enable =>
    cases enable with
    | false => exact congrArg Host.Outcome.next (congrArg (·.answer 0 []) (configureOff_on d s))
    | true => exact finishUnit_disguised (configureOn_on d s)
  | send v => exact ite_eq_apply_ite .rfl (fun _ => finishUnit_disguised (send_on d v s)) fun _ => rfl
  | receive =>
    simp only [exec, execReceive, receive_on]
    rfl
  | shiftUnitPolled v =>
    exact ite_eq_apply_ite .rfl (fun _ => finish_disguised (bind_disguised d (shiftUnitPolled_on d v s) fun _ _ => rfl))
      fun _ => rfl
  | transferBlocking byteCount buf => exact finishBytes_disguised (transferBlocking_on d _ _ _ s)
  | runIdle cycles => exact finishUnit_disguised (runIdleAllocating_on d _ s)
  | getTapState =>
    have hd := ht.resolve_left nofun
    exact withSession_mapNext rfl (by rw [disguise_currentState_eq hd]; rfl)
  | setTapState fromCode toCode forceReset =>
    have hd := ht.resolve_left nofun
    exact withSession_mapNext rfl (finishUnit_disguised (setTapState_on hd _ _ _ s))
  | scanCommand scanType fromCode endCode n buf =>
    have hd := ht.resolve_left nofun
    exact withSession_mapNext rfl (finishBytes_disguised (allocate_disguised d (scanCommand_on hd _ _ _ _ _) s))
  | applyTransition fromCode toCode => exact finishUnit_disguised (applyTransition_on (ht.resolve_left nofun) _ _ s)
  | scan endCode n buf => exact finishBytes_disguised (scan_on (ht.resolve_left nofun) _ _ _ s)
  | xfer scanType fromCode endCode n buf => exact finishBytes_disguised (xfer_on (ht.resolve_left nofun) _ _ _ _ _ s)

end

/-! The three disguises. -/

/-- Another tracked state. -/
def trackedAs (c : TapState) : Disguise := ⟨fun _ => c, id, fun _ b => b, fun _ => rfl⟩

/-- Another pin-control backend. -/
def backedBy (p : PinStrategy) : Disguise := ⟨id, fun _ => p, fun _ b => b, fun _ => rfl⟩

/-- Another interrupt setting, in BitBang mode. -/
def interruptAs (b : Bool) : Disguise := ⟨id, id, fun m old => if m = .bitBang then b else old, fun _ => rfl⟩

theorem interruptAs_on (b : Bool) {s : State} (h : s.activeTransferMode = .bitBang) :
    (interruptAs b).on s = s.setInterrupt b := by
  simp [Disguise.on, interruptAs, h, State.setInterrupt]

theorem exec_setCurrentState {i : Instr} (hi : ignoresCurrentState i = true) (c : TapState) (s : State) :
    exec i (s.setCurrentState c) = mapNext (·.setCurrentState c) (exec i s) := by
  cases i with
  | setDirectPinControl | setHardwareAssisted | setInterruptDriven =>
    exact withSession_mapNext (g := (·.setCurrentState c)) rfl rfl
  | _ => exact exec_on (d := trackedAs c) rfl (.inl hi) s

/-- What is not read is not written: set to the value it has, the tracked state comes out with that value. -/
theorem exec_keepsCurrentState {i : Instr} (hi : ignoresCurrentState i = true) {s t : State} (h : exec i s = .next t) :
    t.currentState = s.currentState := by
  have hsame : exec i s = mapNext (·.setCurrentState s.currentState) (exec i s) := exec_setCurrentState hi s.currentState s
  rw [h] at hsame
  injection hsame with ht
  rw [ht]
  rfl

/-- Settles O41: the operations of the channel and the clock do the same whatever the tracked state is. -/
theorem clockingIgnoresTheTrackedState : Obligations.ClockingIgnoresTheTrackedState :=
  fun _ s c hi => ⟨exec_setCurrentState hi c s, fun _ => exec_keepsCurrentState hi⟩

theorem exec_setStrategy {i : Instr} (hi : ∀ b, i ≠ .setDirectPinControl b) (p : PinStrategy) (s : State) :
    exec i (s.setStrategy p) = mapNext (·.setStrategy p) (exec i s) := by
  cases i with
  | setDirectPinControl flag => exact absurd rfl (hi flag)
  | setHardwareAssisted | setInterruptDriven => exact withSession_mapNext (g := (·.setStrategy p)) rfl rfl
  | _ => exact exec_on (d := backedBy p) rfl (.inr rfl) s

/-- An operation that does not write the mode leaves it. -/
theorem exec_keepsMode {i : Instr} (hi : ∀ b, i ≠ .setHardwareAssisted b) {s t : State} (h : exec i s = .next t) :
    t.activeTransferMode = s.activeTransferMode := by
  cases exec_changesSession i s t h with
  | mode => exact absurd rfl (hi _)
  | _ hs => exact hs.activeTransferMode

/-- In BitBang mode an operation that writes no setting does the same whatever the interrupt setting is. -/
theorem exec_setInterrupt_of_not_writesSetting {i : Instr} (hw : writesSetting i = false) (b : Bool) {s : State}
    (hm : s.activeTransferMode = .bitBang) : exec i (s.setInterrupt b) = mapNext (·.setInterrupt b) (exec i s) := by
  rw [← interruptAs_on b hm, exec_on hw (.inr rfl)]
  cases he : exec i s with
  | next t =>
    have hi : ∀ f, i ≠ .setHardwareAssisted f := by
      rintro f rfl
      cases hw
    exact congrArg Host.Outcome.next (interruptAs_on b ((exec_keepsMode hi he).trans hm))
  | _ => rfl

theorem exec_setInterrupt {i : Instr} (hi : ∀ f, i ≠ .setInterruptDriven f) (b : Bool) {s : State}
    (hm : s.activeTransferMode = .bitBang) : exec i (s.setInterrupt b) = mapNext (·.setInterrupt b) (exec i s) := by
  cases i with
  | setInterruptDriven flag => exact absurd rfl (hi flag)
  | setDirectPinControl | setHardwareAssisted => exact withSession_mapNext (g := (·.setInterrupt b)) rfl rfl
  | _ => exact exec_setInterrupt_of_not_writesSetting rfl b hm

/-- Settles O59: no operation reads the backend, and the interrupt setting is read in HardwareAssisted mode only. -/
theorem backendAndUnusedSettingAreInvisible : Obligations.BackendAndUnusedSettingAreInvisible :=
  ⟨fun _ s p hi => exec_setStrategy hi p s, fun _ _ b hi hm => exec_setInterrupt hi b hm⟩

end Sys2Proof.Machine

/-! The writers of each session field, the tracked state and the TMS cache among them (spec/10_state.md R24 to R30, R46). -/

namespace Sys2Proof.Machine

/-! The TMS cache. -/

theorem peripheralStep_lastTmsLevel (s : State) : (peripheralStep s).lastTmsLevel = s.lastTmsLevel := by
  cases he : s.peripheralEnabled with
  | false => rw [peripheralStep_disabled he]
  | true =>
    rw [peripheralStep_enabled he, peripheralShift_eq]
    exact shifted_lastTmsLevel s (channelPath s) (unitInFlight s)

theorem letPeripheral_lastTmsLevel (s : State) : (letPeripheral s).lastTmsLevel = s.lastTmsLevel := by
  obtain ⟨e, n, h | h, -⟩ := letPeripheral_cases s <;> rw [h]
  exact peripheralStep_lastTmsLevel _

theorem enableChannel_lastTmsLevel (f : Nat) (s : State) : (enableChannel f s).lastTmsLevel = s.lastTmsLevel :=
  (letPeripheral_lastTmsLevel (switchPins f (letPeripheral s))).trans (letPeripheral_lastTmsLevel s)

theorem receive_lastTmsLevel (s : State) : (receive s).2.lastTmsLevel = s.lastTmsLevel := by
  unfold receive
  split <;> rfl

/-- The outcome is no next state but one with this TMS cache. -/
def KeepsCache (s : State) (o : Host.Outcome State Fault Refusal) : Prop := ∀ t, o = .next t → t.lastTmsLevel = s.lastTmsLevel

theorem keepsCache_next {s t : State} (h : t.lastTmsLevel = s.lastTmsLevel) : KeepsCache s (.next t) := by
  rintro _ ⟨⟩
  exact h

theorem keepsCache_withSession {s : State} {k : Host.Outcome State Fault Refusal} (h : KeepsCache s k) :
    KeepsCache s (withSession s k) :=
  fun t ht => h t (withSession_eq_next.mp ht).2

theorem execConfigure_on_keepsCache (s : State) : KeepsCache s (execConfigure true s) := by
  show KeepsCache s (configureOn s).finishUnit
  cases hd : usableDivisor s.params s.requestedFreq with
  | none =>
    rw [configureOn_none hd]
    exact keepsCache_next rfl
  | some f =>
    rw [configureOn_eq hd]
    exact keepsCache_next (enableChannel_lastTmsLevel f s)

theorem execSend_keepsCache (v : Unit16) (s : State) : KeepsCache s (execSend v s) := by
  unfold execSend
  split
  · rcases send_cases v s with ⟨-, -, he⟩ | ⟨q, he⟩ <;> rw [he]
    · exact keepsCache_next rfl
    · simp [KeepsCache]
  · exact keepsCache_next rfl

/-- Only a pulse on plain lines and `configure(false)` write the TMS cache (R25). -/
theorem exec_keepsCache {i : Instr} (hi : writesTmsCache i = false) (s : State) : KeepsCache s (exec i s) := by
  cases i with
  | rawBitbang | setTapState | scanCommand | runTest | applyTransition | pulseClock | shiftUnitPolled | transferBlocking | scan
  | xfer | runIdle => cases hi
  | configure enable =>
    cases enable with
    | false => cases hi
    | true => exact execConfigure_on_keepsCache s
  | send v => exact execSend_keepsCache v s
  | receive => exact keepsCache_next (receive_lastTmsLevel s)
  | setFrequency hz => exact keepsCache_withSession (by split <;> exact keepsCache_next rfl)
  | getFrequency | getTapState | setDirectPinControl | setHardwareAssisted | setInterruptDriven =>
    exact keepsCache_withSession (keepsCache_next rfl)
  | openSession =>
    simp only [exec, execOpenSession]
    split <;> exact keepsCache_next rfl
  | tapNext stateCode tms =>
    simp only [exec, execTapNext]
    split <;> exact keepsCache_next rfl
  | computeTransition fromCode toCode =>
    simp only [exec, execComputeTransition]
    split <;> exact keepsCache_next rfl
  | releaseSession | reverseNibbles => exact keepsCache_next rfl

/-! The tracked state. -/

/-- An operation that does not move the tracked state does not know it, or reads it only. -/
theorem exec_keepsCurrentState_of_not_moves {i : Instr} (hi : movesCurrentState i = false) {s t : State}
    (h : exec i s = .next t) : t.currentState = s.currentState := by
  cases i with
  | setTapState | scanCommand | applyTransition | scan | xfer => cases hi
  | getTapState =>
    cases (withSession_eq_next.mp h).2
    rfl
  | _ => exact exec_keepsCurrentState rfl h

/-! The settings. -/

/-- Each setting has one writer, the session flag two; parameters and inputs have none. -/
structure SettingsHaveTheirWriters (i : Instr) (s t : State) : Prop where
  params    : t.params = s.params
  inbox     : t.inbox = s.inbox
  frequency : t.requestedFreq ≠ s.requestedFreq → ∃ hz, i = .setFrequency hz
  mode      : t.activeTransferMode ≠ s.activeTransferMode → ∃ b, i = .setHardwareAssisted b
  interrupt : t.interruptDriven ≠ s.interruptDriven → ∃ b, i = .setInterruptDriven b
  backend   : t.pinControlStrategy ≠ s.pinControlStrategy → ∃ b, i = .setDirectPinControl b
  session   : t.exclusiveOpen ≠ s.exclusiveOpen → i = .openSession ∨ i = .releaseSession

theorem SessionChange.haveTheirWriters {i : Instr} {s t : State} (h : SessionChange s i t) :
    SettingsHaveTheirWriters i s t := by
  cases h with
  | none h =>
    exact ⟨h.params, h.inbox, (absurd h.requestedFreq ·), (absurd h.activeTransferMode ·), (absurd h.interruptDriven ·),
      (absurd h.pinControlStrategy ·), (absurd h.exclusiveOpen ·)⟩
  | frequency h =>
    exact ⟨h.params, h.inbox, fun _ => ⟨_, rfl⟩, (absurd h.activeTransferMode ·), (absurd h.interruptDriven ·),
      (absurd h.pinControlStrategy ·), (absurd h.exclusiveOpen ·)⟩
  | mode h =>
    exact ⟨h.params, h.inbox, (absurd h.requestedFreq ·), fun _ => ⟨_, rfl⟩, (absurd h.interruptDriven ·),
      (absurd h.pinControlStrategy ·), (absurd h.exclusiveOpen ·)⟩
  | interrupt h =>
    exact ⟨h.params, h.inbox, (absurd h.requestedFreq ·), (absurd h.activeTransferMode ·), fun _ => ⟨_, rfl⟩,
      (absurd h.pinControlStrategy ·), (absurd h.exclusiveOpen ·)⟩
  | backend h =>
    exact ⟨h.params, h.inbox, (absurd h.requestedFreq ·), (absurd h.activeTransferMode ·), (absurd h.interruptDriven ·),
      fun _ => ⟨_, rfl⟩, (absurd h.exclusiveOpen ·)⟩
  | opened h =>
    exact ⟨h.params, h.inbox, (absurd h.requestedFreq ·), (absurd h.activeTransferMode ·), (absurd h.interruptDriven ·),
      (absurd h.pinControlStrategy ·), fun _ => .inl rfl⟩
  | released h =>
    exact ⟨h.params, h.inbox, (absurd h.requestedFreq ·), (absurd h.activeTransferMode ·), (absurd h.interruptDriven ·),
      (absurd h.pinControlStrategy ·), fun _ => .inr rfl⟩

/-- Settles O53: what an operation does to the settings, then which operations leave the tracked state and the TMS cache alone. -/
theorem sessionFieldsHaveTheirWriters : Obligations.SessionFieldsHaveTheirWriters := by
  intro i s t he
  obtain ⟨hparams, hinbox, hfreq, hmode, hirq, hbackend, hopen⟩ := (exec_changesSession i s t he).haveTheirWriters
  refine ⟨hparams, hinbox, hfreq, hmode, hirq, hbackend, hopen, fun hne => ?_, fun hne => ?_⟩
  · exact eq_true_of_ne_false fun hi => hne (exec_keepsCurrentState_of_not_moves hi he)
  · exact eq_true_of_ne_false fun hi => hne (exec_keepsCache hi s t he)

end Sys2Proof.Machine

/-! A scan that can complete, on the wire: its data cycles bit by bit, whatever path carries them, and what it answers
(spec/20_memory.md R75, spec/43_scan_engine.md R183, R187, R191). -/

namespace Sys2Proof.Machine

theorem newEvents_of_trace {s t : State} {events : List Event} (h : t.trace = s.trace ++ events) : newEvents s t = events := by
  rw [newEvents, h, List.drop_left]

/-! The answers to a part of the input. -/

@[simp] theorem bitsOf_getD {k n : Nat} (buf : List Byte) (h : k < n) : (bitsOf buf n).getD k false = bit buf k := by
  simp [bitsOf, h]

/-- The answer to a bit does not depend on how many bits follow it (R13). -/
theorem drawTdos_bitsOf_getD {k m n : Nat} (buf : List Byte) (s : State) (hk : k < m) (hm : m ≤ n) :
    (drawTdos (bitsOf buf m) s).1.getD k false = (drawTdos (bitsOf buf n) s).1.getD k false := by
  obtain ⟨r, rfl⟩ := Nat.exists_eq_add_of_le hm
  rw [bitsOf_add, drawTdos_append, List.getD_append _ _ _ _ (by simpa using hk)]

/-! The data cycles. -/

@[simp] theorem wireCycles_sampledEvents (path : Path) (tms : Bool) (tdis tdos : List Bool) :
    wireCycles (sampledEvents path tms tdis tdos) = List.zipWith (fun b r => ⟨tms, b, some r⟩) tdis tdos := by
  induction tdis generalizing tdos with
  | nil => rfl
  | cons b bs ih =>
    cases tdos with
    | nil => rfl
    | cons r rs => exact congrArg (_ :: ·) (ih rs)

theorem wireCycles_map_cycle {α : Type} (l : List α) (path : Path) (tms tdi : α → Bool) (tdo : α → Option Bool) :
    wireCycles (l.map fun k => .cycle path (tms k) (tdi k) (tdo k)) = l.map fun k => ⟨tms k, tdi k, tdo k⟩ := by
  induction l with
  | nil => rfl
  | cons k ks ih => exact congrArg (_ :: ·) ih

/-- The data cycles of a scan cut in two before its last bit: TMS is low in the whole first part (R183, R191). -/
theorem dataWire_split {b n : Nat} (endState : TapState) (buf : List Byte) (tdos : List Bool) (hb : b < n) :
    dataWire n endState buf tdos =
      ((List.range b).map fun k => ⟨false, bit buf k, some (tdos.getD k false)⟩) ++
      (List.range (n - b)).map fun k =>
        ⟨decide (k + 1 = n - b) && !endState.isShift, bit buf (b + k), some (tdos.getD (b + k) false)⟩ := by
  obtain ⟨r, rfl⟩ := Nat.exists_eq_add_of_lt hb
  have hr : b + r + 1 - b = r + 1 := by omega
  rw [hr, dataWire, Nat.add_assoc, List.range_add, List.map_append, List.map_map]
  congr 1
  · refine List.map_congr_left fun k hk => ?_
    rw [List.mem_range] at hk
    have : k + 1 ≠ b + (r + 1) := by omega
    simp [this]
  · refine List.map_congr_left fun k _ => ?_
    have : (b + k + 1 = b + (r + 1)) ↔ (k + 1 = r + 1) := by omega
    simp [this]

theorem scanBulk_lt {n : Nat} (s : State) (hn : 0 < n) : scanBulk n s < n := by
  cases hw : wantsChannel n s with
  | false => rwa [scanBulk_none hw]
  | true => exact (scanBulk_bounds hw).2.2.1

/-- The channel's cycles are the first bits of the scan, with TMS low (R183, R191). -/
theorem wireCycles_bulkEvents {n : Nat} (buf : List Byte) {s : State} (hn : 0 < n) (hu : ScanUsable n s) :
    wireCycles (bulkEvents n buf s) =
      (List.range (scanBulk n s)).map fun k => ⟨false, bit buf k, some ((drawTdos (bitsOf buf n) s).1.getD k false)⟩ := by
  cases hw : wantsChannel n s with
  | false => simp [bulkEvents, scanBulk_none hw, hw, wireCycles]
  | true =>
    obtain ⟨-, htms⟩ := hu hw
    have hwire : wireCycles (bulkEvents n buf s) = List.zipWith (fun b r => (⟨false, b, some r⟩ : WireCycle))
        (bitsOf buf (scanBulk n s)) (drawTdos (bitsOf buf (scanBulk n s)) s).1 := by
      simp [bulkEvents, hw, wireCycles, htms]
    rw [hwire]
    refine List.ext_getElem (by simp) fun k hk _ => ?_
    have hkb : k < scanBulk n s := by simpa using hk
    rw [List.getElem_zipWith, List.getElem_map, List.getElem_range, ← drawTdos_bitsOf_getD buf s hkb (scanBulk_lt s hn).le]
    simp [bitsOf, hkb]

/-- Bulk and bit-bang cycles together are the data cycles of the scan, whatever its path (R191). -/
theorem wireCycles_scanEvents {n : Nat} (endState : TapState) (buf : List Byte) {s : State} (hn : 0 < n)
    (hu : ScanUsable n s) :
    wireCycles (bulkEvents n buf s ++ tailEvents endState buf (scanBulk n s) (n - scanBulk n s)
      ((drawTdos (bitsOf buf n) s).1.drop (scanBulk n s))) =
      dataWire n endState buf (drawTdos (bitsOf buf n) s).1 := by
  rw [wireCycles_append, wireCycles_bulkEvents buf hn hu, tailEvents, wireCycles_map_cycle,
    dataWire_split endState buf _ (scanBulk_lt s hn)]
  simp [List.getD_eq_getElem?_getD]

/-! The operation. -/

/-- The entry checks pass from a Shift state, for an end state's code and a legal length (R181, R61). -/
theorem scan_eq_scanBody {n : Nat} (endState : TapState) (inp : List Byte) {s : State} (hshift : s.currentState.isShift = true)
    (hn : 0 < n) (hmax : n ≤ s.params.maxScanBits) : scan n endState.code inp s = scanBody n endState inp s := by
  simp [scan, hshift, scanLengthLegal, hn.ne', hmax]

theorem exec_scan (endCode : Byte) (n : Word) (buf : List Byte) (s : State) :
    exec (.scan endCode n buf) s = (scan n.toNat endCode buf s).finishBytes := rfl

/-- Settles O30: the scan's body completes, its events are the data cycles and the final transition, and the loop-back fixture
answers with the input. -/
theorem scanShiftsEveryBitOnce : Obligations.ScanShiftsEveryBitOnce := by
  intro s endState n buf hs hshift hn hmax hu tdos
  obtain ⟨out, t, hrun, hlen, hbits, htrace, hframe, -⟩ := scanBody_completes n.toNat endState buf hs hn hu
  have hnew : newEvents s (t.answer 0 out) = _ := newEvents_of_trace htrace
  refine ⟨t.answer 0 out, out, ?run, rfl, hlen, hbits, ?loopback, ?events, ?wire, ?state, ?frame⟩
  case run => rw [exec_scan, scan_eq_scanBody endState buf hshift hn hmax, hrun, Res.finishBytes_ok]
  case loopback =>
    intro hloop k hk
    rw [hbits k hk, drawTdos_loopback _ s hloop, bitsOf_getD buf hk]
  case events => rwa [hnew]
  case wire => rw [hnew, wireCycles_append, wireCycles_scanEvents endState buf hn hu, wireCycles_transitionEvents]
  case state => exact congrArg State.currentState hframe
  case frame => exact congrArg (State.answer · 0 out) hframe

end Sys2Proof.Machine

/-! Descriptors and operations, there and back, the answer to an illegal descriptor, and the packed transition
(spec/30_encoding.md R90 to R101, R106). -/

namespace Sys2Proof

open Laws.EncodesOpcode

/-! Operand bytes and units. -/

theorem flagByte_getLsbD (f : Bool) : (flagByte f).getLsbD 0 = f := by cases f <;> rfl

/-- A byte is a flag's exactly when its reserved bits `c[7:1]` are clear (R91). -/
theorem reservedBits_flag_iff {x : Byte} : x &&& 0xFE#8 = 0 ↔ flagByte (x.getLsbD 0) = x := by
  revert x
  decide

theorem pulseByte_getLsbD (sample tms tdi : Bool) :
    (pulseByte sample tms tdi).getLsbD 2 = sample ∧ (pulseByte sample tms tdi).getLsbD 0 = tms ∧
      (pulseByte sample tms tdi).getLsbD 1 = tdi := by
  revert sample tms tdi
  decide

/-- A byte is a pulse's exactly when its reserved bits `c[7:3]` are clear (R91). -/
theorem reservedBits_pulse_iff {x : Byte} :
    x &&& 0xF8#8 = 0 ↔ pulseByte (x.getLsbD 2) (x.getLsbD 0) (x.getLsbD 1) = x := by
  revert x
  decide

@[simp] theorem extractLsb'_low_setWidth_unit (v : Unit16) : (v.setWidth 32 : Word).extractLsb' 0 16 = v := by
  apply BitVec.eq_of_toNat_eq
  simpa using v.isLt

/-- A word is a unit's exactly when its upper half is clear (R91). -/
theorem upperHalf_eq_zero_iff {w : Word} : w.extractLsb' 16 16 = 0 ↔ (w.extractLsb' 0 16).setWidth 32 = w := by
  rw [← BitVec.toNat_inj, ← BitVec.toNat_inj]
  simp only [BitVec.extractLsb'_toNat, BitVec.toNat_setWidth, BitVec.ofNat_eq_ofNat, BitVec.toNat_ofNat, Nat.shiftRight_zero]
  omega

/-! Answers of the decoder. -/

namespace Decoded

theorem guarded_eq_instr {p : Prop} [Decidable p] {x : Decoded} {why : Reject} {i : Instr} :
    (if p then x else .illegal why) = .instr i ↔ p ∧ x = .instr i := by
  split <;> simp_all

theorem excluded_eq_instr {p : Prop} [Decidable p] {x : Decoded} {why : Reject} {i : Instr} :
    (if p then .illegal why else x) = .instr i ↔ ¬p ∧ x = .instr i := by
  split <;> simp_all

theorem flag_eq_instr {x : Byte} {k : Bool → Instr} {why : Reject} {i : Instr} :
    (if x &&& 0xFE#8 = 0 then .instr (k (x.getLsbD 0)) else illegal why) = .instr i ↔ ∃ f, x = flagByte f ∧ i = k f := by
  rw [guarded_eq_instr, reservedBits_flag_iff]
  constructor
  · rintro ⟨hx, ⟨⟩⟩
    exact ⟨_, hx.symm, rfl⟩
  · rintro ⟨f, rfl, rfl⟩
    rw [flagByte_getLsbD]
    exact ⟨rfl, rfl⟩

theorem pulse_eq_instr {x : Byte} {k : Bool → Bool → Bool → Instr} {why : Reject} {i : Instr} :
    (if x &&& 0xF8#8 = 0 then .instr (k (x.getLsbD 2) (x.getLsbD 0) (x.getLsbD 1)) else illegal why) = .instr i ↔
      ∃ sample tms tdi, x = pulseByte sample tms tdi ∧ i = k sample tms tdi := by
  rw [guarded_eq_instr, reservedBits_pulse_iff]
  constructor
  · rintro ⟨hx, ⟨⟩⟩
    exact ⟨_, _, _, hx.symm, rfl⟩
  · rintro ⟨sample, tms, tdi, rfl, rfl⟩
    obtain ⟨hsample, htms, htdi⟩ := pulseByte_getLsbD sample tms tdi
    rw [hsample, htms, htdi]
    exact ⟨rfl, rfl⟩

end Decoded

/-! Formats (R91): which words a format reads, and as which operation. -/

namespace Descriptor

/-- `W0` is its four fields (R90). -/
theorem word0_fields (d : Descriptor) : word0 d.op d.a d.b d.c = d.w0 := by
  unfold word0 op a b c
  rw [BitVec.extractLsb'_append_extractLsb'_eq_extractLsb' (start₁ := 16) (start₂ := 24) rfl,
    BitVec.extractLsb'_append_extractLsb'_eq_extractLsb' (start₁ := 8) (start₂ := 16) rfl,
    BitVec.extractLsb'_append_extractLsb'_eq_extractLsb' (start₁ := 0) (start₂ := 8) rfl, BitVec.extractLsb'_eq_self]

section

variable {d : Descriptor} {n : Nat} {i : Instr} (hop : d.op.toNat = n)
include hop

/-- Where the code is `n`, `W0` is given by its other three fields. -/
theorem w0_eq_word0 {a b c : Byte} : d.w0 = word0 (BitVec.ofNat 8 n) a b c ↔ d.a = a ∧ d.b = b ∧ d.c = c := by
  constructor
  · intro h
    have hd : d = ⟨word0 (BitVec.ofNat 8 n) a b c, d.w1, d.buf⟩ := by rw [← h]
    rw [hd]
    exact ⟨word0_a .., word0_b .., word0_c ..⟩
  · rintro ⟨rfl, rfl, rfl⟩
    have ho : d.op = BitVec.ofNat 8 n := by rw [← hop, BitVec.ofNat_toNat, BitVec.setWidth_eq]
    rw [← ho, word0_fields]

theorem formatZ_eq_instr {j : Instr} :
    d.formatZ j = .instr i ↔ d.w0 = word0 (BitVec.ofNat 8 n) 0 0 0 ∧ d.w1 = 0 ∧ i = j := by
  simp only [formatZ, Decoded.guarded_eq_instr, w0_eq_word0 hop, Decoded.instr.injEq]
  tauto

theorem formatF_eq_instr {k : Bool → Instr} :
    d.formatF k = .instr i ↔ ∃ f, d.w0 = word0 (BitVec.ofNat 8 n) 0 0 (flagByte f) ∧ d.w1 = 0 ∧ i = k f := by
  rw [formatF, Decoded.guarded_eq_instr, Decoded.flag_eq_instr]
  simp only [w0_eq_word0 hop]
  grind

theorem formatI_eq_instr {k : Word → Instr} :
    d.formatI k = .instr i ↔ d.w0 = word0 (BitVec.ofNat 8 n) 0 0 0 ∧ i = k d.w1 := by
  simp only [formatI, Decoded.guarded_eq_instr, w0_eq_word0 hop, Decoded.instr.injEq]
  tauto

theorem formatUnit_eq_instr {k : Unit16 → Instr} :
    d.formatUnit k = .instr i ↔ ∃ v : Unit16, d.w0 = word0 (BitVec.ofNat 8 n) 0 0 0 ∧ d.w1 = v.setWidth 32 ∧ i = k v := by
  simp only [formatUnit, Decoded.guarded_eq_instr, w0_eq_word0 hop, Decoded.instr.injEq, upperHalf_eq_zero_iff]
  constructor
  · rintro ⟨⟨ha, hb, hc, hw⟩, rfl⟩
    exact ⟨_, ⟨ha, hb, hc⟩, hw.symm, rfl⟩
  · rintro ⟨v, ⟨ha, hb, hc⟩, hw, rfl⟩
    simp [ha, hb, hc, hw]

theorem formatSetTapState_eq_instr :
    d.formatSetTapState = .instr i ↔
      ∃ a b f, d.w0 = word0 (BitVec.ofNat 8 n) a b (flagByte f) ∧ d.w1 = 0 ∧ i = .setTapState a b f := by
  simp only [formatSetTapState, Decoded.guarded_eq_instr, Decoded.flag_eq_instr (k := .setTapState _ _), w0_eq_word0 hop]
  grind

theorem formatT_eq_instr {k : Byte → Byte → Instr} :
    d.formatT k = .instr i ↔ ∃ a b, d.w0 = word0 (BitVec.ofNat 8 n) a b 0 ∧ d.w1 = 0 ∧ i = k a b := by
  simp only [formatT, Decoded.guarded_eq_instr, w0_eq_word0 hop, Decoded.instr.injEq]
  grind

theorem formatTapNext_eq_instr :
    d.formatTapNext = .instr i ↔
      ∃ a f, d.w0 = word0 (BitVec.ofNat 8 n) a 0 (flagByte f) ∧ d.w1 = 0 ∧ i = .tapNext a f := by
  simp only [formatTapNext, Decoded.guarded_eq_instr, Decoded.flag_eq_instr (k := .tapNext _), w0_eq_word0 hop]
  grind

theorem formatPulse_eq_instr :
    d.formatPulse = .instr i ↔
      ∃ sample tms tdi, d.w0 = word0 (BitVec.ofNat 8 n) 0 0 (pulseByte sample tms tdi) ∧ d.w1 = 0 ∧
        i = .pulseClock sample tms tdi := by
  rw [formatPulse, Decoded.guarded_eq_instr, Decoded.pulse_eq_instr]
  simp only [w0_eq_word0 hop]
  grind

theorem formatByte_eq_instr {k : Byte → Instr} :
    d.formatByte k = .instr i ↔ ∃ c, d.w0 = word0 (BitVec.ofNat 8 n) 0 0 c ∧ d.w1 = 0 ∧ i = k c := by
  simp only [formatByte, Decoded.guarded_eq_instr, w0_eq_word0 hop, Decoded.instr.injEq]
  grind

theorem formatPairs_eq_instr :
    d.formatPairs = .instr i ↔
      d.w0 = word0 (BitVec.ofNat 8 n) 0 0 0 ∧ i = .rawBitbang d.w1 d.buf ∧ i.wellFormed = true := by
  simp only [formatPairs, Decoded.guarded_eq_instr, Decoded.excluded_eq_instr, w0_eq_word0 hop, Decoded.instr.injEq]
  constructor
  · rintro ⟨hw, hlen, hall, rfl⟩
    exact ⟨hw, rfl, by simpa [Instr.wellFormed, hall] using hlen⟩
  · rintro ⟨hw, rfl, hwf⟩
    simpa [hw, Instr.wellFormed] using hwf

theorem formatBytes_eq_instr :
    d.formatBytes = .instr i ↔ d.w0 = word0 (BitVec.ofNat 8 n) 0 0 0 ∧ i = .transferBlocking d.w1 d.buf := by
  simp only [formatBytes, Decoded.guarded_eq_instr, w0_eq_word0 hop, Decoded.instr.injEq]
  tauto

theorem formatScanCommand_eq_instr :
    d.formatScanCommand = .instr i ↔
      ∃ t src dest, d.w0 = word0 (BitVec.ofNat 8 n) src dest t ∧ i = .scanCommand t src dest d.w1 d.buf ∧
        i.wellFormed = true := by
  simp only [formatScanCommand, Decoded.excluded_eq_instr, w0_eq_word0 hop, Decoded.instr.injEq]
  constructor
  · rintro ⟨ht, hlen, rfl⟩
    exact ⟨_, _, _, ⟨rfl, rfl, rfl⟩, rfl, by simp_all [Instr.wellFormed]⟩
  · rintro ⟨t, src, dest, ⟨rfl, rfl, rfl⟩, rfl, hwf⟩
    simpa [Instr.wellFormed] using hwf

theorem formatScan_eq_instr :
    d.formatScan = .instr i ↔ ∃ dest, d.w0 = word0 (BitVec.ofNat 8 n) 0 dest 0 ∧ i = .scan dest d.w1 d.buf := by
  simp only [formatScan, Decoded.guarded_eq_instr, w0_eq_word0 hop, Decoded.instr.injEq]
  grind

/-- The format S of the primitive xfer, every field of which is an operand (R91, R93). -/
theorem xferFields_eq_instr :
    Decoded.instr (.xfer d.c d.a d.b d.w1 d.buf) = .instr i ↔
      ∃ t src dest, d.w0 = word0 (BitVec.ofNat 8 n) src dest t ∧ i = .xfer t src dest d.w1 d.buf := by
  simp only [w0_eq_word0 hop, Decoded.instr.injEq]
  constructor
  · rintro rfl
    exact ⟨_, _, _, ⟨rfl, rfl, rfl⟩, rfl⟩
  · rintro ⟨t, src, dest, ⟨rfl, rfl, rfl⟩, rfl⟩
    rfl

end

/-! What a decoded operation has of the descriptor (R90, R101). -/

/-- The operation is well formed, and the descriptor has its words, and its buffer if it takes one. -/
def Carries (d : Descriptor) (i : Instr) : Prop :=
  i.wellFormed = true ∧ (encode i).w0 = d.w0 ∧ (encode i).w1 = d.w1 ∧ ((encode i).buf = d.buf ∨ (encode i).buf = [])

theorem carries_of_encode_eq {d : Descriptor} {i : Instr} (hwf : i.wellFormed = true) (he : encode i = ⟨d.w0, d.w1, []⟩) :
    d.Carries i := by
  rw [Carries, he]
  exact ⟨hwf, rfl, rfl, .inr rfl⟩

section

variable {d : Descriptor} {n : Nat} {i : Instr} (hop : d.op.toNat = n)
include hop

theorem formatZ_carries {j : Instr} (hwf : j.wellFormed = true) (he : encode j = ⟨word0 (BitVec.ofNat 8 n) 0 0 0, 0, []⟩)
    (h : d.formatZ j = .instr i) : d.Carries i := by
  obtain ⟨hw0, hw1, rfl⟩ := (formatZ_eq_instr hop).1 h
  exact carries_of_encode_eq hwf (by rw [he, hw0, hw1])

theorem formatF_carries {k : Bool → Instr} (hwf : ∀ f, (k f).wellFormed = true)
    (he : ∀ f, encode (k f) = ⟨word0 (BitVec.ofNat 8 n) 0 0 (flagByte f), 0, []⟩) (h : d.formatF k = .instr i) :
    d.Carries i := by
  obtain ⟨f, hw0, hw1, rfl⟩ := (formatF_eq_instr hop).1 h
  exact carries_of_encode_eq (hwf f) (by rw [he, hw0, hw1])

theorem formatI_carries {k : Word → Instr} (hwf : ∀ x, (k x).wellFormed = true)
    (he : ∀ x, encode (k x) = ⟨word0 (BitVec.ofNat 8 n) 0 0 0, x, []⟩) (h : d.formatI k = .instr i) : d.Carries i := by
  obtain ⟨hw0, rfl⟩ := (formatI_eq_instr hop).1 h
  exact carries_of_encode_eq (hwf d.w1) (by rw [he, hw0])

theorem formatUnit_carries {k : Unit16 → Instr} (hwf : ∀ v, (k v).wellFormed = true)
    (he : ∀ v, encode (k v) = ⟨word0 (BitVec.ofNat 8 n) 0 0 0, v.setWidth 32, []⟩) (h : d.formatUnit k = .instr i) :
    d.Carries i := by
  obtain ⟨v, hw0, hw1, rfl⟩ := (formatUnit_eq_instr hop).1 h
  exact carries_of_encode_eq (hwf v) (by rw [he, hw0, hw1])

theorem formatT_carries {k : Byte → Byte → Instr} (hwf : ∀ a b, (k a b).wellFormed = true)
    (he : ∀ a b, encode (k a b) = ⟨word0 (BitVec.ofNat 8 n) a b 0, 0, []⟩) (h : d.formatT k = .instr i) : d.Carries i := by
  obtain ⟨a, b, hw0, hw1, rfl⟩ := (formatT_eq_instr hop).1 h
  exact carries_of_encode_eq (hwf a b) (by rw [he, hw0, hw1])

end

end Descriptor

/-! Rows. -/

theorem encode_op (i : Instr) : (encode i).op = opcode i := by
  cases i <;> exact word0_op ..

section

open Descriptor

/-- The code selects the row of the operation, whose format reads the operands back. -/
theorem decode_encode {i : Instr} (hwf : i.wellFormed = true) : decode (encode i) = .instr i := by
  have hop : (encode i).op.toNat = (opcode i).toNat := by rw [encode_op]
  rw [decode, hop]
  cases i with
  | setFrequency hz => exact (formatI_eq_instr hop).2 ⟨rfl, rfl⟩
  | getFrequency => exact (formatZ_eq_instr hop).2 ⟨rfl, rfl, rfl⟩
  | rawBitbang length buf => exact (formatPairs_eq_instr hop).2 ⟨rfl, rfl, hwf⟩
  | setTapState fromCode toCode forceReset => exact (formatSetTapState_eq_instr hop).2 ⟨_, _, _, rfl, rfl, rfl⟩
  | getTapState => exact (formatZ_eq_instr hop).2 ⟨rfl, rfl, rfl⟩
  | scanCommand scanType fromCode endCode lengthBits buf =>
    exact (formatScanCommand_eq_instr hop).2 ⟨_, _, _, rfl, rfl, hwf⟩
  | runTest cycles => exact (formatI_eq_instr hop).2 ⟨rfl, rfl⟩
  | setDirectPinControl flag => exact (formatF_eq_instr hop).2 ⟨_, rfl, rfl, rfl⟩
  | setHardwareAssisted flag => exact (formatF_eq_instr hop).2 ⟨_, rfl, rfl, rfl⟩
  | setInterruptDriven flag => exact (formatF_eq_instr hop).2 ⟨_, rfl, rfl, rfl⟩
  | openSession => exact (formatZ_eq_instr hop).2 ⟨rfl, rfl, rfl⟩
  | releaseSession => exact (formatZ_eq_instr hop).2 ⟨rfl, rfl, rfl⟩
  | tapNext stateCode tms => exact (formatTapNext_eq_instr hop).2 ⟨_, _, rfl, rfl, rfl⟩
  | computeTransition fromCode toCode => exact (formatT_eq_instr hop).2 ⟨_, _, rfl, rfl, rfl⟩
  | applyTransition fromCode toCode => exact (formatT_eq_instr hop).2 ⟨_, _, rfl, rfl, rfl⟩
  | pulseClock sampleTdo tms tdi => exact (formatPulse_eq_instr hop).2 ⟨_, _, _, rfl, rfl, rfl⟩
  | reverseNibbles x => exact (formatByte_eq_instr hop).2 ⟨_, rfl, rfl, rfl⟩
  | configure enable => exact (formatF_eq_instr hop).2 ⟨_, rfl, rfl, rfl⟩
  | send unit => exact (formatUnit_eq_instr hop).2 ⟨_, rfl, rfl, rfl⟩
  | receive => exact (formatZ_eq_instr hop).2 ⟨rfl, rfl, rfl⟩
  | shiftUnitPolled unit => exact (formatUnit_eq_instr hop).2 ⟨_, rfl, rfl, rfl⟩
  | transferBlocking byteCount buf => exact (formatBytes_eq_instr hop).2 ⟨rfl, rfl⟩
  | scan endCode lengthBits buf => exact (formatScan_eq_instr hop).2 ⟨_, rfl, rfl⟩
  | xfer scanType fromCode endCode lengthBits buf => exact (xferFields_eq_instr hop).2 ⟨_, _, _, rfl, rfl⟩
  | runIdle cycles => exact (formatI_eq_instr hop).2 ⟨rfl, rfl⟩

/-- Settles O1: each row reads back what the encoder wrote for it. -/
theorem decodeInvertsEncode : Obligations.DecodeInvertsEncode := fun _ => decode_encode

/-- The row that `op` selects reads the words its operation encodes to, and no others. -/
theorem carries_of_decode {d : Descriptor} {i : Instr} (h : decode d = .instr i) : d.Carries i := by
  rw [decode] at h
  split at h
  -- one case per arm, in the order of the codes
  next hop => exact formatI_carries hop (fun _ => rfl) (fun _ => rfl) h
  next hop => exact formatZ_carries hop rfl rfl h
  next hop =>
    obtain ⟨hw0, rfl, hwf⟩ := (formatPairs_eq_instr hop).1 h
    exact ⟨hwf, hw0.symm, rfl, .inl rfl⟩
  next hop =>
    obtain ⟨a, b, f, hw0, hw1, rfl⟩ := (formatSetTapState_eq_instr hop).1 h
    exact ⟨rfl, hw0.symm, hw1.symm, .inr rfl⟩
  next hop => exact formatZ_carries hop rfl rfl h
  next hop =>
    obtain ⟨t, src, dest, hw0, rfl, hwf⟩ := (formatScanCommand_eq_instr hop).1 h
    exact ⟨hwf, hw0.symm, rfl, .inl rfl⟩
  next hop => exact formatI_carries hop (fun _ => rfl) (fun _ => rfl) h
  next hop => exact formatF_carries hop (fun _ => rfl) (fun _ => rfl) h
  next hop => exact formatF_carries hop (fun _ => rfl) (fun _ => rfl) h
  next hop => exact formatF_carries hop (fun _ => rfl) (fun _ => rfl) h
  next hop => exact formatZ_carries hop rfl rfl h
  next hop => exact formatZ_carries hop rfl rfl h
  next hop =>
    obtain ⟨a, f, hw0, hw1, rfl⟩ := (formatTapNext_eq_instr hop).1 h
    exact ⟨rfl, hw0.symm, hw1.symm, .inr rfl⟩
  next hop => exact formatT_carries hop (fun _ _ => rfl) (fun _ _ => rfl) h
  next hop => exact formatT_carries hop (fun _ _ => rfl) (fun _ _ => rfl) h
  next hop =>
    obtain ⟨sample, tms, tdi, hw0, hw1, rfl⟩ := (formatPulse_eq_instr hop).1 h
    exact ⟨rfl, hw0.symm, hw1.symm, .inr rfl⟩
  next hop =>
    obtain ⟨c, hw0, hw1, rfl⟩ := (formatByte_eq_instr hop).1 h
    exact ⟨rfl, hw0.symm, hw1.symm, .inr rfl⟩
  next hop => exact formatF_carries hop (fun _ => rfl) (fun _ => rfl) h
  next hop => exact formatUnit_carries hop (fun _ => rfl) (fun _ => rfl) h
  next hop => exact formatZ_carries hop rfl rfl h
  next hop => exact formatUnit_carries hop (fun _ => rfl) (fun _ => rfl) h
  next hop =>
    obtain ⟨hw0, rfl⟩ := (formatBytes_eq_instr hop).1 h
    exact ⟨rfl, hw0.symm, rfl, .inl rfl⟩
  next hop =>
    obtain ⟨dest, hw0, rfl⟩ := (formatScan_eq_instr hop).1 h
    exact ⟨rfl, hw0.symm, rfl, .inl rfl⟩
  next hop =>
    obtain ⟨t, src, dest, hw0, rfl⟩ := (xferFields_eq_instr hop).1 h
    exact ⟨rfl, hw0.symm, rfl, .inl rfl⟩
  next hop => exact formatI_carries hop (fun _ => rfl) (fun _ => rfl) h
  next => cases h

/-- Settles O2: it is what `Carries` says of the decoded operation. -/
theorem encodeInvertsDecode : Obligations.EncodeInvertsDecode := fun _ _ => carries_of_decode

end

end Sys2Proof

namespace Sys2Proof.Machine

open Laws.EncodesOpcode

/-! Illegal descriptors (R101). -/

theorem failsUnchanged_raise (s : State) (e : ErrorKind) : FailsUnchanged (.next (s.raise e)) s e := ⟨_, _, _, rfl⟩

theorem opcode_command {i : Instr} (h : (opcode i).getLsbD 7 = false) : opcode i ≠ 0 ∧ (opcode i).toNat < 0x0D := by
  cases i <;> revert h <;> simp [opcode]

/-- What the command surface reads is a command, and the descriptor carries it. -/
theorem decodeAt_command_eq_instr {d : Descriptor} {i : Instr} (h : decodeAt .command d = .instr i) :
    d.op ≠ 0 ∧ d.op.toNat < 0x0D ∧ d.Carries i := by
  rw [decodeAt, Decoded.excluded_eq_instr, Bool.not_eq_true] at h
  obtain ⟨hprim, hdec⟩ := h
  obtain ⟨hwf, hw0, hw1, hbuf⟩ := carries_of_decode hdec
  have hop : d.op = opcode i := by rw [← encode_op, Descriptor.op, Descriptor.op, hw0]
  rw [Descriptor.isPrimitiveOp, hop] at hprim
  obtain ⟨hzero, hlt⟩ := opcode_command hprim
  rw [hop]
  exact ⟨hzero, hlt, hwf, hw0, hw1, hbuf⟩

/-- An illegal descriptor is taken off the queue and answered (R101, R211 (1)). -/
theorem step_illegal {s : State} {r : Request} {rest : List Input} {why : Reject} (hx : s.xfer = none)
    (hi : s.inbox = .request r :: rest) (h : decodeAt r.surface r.descriptor = .illegal why) :
    FailsUnchanged (step s) { s with inbox := rest } .invalidArgument := by
  rw [step_input hx hi, takeInput, perform, h]
  exact failsUnchanged_raise _ _

/-- Settles O4: a descriptor that decoded at the command surface would be a command's and carry it. -/
theorem illegalDescriptorIsInvalidArgument : Obligations.IllegalDescriptorIsInvalidArgument := by
  intro s d rest hx hi hbad
  cases h : decodeAt .command d with
  | illegal why => exact step_illegal hx hi h
  | instr i =>
    obtain ⟨hzero, hlt, hwf, hwords⟩ := decodeAt_command_eq_instr h
    obtain hz | hge | hnone := hbad
    · exact absurd hz hzero
    · omega
    · exact absurd hwords (hnone i hwf)

/-- Settles O3: the decoder evaluates to the nine operations, and to no operation on the two illegal descriptors. -/
theorem workedEncodingsDecode : Obligations.WorkedEncodingsDecode := by
  refine ⟨by decide, by decide, by decide, by decide, by decide, by decide, by decide, by decide, by decide, ?illegal⟩
  rintro s rest w0 (rfl | rfl) hx hi
  · exact step_illegal hx hi (why := .unknownOp) (by decide)
  · exact step_illegal hx hi (why := .primitiveAtCommandSurface) (by decide)

/-! The packed transition (R100). -/

/-- Bit `k` of the pattern is the level of cycle `k`. -/
theorem packPattern_getLsbD (tms : List Bool) {k : Nat} (hk : k < 8) : (packPattern tms).getLsbD k = tms.getD k false := by
  induction tms generalizing k with
  | nil => simp [packPattern]
  | cons t ts ih =>
    cases k with
    | zero => cases t <;> simp [packPattern]
    | succ k =>
      have hnext : (if t then 1#8 else 0#8).getLsbD (k + 1) = false := by cases t <;> simp
      have hk' : k < 8 := by omega
      simp only [packPattern, BitVec.getLsbD_or, BitVec.getLsbD_shiftLeft, hnext]
      simpa [hk] using ih hk'

/-- The packed form, bit by bit: the pattern, then the count (R100). -/
theorem packTransition_getLsbD (tms : List Bool) (k : Nat) :
    (packTransition tms).getLsbD k =
      if k < 8 then (packPattern tms).getLsbD k else (BitVec.ofNat 4 tms.length).getLsbD (k - 8) := by
  rw [packTransition, BitVec.getLsbD_setWidth, BitVec.getLsbD_append]
  by_cases hk : k < 32
  · simp [hk]
  · have h8 : ¬k < 8 := by omega
    have h4 : 4 ≤ k - 8 := by omega
    simp [hk, h8, BitVec.getLsbD_of_ge _ _ h4]

/-- Settles O10: bit by bit, in the pattern, in the count and above both. -/
theorem packedTransitionReadsBack : Obligations.PackedTransitionReadsBack := by
  intro tms _
  refine ⟨?count, ?above, fun k hk => ?pattern⟩
  case count =>
    apply BitVec.eq_of_getLsbD_eq
    intro j hj
    simp [packTransition_getLsbD, hj]
  case above =>
    apply BitVec.eq_of_getLsbD_eq
    intro j hj
    have h8 : ¬12 + j < 8 := by omega
    have h4 : 4 ≤ 12 + j - 8 := by omega
    simp [packTransition_getLsbD, h8, BitVec.getLsbD_of_ge _ _ h4]
  case pattern => rw [packTransition_getLsbD, if_pos hk, packPattern_getLsbD tms hk]

/-! Units out of range (R98). -/

theorem unitLegal_eq_false {u : UnitWidth} {v : Unit16} (h : 2 ^ u.bits ≤ v.toNat) : unitLegal u v = false :=
  decide_eq_false (Nat.not_lt.mpr h)

/-- Settles O21: both operations check the unit first. -/
theorem unitOutOfRangeIsInvalidArgument : Obligations.UnitOutOfRangeIsInvalidArgument := by
  intro s v hv
  have hbad := unitLegal_eq_false hv
  constructor
  · rw [exec, execSend, hbad]
    exact failsUnchanged_raise s _
  · rw [exec, execShiftUnitPolled, hbad]
    exact failsUnchanged_raise s _

end Sys2Proof.Machine

/-! The graph, its shortest paths and the transitions that drive them (spec/40_tap_state_machine.md R121 to R129). -/

namespace Sys2Proof.Machine

/-! The graph (R121, R122). -/

theorem mem_allStates (t : TapState) : t ∈ allStates := by cases t <;> decide

/-- What an enumeration of the sixteen states finds holds of every state. -/
theorem forall_of_allStates {p : TapState → Prop} (h : ∀ t ∈ allStates, p t) (t : TapState) : p t := h t (mem_allStates t)

/-- The rows of the source's table are the edges of `tapNext`. -/
theorem tapNext_of_mem_graphRows {row : TapState × TapState × TapState} (h : row ∈ graphRows) :
    tapNext row.1 false = row.2.1 ∧ tapNext row.1 true = row.2.2 := by
  revert row
  decide

theorem exec_tapNext (t : TapState) (tms : Bool) (s : State) :
    exec (.tapNext t.code tms) s = .next (s.answer ((tapNext t tms).code.setWidth 32) []) := by
  rw [exec, execTapNext, ofCode_code]

theorem exec_tapNext_illegal {c : Byte} (h : 15 < c.toNat) (tms : Bool) (s : State) :
    exec (.tapNext c tms) s = .next (s.raise .invalidState) := by
  rw [exec, execTapNext, ofCode_eq_none.2 h]

/-- Settles O6: an operation on a legal code answers the edge of `tapNext`, which is the row's. -/
theorem tapNextFollowsTheGraph : Obligations.TapNextFollowsTheGraph := by
  refine ⟨fun row hrow s => ?rows, by decide, fun c tms s hc => ?illegal⟩
  case rows =>
    obtain ⟨hlow, hhigh⟩ := tapNext_of_mem_graphRows hrow
    rw [exec_tapNext, exec_tapNext, hlow, hhigh]
    exact ⟨rfl, rfl⟩
  case illegal =>
    rw [exec_tapNext_illegal hc]
    exact failsUnchanged_raise s _

theorem walk_reset_replicate_true (n : Nat) : walk .testLogicReset (List.replicate n true) = .testLogicReset := by
  induction n with
  | zero => rfl
  | succ n ih => rw [List.replicate_succ, walk_cons, tapNext, ih]

/-- Five high levels reset every target, and it stays there while TMS is high (R122 (d)). -/
theorem walk_replicate_true {n : Nat} (h : 5 ≤ n) (t : TapState) : walk t (List.replicate n true) = .testLogicReset := by
  obtain ⟨k, rfl⟩ := Nat.exists_eq_add_of_le h
  have hfive : ∀ t, walk t (List.replicate 5 true) = .testLogicReset := forall_of_allStates (by decide)
  rw [List.replicate_add, walk_append, hfive, walk_reset_replicate_true]

/-- A Shift state is entered by an edge with TMS low, from Capture, Exit2 or itself (R122 (e)). -/
theorem entry_of_isShift : ∀ (t : TapState) (tms : Bool), (tapNext t tms).isShift = true →
    tms = false ∧ t ∈ [.captureDR, .exit2DR, .shiftDR, .captureIR, .exit2IR, .shiftIR] :=
  forall_of_allStates (by decide)

/-- Settles O7: reachability by the shortest paths, the long runs by `walk_replicate_true`, the rest state by state. -/
theorem graphFacts : Obligations.GraphFacts := by
  refine ⟨⟨rfl, by decide, mem_allStates⟩, ⟨rfl, by decide⟩, ?reachable, ?lowLoops, ?highLoops, ?reset, ?fourAreTooFew,
    entry_of_isShift, rfl, rfl⟩
  case reachable => exact fun src dest => ⟨computeTransition src dest, walk_computeTransition src dest⟩
  case lowLoops => exact forall_of_allStates (by decide)
  case highLoops => exact forall_of_allStates (by decide)
  case reset => exact fun t n hn => walk_replicate_true hn t
  case fourAreTooFew => exact forall_of_allStates (by decide)

/-! The shortest paths (R123, R124). -/

/-- Settles O9: the search finds each cell, row by row. (The table itself has the plain name.) -/
theorem transitionTable_holds : Obligations.TransitionTable := by
  unfold Obligations.TransitionTable
  decide

/-- A first edge either begins the path or leads no nearer to the destination. -/
theorem computeTransition_first (src dest : TapState) (b : Bool) :
    computeTransition src dest = b :: computeTransition (tapNext src b) dest ∨
      (computeTransition src dest).length ≤ (computeTransition (tapNext src b) dest).length := by
  cases src <;> cases dest <;> cases b <;> decide

/-- Every other way from `src` to `dest` is longer than the path: edge by edge, as its first edge is the path's or is wasted. -/
theorem computeTransition_eq_or_shorter {src dest : TapState} {l : List Bool} (h : walk src l = dest) :
    computeTransition src dest = l ∨ (computeTransition src dest).length < l.length := by
  induction l generalizing src with
  | nil => exact .inl (computeTransition_eq_nil.2 h)
  | cons b l ih =>
    rw [List.length_cons]
    obtain hstep | hstep := computeTransition_first src dest b
    · rw [hstep, List.length_cons]
      obtain hrest | hrest := ih h
      · exact .inl (by rw [hrest])
      · exact .inr (by omega)
    · have hrest : (computeTransition (tapNext src b) dest).length ≤ l.length :=
        (ih h).elim (fun heq => heq ▸ Nat.le_refl _) Nat.le_of_lt
      exact .inr (by omega)

theorem exec_computeTransition (src dest : TapState) (s : State) :
    exec (.computeTransition src.code dest.code) s = .next (s.answer (packTransition (computeTransition src dest)) []) := by
  simp only [exec, execComputeTransition, ofCode_code]

theorem exec_computeTransition_illegal {a b : Byte} (h : 15 < a.toNat ∨ 15 < b.toNat) (s : State) :
    exec (.computeTransition a b) s = .next (s.raise .invalidState) := by
  rw [exec, execComputeTransition]
  obtain h | h := h
  · rw [ofCode_eq_none.2 h]
  · rw [ofCode_eq_none.2 h]
    cases TapState.ofCode a <;> rfl

/-- Settles O8: the path arrives, and whatever else arrives is longer. -/
theorem computeTransitionIsTheShortestPath : Obligations.ComputeTransitionIsTheShortestPath := by
  refine ⟨fun src dest s => ⟨exec_computeTransition src dest s, walk_computeTransition src dest,
    computeTransition_length src dest, fun l hl => ?shortest⟩, fun a b s h => ?illegal⟩
  case shortest =>
    obtain rfl | hlt := computeTransition_eq_or_shorter hl
    · exact ⟨Nat.le_refl _, fun _ => rfl⟩
    · exact ⟨Nat.le_of_lt hlt, fun he => absurd he (Nat.ne_of_lt hlt)⟩
  case illegal =>
    rw [exec_computeTransition_illegal h]
    exact failsUnchanged_raise s _

/-! The transitions (R125 to R129). -/

/-- The two forms of `from` (R125, R128). -/
theorem resolveFrom_eq_some {c : Byte} {src t : TapState} (h : c = currentCode ∧ src = t ∨ c = src.code) :
    resolveFrom c t = some src := by
  obtain ⟨rfl, rfl⟩ | rfl := h
  · exact resolveFrom_current src
  · exact resolveFrom_code src t

/-- What a transition from `src` to `dest` leaves on plain lines (R126). -/
def State.transitioned (src dest : TapState) (s : State) : State :=
  { s with
    currentState := dest
    lines := linesAfterTms s (transitionTms src dest)
    lastTmsLevel := (linesAfterTms s (transitionTms src dest)).tms
    trace := s.trace ++ transitionEvents (transitionTms src dest)
    response := some ⟨.ok, 0, []⟩ }

/-- The target walks the transition's levels from where it stands. -/
theorem targetAfter_transitioned (t₀ src dest : TapState) (s : State) :
    targetAfter t₀ (s.transitioned src dest).trace = walk (targetAfter t₀ s.trace) (transitionTms src dest) :=
  (targetAfter_append t₀ s.trace _).trans (targetAfter_transitionEvents _ _)

theorem transitionTms_reset (src : TapState) : transitionTms src .testLogicReset = List.replicate 9 true := if_pos rfl

/-- On plain lines with the cache in step the transition happens (R126, R127). -/
theorem exec_applyTransition_line {s : State} {fromCode : Byte} {src : TapState} (hpin : s.chan.pinFunction = .line)
    (hcache : s.lastTmsLevel = s.lines.tms) (hfrom : resolveFrom fromCode s.currentState = some src) (dest : TapState) :
    exec (.applyTransition fromCode dest.code) s = .next (s.transitioned src dest) := by
  rw [exec, execApplyTransition, applyTransition_line hpin hcache hfrom (ofCode_code dest)]
  rfl

theorem exec_applyTransition_illegal {fromCode toCode : Byte} (h : 16 < fromCode.toNat ∨ 15 < toCode.toNat) (s : State) :
    exec (.applyTransition fromCode toCode) s = .next (s.raise .invalidState) := by
  rw [exec, execApplyTransition, applyTransition_illegal h]
  rfl

/-- Settles O11: both forms of `from` resolve to `src`, and the operation leaves what `State.transitioned` says. -/
theorem applyTransitionDrivesThePath : Obligations.ApplyTransitionDrivesThePath := by
  refine ⟨fun s fromCode src dest hpin hcache hfrom => ?drives, fun s fromCode toCode h => ?illegal⟩
  case drives => exact exec_applyTransition_line hpin hcache (resolveFrom_eq_some hfrom) dest
  case illegal =>
    rw [exec_applyTransition_illegal h]
    exact failsUnchanged_raise s _

/-- Settles O12: nine levels whatever `from` resolves to, and nine high levels reset every target. -/
theorem resetOverrideIsNinePulses : Obligations.ResetOverrideIsNinePulses := by
  intro s fromCode hpin hcache hcode
  obtain ⟨src, hfrom⟩ : ∃ src, resolveFrom fromCode s.currentState = some src := by
    rw [← Option.ne_none_iff_exists', Ne, resolveFrom_eq_none]
    omega
  refine ⟨_, exec_applyTransition_line hpin hcache hfrom _, rfl, rfl, ?cycles, fun t₀ => ?target⟩
  case cycles =>
    change s.trace ++ transitionEvents (transitionTms src .testLogicReset) = _
    rw [transitionTms_reset, transitionEvents, List.map_replicate]
  case target => rw [targetAfter_transitioned, transitionTms_reset, walk_nine]

/-- Settles O13: the levels lead from `src` to `dest`, and from anywhere to TestLogicReset. -/
theorem transitionKeepsTrack : Obligations.TransitionKeepsTrack := by
  intro s fromCode src dest t₀ hpin hcache hfrom hstands
  refine ⟨_, exec_applyTransition_line hpin hcache (resolveFrom_eq_some hfrom) dest, rfl, ?target, rfl⟩
  rw [targetAfter_transitioned]
  obtain hsrc | rfl := hstands
  · rw [hsrc, walk_transitionTms]
  · rw [transitionTms_reset, walk_nine]

end Sys2Proof.Machine

/-! One pulse at the harness, and where the model refuses (spec/41_clock_cycle.md R140 to R144; spec/42_hw_shift_channel.md R161). -/

namespace Sys2Proof.Machine

/-! The pulse (R140 to R144). -/

/-- What a pulse called by a harness leaves on plain lines, `drawn` being the state after its TDO draw, if it made one, and
`sample` that draw's answer (R140). -/
def State.afterPulse (s drawn : State) (tms tdi : Bool) (sample : Option Bool) : State :=
  { drawn with
    lines := s.lines.pulsed (pulsedTms s tms) tdi
    lastTmsLevel := tms
    trace := s.trace ++ [.cycle .bb (pulsedTms s tms) tdi sample]
    response := some ⟨.ok, bitWord (sample.getD false), []⟩ }

/-- A pulse on plain lines completes and answers its bit (R140, R144). -/
theorem exec_pulseClock_line {s : State} (hpin : s.chan.pinFunction = .line) (sampleTdo tms tdi : Bool) :
    exec (.pulseClock sampleTdo tms tdi) s =
      .next ((pulse sampleTdo tms tdi s).2.answer (bitWord (pulse sampleTdo tms tdi s).1) []) := by
  rw [exec, execPulseClock, pulseClock_line _ _ _ hpin]
  rfl

theorem exec_pulseClock_peripheral {s : State} (hpin : s.chan.pinFunction = .peripheral) (sampleTdo tms tdi : Bool) :
    exec (.pulseClock sampleTdo tms tdi) s = .refused .pulseInPeripheralFunction := by
  rw [exec, execPulseClock, pulseClock_peripheral _ _ _ hpin]
  rfl

/-- Without sampling there is no draw and the answer is 0 (R143). -/
theorem exec_pulseClock_unsampled {s : State} (hpin : s.chan.pinFunction = .line) (tms tdi : Bool) :
    exec (.pulseClock false tms tdi) s = .next (s.afterPulse s tms tdi none) := by
  rw [exec_pulseClock_line hpin, pulse_unsampled]
  rfl

/-- With sampling the answer and the cycle's sample are the one draw, which leaves the trace alone (R142). -/
theorem exec_pulseClock_sampled {s : State} (hpin : s.chan.pinFunction = .line) (tms tdi : Bool) :
    exec (.pulseClock true tms tdi) s =
      .next (s.afterPulse (s.drawTdo tdi).2 tms tdi (some (s.drawTdo tdi).1)) := by
  rw [exec_pulseClock_line hpin, pulse_sampled, State.afterPulse, ← State.drawTdo_trace s tdi]
  rfl

/-- Settles O14: without and with sampling the pulse leaves what `State.afterPulse` says; with the cache in step the elided
write is of the level that stands on the wire. -/
theorem pulseClockEffect : Obligations.PulseClockEffect := by
  intro s tms tdi hpin
  exact ⟨exec_pulseClock_unsampled hpin tms tdi, exec_pulseClock_sampled hpin tms tdi, pulsedTms_cached tms⟩

/-! Refusals (R144, R161; log 32). -/

theorem send_line (v : Unit16) {s : State} (hpin : s.chan.pinFunction = .line) :
    send v s = .refused .sendWhileDisabled := by
  simp [send, State.channelEnabled, hpin]

theorem send_busy (v : Unit16) {s : State} (hpin : s.chan.pinFunction = .peripheral) (hbusy : s.chan.stat.busy = true) :
    send v s = .refused .sendWhileBusy := by
  simp [send, State.channelEnabled, hpin, hbusy]

theorem unitLegal_eq_true {u : UnitWidth} {v : Unit16} (h : v.toNat < 2 ^ u.bits) : unitLegal u v = true :=
  decide_eq_true h

/-- A unit in range that `send` refuses is a refusal of the operation. -/
theorem exec_send_refused {s : State} {v : Unit16} {q : Refusal} (hv : v.toNat < 2 ^ s.unit.bits)
    (h : send v s = .refused q) : exec (.send v) s = .refused q := by
  rw [exec, execSend, unitLegal_eq_true hv, if_pos rfl, h]
  rfl

/-- Settles O15: the pins' function refuses the pulse; the pins' function and the busy flag refuse the unit. -/
theorem refusedOutsideTheirPreconditions : Obligations.RefusedOutsideTheirPreconditions := by
  refine ⟨fun s sampleTdo tms tdi hpin => ?pulse, fun s v hv => ⟨fun hpin => ?disabled, fun hpin hbusy => ?busy⟩⟩
  case pulse => exact exec_pulseClock_peripheral hpin sampleTdo tms tdi
  case disabled => exact exec_send_refused hv (send_line v hpin)
  case busy => exact exec_send_refused hv (send_busy v hpin hbusy)

end Sys2Proof.Machine

/-! The adapter, and one operation on the hardware shift channel at a time (spec/42_hw_shift_channel.md R151 to R162). -/

namespace Sys2Proof.Machine

/-! The adapter (R151, R152). -/

/-- Settles O16: bit by bit, and the operation only answers. -/
theorem reverseNibblesReversesTheByte : Obligations.ReverseNibblesReversesTheByte := by
  intro x
  exact ⟨fun s => rfl, fun j hj => reverseNibbles_getLsbD x j hj, reverseNibbles_reverseNibbles x⟩

/-- Settles O17: bit by bit for both unit widths; a unit in range is a legal one. -/
theorem adapterReversesTheUnit : Obligations.AdapterReversesTheUnit := by
  refine fun u => ⟨unitFromBytes_getLsbD u, adapt_getLsbD u, fun v hv => ?_⟩
  have hlegal := unitLegal_eq_true hv
  exact ⟨adapt_adapt hlegal, unitFromBytes_unitToBytes hlegal⟩

/-! configure (R156 to R158). -/

/-- The frequency gives no divisor that `configure(true)` accepts, in the words of R156. -/
def NoDivisor (p : Params) (f : Nat) : Prop :=
  f = 0 ∨ divisorOf p.refRate f ≤ 0 ∨ ∃ m, p.divMax = some m ∧ (m : Int) < divisorOf p.refRate f

theorem usableDivisor_eq_none {p : Params} {f : Nat} : usableDivisor p f = none ↔ NoDivisor p f := by
  unfold usableDivisor NoDivisor
  by_cases hf : f = 0
  · simp [hf]
  · by_cases hd : divisorOf p.refRate f ≤ 0
    · simp [hf, hd]
    · cases p.divMax <;> simp [hf, hd]

theorem usableDivisor_eq_toNat {p : Params} {f : Nat} (h : ¬NoDivisor p f) :
    usableDivisor p f = some (divisorOf p.refRate f).toNat := by
  obtain ⟨d, hd⟩ := Option.ne_none_iff_exists'.mp (mt usableDivisor_eq_none.mp h)
  obtain ⟨-, -, hdiv, -⟩ := usableDivisor_eq_some.mp hd
  rw [hd, ← hdiv, Int.toNat_natCast]

/-- Without a bound on the divisor the accepted frequencies are 1 to REF_RATE div 4 (R156). -/
theorem not_noDivisor_unbounded {p : Params} (h : p.divMax = none) (f : Nat) :
    ¬NoDivisor p f ↔ 1 ≤ f ∧ f ≤ p.refRate / 4 := by
  rcases Nat.eq_zero_or_pos f with rfl | hf
  · simp [NoDivisor]
  · have hdiv : 2 ≤ p.refRate / (2 * f) ↔ f ≤ p.refRate / 4 := by
      rw [Nat.le_div_iff_mul_le (by omega), Nat.le_div_iff_mul_le (by omega)]
      omega
    simp only [NoDivisor, h, divisorOf, reduceCtorEq, false_and, exists_false, or_false]
    omega

theorem exec_configure_on (s : State) : exec (.configure true) s = (configureOn s).finishUnit := rfl

/-- An enable with no usable divisor changes nothing (R156). -/
theorem exec_configure_on_none {s : State} (h : NoDivisor s.params s.requestedFreq) :
    exec (.configure true) s = .next (s.raise .invalidFrequency) := by
  rw [exec_configure_on, configureOn_none (usableDivisor_eq_none.mpr h), Res.finishUnit_error]

theorem exec_configure_on_some {s : State} (h : ¬NoDivisor s.params s.requestedFreq) :
    exec (.configure true) s =
      .next ((enableChannel (divisorOf s.params.refRate s.requestedFreq).toNat s).answer 0 []) := by
  rw [exec_configure_on, configureOn_eq (usableDivisor_eq_toNat h), Res.finishUnit_ok]

/-- After its step the peripheral is idle (R160). -/
theorem peripheralStep_busy {s : State} (h : s.peripheralEnabled = true) : (peripheralStep s).chan.stat.busy = false := by
  rw [peripheralStep_enabled h, peripheralShift_eq]
  rfl

/-- The schedule has given answers: what is left of it, and the counter (R46). -/
def State.scheduled (s : State) (turns : ScheduleEnv) (k : Nat) : State :=
  { s with env := { s.env with schedule := turns }, draws := k }

/-- When the caller goes on, the peripheral has at most taken its step, at the cost of at most an answer of the schedule (R46). -/
theorem letPeripheral_scheduled (s : State) : ∃ turns k, letPeripheral s = s.scheduled turns k ∨
    letPeripheral s = peripheralStep (s.scheduled turns k) := by
  obtain ⟨⟨tdo, polls, alloc, turns⟩, k, h, htdo, hpolls, halloc⟩ := letPeripheral_cases s
  dsimp only at htdo hpolls halloc
  subst htdo hpolls halloc
  exact ⟨turns, k, h⟩

/-- An enable: the unit in flight, if any, goes out before the switch of the pins, between it and the drain, or not at all
(R157, R160, R46). -/
theorem enableChannel_cases (d : Nat) (s : State) : ∃ turns k,
    enableChannel d s = (switchPins d (s.scheduled turns k)).setReady false ∨
    enableChannel d s = (switchPins d (peripheralStep (s.scheduled turns k))).setReady false ∨
    enableChannel d s = (peripheralStep (switchPins d (s.scheduled turns k))).setReady false := by
  have notYet : ∀ {turns k}, letPeripheral s = s.scheduled turns k → ∃ turns' k',
      enableChannel d s = (switchPins d (s.scheduled turns' k')).setReady false ∨
      enableChannel d s = (peripheralStep (switchPins d (s.scheduled turns' k'))).setReady false := by
    intro turns k h
    obtain ⟨turns', k', h'⟩ := letPeripheral_scheduled (switchPins d (s.scheduled turns k))
    rw [enableChannel, h]
    exact ⟨turns', k', h'.imp (congrArg (State.setReady · false)) (congrArg (State.setReady · false))⟩
  cases he : s.peripheralEnabled with
  | false =>
    obtain ⟨turns, k, h⟩ := notYet (turns := s.env.schedule) (k := s.draws) (letPeripheral_idle he)
    exact ⟨turns, k, h.imp_right .inr⟩
  | true =>
    obtain ⟨turns, k, h | h⟩ := letPeripheral_scheduled s
    · obtain ⟨turns', k', h'⟩ := notYet h
      exact ⟨turns', k', h'.imp_right .inr⟩
    · have hidle : (switchPins d (peripheralStep (s.scheduled turns k))).chan.stat.busy = false := peripheralStep_busy he
      refine ⟨turns, k, .inr (.inl ?_)⟩
      rw [enableChannel, h, letPeripheral_idle (peripheralEnabled_idle (by simp [hidle]))]

/-- Settles O18: the divisor test is R156's; the enable finds no unit in flight, or `enableChannel_cases` says where it goes. -/
theorem configureOnChecksTheFrequency : Obligations.ConfigureOnChecksTheFrequency := by
  refine fun s => ⟨?bad, ?idle, ?inFlight, fun h => not_noDivisor_unbounded h _⟩
  case bad =>
    intro h
    rw [exec_configure_on_none h]
    exact failsUnchanged_raise s _
  case idle =>
    intro h hi
    rw [exec_configure_on_some h, enableChannel_idle _ hi]
    rfl
  case inFlight =>
    intro h
    obtain ⟨turns, k, hc⟩ := enableChannel_cases (divisorOf s.params.refRate s.requestedFreq).toNat s
    refine ⟨turns, k, ?_⟩
    rw [exec_configure_on_some h]
    rcases hc with hc | hc | hc <;> rw [hc]
    · exact .inl rfl
    · exact .inr (.inl rfl)
    · exact .inr (.inr rfl)

/-- Settles O19: the switch of the pins and the read-back, or the read-back alone. -/
theorem configureOffReturnsTheLines : Obligations.ConfigureOffReturnsTheLines := by
  have hexec : ∀ s : State, exec (.configure false) s = .next ((configureOff s).answer 0 []) := fun _ => rfl
  intro s
  refine ⟨fun hpin => ?enabled, fun hpin => ?disabled, fun t ht => ?lines⟩
  case enabled =>
    rw [hexec, configureOff_enabled hpin]
    rfl
  case disabled =>
    rw [hexec, configureOff_disabled hpin]
    rfl
  case lines =>
    obtain rfl : (configureOff s).answer 0 [] = t := by simpa [hexec] using ht
    cases hpin : s.chan.pinFunction with
    | line =>
      rw [configureOff_disabled hpin]
      exact ⟨State.readLine_tdi_line hpin, rfl⟩
    | peripheral =>
      rw [configureOff_enabled hpin]
      exact ⟨State.readLine_tdi_line rfl, rfl⟩

/-! send and receive (R161, R162). -/

/-- Settles O20: a unit in range on an idle, enabled channel is loaded. -/
theorem sendLoadsTheDataRegister : Obligations.SendLoadsTheDataRegister := by
  intro s v hpin hbusy hv
  rw [exec, execSend, unitLegal_eq_true hv, if_pos rfl, send_eq v hpin hbusy, Res.finishUnit_ok]
  rfl

theorem setReady_self {s : State} {b : Bool} (h : s.chan.stat.ready = b) : s.setReady b = s := by
  subst h
  rfl

theorem receive_noWord {s : State} (h : s.chan.stat.ready = false) :
    receive s = (cutUnit s.unit (Config.freeUnit s.draws), (s.setReady false).advance 1) := by
  simp [receive, setReady_self h, h]

/-- Settles O22: with and without a received word; without one there is no flag to clear. -/
theorem receiveReadsOneUnit : Obligations.ReceiveReadsOneUnit := by
  intro s
  have hexec : exec .receive s = .next ((receive s).2.answer ((receive s).1.setWidth 32) []) := rfl
  cases hready : s.chan.stat.ready with
  | true =>
    refine ⟨adapt s.unit s.chan.rxData, s.draws, ?_, fun _ => ⟨rfl, rfl⟩⟩
    rw [hexec, receive_ready hready]
    rfl
  | false =>
    refine ⟨cutUnit s.unit (Config.freeUnit s.draws), s.draws + 1, ?_, nofun⟩
    rw [hexec, receive_noWord hready]
    rfl

/-! The errors of a transfer (R165). -/

theorem atomic_startTransfer_busy (tx rx : List Byte) (byteCount : Nat) {s : State}
    (h : s.xfer.isSome = true ∨ s.chan.stat.busy = true) : atomic (startTransfer tx rx byteCount) s = .error .busy s :=
  atomic_error (t := s.setLock true) (if_pos (by simpa [State.transferBusy] using h))

/-- Settles O27: the checks come in this order, and each raises in the state it finds. -/
theorem transferBlockingErrorOrder : Obligations.TransferBlockingErrorOrder := by
  have raises : ∀ {s : State} {byteCount : Word} {tx : List Byte} {e : ErrorKind},
      transferBlocking tx (zeroBytes byteCount.toNat) byteCount.toNat s = .error e s →
      FailsUnchanged (exec (.transferBlocking byteCount tx) s) s e := by
    intro s byteCount tx e h
    rw [exec_transferBlocking, h]
    exact failsUnchanged_raise s e
  intro s byteCount tx
  refine ⟨fun hshort => raises ?short, fun hlen hbad => raises ?illegal, fun hlen h0 hm hbusy => raises ?busy⟩
  case short => rw [transferBlocking, if_pos (.inl hshort)]
  case illegal => rw [transferBlocking, if_neg (by simpa using hlen), if_pos hbad]
  case busy =>
    rw [transferBlocking, if_neg (by simpa using hlen), if_neg (by simp [h0, hm]), atomic_startTransfer_busy _ _ _ hbusy]
    rfl

end Sys2Proof.Machine

/-! The peripheral's turn and the polled unit (spec/42_hw_shift_channel.md R160, R163, R164). -/

namespace Sys2Proof.Machine

/-! The peripheral's turn (R160). -/

theorem peripheralEnabled_iff {s : State} : s.peripheralEnabled = true ↔
    s.chan.pinFunction = .peripheral ∧ s.chan.stat.busy = true ∧ s.chan.abandoned = false := by
  simp [State.peripheralEnabled, State.channelEnabled, and_assoc]

/-- Settles O23: the unit in flight goes out in protocol order, and the register holds the samples. -/
theorem peripheralShiftsOneUnit : Obligations.PeripheralShiftsOneUnit := by
  intro s hx hi
  rw [step_no_input hx hi, ← peripheralEnabled_iff]
  refine ⟨fun he => ?turn, fun he => ?nothing⟩
  case turn =>
    refine ⟨_, ?_, fun j hj => adapt_unitOfSamples (by simp) j hj⟩
    rw [peripheralStep_enabled he, peripheralShift_eq, unitInFlight, unitMsbFirst_eq]
    simp [State.ext_iff, State.shifted, State.unitDone, channelPath]
  case nothing => rw [peripheralStep_disabled (by simpa using he)]

/-! The polled unit (R163, R164). -/

theorem exec_shiftUnitPolled {s : State} {v : Unit16} (h : v.toNat < 2 ^ s.unit.bits) :
    exec (.shiftUnitPolled v) s = ((shiftUnitPolled v s).bind fun r t => .ok (r.setWidth 32, []) t).finish := by
  rw [exec, execShiftUnitPolled, unitLegal_eq_true h, if_pos rfl]

/-- Settles O24: a healthy peripheral shifts the unit, under the label of a disabled interrupt. -/
theorem shiftUnitPolledCompletes : Obligations.ShiftUnitPolledCompletes := by
  intro s v hs hpin hbusy hp hready hv
  have hpath : channelPath s = .hwp := by simp [channelPath, hs.irqOff]
  refine ⟨_, ?_, fun j hj => adapt_unitOfSamples (by simp) j hj⟩
  rw [exec_shiftUnitPolled hv, shiftUnitPolled_healthy v hpin hbusy hp, hpath]
  simp [State.ext_iff, State.shifted, Res.finish]

/-! How many cycles an expired wait has let out (R163, R164). -/

/-- `t` has at most `k` cycles more on the wire than `s`. -/
def AddsCycles (k : Nat) (s t : State) : Prop := ∃ evs, t.trace = s.trace ++ evs ∧ (wireCycles evs).length ≤ k

theorem AddsCycles.of_trace {s t : State} (h : t.trace = s.trace) : AddsCycles 0 s t := ⟨[], by simpa using h, Nat.le_refl _⟩

theorem AddsCycles.trans {k m : Nat} {s t u : State} (h : AddsCycles k s t) (h' : AddsCycles m t u) :
    AddsCycles (k + m) s u := by
  obtain ⟨evs, he, hk⟩ := h
  obtain ⟨evs', he', hm⟩ := h'
  refine ⟨evs ++ evs', by rw [he', he, List.append_assoc], ?_⟩
  rw [wireCycles_append, List.length_append]
  omega

theorem AddsCycles.newEvents {k : Nat} {s t : State} (h : AddsCycles k s t) : (wireCycles (newEvents s t)).length ≤ k := by
  obtain ⟨evs, he, hk⟩ := h
  simpa [Machine.newEvents, he] using hk

/-- A run of bits through the peripheral is one cycle per bit (R160). -/
theorem addsCycles_shifted (s : State) (p : Path) (bits : List Bool) : AddsCycles bits.length s (s.shifted p bits) :=
  ⟨_, shifted_trace s p bits, by simp⟩

theorem addsCycles_peripheralStep (s : State) : AddsCycles s.unit.bits s (peripheralStep s) := by
  cases he : s.peripheralEnabled with
  | false =>
    rw [peripheralStep_disabled he]
    exact ⟨[], by simp [wireCycles]⟩
  | true =>
    rw [peripheralStep_enabled he, peripheralShift_eq, ← unitInFlight_length]
    exact addsCycles_shifted s _ _

theorem addsCycles_partialShift (j : Nat) (s : State) : AddsCycles s.unit.bits s (partialShift j s) := by
  unfold partialShift
  split
  · rw [shiftCycles_eq]
    obtain ⟨evs, he, hk⟩ := addsCycles_shifted s (channelPath s) ((unitInFlight s).take j)
    refine ⟨evs, he, hk.trans ?_⟩
    rw [← unitInFlight_length]
    exact List.length_take_le' _ _
  · exact ⟨[], by simp [wireCycles]⟩

/-- A wait lets out at most the unit in flight (R164). -/
theorem addsCycles_pollUntil (cond : State → Bool) (s : State) : AddsCycles s.unit.bits s (pollUntil cond s).2 := by
  have hdraw : AddsCycles 0 s s.drawPoll.2 := .of_trace (by simp)
  have hunit : s.drawPoll.2.unit = s.unit := by simp [State.unit]
  rw [← Nat.zero_add s.unit.bits, ← hunit]
  unfold pollUntil
  dsimp only
  split
  · exact hdraw.trans (addsCycles_peripheralStep _)
  · exact hdraw.trans (addsCycles_partialShift _ _)

/-- A wait for an idle peripheral lets out nothing. -/
theorem addsCycles_pollUntil_idle (cond : State → Bool) {s : State} (h : s.chan.stat.busy = false) :
    AddsCycles 0 s (pollUntil cond s).2 := by
  have hidle : s.drawPoll.2.peripheralEnabled = false := peripheralEnabled_idle (by simp [h])
  refine .of_trace ?_
  unfold pollUntil
  dsimp only
  split
  · rw [peripheralStep_disabled hidle, State.drawPoll_trace]
  · rw [partialShift, if_neg (by simp [hidle]), State.drawPoll_trace]

theorem addsCycles_configureOff (s : State) : AddsCycles 0 s (configureOff s) := by
  cases hpin : s.chan.pinFunction with
  | line =>
    rw [configureOff_disabled hpin]
    exact .of_trace rfl
  | peripheral =>
    rw [configureOff_enabled hpin]
    exact ⟨_, rfl, Nat.le_refl _⟩

theorem addsCycles_timeoutCleanup (s : State) : AddsCycles 0 s (timeoutCleanup s) := addsCycles_configureOff s

theorem atomic_send_quiet (v : Unit16) (s : State) : (atomic (send v) s).Post
    (fun _ t => t.trace = s.trace ∧ t.unit = s.unit) (fun _ _ => False) (fun _ => False) := by
  apply atomic_post
  rcases send_cases v (s.setLock true) with ⟨-, -, he⟩ | ⟨q, he⟩ <;> rw [he]
  · exact ⟨rfl, rfl⟩
  · trivial

/-- A polled unit that times out on a peripheral that was idle has let out at most `U` cycles (R164): the first wait none, the
second at most the unit that was sent. -/
theorem shiftUnitPolled_timeout_cycles (v : Unit16) {s : State} (h : s.chan.stat.busy = false) : (shiftUnitPolled v s).Post
    (fun _ _ => True) (fun _ t => AddsCycles s.unit.bits s t) (fun _ => True) := by
  unfold shiftUnitPolled
  dsimp only
  have hfirst := addsCycles_pollUntil_idle (fun s => !s.chan.stat.busy) h
  have hunit : (pollUntil (fun s => !s.chan.stat.busy) s).2.unit = s.unit := (pollUntil_run _ s).1.unit
  generalize pollUntil (fun s => !s.chan.stat.busy) s = p at hfirst hunit
  split
  · refine Res.Post.bind ((atomic_send_quiet v p.2).mono (fun _ _ => id) (fun _ _ => False.elim) (fun _ => False.elim)) ?_
    rintro _ t ⟨htrace, hunit'⟩
    have hsecond := addsCycles_pollUntil (fun s => s.chan.stat.ready) t
    rw [hunit', hunit] at hsecond
    have hall := ((hfirst.trans (.of_trace htrace)).trans hsecond).trans (addsCycles_timeoutCleanup _)
    split
    · exact (atomic_receive_run _).mono (fun _ _ _ => trivial) (fun _ _ => False.elim) (fun _ _ => trivial)
    · simpa [Res.Post] using hall
  · obtain ⟨evs, he, hk⟩ := hfirst.trans (addsCycles_timeoutCleanup p.2)
    exact ⟨evs, he, hk.trans (Nat.zero_le _)⟩

/-! The frame of a polled unit. -/

theorem HwRun.onlyWireAndChannel {s t : State} (h : HwRun s t) (hx : t.xfer = s.xfer) (hl : t.xferLock = s.xferLock) :
    OnlyWireAndChannel s t := by
  have hframe := h.frame
  rwa [hx, hl] at hframe

theorem OnlyWireAndChannel.raise {s t : State} (h : OnlyWireAndChannel s t) (e : ErrorKind) :
    OnlyWireAndChannel { s with response := (t.raise e).response } (t.raise e) := by
  unfold OnlyWireAndChannel at *
  rw [h]
  rfl

/-- On the stuck peripheral every wait expires at once (R164). -/
theorem pollUntil_stuck (cond : State → Bool) {s : State} (h : s.env.polls = .stuck) :
    pollUntil cond s = (false, partialShift 0 s) := by
  simp [pollUntil, h]

theorem partialShift_zero_trace (s : State) : (partialShift 0 s).trace = s.trace := by
  cases he : s.peripheralEnabled with
  | false => rw [partialShift, if_neg (by simp [he])]
  | true =>
    rw [partialShift_zero he]
    rfl

theorem shiftUnitPolled_stuck (v : Unit16) {s : State} (h : s.env.polls = .stuck) :
    shiftUnitPolled v s = .error .timeout (timeoutCleanup (partialShift 0 s)) := by
  simp [shiftUnitPolled, pollUntil_stuck _ h]

/-- Settles O25: the one error of a polled unit is Timeout, with the pins back as lines; on the stuck peripheral the first wait
expires. -/
theorem shiftUnitPolledTimesOut : Obligations.ShiftUnitPolledTimesOut := by
  refine ⟨fun s t v hs hv ht => ?ends, fun s v hpin hp hv => ?stuck⟩
  case ends =>
    rw [exec_shiftUnitPolled hv] at ht
    cases hr : shiftUnitPolled v s with
    | ok r u =>
      rw [hr] at ht
      cases ht
      exact .inl rfl
    | error e u =>
      rw [hr] at ht
      cases ht
      obtain ⟨hrun, rfl, hline, hx, hq, hl⟩ := (shiftUnitPolled_run v s).of_error hr
      have hb : AtBoundary u := ⟨hs.of_run hrun hx hq hl, hline⟩
      exact .inr ⟨rfl, hb.raise _, (hrun.onlyWireAndChannel hx hl).raise _,
        fun hbusy => ((shiftUnitPolled_timeout_cycles v hbusy).of_error hr).newEvents⟩
    | hang u => exact ((shiftUnitPolled_run v s).of_hang hr).elim
    | refused q =>
      rw [hr] at ht
      cases ht
  case stuck =>
    rw [exec_shiftUnitPolled hv, shiftUnitPolled_stuck v hp]
    obtain ⟨hpin', -⟩ := partialShift_keeps 0 s
    obtain ⟨-, hline, -⟩ := timeoutCleanup_run (partialShift 0 s)
    refine ⟨_, rfl, rfl, ?_, hline⟩
    rw [State.raise_trace, timeoutCleanup_trace (hpin'.trans hpin), partialShift_zero_trace]

end Sys2Proof.Machine

/-! A transfer that answers ok has clocked every unit, whatever the schedule, the peripheral and a stale received word do
(spec/20_memory.md R77, spec/42_hw_shift_channel.md R165 to R168). -/

namespace Sys2Proof.Machine

theorem sampledEvents_append (path : Path) (tms : Bool) {a b x y : List Bool} (h : a.length = x.length) :
    sampledEvents path tms (a ++ b) (x ++ y) = sampledEvents path tms a x ++ sampledEvents path tms b y :=
  List.zipWith_append h

theorem bits_of_units (u : UnitWidth) (n : Nat) : n * u.bits = 8 * (n * u.bytes) := by
  rw [u.bits_eq]
  ring

/-- Since `s` the first `k` units of `tx` have gone out, in order, under the label of the interrupt-driven variant, and nothing
else. -/
def ClockedUnits (s : State) (tx : List Byte) (k : Nat) (t : State) : Prop :=
  ∃ tdos, tdos.length = k * s.unit.bits ∧
    t.trace = s.trace ++ sampledEvents .hwi s.lines.tms (bitsFrom tx 0 (k * s.unit.bits)) tdos

/-- One more unit goes out. -/
theorem ClockedUnits.succ {s t u : State} {tx : List Byte} {k : Nat} {samples : List Bool} (h : ClockedUnits s tx k t)
    (hlen : samples.length = s.unit.bits)
    (htrace : u.trace = t.trace ++ sampledEvents .hwi s.lines.tms (bitsFrom tx (k * s.unit.bytes) s.unit.bits) samples) :
    ClockedUnits s tx (k + 1) u := by
  obtain ⟨tdos, hk, ht⟩ := h
  refine ⟨tdos ++ samples, by rw [List.length_append, hk, hlen, Nat.succ_mul], ?_⟩
  rw [bits_of_units] at hk ht
  rw [htrace, ht, Nat.succ_mul k, bits_of_units, bitsFrom_add, sampledEvents_append _ _ (by simp [hk]), Nat.zero_add,
    List.append_assoc]

/-- Unit `k` of `tx` is in flight under the interrupt-driven label, the units before it have gone out since `s`. -/
structure UnitOnWire (s : State) (tx : List Byte) (k : Nat) (t : State) : Prop where
  clocked  : ClockedUnits s tx k t
  unit     : t.unit = s.unit
  tms      : t.lines.tms = s.lines.tms
  irqOn    : t.chan.irqEnable = true
  inFlight : t.peripheralEnabled = true
  data     : t.chan.txData = adapt s.unit (unitFromBytes s.unit tx (k * s.unit.bytes))

/-- `k` units of `tx` have gone out since `s`, and none is in flight. -/
structure UnitsDone (s : State) (tx : List Byte) (k : Nat) (t : State) : Prop where
  clocked : ClockedUnits s tx k t
  unit    : t.unit = s.unit
  tms     : t.lines.tms = s.lines.tms
  irqOn   : t.chan.irqEnable = true
  enabled : t.chan.pinFunction = .peripheral
  idle    : t.chan.stat.busy = false

/-- The record of a transfer of `n` units of `tx` of which `m` have been sent and all but the last of these received (R165,
R167). -/
structure UnitsSent (s : State) (tx : List Byte) (n m : Nat) (t : State) : Prop where
  lock   : t.xferLock = false
  record : ∃ x, t.xfer = some x ∧ x.tx = tx ∧ x.txCursor = m * s.unit.bytes ∧ x.done = false ∧
    x.remainingTxUnits + m = n ∧ x.remainingRxUnits = x.remainingTxUnits + 1

theorem drawPoll_env (s : State) : ∃ e n, s.drawPoll.2 = { s with env := e, draws := n } := by
  obtain ⟨e, n, h, -⟩ := s.drawPoll_frame
  exact ⟨e, n, h⟩

theorem blockingWait_of_done (fuel : Nat) {s : State} (h : s.transferDone = true) : blockingWait fuel s = waitForWire s := by
  cases fuel <;> simp [blockingWait, h]

theorem Res.post_trivial {α : Type} (r : Res α) : r.Post (fun _ _ => True) (fun _ _ => True) (fun _ => True) := by
  cases r <;> trivial

theorem lastTurn_not_done (s : State) : (lastTurn s).Post (fun done _ => done = false) (fun _ _ => True) (fun _ => True) :=
  (Res.post_trivial _).bind fun _ _ _ => rfl

section
variable {s t : State} {tx : List Byte} {n k : Nat}

theorem UnitOnWire.enabled (h : UnitOnWire s tx k t) : t.chan.pinFunction = .peripheral := by
  obtain ⟨hpin, -, -⟩ := peripheralEnabled_iff.mp h.inFlight
  exact hpin

theorem UnitOnWire.busy (h : UnitOnWire s tx k t) : t.chan.stat.busy = true := by
  obtain ⟨-, hbusy, -⟩ := peripheralEnabled_iff.mp h.inFlight
  exact hbusy

theorem UnitOnWire.of_env {u : State} (h : UnitOnWire s tx k t) (hu : ∃ e d, u = { t with env := e, draws := d }) :
    UnitOnWire s tx k u := by
  obtain ⟨e, d, rfl⟩ := hu
  exact ⟨h.clocked, h.unit, h.tms, h.irqOn, h.inFlight, h.data⟩

theorem UnitsDone.of_env {u : State} (h : UnitsDone s tx k t) (hu : ∃ e d, u = { t with env := e, draws := d }) :
    UnitsDone s tx k u := by
  obtain ⟨e, d, rfl⟩ := hu
  exact ⟨h.clocked, h.unit, h.tms, h.irqOn, h.enabled, h.idle⟩

theorem UnitsSent.of_env {u : State} {m : Nat} (h : UnitsSent s tx n m t) (hu : ∃ e d, u = { t with env := e, draws := d }) :
    UnitsSent s tx n m u := by
  obtain ⟨e, d, rfl⟩ := hu
  exact ⟨h.lock, h.record⟩

theorem UnitsSent.notDone {m : Nat} (h : UnitsSent s tx n m t) : t.transferDone = false := by
  obtain ⟨x, hx, -, -, hd, -⟩ := h.record
  simp [State.transferDone, hx, hd]

/-- The peripheral's step: the unit in flight has gone out (R160). -/
theorem UnitOnWire.peripheralStep (h : UnitOnWire s tx k t) : UnitsDone s tx (k + 1) (peripheralStep t) := by
  have hpath : channelPath t = .hwi := by simp [channelPath, h.irqOn]
  have hbits : unitInFlight t = bitsFrom tx (k * s.unit.bytes) s.unit.bits := by
    rw [unitInFlight, h.data, h.unit, unitMsbFirst_adapt, unitBits_unitFromBytes]
  rw [peripheralStep_enabled h.inFlight, peripheralShift_eq, hpath, hbits]
  have htrace := shifted_trace t .hwi (bitsFrom tx (k * s.unit.bytes) s.unit.bits)
  rw [h.tms] at htrace
  refine ⟨h.clocked.succ (by simp) htrace, ?_, ?_, ?_, ?_, rfl⟩
  · exact (shifted_unit t .hwi _).trans h.unit
  · exact (shifted_tms t .hwi _).trans h.tms
  · simpa [State.unitDone] using h.irqOn
  · simpa [State.unitDone] using h.enabled

theorem UnitsSent.peripheralStep {m : Nat} (h : UnitsSent s tx n m t) : UnitsSent s tx n m (peripheralStep t) := by
  obtain ⟨-, hx, -, hl⟩ := peripheralStep_keeps t
  exact ⟨hl.trans h.lock, by rw [hx]; exact h.record⟩

/-- The handler before the unit in flight has gone out: its send is refused, or all units are sent and it signals completion on a
stale word (R161, R167; log 34). -/
theorem UnitOnWire.handlerStep (h : UnitOnWire s tx k t) (hs : UnitsSent s tx n (k + 1) t) (hr : t.chan.stat.ready = true) :
    (handlerStep t).Post (fun _ u => u.transferDone = true ∧ k + 1 = n ∧ UnitOnWire s tx k u) (fun _ _ => True)
      (fun _ => True) := by
  obtain ⟨x, hx, -, -, -, hn, hrx⟩ := hs.record
  rcases Nat.eq_zero_or_pos x.remainingTxUnits with hz | hpos
  · rw [handlerStep_last _ h.irqOn hs.lock hr hx hz (by omega) rfl]
    exact ⟨rfl, by omega, h.clocked, h.unit, h.tms, h.irqOn, h.inFlight, h.data⟩
  · rw [handlerStep_busy h.enabled h.irqOn hs.lock h.busy hr hx hpos]
    trivial

/-- The handler after a unit has gone out: it signals completion after the last one, and sends the next one before (R167). -/
theorem UnitsDone.handlerStep (h : UnitsDone s tx k t) (hs : UnitsSent s tx n k t) (hr : t.chan.stat.ready = true) :
    (handlerStep t).Post (fun _ u => u.transferDone = true ∧ k = n ∧ UnitsDone s tx k u ∨
      UnitOnWire s tx k u ∧ UnitsSent s tx n (k + 1) u) (fun _ _ => True) (fun _ => True) := by
  obtain ⟨x, hx, htx, hcur, hd, hn, hrx⟩ := hs.record
  rcases Nat.eq_zero_or_pos x.remainingTxUnits with hz | hpos
  · rw [handlerStep_last _ h.irqOn hs.lock hr hx hz (by omega) rfl]
    exact .inl ⟨rfl, by omega, h.clocked, h.unit, h.tms, h.irqOn, h.enabled, h.idle⟩
  · rw [handlerStep_next _ h.irqOn hs.lock h.enabled h.idle hr hx hpos (by omega) rfl]
    refine .inr ⟨⟨h.clocked, h.unit, h.tms, h.irqOn, peripheralEnabled_loadUnit _ h.enabled, ?_⟩,
      ⟨hs.lock, _, rfl, htx, ?_, hd, ?_, ?_⟩⟩
    · simp [State.loadUnit, h.unit, htx, hcur]
    · simp [Xfer.received, Xfer.sent, h.unit, hcur, Nat.succ_mul]
    · simp only [Xfer.received, Xfer.sent]
      omega
    · simp only [Xfer.received, Xfer.sent]
      omega

/-- A handler's turn after the completion flag clocks nothing (R46, R167). -/
theorem UnitsDone.lateDelivery (h : UnitsDone s tx k t) : UnitsDone s tx k (lateDelivery t) := by
  have hturn : UnitsDone s tx k (t.whoMoves .handler .caller).2 := by
    obtain ⟨e, d, hf, -⟩ := t.whoMoves_frame .handler .caller
    exact h.of_env ⟨e, d, hf⟩
  unfold Machine.lateDelivery
  dsimp only
  split
  · split
    · exact hturn
    · unfold receive
      split <;> exact ⟨hturn.clocked, hturn.unit, hturn.tms, hturn.irqOn, hturn.enabled, hturn.idle⟩
  · exact h

/-- Once the flag is set, a last unit still in flight goes out before the wait returns in time (R77). -/
theorem UnitOnWire.waitForWire (h : UnitOnWire s tx k t) :
    (waitForWire t).Post (fun done u => done = true → UnitsDone s tx (k + 1) u) (fun _ _ => True) (fun _ => True) := by
  have hpoll := h.of_env (drawPoll_env t)
  rw [Machine.waitForWire, if_pos h.inFlight]
  dsimp only
  split
  · intro _
    rw [← peripheralStep_enabled hpoll.inFlight]
    exact hpoll.peripheralStep.lateDelivery
  · nofun

theorem UnitsDone.waitForWire (h : UnitsDone s tx k t) :
    (waitForWire t).Post (fun done u => done = true → UnitsDone s tx k u) (fun _ _ => True) (fun _ => True) := by
  rw [waitForWire_idle (peripheralEnabled_idle (by simp [h.idle]))]
  exact fun _ => h

/-- A wait that returns in time has clocked all `n` units: turn by turn, the unit in flight goes out and the handler sends the
next one, or the handler ends a transfer whose last unit `waitForWire` still waits for (R77, R168). -/
theorem blockingWait_clocks (fuel : Nat) (h : UnitOnWire s tx k t) (hs : UnitsSent s tx n (k + 1) t) :
    (blockingWait fuel t).Post (fun done u => done = true → UnitsDone s tx n u) (fun _ _ => True) (fun _ => True) := by
  induction fuel generalizing k t with
  | zero =>
    rw [blockingWait, hs.notDone]
    nofun
  | succ fuel ih =>
    rw [blockingWait, hs.notDone, if_neg (by simp)]
    dsimp only
    have hturn := h.of_env (nextTurn_frame t)
    have hsturn := hs.of_env (nextTurn_frame t)
    split
    · next hh =>
      refine (hturn.handlerStep hsturn (ready_of_nextTurn_handler hh)).bind ?_
      rintro _ u ⟨hd, rfl, hu⟩
      rw [blockingWait_of_done fuel hd]
      exact hu.waitForWire
    · have hpoll := hturn.of_env (drawPoll_env _)
      have hspoll := hsturn.of_env (drawPoll_env _)
      split
      · refine (hpoll.peripheralStep.handlerStep hspoll.peripheralStep (peripheralStep_ready hpoll.inFlight)).bind ?_
        rintro _ u (⟨hd, rfl, hu⟩ | ⟨hu, hsu⟩)
        · rw [blockingWait_of_done fuel hd]
          exact hu.waitForWire
        · exact ih hu hsu
      · exact (lastTurn_not_done _).mono (fun _ _ h => by simp [h]) (fun _ _ => id) (fun _ => id)

end

/-- A transfer that has started has its first unit in flight (R165). -/
theorem transferStarted_onWire (tx rx : List Byte) (byteCount : Nat) {s : State} (hpin : s.chan.pinFunction = .peripheral) :
    UnitOnWire s (tx.take byteCount) 0 (transferStarted tx rx byteCount s) where
  clocked := ⟨[], by simp, by simp [transferStarted, sampledEvents]⟩
  unit := rfl
  tms := rfl
  irqOn := rfl
  inFlight := peripheralEnabled_loadUnit _ hpin
  data := by simp [transferStarted]

theorem transferStarted_sent (tx rx : List Byte) {byteCount : Nat} {s : State} (hl : s.xferLock = false)
    (hn : 0 < byteCount / s.unit.bytes) :
    UnitsSent s (tx.take byteCount) (byteCount / s.unit.bytes) 1 (transferStarted tx rx byteCount s) where
  lock := hl
  record := ⟨_, rfl, rfl, by simp [newTransfer, Xfer.sent], rfl, Nat.sub_add_cancel hn, (Nat.sub_add_cancel hn).symm⟩

/-- A transfer that succeeds has clocked every unit and has none in flight (R77). -/
theorem transferBlocking_clocks (tx rx : List Byte) (byteCount : Nat) {s : State} (hl : s.xferLock = false) :
    (transferBlocking tx rx byteCount s).Post
      (fun _ t => byteCount % s.unit.bytes = 0 ∧ ∃ u, t = endTransfer u ∧
        UnitsDone s (tx.take byteCount) (byteCount / s.unit.bytes) u) (fun _ _ => True) (fun _ => True) := by
  unfold transferBlocking
  split
  · trivial
  split
  · trivial
  next hc =>
    obtain ⟨h0, hm⟩ := not_or.mp hc
    replace hm : byteCount % s.unit.bytes = 0 := not_not.mp hm
    have hn : 0 < byteCount / s.unit.bytes :=
      Nat.div_pos (Nat.le_of_dvd (by omega) (Nat.dvd_of_mod_eq_zero hm)) s.unit.bytes_pos
    rcases startTransfer_cases tx rx byteCount s with ⟨hpin, he⟩ | ⟨-, he⟩ | ⟨-, he⟩ <;> rw [he]
    · refine (blockingWait_clocks _ (transferStarted_onWire tx rx byteCount hpin) (transferStarted_sent tx rx hl hn)).bind ?_
      intro done u hu
      split
      · next hd => exact ⟨hm, u, rfl, hu hd⟩
      · split <;> trivial
    · trivial
    · trivial

/-- On a healthy channel the operation is the run of the bits of `tx` through the peripheral (R165). -/
theorem exec_transferBlocking_healthy {s : State} {byteCount : Word} {tx : List Byte} (hs : Settled s)
    (hpin : s.chan.pinFunction = .peripheral) (hbusy : s.chan.stat.busy = false) (hp : s.env.polls = .healthy)
    (hready : s.chan.stat.ready = false) (h0 : 0 < byteCount.toNat) (hm : byteCount.toNat % s.unit.bytes = 0)
    (htx : byteCount.toNat ≤ tx.length) : ∃ (out : List Byte) (w r : Unit16),
      exec (.transferBlocking byteCount tx) s =
        .next (((s.shifted .hwi (bitsOf tx (8 * byteCount.toNat))).setChan (s.chan.rested w r)).answer 0 out) ∧
      out.length = byteCount.toNat ∧
      ∀ k, k < 8 * byteCount.toNat → bit out k = (drawTdos (bitsOf tx (8 * byteCount.toNat)) s).1.getD k false := by
  obtain ⟨n, hn⟩ := Nat.dvd_of_mod_eq_zero hm
  rw [Nat.mul_comm] at hn
  rw [exec_transferBlocking, hn, ← bits_of_units]
  rw [hn] at h0 htx
  obtain ⟨out, w, r, he, -, -, hlen, hbits⟩ := transferBlocking_healthy tx (zeroBytes (n * s.unit.bytes)) n
    (Nat.pos_of_mul_pos_right h0) hpin hbusy hready hs.lockFree hp hs.noTransfer hs.irqOff htx (by simp)
  rw [bitsFrom_start] at he hbits
  refine ⟨out, w, r, by rw [he, Res.finishBytes_ok], by simpa using hlen, fun k hk => ?_⟩
  rw [hbits, if_pos hk]


/-- Settles O26: on a healthy channel the transfer is the run of its bits; on any, a success has clocked them unit by unit. -/
theorem transferBlockingCompletes : Obligations.TransferBlockingCompletes := by
  refine ⟨fun s byteCount tx hs hpin hbusy hp hready h0 hm htx => ?healthy, fun s t byteCount tx hs ht hok => ?clocked⟩
  case healthy =>
    obtain ⟨out, w, r, he, hout⟩ := exec_transferBlocking_healthy hs hpin hbusy hp hready h0 hm htx
    refine ⟨out, w, r, ?_, hout⟩
    rw [he]
    simp [State.ext_iff, State.shifted]
  case clocked =>
    rw [exec_transferBlocking] at ht
    rcases Res.finishBytes_eq_next.mp ht with ⟨out, v, hr, rfl⟩ | ⟨e, v, -, rfl⟩ | ⟨v, -, rfl⟩
    · obtain ⟨hm, u, rfl, hu⟩ := (transferBlocking_clocks tx _ byteCount.toNat hs.lockFree).of_ok hr
      obtain ⟨tdos, hlen, htrace⟩ := hu.clocked
      have hbits : byteCount.toNat / s.unit.bytes * s.unit.bits = 8 * byteCount.toNat := by
        rw [bits_of_units, Nat.div_mul_cancel (Nat.dvd_of_mod_eq_zero hm)]
      rw [hbits, bitsFrom_take _ _ _ (Nat.le_refl _), bitsFrom_start] at htrace
      exact ⟨tdos, hlen.trans hbits, htrace, hu.idle, hu.enabled, rfl, rfl⟩
    · simp at hok
    · cases hok

end Sys2Proof.Machine

/-! Both variants of a transfer on a healthy channel (spec/42_hw_shift_channel.md R165, R169). -/

namespace Sys2Proof.Machine

theorem onlyWireAndChannel_shifted (s : State) (p : Path) (bits : List Bool) (c : Channel) :
    OnlyWireAndChannel s ((s.shifted p bits).setChan c) := by
  simp [OnlyWireAndChannel, State.ext_iff, State.shifted]

/-- Settles O28: both variants send the buffer's bits through the peripheral, and store the same samples. -/
theorem bothVariantsAgree : Obligations.BothVariantsAgree := by
  intro s tx n hs hpin hbusy hp hready hn htx
  obtain ⟨rx, w, r, hti, -, -, hlen, hbits⟩ := transferBlocking_healthy tx (zeroBytes (n * s.unit.bytes)) n hn hpin hbusy
    hready hs.lockFree hp hs.noTransfer hs.irqOff htx (by simp)
  obtain ⟨rx', c, htp, -, hlen', hbits'⟩ := polledTransfer_healthy tx n 0 (zeroBytes (n * s.unit.bytes)) hpin hbusy hp
    (by simp)
  have hpath : channelPath s = .hwp := by simp [channelPath, hs.irqOff]
  have hrx : rx' = rx := bytes_ext (hlen'.trans hlen.symm) fun i _ => by simpa using (hbits' i).trans (by simp [hbits i])
  rw [hrx, hpath] at htp
  rw [bitsFrom_start] at hti htp
  exact ⟨rx, _, _, hti, htp, newEvents_of_trace (shifted_trace s _ _), newEvents_of_trace (shifted_trace s _ _), rfl, rfl, rfl,
    onlyWireAndChannel_shifted s _ _ _, onlyWireAndChannel_shifted s _ _ _⟩

end Sys2Proof.Machine

/-! A failed Scan or RunTest ends at a boundary, from which a bit-bang command succeeds (spec/42_hw_shift_channel.md R164,
spec/43_scan_engine.md R189, spec/60_exceptions.md R245, spec/70_reset_and_hazards.md R293). -/

namespace Sys2Proof.Machine

/-! Operations that end at a boundary. -/

/-- Whether it succeeds or fails, the operation ends at a boundary. -/
def Res.EndsAtBoundary {α : Type} (r : Res α) : Prop :=
  r.Post (fun _ t => AtBoundary t) (fun _ t => AtBoundary t) (fun _ => True)

theorem Res.EndsAtBoundary.bind {α β : Type} {r : Res α} {f : α → State → Res β} (h : r.EndsAtBoundary)
    (hf : ∀ a t, AtBoundary t → (f a t).EndsAtBoundary) : (r.bind f).EndsAtBoundary :=
  Res.Post.bind h hf

theorem Res.EndsAtBoundary.failAs {α : Type} {r : Res α} (h : r.EndsAtBoundary) (k : ErrorKind) :
    (r.failAs k).EndsAtBoundary := by
  cases r <;> exact h

theorem allocate_endsAtBoundary {α : Type} {s : State} {k : State → Res α} (hs : AtBoundary s)
    (hk : ∀ {t}, AtBoundary t → (k t).EndsAtBoundary) : (allocate s k).EndsAtBoundary := by
  obtain ⟨e, n, h, -⟩ := s.drawAlloc_frame
  have hd : AtBoundary s.drawAlloc.2 := hs.of_env ⟨e, n, h⟩
  rcases allocate_cases s k with ⟨-, ha⟩ | ⟨-, ha⟩ <;> rw [ha]
  · exact hk hd
  · exact hd

/-! The bit-bang runs. -/

theorem clockTms_endsAtBoundary (l : List Bool) {s : State} (hs : AtBoundary s) : (clockTms l s).EndsAtBoundary := by
  rw [clockTms_line l hs.lines hs.settled.tmsCached]
  exact hs.wired _ _ (linesAfterTms_tck l hs.settled.tckLow)

theorem clockIdle_endsAtBoundary (n : Nat) {s : State} (hs : AtBoundary s) : (clockIdle n s).EndsAtBoundary := by
  rw [clockIdle_eq_clockTms]
  exact clockTms_endsAtBoundary _ hs

theorem pulseClock_sampled_endsAtBoundary (tms tdi : Bool) {s : State} (hs : AtBoundary s) :
    (pulseClock true tms tdi s).EndsAtBoundary := by
  obtain ⟨e, n, h, -⟩ := s.drawTdo_frame tdi
  rw [pulseClock_line _ _ _ hs.lines, pulse_sampled, pulsedTms_cached tms hs.settled.tmsCached]
  exact (hs.of_env ⟨e, n, h⟩).wired (s.lines.pulsed tms tdi) _ rfl

theorem driveTransition_endsAtBoundary (src dest : TapState) {s : State} (hs : AtBoundary s) :
    (driveTransition src dest s).EndsAtBoundary :=
  (clockTms_endsAtBoundary _ hs).bind fun _ _ ht => ht.setCurrentState dest

theorem applyTransition_endsAtBoundary (fromCode toCode : Byte) {s : State} (hs : AtBoundary s) :
    (applyTransition fromCode toCode s).EndsAtBoundary := by
  unfold applyTransition
  split
  · exact driveTransition_endsAtBoundary _ _ hs
  · exact hs

/-! The scan. -/

theorem tailBits_endsAtBoundary (shift endState : TapState) (inp : List Byte) (rem i : Nat) (out : List Byte) {s : State}
    (hs : AtBoundary s) : (tailBits shift endState inp rem i out s).EndsAtBoundary := by
  induction rem generalizing i out s with
  | zero => exact hs
  | succ rem ih =>
    refine (pulseClock_sampled_endsAtBoundary _ _ hs).bind fun b t ht => ih _ _ ?_
    split
    · exact ht.setCurrentState _
    · exact ht

theorem scanBody_endsAtBoundary (n : Nat) (endState : TapState) (inp : List Byte) {s : State} (hs : AtBoundary s) :
    (scanBody n endState inp s).EndsAtBoundary := by
  rw [scanBody, ← Res.bind_assoc]
  refine Res.EndsAtBoundary.bind ((enableAndBulk_run n inp _ hs).mono (fun _ _ ⟨_, hb⟩ => hb) (fun _ _ ⟨_, hb, _⟩ => hb)
    (fun _ _ => trivial)) fun p t ht => ?_
  refine (tailBits_endsAtBoundary _ _ _ _ _ _ ht).bind fun out u hu =>
    (driveTransition_endsAtBoundary _ _ hu).bind fun _ v hv => ?_
  obtain ⟨k, h⟩ := padOutput_state n out v
  exact hv.of_env ⟨v.env, k, h⟩

theorem scan_endsAtBoundary (n : Nat) (endCode : Byte) (inp : List Byte) {s : State} (hs : AtBoundary s) :
    (scan n endCode inp s).EndsAtBoundary := by
  unfold scan
  split
  · exact hs
  · split
    · exact hs
    · split
      · exact scanBody_endsAtBoundary n _ inp hs
      · exact hs

theorem xfer_endsAtBoundary (scanType fromCode endCode : Byte) (n : Nat) (inp : List Byte) {s : State} (hs : AtBoundary s) :
    (xfer scanType fromCode endCode n inp s).EndsAtBoundary := by
  unfold xfer
  split
  · exact (applyTransition_endsAtBoundary _ _ hs).bind fun _ t ht => scan_endsAtBoundary n endCode inp ht
  · exact hs

theorem scanCommand_endsAtBoundary (scanType fromCode endCode : Byte) (n : Nat) (buf : List Byte) {s : State}
    (hs : AtBoundary s) : (scanCommand scanType fromCode endCode n buf s).EndsAtBoundary := by
  unfold scanCommand
  split
  · exact (xfer_endsAtBoundary _ _ _ _ _ hs).failAs _
  · exact hs

/-! The idle run. -/

theorem runIdleHardware_endsAtBoundary (cycles : Nat) {s : State} (hs : AtBoundary s) :
    (runIdleHardware cycles s).EndsAtBoundary := by
  have hlow : AtBoundary (tmsLow s) := by
    rw [tmsLow_eq hs.settled.tmsCached]
    exact hs.wired _ _ hs.settled.tckLow
  refine Res.Post.bind (good := fun _ t => Settled t ∧ t.chan.pinFunction = .peripheral) ?_ ?_
  · cases hd : usableDivisor (tmsLow s).params (tmsLow s).requestedFreq with
    | none =>
      rw [openChannel_none hd]
      exact hlow
    | some d =>
      have hi := hlow.settled.busyStuck hlow.lines
      obtain ⟨hrun, hpin, hx, hq, hl⟩ := enableChannel_run d (tmsLow s)
      rw [openChannel_idle hd hi, ← enableChannel_idle d hi]
      exact ⟨hlow.settled.of_run hrun hx hq hl, hpin⟩
  · rintro _ t ⟨ht, hpin⟩
    refine Res.Post.bind (good := fun _ u => Settled u) ?_ fun _ u hu => clockIdle_endsAtBoundary _ (closeChannel_boundary hu)
    split
    · exact (idleTransfer_run _ ht).mono (fun _ _ ⟨_, hu⟩ => hu) (fun _ _ ⟨_, hb, _⟩ => hb) (fun _ _ => trivial)
    · exact (idleUnits_run _ ht hpin).mono (fun _ _ ⟨_, hu⟩ => hu) (fun _ _ ⟨_, hb, _⟩ => hb) (fun _ => False.elim)

theorem runIdle_endsAtBoundary (cycles : Nat) {s : State} (hs : AtBoundary s) : (runIdle cycles s).EndsAtBoundary := by
  unfold runIdle
  split
  · exact runIdleHardware_endsAtBoundary cycles hs
  · exact clockIdle_endsAtBoundary cycles hs

theorem runIdleAllocating_endsAtBoundary (cycles : Nat) {s : State} (hs : AtBoundary s) :
    (runIdleAllocating cycles s).EndsAtBoundary := by
  unfold runIdleAllocating
  split
  · exact allocate_endsAtBoundary hs (runIdle_endsAtBoundary cycles)
  · exact runIdle_endsAtBoundary cycles hs

/-! The commands. -/

theorem Res.EndsAtBoundary.finish {r : Res (Word × List Byte)} (h : r.EndsAtBoundary) {t : State} (ht : r.finish = .next t)
    (hresp : t.response ≠ none) : AtBoundary t := by
  rcases Res.finish_eq_next.mp ht with ⟨p, u, rfl, rfl⟩ | ⟨e, u, rfl, rfl⟩ | ⟨u, rfl, rfl⟩
  · exact AtBoundary.answer h _ _
  · exact AtBoundary.raise h _
  · exact absurd rfl hresp

theorem Res.EndsAtBoundary.finishUnit {r : Res Unit} (h : r.EndsAtBoundary) {t : State} (ht : r.finishUnit = .next t)
    (hresp : t.response ≠ none) : AtBoundary t :=
  (h.bind (f := fun _ t => .ok (0, []) t) fun _ _ => id).finish ht hresp

theorem Res.EndsAtBoundary.finishBytes {r : Res (List Byte)} (h : r.EndsAtBoundary) {t : State} (ht : r.finishBytes = .next t)
    (hresp : t.response ≠ none) : AtBoundary t :=
  (h.bind (f := fun out t => .ok (0, out) t) fun _ _ => id).finish ht hresp

theorem execRunTest_boundary {n : Word} {s t : State} (hs : AtBoundary s) (ht : exec (.runTest n) s = .next t)
    (hresp : t.response ≠ none) : AtBoundary t ∧ t.exclusiveOpen = true := by
  obtain ⟨hopen, hend⟩ := withSession_eq_next.mp ht
  cases exec_changesSession _ s t ht with
  | none hsame => exact ⟨(runIdleAllocating_endsAtBoundary _ hs).finishUnit hend hresp, hsame.exclusiveOpen.trans hopen⟩

theorem execScanCommand_boundary {scanType fromCode endCode : Byte} {n : Word} {buf : List Byte} {s t : State} (hs : AtBoundary s)
    (ht : exec (.scanCommand scanType fromCode endCode n buf) s = .next t) (hresp : t.response ≠ none) :
    AtBoundary t ∧ t.exclusiveOpen = true := by
  obtain ⟨hopen, hend⟩ := withSession_eq_next.mp ht
  have hscan := allocate_endsAtBoundary hs (scanCommand_endsAtBoundary scanType fromCode endCode n.toNat buf)
  cases exec_changesSession _ s t ht with
  | none hsame => exact ⟨hscan.finishBytes hend hresp, hsame.exclusiveOpen.trans hopen⟩

/-- A Scan or RunTest that answers ends at a boundary, with the session still open (R189, R293). -/
theorem exec_scanOrRunTest_boundary {i : Instr} {s t : State}
    (hi : (∃ n, i = .runTest n) ∨ ∃ a b c n buf, i = .scanCommand a b c n buf) (hs : AtBoundary s) (ht : exec i s = .next t)
    (hresp : t.response ≠ none) : AtBoundary t ∧ t.exclusiveOpen = true := by
  obtain ⟨n, rfl⟩ | ⟨a, b, c, n, buf, rfl⟩ := hi
  · exact execRunTest_boundary hs ht hresp
  · exact execScanCommand_boundary hs ht hresp

/-- From a boundary with an open session SetTapState from CURRENT drives its transition (R224). -/
theorem exec_setTapState_current {s : State} (hs : AtBoundary s) (hopen : s.exclusiveOpen = true) (dest : TapState) :
    exec (.setTapState currentCode dest.code false) s = .next (s.transitioned s.currentState dest) := by
  rw [exec, execSetTapState, withSession_open _ hopen, setTapState, resolveFrom_current, ofCode_code]
  simp only [Bool.false_eq_true, if_false, Res.bind_ok]
  rw [applyTransition_line hs.lines hs.settled.tmsCached (resolveFrom_current _) (ofCode_code dest)]
  rfl

/-- Settles O60: the failure left a boundary and the session open, so the pins are lines and the transition is driven. -/
theorem bitBangWorksAfterAFailure : Obligations.BitBangWorksAfterAFailure := by
  rintro i s t dest hi hs ht ⟨e, herr⟩
  have hresp : t.response ≠ none := fun hnone => by simp [State.status, hnone] at herr
  obtain ⟨hb, hopen⟩ := exec_scanOrRunTest_boundary hi hs ht hresp
  exact ⟨_, exec_setTapState_current hb hopen dest, rfl, rfl, rfl⟩

end Sys2Proof.Machine

/-! The scan's entry checks, its two parts and their order on the wire (spec/43_scan_engine.md R181, R183, R191). -/

namespace Sys2Proof.Machine

/-! The entry checks (R181). -/

theorem scan_outside_shift {s : State} (h : s.currentState.isShift = false) (n : Nat) (endCode : Byte) (inp : List Byte) :
    scan n endCode inp s = .error .invalidState s := by
  simp [scan, h]

theorem scan_illegal_end {s : State} {endCode : Byte} (h : 15 < endCode.toNat) (n : Nat) (inp : List Byte) :
    scan n endCode inp s = .error .invalidState s := by
  simp [scan, ofCode_eq_none.mpr h]

theorem scanLengthLegal_eq_false {n : Nat} {s : State} (h : n = 0 ∨ s.params.maxScanBits < n) : scanLengthLegal n s = false := by
  simp only [scanLengthLegal, Bool.and_eq_false_iff, decide_eq_false_iff_not]
  omega

/-- The length is checked last (log 18). -/
theorem scan_illegal_length {s : State} {endCode : Byte} {n : Nat} (hshift : s.currentState.isShift = true)
    (hend : endCode.toNat ≤ 15) (hn : n = 0 ∨ s.params.maxScanBits < n) (inp : List Byte) :
    scan n endCode inp s = .error .invalidArgument s := by
  obtain ⟨endState, hcode⟩ : ∃ endState, TapState.ofCode endCode = some endState := by
    rw [← Option.ne_none_iff_exists', Ne, ofCode_eq_none]
    omega
  simp [scan, hshift, hcode, scanLengthLegal_eq_false hn]

theorem illegalLength_toNat {n : Word} {max : Nat} (h : n = 0 ∨ max < n.toNat) : n.toNat = 0 ∨ max < n.toNat :=
  h.imp_left fun h0 => by simp [h0]

/-! The way into the Shift state (R190). -/

theorem shiftStateOf_eq_some {scanType : Byte} {shift : TapState}
    (h : scanType = 0 ∧ shift = .shiftDR ∨ scanType = 1 ∧ shift = .shiftIR) : shiftStateOf scanType = some shift := by
  obtain ⟨rfl, rfl⟩ | ⟨rfl, rfl⟩ := h <;> rfl

theorem exists_shiftStateOf {scanType : Byte} (h : scanType.toNat ≤ 1) : ∃ shift, shiftStateOf scanType = some shift := by
  rcases Nat.le_one_iff_eq_zero_or_eq_one.mp h with h | h <;> simp [shiftStateOf, h]

theorem isShift_of_shiftStateOf {scanType : Byte} {shift : TapState} (h : shiftStateOf scanType = some shift) :
    shift.isShift = true := by
  unfold shiftStateOf at h
  split at h <;> cases h <;> rfl

theorem exists_resolveFrom {c : Byte} (h : c.toNat ≤ 16) (t : TapState) : ∃ src, resolveFrom c t = some src := by
  rw [← Option.ne_none_iff_exists', Ne, resolveFrom_eq_none]
  omega

theorem transitionTms_shift (src : TapState) {shift : TapState} (h : shift.isShift = true) :
    transitionTms src shift = computeTransition src shift := by
  unfold transitionTms
  split
  · next hr => simp [hr, TapState.isShift] at h
  · rfl

/-- The state an `xfer` scans in: the path into the Shift state clocked, the tracked state there (R190). -/
def State.drivenTo (src shift : TapState) (s : State) : State :=
  (s.wired (linesAfterTms s (computeTransition src shift)) (linesAfterTms s (computeTransition src shift)).tms
    (transitionEvents (computeTransition src shift))).setCurrentState shift

@[simp] theorem drivenTo_currentState (src shift : TapState) (s : State) : (s.drivenTo src shift).currentState = shift := rfl
@[simp] theorem drivenTo_lines (src shift : TapState) (s : State) :
    (s.drivenTo src shift).lines = linesAfterTms s (computeTransition src shift) := rfl
@[simp] theorem drivenTo_trace (src shift : TapState) (s : State) :
    (s.drivenTo src shift).trace = s.trace ++ transitionEvents (computeTransition src shift) := rfl

theorem AtBoundary.drivenTo {s : State} (hs : AtBoundary s) (src shift : TapState) : AtBoundary (s.drivenTo src shift) :=
  (hs.wired _ _ (linesAfterTms_tck _ hs.settled.tckLow)).setCurrentState shift

/-- From a boundary an `xfer` of a known type and a legal `from` is the scan after its transition (R190). -/
theorem xfer_eq_scan {s : State} {scanType fromCode : Byte} {src shift : TapState} (hs : AtBoundary s)
    (htype : shiftStateOf scanType = some shift) (hfrom : resolveFrom fromCode s.currentState = some src) (endCode : Byte)
    (n : Nat) (inp : List Byte) : xfer scanType fromCode endCode n inp s = scan n endCode inp (s.drivenTo src shift) := by
  simp only [xfer, htype, xferTo]
  rw [applyTransition_line hs.lines hs.settled.tmsCached hfrom (ofCode_code shift),
    transitionTms_shift src (isShift_of_shiftStateOf htype)]
  rfl

theorem exec_xfer (scanType fromCode endCode : Byte) (n : Word) (buf : List Byte) (s : State) :
    exec (.xfer scanType fromCode endCode n buf) s = (xfer scanType fromCode endCode n.toNat buf s).finishBytes := rfl

/-- Settles O33: each check raises in the state it finds, and an `xfer` meets the length check after its transition. -/
theorem scanEntryChecks : Obligations.ScanEntryChecks := by
  refine ⟨fun s endCode n buf => ⟨fun hshift => ?outside, fun _ hend => ?illegalEnd, fun hshift hend hn => ?length⟩,
    fun s scanType fromCode endCode n buf hs htype hfrom hend hn => ?xfer⟩
  case outside =>
    rw [exec_scan, scan_outside_shift hshift]
    exact failsUnchanged_raise s _
  case illegalEnd =>
    rw [exec_scan, scan_illegal_end hend]
    exact failsUnchanged_raise s _
  case length =>
    rw [exec_scan, scan_illegal_length hshift hend (illegalLength_toNat hn)]
    exact failsUnchanged_raise s _
  case xfer =>
    obtain ⟨shift, htype⟩ := exists_shiftStateOf htype
    obtain ⟨src, hfrom⟩ := exists_resolveFrom hfrom s.currentState
    refine ⟨(s.drivenTo src shift).raise .invalidArgument, ?_, rfl⟩
    rw [exec_xfer, xfer_eq_scan hs htype hfrom,
      scan_illegal_length (s := s.drivenTo src shift) (isShift_of_shiftStateOf htype) hend (illegalLength_toNat hn), Res.finishBytes_error]

/-! The partition (R183). -/

theorem mem_sampledEvents {path : Path} {tms : Bool} {tdis tdos : List Bool} {e : Event}
    (h : e ∈ sampledEvents path tms tdis tdos) : ∃ tdi tdo, e = .cycle path tms tdi (some tdo) := by
  obtain ⟨i, hi, rfl⟩ := List.mem_iff_getElem.mp h
  exact ⟨_, _, List.getElem_zipWith⟩

theorem mem_tailEvents {endState : TapState} {buf : List Byte} {i rem : Nat} {tdos : List Bool} {e : Event}
    (h : e ∈ tailEvents endState buf i rem tdos) : ∃ tms tdi tdo, e = .cycle .bb tms tdi (some tdo) := by
  obtain ⟨k, -, rfl⟩ := List.mem_map.mp h
  exact ⟨_, _, _, rfl⟩

theorem mem_transitionEvents {l : List Bool} {e : Event} (h : e ∈ transitionEvents l) : ∃ tms, e = .cycle .bb tms false none := by
  obtain ⟨tms, -, rfl⟩ := List.mem_map.mp h
  exact ⟨_, rfl⟩

@[simp] theorem length_tailEvents (endState : TapState) (buf : List Byte) (i rem : Nat) (tdos : List Bool) :
    (tailEvents endState buf i rem tdos).length = rem := by
  simp [tailEvents]

/-- Of the bit-bang cycles of a scan the data bits sample TDO and the transition does not (R126, R187). -/
theorem filter_isSampledBitBang (endState : TapState) (buf : List Byte) (i rem : Nat) (tdos tms : List Bool) :
    (tailEvents endState buf i rem tdos ++ transitionEvents tms).filter Event.isSampledBitBang =
      tailEvents endState buf i rem tdos := by
  have hdata : (tailEvents endState buf i rem tdos).filter Event.isSampledBitBang = tailEvents endState buf i rem tdos :=
    List.filter_eq_self.mpr fun e he => by
      obtain ⟨_, _, _, rfl⟩ := mem_tailEvents he
      rfl
  have hpath : (transitionEvents tms).filter Event.isSampledBitBang = [] :=
    List.filter_eq_nil_iff.mpr fun e he => by
      obtain ⟨_, rfl⟩ := mem_transitionEvents he
      simp [Event.isSampledBitBang]
  rw [List.filter_append, hdata, hpath, List.append_nil]

/-- The hardware cycles of a scan, without the changes of the pins around them (R183 to R186). -/
def bulkCycles (n : Nat) (buf : List Byte) (s : State) : List Event :=
  sampledEvents (hardwarePath s) s.lines.tms (bitsOf buf (scanBulk n s)) (drawTdos (bitsOf buf (scanBulk n s)) s).1

@[simp] theorem length_bulkCycles (n : Nat) (buf : List Byte) (s : State) : (bulkCycles n buf s).length = scanBulk n s := by
  simp [bulkCycles, sampledEvents]

theorem bulkEvents_channel {n : Nat} {s : State} (h : wantsChannel n s = true) (buf : List Byte) :
    bulkEvents n buf s = .mux .peripheral :: bulkCycles n buf s ++ [.mux .line] := if_pos h

theorem bulkEvents_bitBang {n : Nat} {s : State} (h : wantsChannel n s = false) (buf : List Byte) : bulkEvents n buf s = [] :=
  if_neg (by simp [h])

/-- The hardware cycles of a scan carry the label of the variant, with TMS low, and sample TDO (R160, R183). -/
theorem mem_bulkCycles {n : Nat} {buf : List Byte} {s : State} {e : Event} (hu : ScanUsable n s) (h : e ∈ bulkCycles n buf s) :
    ∃ tdi tdo, e = .cycle (hardwarePath s) false tdi (some tdo) := by
  have hw : wantsChannel n s = true := by
    by_contra hw
    have hlen := List.length_pos_of_mem h
    simp [scanBulk_none (eq_false_of_ne_true hw)] at hlen
  obtain ⟨-, htms⟩ := hu hw
  rw [← htms]
  exact mem_sampledEvents h

/-- Settles O31: the events are the bulk between its two changes of the pins, the data bits and the final transition. -/
theorem scanPartition : Obligations.ScanPartition := by
  intro s endState n buf hs hshift hn hmax hu useHw
  obtain ⟨out, t, hrun, -, -, htrace, -⟩ := scanBody_completes n.toNat endState buf hs hn hu
  have hnew : newEvents s (t.answer 0 out) = _ := newEvents_of_trace htrace
  refine ⟨t.answer 0 out, bulkCycles n.toNat buf s,
    tailEvents endState buf (scanBulk n.toNat s) (n.toNat - scanBulk n.toNat s)
      ((drawTdos (bitsOf buf n.toNat) s).1.drop (scanBulk n.toNat s)) ++
      transitionEvents (transitionTms (scanExit s.currentState endState) endState), ?run, rfl, fun huse => ?channel,
    fun hnot => ?bitBang, fun e he => mem_bulkCycles hu he, fun e he => ?tail, ?count⟩
  case run => rw [exec_scan, scan_eq_scanBody endState buf hshift hn hmax, hrun, Res.finishBytes_ok]
  case channel =>
    have hw := wantsChannel_iff.mpr huse
    obtain ⟨hbulk, -, hlt, hle⟩ := scanBulk_bounds hw
    rw [length_bulkCycles]
    refine ⟨?_, hbulk, by omega, by omega⟩
    rw [hnew, bulkEvents_channel hw, List.append_assoc]
  case bitBang =>
    have hw : wantsChannel n.toNat s = false := eq_false_of_ne_true (mt wantsChannel_iff.mp hnot)
    refine ⟨by rw [hnew, bulkEvents_bitBang hw]; rfl, List.eq_nil_of_length_eq_zero ?_⟩
    rw [length_bulkCycles, scanBulk_none hw]
  case tail =>
    rcases List.mem_append.mp he with he | he
    · obtain ⟨tms, tdi, tdo, rfl⟩ := mem_tailEvents he
      exact ⟨_, _, _, rfl⟩
    · obtain ⟨tms, rfl⟩ := mem_transitionEvents he
      exact ⟨_, _, _, rfl⟩
  case count => rw [filter_isSampledBitBang, length_tailEvents, length_bulkCycles]

/-- Settles O32: both runs emit the data cycles and the final transition of `scanShiftsEveryBitOnce`, and the environment answers
both alike. -/
theorem scanIsIndependentOfThePath : Obligations.ScanIsIndependentOfThePath := by
  rintro s s' u m b endState n buf rfl hs hs' hshift hn hmax hu hu'
  obtain ⟨t, out, hrun, hresp, hlen, hbits, -, -, hwire, hstate, -⟩ :=
    scanShiftsEveryBitOnce s endState n buf hs hshift hn hmax hu
  obtain ⟨t', out', hrun', hresp', hlen', hbits', -, -, hwire', hstate', -⟩ :=
    scanShiftsEveryBitOnce _ endState n buf hs' hshift hn hmax hu'
  obtain ⟨hdraw, -⟩ := drawTdos_congr (bitsOf buf n.toNat) (s := s) (t := { s with
    activeTransferMode := m, interruptDriven := b, params := { s.params with unitWidth := u } }) rfl rfl
  rw [← hdraw] at hbits' hwire'
  exact ⟨t, t', out, out', hrun, hrun', hresp, hresp', hlen.trans hlen'.symm,
    fun k hk => (hbits k hk).trans (hbits' k hk).symm, hwire.trans hwire'.symm, hstate.trans hstate'.symm⟩

end Sys2Proof.Machine

/-! An `xfer` that can complete, and the Scan command that is the same run (spec/43_scan_engine.md R190, R191,
spec/45_commands.md R226). -/

namespace Sys2Proof.Machine

/-- The environment answers the scan of an `xfer` as it would have before the transition, which draws nothing (R13, R126). -/
theorem drawTdos_drivenTo (l : List Bool) (src shift : TapState) (s : State) :
    (drawTdos l (s.drivenTo src shift)).1 = (drawTdos l s).1 :=
  (drawTdos_congr l (s := s.drivenTo src shift) (t := s) rfl rfl).1

/-- In a Shift state that has just been entered TMS is low (R122 (e), R182). -/
theorem drivenTo_tms {s : State} {src shift : TapState} (hshift : shift.isShift = true) (h : src = shift → s.lines.tms = false) :
    (s.drivenTo src shift).lines.tms = false := by
  rw [drivenTo_lines]
  by_cases hsrc : src = shift
  · rw [hsrc, computeTransition_self]
    exact h hsrc
  · rw [linesAfterTms, getLast_computeTransition_shift src shift hshift hsrc]

/-- The channel is as usable after the transition as before it, which drives TMS low (R182, R190). -/
theorem scanUsable_drivenTo {n : Nat} {s : State} {src shift : TapState} (hshift : shift.isShift = true)
    (h : wantsChannel n s = true → ChannelUsable s ∧ (src = shift → s.lines.tms = false)) :
    ScanUsable n (s.drivenTo src shift) := by
  intro hw
  obtain ⟨husable, htms⟩ := h hw
  exact ⟨⟨husable.frequency, husable.idle, husable.healthy⟩, drivenTo_tms hshift htms⟩

/-- A Scan command whose arguments are in range is its `xfer`, with every error reported as IOError (R226, R227). -/
theorem exec_scanCommand_legal {s : State} {scanType fromCode endCode : Byte} {n : Word} {buf : List Byte}
    (hopen : s.exclusiveOpen = true) (halloc : s.env.alloc = .granted)
    (hlegal : scanArgumentsLegal scanType fromCode endCode n.toNat buf s = true) :
    exec (.scanCommand scanType fromCode endCode n buf) s =
      ((xfer scanType fromCode endCode n.toNat buf s).failAs .ioError).finishBytes := by
  rw [exec, execScanCommand, withSession_open _ hopen, allocate_granted _ _ halloc, scanCommand, if_pos hlegal]

theorem shiftStateOf_legal {scanType : Byte} {shift : TapState} (h : shiftStateOf scanType = some shift) :
    scanType.toNat ≤ 1 := by
  unfold shiftStateOf at h
  split at h
  · omega
  · omega
  · cases h

theorem resolveFrom_legal {c : Byte} {src t : TapState} (h : resolveFrom c t = some src) : c.toNat ≤ 16 := by
  by_contra hc
  rw [resolveFrom_eq_none.mpr (by omega)] at h
  cases h

theorem code_le (t : TapState) : t.code.toNat ≤ 15 := by cases t <;> decide

/-- A legal request passes the Scan command's own checks (R226). -/
theorem scanArgumentsLegal_eq_true {s : State} {scanType fromCode : Byte} {src shift : TapState} {n : Nat} {buf : List Byte}
    (htype : shiftStateOf scanType = some shift) (hfrom : resolveFrom fromCode s.currentState = some src)
    (endState : TapState) (hn : 0 < n) (hmax : n ≤ s.params.maxScanBits) (hbuf : ceil8 n ≤ buf.length) :
    scanArgumentsLegal scanType fromCode endState.code n buf s = true := by
  simp [scanArgumentsLegal, scanLengthLegal, shiftStateOf_legal htype, resolveFrom_legal hfrom, code_le, hn.ne', hmax, hbuf]

/-- Settles O35: the scan in the state the transition leads to completes, its cycles come after those of the transition, and the
Scan command passes a success on. -/
theorem xferDrivesThenScans : Obligations.XferDrivesThenScans := by
  intro s scanType fromCode src shift endState n buf hs htype hfrom hn hmax hu tdos
  replace htype := shiftStateOf_eq_some htype
  replace hfrom := resolveFrom_eq_some hfrom
  have hshift := isShift_of_shiftStateOf htype
  have hu' := scanUsable_drivenTo hshift hu
  obtain ⟨out, t, hrun, hlen, hbits, htrace, hframe, -⟩ :=
    scanBody_completes n.toNat endState buf (hs.drivenTo src shift) hn hu'
  have hscan : xfer scanType fromCode endState.code n.toNat buf s = .ok out t := by
    rw [xfer_eq_scan hs htype hfrom, scan_eq_scanBody endState buf (s := s.drivenTo src shift) hshift hn hmax, hrun]
  rw [drivenTo_trace, List.append_assoc] at htrace
  have hnew : newEvents s (t.answer 0 out) = _ := newEvents_of_trace htrace
  simp only [drawTdos_drivenTo] at hbits
  refine ⟨t.answer 0 out, out, ?run, fun hopen halloc hbuf => ?command, rfl, hlen, hbits, ?events, ?wire, ?state, ?frame⟩
  case run => rw [exec_xfer, hscan, Res.finishBytes_ok]
  case command =>
    rw [exec_scanCommand_legal hopen halloc (scanArgumentsLegal_eq_true htype hfrom endState hn hmax hbuf), hscan]
    rfl
  case events => rwa [hnew]
  case wire =>
    rw [hnew, wireCycles_append, wireCycles_append, wireCycles_scanEvents endState buf hn hu', drawTdos_drivenTo,
      wireCycles_transitionEvents, wireCycles_transitionEvents, List.append_assoc]
    rfl
  case state => exact congrArg State.currentState hframe
  case frame => exact congrArg (State.answer · 0 out) hframe

end Sys2Proof.Machine

/-! How many cycles a bulk that fails has let out, unit by unit (spec/42_hw_shift_channel.md R163 to R168,
spec/43_scan_engine.md R184, R185, R189). -/

namespace Sys2Proof.Machine

theorem AddsCycles.mono {k m : Nat} {s t : State} (h : AddsCycles k s t) (hle : k ≤ m) : AddsCycles m s t := by
  obtain ⟨evs, he, hk⟩ := h
  exact ⟨evs, he, hk.trans hle⟩

theorem Res.Post.and {α : Type} {r : Res α} {good good' : α → State → Prop} {bad bad' : ErrorKind → State → Prop}
    {hung hung' : State → Prop} (h : r.Post good bad hung) (h' : r.Post good' bad' hung') :
    r.Post (fun a s => good a s ∧ good' a s) (fun e s => bad e s ∧ bad' e s) (fun s => hung s ∧ hung' s) := by
  cases r with
  | ok a s => exact ⟨h, h'⟩
  | error e s => exact ⟨h, h'⟩
  | hang s => exact ⟨h, h'⟩
  | refused q => trivial

/-! No unit in flight. -/

/-- After its step the peripheral has no unit in flight (R160). -/
theorem peripheralEnabled_peripheralStep (s : State) : (peripheralStep s).peripheralEnabled = false := by
  cases he : s.peripheralEnabled with
  | false => rw [peripheralStep_disabled he, he]
  | true => exact peripheralEnabled_idle (by simp [peripheralStep_busy he])

/-- A wait that ends in time has let the peripheral take its step (R164). -/
theorem peripheralEnabled_pollUntil {cond : State → Bool} {s : State} (h : (pollUntil cond s).1 = true) :
    (pollUntil cond s).2.peripheralEnabled = false := by
  unfold pollUntil at h ⊢
  dsimp only at h ⊢
  split at h
  · exact peripheralEnabled_peripheralStep _
  · cases h

/-- With no unit in flight a wait lets out nothing (R164). -/
theorem addsCycles_pollUntil_disabled (cond : State → Bool) {s : State} (h : s.peripheralEnabled = false) :
    AddsCycles 0 s (pollUntil cond s).2 := by
  have hdraw : s.drawPoll.2.peripheralEnabled = false := by
    simpa [State.peripheralEnabled, State.channelEnabled] using h
  refine .of_trace ?_
  unfold pollUntil
  dsimp only
  split
  · rw [peripheralStep_disabled hdraw, State.drawPoll_trace]
  · rw [partialShift, if_neg (by simp [hdraw]), State.drawPoll_trace]

theorem addsCycles_closeChannel {s : State} (h : s.peripheralEnabled = false) : AddsCycles 0 s (closeChannel s) := by
  rw [closeChannel_idle h]
  exact addsCycles_configureOff s

theorem peripheralEnabled_line {s : State} (h : s.chan.pinFunction = .line) : s.peripheralEnabled = false := by
  simp [State.peripheralEnabled, State.channelEnabled, h]

/-! The polled units. -/

theorem atomic_receive_quiet (s : State) : (atomic (fun s => .ok (receive s).1 (receive s).2) s).Post
    (fun _ t => t.trace = s.trace ∧ t.peripheralEnabled = s.peripheralEnabled) (fun _ _ => False) (fun _ => False) := by
  apply atomic_post
  unfold receive
  split <;> exact ⟨rfl, rfl⟩

/-- A polled unit begun with none in flight lets out at most `U` cycles, whatever comes of it, and none is in flight after a
success (R163, R164). -/
theorem shiftUnitPolled_cycles (v : Unit16) {s : State} (h : s.peripheralEnabled = false) : (shiftUnitPolled v s).Post
    (fun _ t => AddsCycles s.unit.bits s t ∧ t.peripheralEnabled = false) (fun _ t => AddsCycles s.unit.bits s t)
    (fun _ => True) := by
  unfold shiftUnitPolled
  dsimp only
  have hfirst := addsCycles_pollUntil_disabled (fun s => !s.chan.stat.busy) h
  have hunit : (pollUntil (fun s => !s.chan.stat.busy) s).2.unit = s.unit := (pollUntil_run _ s).1.unit
  generalize pollUntil (fun s => !s.chan.stat.busy) s = p at hfirst hunit
  split
  · refine Res.Post.bind ((atomic_send_quiet v p.2).mono (fun _ _ => id) (fun _ _ => False.elim) (fun _ => False.elim)) ?_
    rintro _ t ⟨htrace, hunit'⟩
    have hsecond := addsCycles_pollUntil (fun s => s.chan.stat.ready) t
    rw [hunit', hunit] at hsecond
    have hwaits := (hfirst.trans (.of_trace htrace)).trans hsecond
    rw [Nat.zero_add] at hwaits
    split
    · next hready =>
      refine (atomic_receive_quiet _).mono ?_ (fun _ _ => False.elim) (fun _ => False.elim)
      rintro _ u ⟨htrace', hidle⟩
      exact ⟨hwaits.trans (.of_trace htrace'), hidle.trans (peripheralEnabled_pollUntil hready)⟩
    · exact hwaits.trans (addsCycles_timeoutCleanup _)
  · exact (hfirst.trans (addsCycles_timeoutCleanup p.2)).mono (Nat.zero_le _)

/-- One unit more than the whole units of what remains, at least one bit withheld (R183). -/
theorem wholeUnits_step {u : UnitWidth} {m : Nat} (h : u.bits < m) :
    u.bits + (m - u.bits - 1) / u.bits * u.bits = (m - 1) / u.bits * u.bits := by
  have hm : m - 1 = m - u.bits - 1 + u.bits := by omega
  rw [hm, Nat.add_div_right _ u.bits_pos, Nat.succ_mul, Nat.add_comm]

/-- The polled loop of a scan lets out at most the whole units of the bits that remain, at least one bit withheld (R183, R185). -/
theorem bulkPolled_cycles (n : Nat) (inp : List Byte) (fuel i : Nat) (out : List Byte) {s : State}
    (h : s.peripheralEnabled = false) : (bulkPolled n inp fuel i out s).Post (fun _ _ => True)
      (fun _ t => AddsCycles ((n - i - 1) / s.unit.bits * s.unit.bits) s t) (fun _ => True) := by
  induction fuel generalizing i out s with
  | zero => trivial
  | succ fuel ih =>
    rw [bulkPolled]
    split
    · next hlt =>
      rw [← wholeUnits_step hlt]
      refine Res.Post.bind (((shiftUnitPolled_cycles _ h).and (shiftUnitPolled_run _ s)).mono (fun _ _ => id)
        (fun _ _ ⟨hcycles, _⟩ => hcycles.mono (Nat.le_add_right _ _)) (fun _ _ => trivial)) ?_
      rintro v t ⟨⟨hcycles, hidle⟩, hrun, -⟩
      have hrest := ih (i + s.unit.bits) (memWrite out (i / 8) (unitToBytes s.unit v)) hidle
      rw [hrun.unit, Nat.sub_add_eq] at hrest
      exact hrest.mono (fun _ _ => id) (fun _ _ => hcycles.trans) (fun _ => id)
    · trivial

/-- With no more than a unit of bits left the polled loop does nothing (R184, R185). -/
theorem bulkPolled_done {n i : Nat} (inp : List Byte) (fuel : Nat) (out : List Byte) {s : State} (h : n ≤ i + s.unit.bits) :
    bulkPolled n inp fuel i out s = .ok (i, out) s := by
  cases fuel with
  | zero => rfl
  | succ fuel => rw [bulkPolled, if_neg (by omega)]

/-! The interrupt-driven transfer. -/

theorem ClockedUnits.addsCycles {s t : State} {tx : List Byte} {k : Nat} (h : ClockedUnits s tx k t) :
    AddsCycles (k * s.unit.bits) s t := by
  obtain ⟨tdos, hlen, htrace⟩ := h
  exact ⟨_, htrace, by simp [hlen]⟩

/-- The handler clocks nothing (R167). -/
theorem handlerStep_quiet (s : State) :
    (handlerStep s).Post (fun _ t => t.trace = s.trace) (fun _ _ => True) (fun _ => True) := by
  have hsend : ∀ x u, (sendNext x u).Post (fun _ t => t.trace = u.trace) (fun _ _ => True) (fun _ => True) := by
    intro x u
    unfold sendNext
    rcases send_cases (unitFromBytes u.unit x.tx x.txCursor) u with ⟨-, -, he⟩ | ⟨q, he⟩ <;> rw [he]
    · rfl
    · trivial
  have hreceive : ∀ u, (receive u).2.trace = u.trace := by
    intro u
    unfold receive
    split <;> rfl
  unfold handlerStep
  split
  · refine Res.Post.bind (good := fun _ t => t.trace = s.trace) (atomic_post ?_) ?_
    · unfold receiveAndSendNext
      split
      · rfl
      · refine Res.Post.bind (good := fun _ t => t.trace = s.trace) ?_ fun _ _ => id
        split
        · exact (hsend _ _).mono (fun _ _ ht => ht.trans (hreceive _)) (fun _ _ => id) (fun _ => id)
        · exact hreceive _
    · intro last t ht
      cases last <;> exact ht
  · rfl

theorem lastTurn_quiet (s : State) :
    (lastTurn s).Post (fun _ t => t.trace = s.trace) (fun _ _ => True) (fun _ => True) := by
  refine Res.Post.bind (good := fun _ t => t.trace = s.trace) ?_ fun _ _ => id
  split
  · exact handlerStep_quiet s
  · rfl

section
variable {s t : State} {tx : List Byte} {n k : Nat}

/-- A unit cut off counts at most as a unit (R164). -/
theorem UnitOnWire.partialShift (h : UnitOnWire s tx k t) (j : Nat) :
    AddsCycles ((k + 1) * s.unit.bits) s (partialShift j t) := by
  have hcut := addsCycles_partialShift j t
  rw [h.unit] at hcut
  rw [Nat.succ_mul]
  exact h.clocked.addsCycles.trans hcut

/-- The wait for the last unit of a transfer, whether or not it comes in time (R77, R164). -/
theorem UnitOnWire.waitForWire_cycles (h : UnitOnWire s tx k t) : (Machine.waitForWire t).Post
    (fun _ u => AddsCycles ((k + 1) * s.unit.bits) s u) (fun _ _ => True) (fun _ => True) := by
  have hpoll := h.of_env (drawPoll_env t)
  rw [Machine.waitForWire, if_pos h.inFlight]
  dsimp only
  split
  · rw [← peripheralStep_enabled hpoll.inFlight]
    exact hpoll.peripheralStep.lateDelivery.clocked.addsCycles
  · exact hpoll.partialShift _

/-- The blocking wait of a transfer of `n` units lets out at most `n` units, in time or not (R164, R168). -/
theorem blockingWait_cycles (fuel : Nat) (h : UnitOnWire s tx k t) (hs : UnitsSent s tx n (k + 1) t) :
    (blockingWait fuel t).Post (fun _ u => AddsCycles (n * s.unit.bits) s u) (fun _ _ => True) (fun _ => True) := by
  have hkn : (k + 1) * s.unit.bits ≤ n * s.unit.bits := by
    obtain ⟨x, -, -, -, -, hn, -⟩ := hs.record
    exact Nat.mul_le_mul_right _ (by omega)
  induction fuel generalizing k t with
  | zero =>
    rw [blockingWait, hs.notDone]
    exact h.clocked.addsCycles.mono ((Nat.mul_le_mul_right _ (Nat.le_succ k)).trans hkn)
  | succ fuel ih =>
    rw [blockingWait, hs.notDone, if_neg (by simp)]
    dsimp only
    have hturn := h.of_env (nextTurn_frame t)
    have hsturn := hs.of_env (nextTurn_frame t)
    split
    · next hh =>
      refine (hturn.handlerStep hsturn (ready_of_nextTurn_handler hh)).bind ?_
      rintro _ u ⟨hd, rfl, hu⟩
      rw [blockingWait_of_done fuel hd]
      exact hu.waitForWire_cycles
    · have hpoll := hturn.of_env (drawPoll_env _)
      have hspoll := hsturn.of_env (drawPoll_env _)
      split
      · refine (hpoll.peripheralStep.handlerStep hspoll.peripheralStep (peripheralStep_ready hpoll.inFlight)).bind ?_
        rintro _ u (⟨hd, rfl, hu⟩ | ⟨hu, hsu⟩)
        · rw [blockingWait_of_done fuel hd, waitForWire_idle (peripheralEnabled_idle (by simp [hu.idle]))]
          exact hu.clocked.addsCycles
        · refine ih hu hsu ?_
          obtain ⟨x, -, -, -, -, hn, -⟩ := hsu.record
          exact Nat.mul_le_mul_right _ (by omega)
      · exact (lastTurn_quiet _).mono (fun _ _ ht => ((hpoll.partialShift _).trans (.of_trace ht)).mono hkn) (fun _ _ => id)
          (fun _ => id)

end

/-- A transfer that fails has let out at most its units (R164, R165). -/
theorem transferBlocking_cycles (tx rx : List Byte) (byteCount : Nat) {s : State} (hl : s.xferLock = false) :
    (transferBlocking tx rx byteCount s).Post (fun _ _ => True)
      (fun _ t => AddsCycles (byteCount / s.unit.bytes * s.unit.bits) s t) (fun _ => True) := by
  have hnone : AddsCycles (byteCount / s.unit.bytes * s.unit.bits) s s := (AddsCycles.of_trace rfl).mono (Nat.zero_le _)
  unfold transferBlocking
  split
  · exact hnone
  split
  · exact hnone
  next hc =>
    obtain ⟨h0, hm⟩ := not_or.mp hc
    have hn : 0 < byteCount / s.unit.bytes :=
      Nat.div_pos (Nat.le_of_dvd (by omega) (Nat.dvd_of_mod_eq_zero (not_not.mp hm))) s.unit.bytes_pos
    rcases startTransfer_cases tx rx byteCount s with ⟨hpin, he⟩ | ⟨-, he⟩ | ⟨-, he⟩ <;> rw [he]
    · have hwait := blockingWait_cycles (byteCount / s.unit.bytes) (transferStarted_onWire tx rx byteCount hpin)
        (transferStarted_sent tx rx hl hn)
      have hrun := blockingWait_run (byteCount / s.unit.bytes) (s := transferStarted tx rx byteCount s) hpin rfl rfl
      rw [Res.bind_ok, finishTransfer]
      refine Res.Post.bind ((hwait.and hrun).mono (fun _ _ ⟨hu, _⟩ => hu) (fun _ _ ⟨_, h⟩ => h.elim) (fun _ _ => trivial)) ?_
      intro done u hu
      split
      · trivial
      · split
        · trivial
        · exact hu.trans (addsCycles_timeoutCleanup (endTransfer u))
    · exact hnone
    · trivial

end Sys2Proof.Machine

/-! What a scan that fails leaves, alone, in an `xfer` and in a Scan command (spec/43_scan_engine.md R181, R182, R189, R190,
spec/45_commands.md R227). -/

namespace Sys2Proof.Machine

/-! The bulk. -/

/-- The bulk in bytes is a number of whole units (R184). -/
theorem bulkBits_bytes {u : UnitWidth} {n : Nat} (h : u.bits < n) :
    bulkBits u n / 8 / u.bytes * u.bits = (n - 1) / u.bits * u.bits := by
  rw [bulkBits_eq h]
  generalize (n - 1) / u.bits = units
  rw [bits_of_units u units, Nat.mul_div_cancel_left _ (by omega), Nat.mul_div_cancel _ u.bytes_pos, bits_of_units]

/-- The interrupt-driven bulk that fails has let out at most its units, and nothing after Busy (R184, R189); after a success the
polled loop has nothing to do. -/
theorem bulkInterrupt_cycles {n : Nat} (inp out : List Byte) {s : State} (hn : s.unit.bits < n) (hl : s.xferLock = false)
    (hidle : s.peripheralEnabled = false) : (bulkInterrupt n inp out s).Post
      (fun p t => n ≤ p.1 + t.unit.bits)
      (fun e t => AddsCycles ((n - 1) / s.unit.bits * s.unit.bits) s t ∧ (e = .busy → AddsCycles 0 s t)) (fun _ => True) := by
  have hcycles := transferBlocking_cycles (memRead inp 0 (bulkBits s.unit n / 8)) (zeroBytes (bulkBits s.unit n / 8))
    (bulkBits s.unit n / 8) hl
  rw [bulkBits_bytes hn] at hcycles
  have hrun := transferBlocking_run (memRead inp 0 (bulkBits s.unit n / 8)) (zeroBytes (bulkBits s.unit n / 8))
    (bulkBits s.unit n / 8) s
  refine Res.Post.bind (Res.Post.onError ((hcycles.and hrun).mono (fun _ _ => id) (fun _ _ => id) (fun _ _ => trivial)) ?_) ?_
  · rintro e t ⟨hk, -, ⟨-, rfl⟩ | ⟨rfl, hpin, -⟩⟩
    · have hnone := addsCycles_closeChannel hidle
      exact ⟨hnone.mono (Nat.zero_le _), fun _ => hnone⟩
    · exact ⟨hk.trans (addsCycles_closeChannel (peripheralEnabled_line hpin)), nofun⟩
  · rintro rx t ⟨-, ht, -⟩
    have hbound := Nat.lt_div_mul_add (a := n - 1) s.unit.bits_pos
    change n ≤ bulkBits s.unit n + t.unit.bits
    rw [bulkBits_eq hn, ht.unit]
    omega

/-- The bulk of a scan that fails has let out at most its whole units, and nothing after Busy (R189). -/
theorem bulkPhase_cycles {n : Nat} (inp out : List Byte) {s : State} (hn : s.unit.bits < n) (hs : Settled s)
    (hpin : s.chan.pinFunction = .peripheral) (hidle : s.peripheralEnabled = false) : (bulkPhase true n inp out s).Post
      (fun _ _ => True)
      (fun e t => AddsCycles ((n - 1) / s.unit.bits * s.unit.bits) s t ∧ (e = .busy → AddsCycles 0 s t)) (fun _ => True) := by
  rw [bulkPhase, if_pos rfl]
  split
  · refine Res.Post.bind (bulkInterrupt_cycles inp out hn hs.lockFree hidle) fun p t ht => ?_
    rw [bulkPolled_done inp n p.2 ht]
    trivial
  · rw [Res.bind_ok]
    refine Res.Post.bind (((bulkPolled_cycles n inp n 0 out hidle).and (bulkPolled_run n inp n 0 out hs hpin)).mono
      (fun _ _ _ => trivial) ?_ (fun _ _ => trivial)) fun _ _ _ => trivial
    rintro e t ⟨hcycles, -, -, -, rfl⟩
    exact ⟨hcycles, nofun⟩

/-- Enable and bulk of a scan that fail have let out at most the bulk, nothing after Busy, and no event after InvalidFrequency
(R182, R189). -/
theorem enableAndBulk_cycles (n : Nat) (inp out : List Byte) {s : State} (hs : AtBoundary s) :
    ((enableForScan n s).bind fun useHw s1 => bulkPhase useHw n inp out s1).Post (fun _ _ => True)
      (fun e t => AddsCycles (scanBulk n s) s t ∧ (e = .busy → AddsCycles 0 s t) ∧ (e = .invalidFrequency → t.trace = s.trace))
      (fun _ => True) := by
  have hrun := enableAndBulk_run n inp out hs
  unfold enableForScan at hrun ⊢
  cases hw : wantsChannel n s with
  | false => trivial
  | true =>
    cases hd : usableDivisor s.params s.requestedFreq with
    | none =>
      rw [if_pos rfl, openChannel_none hd]
      exact ⟨(AddsCycles.of_trace rfl).mono (Nat.zero_le _), nofun, fun _ => rfl⟩
    | some d =>
      have hi := hs.settled.busyStuck hs.lines
      obtain ⟨hbulk, -⟩ := scanBulk_bounds hw
      have hon : AddsCycles 0 s (s.channelOn d) := ⟨[.mux .peripheral], rfl, Nat.le_refl _⟩
      obtain ⟨h1, h1p, h1x, h1q, h1l⟩ := enableChannel_run d s
      rw [enableChannel_idle d hi] at h1 h1p h1x h1q h1l
      have hset : Settled (s.channelOn d) := hs.settled.of_run h1 h1x h1q h1l
      have hcycles := bulkPhase_cycles inp out (s := s.channelOn d) (wantsChannel_iff.mp hw).1 hset h1p (peripheralEnabled_idle hi)
      have hkind := bulkPhase_run n inp out (s := s.channelOn d) (wantsChannel_iff.mp hw).1 hset h1p
      rw [if_pos rfl, openChannel_idle hd hi, Res.bind_ok, Res.bind_ok, hbulk]
      refine (hcycles.and hkind).mono (fun _ _ _ => trivial) ?_ (fun _ _ => trivial)
      rintro e t ⟨⟨hall, hbusy⟩, -, -, he⟩
      refine ⟨(hon.trans hall).mono (Nat.zero_add _).le, fun hb => hon.trans (hbusy hb), ?_⟩
      rintro rfl
      simp at he

/-! Where a scan can fail. -/

/-- An operation that may be refused but returns no error. -/
def Res.NeverFails {α : Type} (r : Res α) : Prop := r.Post (fun _ _ => True) (fun _ _ => False) (fun _ => True)

theorem Res.NeverFails.bind {α β : Type} {r : Res α} {f : α → State → Res β} (h : r.NeverFails)
    (hf : ∀ a t, (f a t).NeverFails) : (r.bind f).NeverFails :=
  Res.Post.bind h fun a t _ => hf a t

theorem pulseClock_neverFails (sampleTdo tms tdi : Bool) (s : State) : (pulseClock sampleTdo tms tdi s).NeverFails := by
  unfold pulseClock
  split <;> trivial

theorem driveTransition_neverFails (src dest : TapState) (s : State) : (driveTransition src dest s).NeverFails := by
  refine Res.NeverFails.bind ?_ fun _ _ => trivial
  generalize transitionTms src dest = tms
  induction tms generalizing s with
  | nil => trivial
  | cons x xs ih => exact (pulseClock_neverFails _ _ _ s).bind fun _ t => ih t

theorem tailBits_neverFails (shift endState : TapState) (inp : List Byte) (rem i : Nat) (out : List Byte) (s : State) :
    (tailBits shift endState inp rem i out s).NeverFails := by
  induction rem generalizing i out s with
  | zero => trivial
  | succ rem ih => exact (pulseClock_neverFails _ _ _ s).bind fun b t => ih _ _ _

/-- A scan fails in its entry checks, or in the enable and the bulk; no error can arise after those (R181, R189). -/
theorem scan_eq_error {n : Nat} {endCode : Byte} {inp : List Byte} {s t : State} {e : ErrorKind}
    (h : scan n endCode inp s = .error e t) : (e = .invalidState ∨ e = .invalidArgument) ∧ t = s ∨
      ((enableForScan n s).bind fun useHw s1 => bulkPhase useHw n inp (zeroBytes (ceil8 n)) s1) = .error e t := by
  unfold scan at h
  split at h
  · cases h
    exact .inl ⟨.inl rfl, rfl⟩
  split at h
  · cases h
    exact .inl ⟨.inl rfl, rfl⟩
  split at h
  · rw [scanBody, ← Res.bind_assoc] at h
    rcases Res.bind_eq_error.mp h with h | ⟨p, u, -, h⟩
    · exact .inr h
    rcases Res.bind_eq_error.mp h with h | ⟨out, v, -, h⟩
    · exact ((tailBits_neverFails _ _ _ _ _ _ u).of_error h).elim
    rcases Res.bind_eq_error.mp h with h | ⟨_, w, -, h⟩
    · exact ((driveTransition_neverFails _ _ v).of_error h).elim
    · cases h
  · cases h
    exact .inl ⟨.inr rfl, rfl⟩

/-! What it leaves. -/

/-- Cycles and changes of the pins of a run of the channel sample TDO at the TMS level it began with (R160). -/
theorem mem_wireCycles_channel {tms : Bool} {events : List Event} (h : ∀ e ∈ events, isChannelEvent tms e) {c : WireCycle}
    (hc : c ∈ wireCycles events) : c.tms = tms ∧ c.tdo.isSome = true := by
  induction events with
  | nil => cases hc
  | cons e es ih =>
    obtain ⟨he, hes⟩ := List.forall_mem_cons.mp h
    cases e with
    | mux fn => exact ih hes hc
    | tmsWrite level => exact he.elim
    | cycle p _ _ _ =>
      rcases List.mem_cons.mp hc with rfl | hc
      · cases p with
        | bb => exact he.elim
        | hwp => exact he
        | hwi => exact he
      · exact ih hes hc

theorem OnlyWireAndChannel.keepsResponse {s t : State} (h : OnlyWireAndChannel s t) :
    OnlyWireAndChannel { s with response := t.response } t := by
  unfold OnlyWireAndChannel at *
  rw [h]

/-- What an enable or a bulk that fails leaves: only channel events, at most the bulk of them cycles (R182, R189). -/
theorem enableAndBulk_fails {n : Nat} {inp out : List Byte} {s t : State} {e : ErrorKind} (hs : AtBoundary s)
    (h : ((enableForScan n s).bind fun useHw s1 => bulkPhase useHw n inp out s1) = .error e t) :
    HardwareError e ∧ StoppedInShift s t s.currentState [] (scanBulk n s) ∧ ClockedNothing e s t [] := by
  obtain ⟨hrun, hb, he⟩ := (enableAndBulk_run n inp out hs).of_error h
  obtain ⟨⟨evs, htrace, hlen⟩, hbusy, hfreq⟩ := (enableAndBulk_cycles n inp out hs).of_error h
  have hframe := hrun.onlyWireAndChannel (hb.settled.noTransfer.trans hs.settled.noTransfer.symm)
    (hb.settled.lockFree.trans hs.settled.lockFree.symm)
  obtain ⟨evs', htrace', hchan⟩ := hrun.events
  obtain rfl : evs' = evs := List.append_cancel_left (htrace'.symm.trans htrace)
  refine ⟨he, ⟨hb, hframe.keepsResponse, evs', by simpa [transitionEvents] using htrace, hlen,
    fun c hc => mem_wireCycles_channel hchan hc⟩, fun heq => ?busy, fun hmem => ?noEvent⟩
  case busy => exact List.eq_nil_of_length_eq_zero (Nat.le_zero.mp (hbusy heq).newEvents)
  case noEvent =>
    obtain rfl : e = .invalidFrequency := by
      rcases he with rfl | rfl | rfl
      · rfl
      · simp at hmem
      · simp at hmem
    simpa [transitionEvents] using hfreq rfl

/-- What a scan that fails at a boundary leaves (R189). -/
theorem scan_fails {n : Nat} {endCode : Byte} {inp : List Byte} {s t : State} {e : ErrorKind} (hs : AtBoundary s)
    (h : scan n endCode inp s = .error e t) :
    e ∈ [ErrorKind.invalidState, .invalidArgument, .invalidFrequency, .timeout, .busy] ∧
      StoppedInShift s t s.currentState [] (scanBulk n s) ∧ ClockedNothing e s t [] := by
  rcases scan_eq_error h with ⟨he, rfl⟩ | h
  · refine ⟨?_, ⟨hs, rfl, [], by simp [transitionEvents], Nat.zero_le _, nofun⟩,
      fun _ => by simp [newEvents, wireCycles, transitionWire], fun _ => by simp [transitionEvents]⟩
    rcases he with rfl | rfl <;> simp
  · obtain ⟨he, hleft⟩ := enableAndBulk_fails hs h
    refine ⟨?_, hleft⟩
    rcases he with rfl | rfl | rfl <;> simp

/-- The answer keeps what the failure left. -/
theorem StoppedInShift.raise {s t : State} {shift : TapState} {path : List Bool} {bulk : Nat}
    (h : StoppedInShift s t shift path bulk) (e : ErrorKind) : StoppedInShift s (t.raise e) shift path bulk := by
  obtain ⟨hb, hframe, hevents⟩ := h
  exact ⟨hb.raise e, hframe.raise e, hevents⟩

@[simp] theorem scanBulk_drivenTo (n : Nat) (src shift : TapState) (s : State) :
    scanBulk n (s.drivenTo src shift) = scanBulk n s := rfl

/-- A scan that stopped after the transition has stopped the `xfer` there (R190). -/
theorem StoppedInShift.of_drivenTo {s t : State} {src shift : TapState} {bulk : Nat}
    (h : StoppedInShift (s.drivenTo src shift) t shift [] bulk) :
    StoppedInShift s t shift (computeTransition src shift) bulk := by
  obtain ⟨hb, hframe, after, htrace, hcycles⟩ := h
  exact ⟨hb, hframe, after, by simpa [transitionEvents] using htrace, hcycles⟩

/-- The events of the scan are those of the `xfer` past its transition. -/
theorem ClockedNothing.of_drivenTo {e : ErrorKind} {s t : State} {src shift : TapState} {bulk : Nat}
    (hstop : StoppedInShift s t shift (computeTransition src shift) bulk) (h : ClockedNothing e (s.drivenTo src shift) t []) :
    ClockedNothing e s t (computeTransition src shift) := by
  obtain ⟨hbusy, hnone⟩ := h
  obtain ⟨-, -, after, htrace, -⟩ := hstop
  refine ⟨fun he => ?_, fun he => by simpa [transitionEvents] using hnone he⟩
  have hscan : newEvents (s.drivenTo src shift) t = after := newEvents_of_trace htrace
  have hxfer : newEvents s t = _ := newEvents_of_trace (htrace.trans (List.append_assoc ..))
  rw [hxfer, wireCycles_append, wireCycles_transitionEvents, ← hscan, hbusy he]
  exact List.append_nil _

/-- What an `xfer` that fails leaves: its transition has been clocked, then what its scan leaves (R190). -/
theorem xfer_fails {s t : State} {scanType fromCode endCode : Byte} {src shift : TapState} {n : Nat} {inp : List Byte}
    {e : ErrorKind} (hs : AtBoundary s) (htype : shiftStateOf scanType = some shift)
    (hfrom : resolveFrom fromCode s.currentState = some src) (h : xfer scanType fromCode endCode n inp s = .error e t) :
    e ∈ [ErrorKind.invalidState, .invalidArgument, .invalidFrequency, .timeout, .busy] ∧
      StoppedInShift s t shift (computeTransition src shift) (scanBulk n s) ∧
      ClockedNothing e s t (computeTransition src shift) := by
  rw [xfer_eq_scan hs htype hfrom] at h
  obtain ⟨he, hstop, hnothing⟩ := scan_fails (hs.drivenTo src shift) h
  rw [drivenTo_currentState, scanBulk_drivenTo] at hstop
  exact ⟨he, hstop.of_drivenTo, hnothing.of_drivenTo hstop.of_drivenTo⟩

/-- The IOError of a Scan command is an error of its `xfer` (R227). -/
theorem scanCommand_ioError {s t : State} {scanType fromCode endCode : Byte} {n : Nat} {buf : List Byte}
    (h : scanCommand scanType fromCode endCode n buf s = .error .ioError t) :
    ∃ e, xfer scanType fromCode endCode n buf s = .error e t := by
  unfold scanCommand at h
  split at h
  · exact (Res.failAs_eq_error.mp h).2
  · cases h

/-- The IOError of a Scan command comes after its allocation (R211, R227). -/
theorem allocate_scanCommand_ioError {s t : State} {scanType fromCode endCode : Byte} {n : Nat} {buf : List Byte}
    (h : allocate s (scanCommand scanType fromCode endCode n buf) = .error .ioError t) :
    ∃ e, xfer scanType fromCode endCode n buf s.drawAlloc.2 = .error e t := by
  rcases allocate_cases s (scanCommand scanType fromCode endCode n buf) with ⟨-, ha⟩ | ⟨-, ha⟩ <;> rw [ha] at h
  · exact scanCommand_ioError h
  · cases h

/-- Draws before the transfer leave nothing to be seen. -/
theorem StoppedInShift.of_env {s s' t : State} {shift : TapState} {path : List Bool} {bulk : Nat}
    (hs : ∃ e n, s' = { s with env := e, draws := n }) (h : StoppedInShift s' t shift path bulk) :
    StoppedInShift s t shift path bulk := by
  obtain ⟨e, n, rfl⟩ := hs
  exact h

/-- An operation that answers the error `e` has failed with it. -/
theorem Res.finishBytes_status_error {r : Res (List Byte)} {t : State} {e : ErrorKind} (h : r.finishBytes = .next t)
    (hstatus : t.status = some (.error e)) : ∃ u, r = .error e u ∧ t = u.raise e := by
  rcases Res.finishBytes_eq_next.mp h with ⟨out, u, rfl, rfl⟩ | ⟨e', u, rfl, rfl⟩ | ⟨u, rfl, rfl⟩
  · cases hstatus
  · cases hstatus
    exact ⟨u, rfl, rfl⟩
  · cases hstatus

/-- Settles O34: a scan fails in its checks, its enable or its bulk, and an `xfer` or a Scan command in its scan. -/
theorem failedScanStaysInTheShiftState : Obligations.FailedScanStaysInTheShiftState := by
  refine ⟨fun s t endCode n buf e hs ht hstatus => ?scan,
    fun s t scanType fromCode endCode src shift n buf e hs htype hfrom => ⟨fun ht hstatus => ?xfer, fun ht hstatus => ?command⟩⟩
  case scan =>
    obtain ⟨u, hscan, rfl⟩ := Res.finishBytes_status_error ht hstatus
    obtain ⟨he, hstop, hnothing⟩ := scan_fails hs hscan
    exact ⟨he, hstop.raise e, hnothing⟩
  case xfer =>
    obtain ⟨u, hxfer, rfl⟩ := Res.finishBytes_status_error ht hstatus
    obtain ⟨he, hstop, hnothing⟩ := xfer_fails hs (shiftStateOf_eq_some htype) (resolveFrom_eq_some hfrom) hxfer
    exact ⟨he, hstop.raise e, hnothing⟩
  case command =>
    obtain ⟨-, hend⟩ := withSession_eq_next.mp ht
    obtain ⟨u, halloc, rfl⟩ := Res.finishBytes_status_error hend hstatus
    obtain ⟨e', hxfer⟩ := allocate_scanCommand_ioError halloc
    obtain ⟨env, draws, hdraw, -⟩ := s.drawAlloc_frame
    obtain ⟨-, hstop, -⟩ := xfer_fails (hs.of_env ⟨env, draws, hdraw⟩) (shiftStateOf_eq_some htype)
      (resolveFrom_eq_some (by rwa [State.drawAlloc_currentState])) hxfer
    have hbulk : scanBulk n.toNat s.drawAlloc.2 = scanBulk n.toNat s := by
      rw [hdraw]
      rfl
    rw [hbulk] at hstop
    exact (hstop.of_env ⟨env, draws, hdraw⟩).raise _

end Sys2Proof.Machine

/-! The run clock: its allocation point, a run that completes, and a frequency that gives no divisor
(spec/44_run_clock.md R200 to R205). -/

namespace Sys2Proof.Machine

theorem exec_runIdle (cycles : Word) (s : State) : exec (.runIdle cycles) s = (runIdleAllocating cycles.toNat s).finishUnit := rfl

theorem exec_runTest_open {s : State} (h : s.exclusiveOpen = true) (cycles : Word) :
    exec (.runTest cycles) s = exec (.runIdle cycles) s := withSession_open _ h

/-- The allocation of an idle run that needs none is not made, and one that is granted leaves no trace (R235). -/
theorem runIdleAllocating_granted {s : State} (h : s.env.alloc = .granted) (cycles : Nat) :
    runIdleAllocating cycles s = runIdle cycles s := by
  rw [runIdleAllocating, allocate_granted _ _ h, ite_self]

/-- In BitBang mode there is nothing to allocate, and every idle cycle is bit-banged (R201, R235). -/
theorem runIdleAllocating_bitBang {s : State} (h : s.activeTransferMode = .bitBang) (cycles : Nat) :
    runIdleAllocating cycles s = clockIdle cycles s := by
  simp [runIdleAllocating, needsScratch, runIdle, h]

theorem runIdle_hardware {s : State} (h : s.activeTransferMode = .hardwareAssisted) (cycles : Nat) :
    runIdle cycles s = runIdleHardware cycles s := if_pos h

theorem transitionEvents_replicate (n : Nat) (tms : Bool) :
    transitionEvents (List.replicate n tms) = List.replicate n (.cycle .bb tms false none) :=
  List.map_replicate

theorem linesAfterTms_replicate (s : State) (n : Nat) (tms : Bool) : linesAfterTms s (List.replicate n tms) =
    if n = 0 then s.lines else { s.lines with tck := false, tms := tms, tdiLine := false } := by
  cases n <;> simp [linesAfterTms, List.getLast?_replicate]

/-- Sampled cycles with one level on TDI throughout. -/
theorem sampledEvents_replicate (path : Path) (tms tdi : Bool) {n : Nat} {tdos : List Bool} (h : tdos.length = n) :
    sampledEvents path tms (List.replicate n tdi) tdos = tdos.map fun r => .cycle path tms tdi (some r) := by
  subst h
  rw [sampledEvents, ← List.map_const', List.zipWith_map_left, List.zipWith_self]

theorem idleEvents_bitBang {s : State} (h : s.activeTransferMode = .bitBang) (n : Nat) :
    idleEvents n s = List.replicate n (.cycle .bb false false none) := by
  simp [idleEvents, h, transitionEvents_replicate]

theorem idleEvents_hardware {s : State} (h : s.activeTransferMode = .hardwareAssisted) (n : Nat) :
    idleEvents n s = (if s.lastTmsLevel then [.tmsWrite false] else []) ++ [.mux .peripheral] ++
      (drawTdos (List.replicate (n / s.unit.bits * s.unit.bits) false) s).1.map
        (fun r => .cycle (hardwarePath s) false false (some r)) ++
      [.mux .line] ++ List.replicate (n % s.unit.bits) (.cycle .bb false false none) := by
  have hbulk : idleBulk n s = n / s.unit.bits * s.unit.bits := if_pos h
  rw [idleEvents, if_pos h, hbulk, ← Nat.mod_eq_sub_div_mul, transitionEvents_replicate,
    sampledEvents_replicate _ _ _ (by rw [drawTdos_length, List.length_replicate])]
  simp

/-- Settles O37: with its buffers had and its channel usable the idle run completes, and its events are those of its mode. -/
theorem runIdleClocksExactly : Obligations.RunIdleClocksExactly := by
  intro s cycles hs halloc hu bulk
  obtain ⟨t, hrun, htrace, hframe, -, hcached, -, htms, -⟩ := runIdle_completes cycles.toNat hs hu
  have hexec : exec (.runIdle cycles) s = .next (t.answer 0 []) := by
    rw [exec_runIdle, runIdleAllocating_granted halloc, hrun, Res.finishUnit_ok]
  refine ⟨t.answer 0 [], hexec, fun hopen => (exec_runTest_open hopen cycles).trans hexec, rfl, fun hm => ?bitBang,
    fun hm => ?hardware, congrArg (State.answer · 0 []) hframe, fun h => ⟨htms h, hcached.trans (htms h)⟩⟩
  case bitBang => rw [State.answer_trace, htrace, idleEvents_bitBang hm]
  case hardware =>
    rw [State.answer_trace, htrace, idleEvents_hardware hm]
    simp only [List.append_assoc]
    rfl

/-- Settles O38: the run is one of unsampled pulses with TMS low. -/
theorem runIdleInBitBangMode : Obligations.RunIdleInBitBangMode := by
  intro s cycles hm hline hcached
  rw [exec_runIdle, runIdleAllocating_bitBang hm, clockIdle_eq_clockTms, clockTms_line _ hline hcached, Res.finishUnit_ok,
    linesAfterTms_replicate, transitionEvents_replicate]
  rcases eq_or_ne cycles 0 with rfl | h
  · simp [State.ext_iff, hcached]
  · have hpos : cycles.toNat ≠ 0 := fun hz => h (BitVec.eq_of_toNat_eq hz)
    rw [if_neg hpos, if_neg h, if_neg h]
    rfl

/-- With no usable divisor the hardware path ends at its enable, after TMS was written low (R202, R205). -/
theorem runIdleHardware_none {s : State} (h : usableDivisor s.params s.requestedFreq = none) (cycles : Nat) :
    runIdleHardware cycles s = .error .invalidFrequency (tmsLow s) := by
  have hsame := tmsLow_sameSession s
  rw [← hsame.params, ← hsame.requestedFreq] at h
  rw [runIdleHardware, openChannel_none h]
  rfl

/-- Settles O39: the run ends at its enable, with TMS as it was or written low. -/
theorem runIdleFrequencyError : Obligations.RunIdleFrequencyError := by
  intro s cycles hm halloc hd
  have hexec : exec (.runIdle cycles) s = .next ((tmsLow s).raise .invalidFrequency) := by
    rw [exec_runIdle, runIdleAllocating_granted halloc, runIdle_hardware hm, runIdleHardware_none hd, Res.finishUnit_error]
  refine ⟨fun hlow => ?low, fun hhigh => ?high⟩
  case low =>
    have hsame : tmsLow s = s := if_neg (by simp [hlow])
    rw [hexec, hsame]
    exact failsUnchanged_raise s _
  case high =>
    have hwritten : tmsLow s = ((s.setLine .tms false).setCache false).emit (.tmsWrite false) := if_pos hhigh
    rw [hexec, hwritten]
    exact failsUnchanged_raise _ _

end Sys2Proof.Machine

/-! What an idle run that fails leaves (spec/44_run_clock.md R205). -/

namespace Sys2Proof.Machine

/-! The channel part. -/

/-- Idle units that fail have let out at most their cycles (R164, R203). -/
theorem idleUnits_cycles (n : Nat) {s : State} (h : s.peripheralEnabled = false) : (idleUnits n s).Post (fun _ _ => True)
    (fun _ t => AddsCycles (n * s.unit.bits) s t) (fun _ => True) := by
  induction n generalizing s with
  | zero => trivial
  | succ n ih =>
    rw [idleUnits, Nat.succ_mul, Nat.add_comm]
    refine Res.Post.bind (((shiftUnitPolled_cycles 0 h).and (shiftUnitPolled_run 0 s)).mono (fun _ _ => id)
      (fun _ _ ⟨hcycles, _⟩ => hcycles.mono (Nat.le_add_right _ _)) (fun _ _ => trivial)) ?_
    rintro v t ⟨⟨hcycles, hidle⟩, hrun, -⟩
    have hrest := ih hidle
    rw [hrun.unit] at hrest
    exact hrest.mono (fun _ _ => id) (fun _ _ => hcycles.trans) (fun _ => id)

/-- The aggregate transfer of an idle run that fails has let out at most its units, and nothing after Busy (R203, R205). -/
theorem idleTransfer_cycles (units : Nat) {s : State} (hl : s.xferLock = false) (hidle : s.peripheralEnabled = false) :
    (idleTransfer units s).Post (fun _ _ => True)
      (fun e t => AddsCycles (units * s.unit.bits) s t ∧ (e = .busy → AddsCycles 0 s t)) (fun _ => True) := by
  unfold idleTransfer
  split
  · have hcycles := transferBlocking_cycles (zeroBytes (units * s.unit.bytes)) (zeroBytes (units * s.unit.bytes))
      (units * s.unit.bytes) hl
    rw [Nat.mul_div_cancel _ s.unit.bytes_pos] at hcycles
    refine Res.Post.bind (Res.Post.onError ((hcycles.and (transferBlocking_run _ _ _ s)).mono (fun _ _ _ => trivial)
      (fun _ _ => id) (fun _ _ => trivial)) ?_) fun _ _ _ => trivial
    rintro e t ⟨hk, -, ⟨-, rfl⟩ | ⟨rfl, hpin, -⟩⟩
    · have hnone := addsCycles_closeChannel hidle
      exact ⟨hnone.mono (Nat.zero_le _), fun _ => hnone⟩
    · exact ⟨hk.trans (addsCycles_closeChannel (peripheralEnabled_line hpin)), nofun⟩
  · trivial

/-- The channel part of an idle run that fails in either variant: back at a boundary, at most its units let out, and nothing
after Busy (R203, R205). -/
theorem idlePart_fails (interrupt : Bool) (units : Nat) {s : State} (hs : Settled s) (hpin : s.chan.pinFunction = .peripheral)
    (hidle : s.peripheralEnabled = false) :
    (if interrupt then idleTransfer units s else idleUnits units s).Post (fun _ _ => True)
      (fun e t => HwRun s t ∧ AtBoundary t ∧ (e = .timeout ∨ e = .busy) ∧ AddsCycles (units * s.unit.bits) s t ∧
        (e = .busy → AddsCycles 0 s t)) (fun _ => True) := by
  split
  · refine ((idleTransfer_run units hs).and (idleTransfer_cycles units hs.lockFree hidle)).mono (fun _ _ _ => trivial) ?_
      (fun _ _ => trivial)
    rintro e t ⟨⟨hrun, hb, he⟩, hcycles, hbusy⟩
    exact ⟨hrun, hb, he, hcycles, hbusy⟩
  · refine ((idleUnits_run units hs hpin).and (idleUnits_cycles units hidle)).mono (fun _ _ _ => trivial) ?_
      (fun _ _ => trivial)
    rintro e t ⟨⟨hrun, hb, rfl⟩, hcycles⟩
    exact ⟨hrun, hb, .inl rfl, hcycles, nofun⟩

/-! Where an idle run can fail. -/

theorem clockIdle_neverFails (n : Nat) (s : State) : (clockIdle n s).NeverFails := by
  induction n generalizing s with
  | zero => trivial
  | succ n ih => exact (pulseClock_neverFails _ _ _ s).bind fun _ t => ih t

/-- A hardware run fails in its enable or in its channel part, never in the bit-banged remainder (R203, R205). -/
theorem runIdleHardware_eq_error {cycles : Nat} {s t : State} {e : ErrorKind} (h : runIdleHardware cycles s = .error e t) :
    openChannel (tmsLow s) = .error e t ∨ ∃ u, openChannel (tmsLow s) = .ok () u ∧
      (if s.interruptDriven then idleTransfer (cycles / s.unit.bits) u else idleUnits (cycles / s.unit.bits) u) =
        .error e t := by
  rcases Res.bind_eq_error.mp h with h | ⟨_, u, hopen, h⟩
  · exact .inl h
  rcases Res.bind_eq_error.mp h with h | ⟨_, v, -, h⟩
  · exact .inr ⟨u, hopen, h⟩
  · exact ((clockIdle_neverFails _ _).of_error h).elim

/-- An idle run fails at its allocation, or once its buffers are had (R205, R235). -/
theorem runIdleAllocating_eq_error {cycles : Nat} {s t : State} {e : ErrorKind}
    (h : runIdleAllocating cycles s = .error e t) : e = .outOfMemory ∧ t = s.drawAlloc.2 ∨
      runIdle cycles s = .error e t ∨ runIdle cycles s.drawAlloc.2 = .error e t := by
  unfold runIdleAllocating at h
  split at h
  · rcases allocate_cases s (runIdle cycles) with ⟨-, ha⟩ | ⟨-, ha⟩ <;> rw [ha] at h
    · exact .inr (.inr h)
    · cases h
      exact .inl ⟨rfl, rfl⟩
  · exact .inr (.inl h)

/-! What it leaves. -/

/-- What an idle run that fails with the error `e` leaves, when it had at most `bulk` cycles for the channel: a boundary, only
sampled cycles with TMS low, at most the bulk of them, and none after Busy or InvalidFrequency (R205). -/
structure StoppedIdle (e : ErrorKind) (bulk : Nat) (s t : State) : Prop where
  boundary : AtBoundary t
  frame    : OnlyWireAndChannel s t
  channel  : ∀ c ∈ wireCycles (newEvents s t), c.tms = false ∧ c.tdo.isSome = true
  cycles   : (wireCycles (newEvents s t)).length ≤ bulk
  nothing  : e = .busy ∨ e = .invalidFrequency → wireCycles (newEvents s t) = []

/-- TMS written low is no cycle (R14, R202). -/
theorem wireCycles_newEvents_tmsLow {s t : State} (hcached : s.lastTmsLevel = s.lines.tms)
    (h : ∃ events, t.trace = (tmsLow s).trace ++ events) :
    wireCycles (newEvents s t) = wireCycles (newEvents (tmsLow s) t) := by
  obtain ⟨events, htrace⟩ := h
  rw [newEvents_of_trace htrace]
  rw [tmsLow_eq hcached, State.wired_trace, List.append_assoc] at htrace
  rw [newEvents_of_trace htrace, wireCycles_append]
  split <;> rfl

/-- The channel's run after TMS was written low (R160, R202, R205). -/
theorem StoppedIdle.of_run {e : ErrorKind} {bulk : Nat} {s t : State} (hs : AtBoundary s) (hrun : HwRun (tmsLow s) t)
    (hb : AtBoundary t) (hcycles : AddsCycles bulk (tmsLow s) t)
    (hnone : e = .busy ∨ e = .invalidFrequency → AddsCycles 0 (tmsLow s) t) : StoppedIdle e bulk s t := by
  have hlow := tmsLow_eq hs.settled.tmsCached
  obtain ⟨events, htrace, hchan⟩ := hrun.events
  have hwire := wireCycles_newEvents_tmsLow hs.settled.tmsCached ⟨events, htrace⟩
  refine ⟨hb, ?frame, ?channel, ?cycles, fun he => ?nothing⟩
  case frame =>
    have hframe := hrun.onlyWireAndChannel
      (by rw [hb.settled.noTransfer, hlow]; exact hs.settled.noTransfer.symm)
      (by rw [hb.settled.lockFree, hlow]; exact hs.settled.lockFree.symm)
    rwa [hlow] at hframe
  case channel =>
    have htms : (tmsLow s).lines.tms = false := by rw [hlow]; rfl
    rw [hwire, newEvents_of_trace htrace, ← htms]
    exact fun c => mem_wireCycles_channel hchan
  case cycles =>
    rw [hwire]
    exact hcycles.newEvents
  case nothing =>
    rw [hwire]
    exact List.eq_nil_of_length_eq_zero (Nat.le_zero.mp (hnone he).newEvents)

/-- A draw before the run leaves nothing to be seen. -/
theorem StoppedIdle.of_env {e : ErrorKind} {bulk : Nat} {s s' t : State} (hs : ∃ env n, s' = { s with env := env, draws := n })
    (h : StoppedIdle e bulk s' t) : StoppedIdle e bulk s t := by
  obtain ⟨env, n, rfl⟩ := hs
  exact ⟨h.boundary, h.frame, h.channel, h.cycles, h.nothing⟩

theorem AtBoundary.tmsLow {s : State} (hs : AtBoundary s) : AtBoundary (Machine.tmsLow s) := by
  rw [tmsLow_eq hs.settled.tmsCached]
  exact hs.wired _ _ hs.settled.tckLow

/-- A hardware run that fails at a boundary (R205). -/
theorem runIdleHardware_fails {cycles : Nat} {s t : State} {e : ErrorKind} (hs : AtBoundary s)
    (h : runIdleHardware cycles s = .error e t) :
    HardwareError e ∧ StoppedIdle e (cycles / s.unit.bits * s.unit.bits) s t := by
  have hlow := hs.tmsLow
  have hunit : (tmsLow s).unit = s.unit := congrArg Params.unitWidth (tmsLow_sameSession s).params
  have hi := hlow.settled.busyStuck hlow.lines
  have hfail := runIdleHardware_eq_error h
  cases hd : usableDivisor (tmsLow s).params (tmsLow s).requestedFreq with
  | none =>
    simp only [openChannel_none hd, Res.error.injEq, reduceCtorEq, false_and, exists_false, or_false] at hfail
    obtain ⟨rfl, rfl⟩ := hfail
    exact ⟨.inl rfl, .of_run hs (.refl _) hlow ((AddsCycles.of_trace rfl).mono (Nat.zero_le _)) fun _ => .of_trace rfl⟩
  | some d =>
    obtain ⟨hon, hpin, hx, hq, hl⟩ := enableChannel_run d (tmsLow s)
    rw [enableChannel_idle d hi] at hon hpin hx hq hl
    have hadds : AddsCycles 0 (tmsLow s) ((tmsLow s).channelOn d) := ⟨[.mux .peripheral], rfl, Nat.le_refl _⟩
    simp only [openChannel_idle hd hi, reduceCtorEq, Res.ok.injEq, true_and, exists_eq_left', false_or] at hfail
    obtain ⟨hrun, hb, he, hcycles, hbusy⟩ := (idlePart_fails _ _ (hlow.settled.of_run hon hx hq hl) hpin
      (peripheralEnabled_idle hi)).of_error hfail
    rw [hon.unit, hunit] at hcycles
    refine ⟨.inr he, .of_run hs (hon.trans hrun) hb ((hadds.trans hcycles).mono (Nat.zero_add _).le) ?_⟩
    rintro (rfl | rfl)
    · exact hadds.trans (hbusy rfl)
    · simp at he

/-- An idle run that fails at a boundary: only the hardware path can (R201, R205). -/
theorem runIdle_fails {cycles : Nat} {s t : State} {e : ErrorKind} (hs : AtBoundary s) (h : runIdle cycles s = .error e t) :
    HardwareError e ∧ StoppedIdle e (idleBulk cycles s) s t := by
  unfold runIdle at h
  unfold idleBulk
  split at h
  · next hm =>
    rw [if_pos hm]
    exact runIdleHardware_fails hs h
  · exact ((clockIdle_neverFails _ _).of_error h).elim

/-- An idle run that answers the error `e` has failed with it. -/
theorem execRunIdle_status_error {cycles : Word} {s t : State} {e : ErrorKind} (h : exec (.runIdle cycles) s = .next t)
    (hstatus : t.status = some (.error e)) : ∃ u, runIdleAllocating cycles.toNat s = .error e u ∧ t = u.raise e := by
  rcases Res.finishUnit_eq_next.mp h with ⟨u, -, rfl⟩ | ⟨e', u, hfail, rfl⟩ | ⟨u, -, rfl⟩
  · cases hstatus
  · cases hstatus
    exact ⟨u, hfail, rfl⟩
  · cases hstatus

/-- An allocation refused is a draw and nothing else (R235). -/
theorem StoppedIdle.of_draw {bulk : Nat} {s t : State} (hs : AtBoundary s)
    (h : ∃ env n, t = { s with env := env, draws := n }) : StoppedIdle .outOfMemory bulk s t := by
  have hnone : newEvents s t = [] := newEvents_of_trace (by obtain ⟨env, n, rfl⟩ := h; simp)
  refine ⟨hs.of_env h, ?_, by simp [hnone, wireCycles], by simp [hnone, wireCycles], nofun⟩
  obtain ⟨env, n, rfl⟩ := h
  rfl

/-- An idle run that fails at a boundary, its allocation included (R205, R235). -/
theorem runIdleAllocating_fails {cycles : Nat} {s t : State} {e : ErrorKind} (hs : AtBoundary s)
    (h : runIdleAllocating cycles s = .error e t) :
    (HardwareError e ∨ e = .outOfMemory ∧ t.trace = s.trace) ∧ StoppedIdle e (idleBulk cycles s) s t := by
  obtain ⟨env, n, hdraw, -⟩ := s.drawAlloc_frame
  rcases runIdleAllocating_eq_error h with ⟨rfl, rfl⟩ | h | h
  · exact ⟨.inr ⟨rfl, s.drawAlloc_trace⟩, .of_draw hs ⟨env, n, hdraw⟩⟩
  · obtain ⟨he, hstop⟩ := runIdle_fails hs h
    exact ⟨.inl he, hstop⟩
  · obtain ⟨he, hstop⟩ := runIdle_fails (hs.of_env ⟨env, n, hdraw⟩) h
    have hbulk : idleBulk cycles s.drawAlloc.2 = idleBulk cycles s := by rw [hdraw]; rfl
    rw [hbulk] at hstop
    exact ⟨.inl he, hstop.of_env ⟨env, n, hdraw⟩⟩

/-- Settles O40: the run failed at its allocation, at its enable or in its channel part. -/
theorem failedRunIdle : Obligations.FailedRunIdle := by
  intro s t cycles e hs ht hstatus
  obtain ⟨u, hfail, rfl⟩ := execRunIdle_status_error ht hstatus
  obtain ⟨he, hstop⟩ := runIdleAllocating_fails hs hfail
  refine ⟨?kind, hstop.boundary.raise e, hstop.frame.raise e, hstop.channel, hstop.cycles, hstop.nothing, ?outOfMemory⟩
  case kind => rcases he with (rfl | rfl | rfl) | ⟨rfl, -⟩ <;> simp
  case outOfMemory =>
    rintro rfl
    rcases he with (he | he | he) | ⟨-, htrace⟩
    · cases he
    · cases he
    · cases he
    · exact htrace

end Sys2Proof.Machine

/-! The command set: the settings, RawBitbang, SetTapState and the Scan command's checks (spec/45_commands.md). -/

namespace Sys2Proof.Machine

/-! The commands that read or write one setting (R220, R221, R225, R229 to R234). -/

/-- Settles O42: one case per side of MAX_FREQ. -/
theorem setFrequencyStores : Obligations.SetFrequencyStores := by
  refine fun s hz hopen => ⟨fun hle => ?stores, fun hlt => ?illegal⟩ <;>
    rw [exec, execSetFrequency, withSession_open _ hopen]
  case stores => exact if_neg (Nat.not_lt.mpr hle)
  case illegal =>
    rw [if_pos hlt]
    exact failsUnchanged_raise s _

/-- Settles O43: with the session open both answers are what the machine computes. -/
theorem gettersRead : Obligations.GettersRead := by
  refine fun s hopen => ⟨⟨BitVec.ofNat 32 s.requestedFreq, withSession_open _ hopen, fun hfits => ?value⟩,
    withSession_open _ hopen⟩
  case value => exact (BitVec.toNat_ofNat _ _).trans (Nat.mod_eq_of_lt hfits)

/-- Settles O46: with the session open each setter is its one update. -/
theorem settersWriteOneField : Obligations.SettersWriteOneField :=
  fun _ _ hopen => ⟨withSession_open _ hopen, withSession_open _ hopen, withSession_open _ hopen⟩

/-- Settles O47: one case per value of the flag. -/
theorem openIsExclusive : Obligations.OpenIsExclusive := by
  refine fun s => ⟨fun hclosed => ?opens, fun hopen => ?busy⟩ <;> rw [exec, execOpenSession]
  case opens => exact if_neg (by simp [hclosed])
  case busy =>
    rw [if_pos hopen]
    exact failsUnchanged_raise s _

/-- Settles O48: Release has no test. -/
theorem releaseAlwaysSucceeds : Obligations.ReleaseAlwaysSucceeds := fun _ => rfl

/-- Settles O49: each of the ten commands is `withSession` of its body. -/
theorem closedSessionRefuses : Obligations.ClosedSessionRefuses := by
  intro i s hneeds hclosed
  cases i with
  | setFrequency | getFrequency | rawBitbang | setTapState | getTapState | scanCommand | runTest | setDirectPinControl
  | setHardwareAssisted | setInterruptDriven => exact withSession_closed _ hclosed
  | openSession | releaseSession => simp [needsOpenSession] at hneeds
  | _ => cases hneeds

/-! RawBitbang (R222). -/

/-- The pairs are clocked when the length is in range (R222). -/
theorem rawBitbang_legal {s : State} {length : Nat} {buf : List Byte} (hmax : length ≤ s.params.maxBitbang)
    (hbuf : length ≤ buf.length) : rawBitbang length buf s = clockPairs (buf.take length) s := by
  rw [rawBitbang, if_neg (Nat.not_lt.mpr hmax), if_neg (Nat.not_lt.mpr hbuf)]

/-- A length out of range clocks nothing (R222). -/
theorem rawBitbang_illegal {s : State} {length : Nat} {buf : List Byte} (h : s.params.maxBitbang < length ∨ buf.length < length) :
    rawBitbang length buf s = .error .invalidArgument s := by
  unfold rawBitbang
  split
  · rfl
  · next hmax => exact if_pos (h.resolve_left hmax)

/-- RawBitbang in an open session, its buffers granted (R222, R235). -/
theorem exec_rawBitbang {s : State} (hopen : s.exclusiveOpen = true) (halloc : s.env.alloc = .granted) (length : Word)
    (buf : List Byte) : exec (.rawBitbang length buf) s = (rawBitbang length.toNat buf s).finishBytes := by
  rw [exec, execRawBitbang, withSession_open _ hopen, allocate_granted _ _ halloc]

/-- Settles O44: the run of pairs on plain lines, or the range check. -/
theorem rawBitbangPulsesPerPair : Obligations.RawBitbangPulsesPerPair := by
  refine fun s length buf hopen halloc => ⟨fun hmax hbuf hpin hcache => ?pulses, fun hbad => ?illegal⟩ <;>
    rw [exec_rawBitbang hopen halloc]
  case pulses =>
    rw [rawBitbang_legal hmax hbuf, clockPairs_line _ hpin hcache, Res.finishBytes_ok]
    simp [State.ext_iff, State.answer]
  case illegal =>
    rw [rawBitbang_illegal hbad]
    exact failsUnchanged_raise s _

/-! SetTapState (R224). -/

/-- A run of TMS levels that follows another one ends with the lines of the joined run. -/
theorem linesAfterTms_append {s u : State} {first : List Bool} (hu : u.lines = linesAfterTms s first) (rest : List Bool) :
    linesAfterTms u rest = linesAfterTms s (first ++ rest) := by
  induction rest using List.reverseRecOn with
  | nil => simp [linesAfterTms, hu]
  | append_singleton init t =>
    rw [← List.append_assoc]
    simp only [linesAfterTms, List.getLast?_concat, hu]
    cases first.getLast? <;> rfl

/-- What a run of TMS levels that ends in `dest` leaves on plain lines. -/
def State.steered (s : State) (tms : List Bool) (dest : TapState) : State :=
  (s.wired (linesAfterTms s tms) (linesAfterTms s tms).tms (transitionEvents tms)).setCurrentState dest

/-- Two runs after each other are one run. -/
theorem steered_steered (s : State) (first rest : List Bool) (mid dest : TapState) :
    (s.steered first mid).steered rest dest = s.steered (first ++ rest) dest := by
  have hlines : linesAfterTms (s.steered first mid) rest = linesAfterTms s (first ++ rest) := linesAfterTms_append rfl rest
  rw [State.steered, hlines]
  simp [State.steered, State.ext_iff, transitionEvents]

/-- The run of no levels that stays where it is. -/
theorem steered_nil {s : State} (hcache : s.lastTmsLevel = s.lines.tms) : s.steered [] s.currentState = s := by
  simp [State.steered, State.ext_iff, linesAfterTms, transitionEvents, hcache]

/-- The TMS levels of a forced reset (R127, R224). -/
def forcedResetTms (forceReset : Bool) : List Bool := if forceReset then List.replicate 9 true else []

/-- A forced reset: nine high levels, and TestLogicReset, if it is asked for (R127, R224). -/
theorem forcedReset_line (forceReset : Bool) {s : State} (hpin : s.chan.pinFunction = .line)
    (hcache : s.lastTmsLevel = s.lines.tms) :
    (if forceReset then driveTransition s.currentState .testLogicReset s else .ok () s) =
      .ok () (s.steered (forcedResetTms forceReset) (if forceReset then .testLogicReset else s.currentState)) := by
  cases forceReset with
  | false => exact congrArg (Res.ok ()) (steered_nil hcache).symm
  | true => exact (driveTransition_line _ _ hpin hcache).trans (by rw [transitionTms_reset]; rfl)

/-- SetTapState on plain lines: the forced reset, then the transition from where that has left the tracked state (R224). -/
theorem setTapState_line {fromCode : Byte} {forceReset : Bool} {src : TapState} {s : State}
    (hpin : s.chan.pinFunction = .line) (hcache : s.lastTmsLevel = s.lines.tms)
    (hfrom : resolveFrom fromCode (if forceReset then .testLogicReset else s.currentState) = some src) (dest : TapState) :
    setTapState fromCode dest.code forceReset s =
      .ok () (s.steered (forcedResetTms forceReset ++ transitionTms src dest) dest) := by
  obtain ⟨src', hrange⟩ := exists_resolveFrom (resolveFrom_legal hfrom) s.currentState
  simp only [setTapState, hrange, ofCode_code]
  rw [forcedReset_line forceReset hpin hcache, Res.bind_ok, ← steered_steered]
  exact applyTransition_line hpin rfl hfrom (ofCode_code dest)

/-- A code out of range clocks nothing, not even the forced reset (R224). -/
theorem setTapState_illegal {fromCode toCode : Byte} (h : 16 < fromCode.toNat ∨ 15 < toCode.toNat) (forceReset : Bool)
    (s : State) : setTapState fromCode toCode forceReset s = .error .invalidState s := by
  unfold setTapState
  obtain h | h := h
  · rw [resolveFrom_eq_none.mpr h]
  · rw [ofCode_eq_none.mpr h]
    cases resolveFrom fromCode s.currentState <;> rfl

/-- Settles O45: the forced reset and the transition are one run of TMS levels; out of range the check comes first. -/
theorem setTapStateNavigates : Obligations.SetTapStateNavigates := by
  refine fun s fromCode forceReset hopen => ⟨fun src dest hpin hcache hfrom => ?navigates, fun toCode hbad => ?illegal⟩ <;>
    rw [exec, execSetTapState, withSession_open _ hopen]
  case navigates =>
    rw [setTapState_line hpin hcache (resolveFrom_eq_some hfrom) dest]
    rfl
  case illegal =>
    rw [setTapState_illegal hbad]
    exact failsUnchanged_raise s _

/-! Scan (R226, R227). -/

/-- The Scan command's own checks, as the rule lists them (R226). -/
theorem scanArgumentsLegal_iff {scanType fromCode endCode : Byte} {n : Nat} {buf : List Byte} {s : State} :
    scanArgumentsLegal scanType fromCode endCode n buf s = true ↔ scanType.toNat ≤ 1 ∧ fromCode.toNat ≤ 16 ∧
      endCode.toNat ≤ 15 ∧ 0 < n ∧ n ≤ s.params.maxScanBits ∧ ceil8 n ≤ buf.length := by
  simp [scanArgumentsLegal, scanLengthLegal, Nat.pos_iff_ne_zero, and_assoc]

/-- Arguments out of range move nothing (R226). -/
theorem exec_scanCommand_illegal {s : State} {scanType fromCode endCode : Byte} {n : Word} {buf : List Byte}
    (hopen : s.exclusiveOpen = true) (halloc : s.env.alloc = .granted)
    (hbad : ¬scanArgumentsLegal scanType fromCode endCode n.toNat buf s = true) :
    exec (.scanCommand scanType fromCode endCode n buf) s = .next (s.raise .invalidArgument) := by
  rw [exec, execScanCommand, withSession_open _ hopen, allocate_granted _ _ halloc, scanCommand, if_neg hbad]
  rfl

/-- A failure reported as IOError is the response of the failure with its error kind replaced (R227, R243). -/
theorem finishBytes_failAs_ioError (r : Res (List Byte)) : (r.failAs .ioError).finishBytes =
    mapNext (fun t => { t with response := t.response.map fun a =>
      if a.status = .ok then a else { a with status := .error .ioError } }) r.finishBytes := by
  cases r <;> rfl

/-- Settles O36: the model's checks are the rule's, and past them the command is its `xfer` with every error as IOError. -/
theorem scanCommandMapsErrors : Obligations.ScanCommandMapsErrors := by
  refine fun s scanType fromCode endCode n buf hopen halloc => ⟨fun hbad => ?illegal, fun hlegal => ?legal⟩
  case illegal =>
    rw [exec_scanCommand_illegal hopen halloc (mt scanArgumentsLegal_iff.mp hbad)]
    exact failsUnchanged_raise s _
  case legal =>
    rw [exec_scanCommand_legal hopen halloc (scanArgumentsLegal_iff.mpr hlegal)]
    exact finishBytes_failAs_ioError _

end Sys2Proof.Machine

/-! Which errors each operation can answer, whatever the state (spec/60_exceptions.md R242), and the allocation point that comes
before every other check (spec/45_commands.md R211, R235). -/

namespace Sys2Proof.Machine

/-! The kinds of error an operation can end with. -/

/-- If the operation fails, it is with one of these errors. -/
def Res.FailsOnlyWith {α : Type} (kinds : List ErrorKind) (r : Res α) : Prop :=
  r.Post (fun _ _ => True) (fun e _ => e ∈ kinds) (fun _ => True)

namespace Res.FailsOnlyWith

theorem mono {α : Type} {kinds kinds' : List ErrorKind} {r : Res α} (h : r.FailsOnlyWith kinds) (hk : kinds ⊆ kinds') :
    r.FailsOnlyWith kinds' :=
  Res.Post.mono h (fun _ _ => id) (fun _ _ he => hk he) (fun _ => id)

theorem error {α : Type} {kinds : List ErrorKind} {e : ErrorKind} (s : State) (h : e ∈ kinds) :
    (Res.error e s : Res α).FailsOnlyWith kinds := h

theorem of_error {α : Type} {kinds : List ErrorKind} {r : Res α} (h : ∀ e t, r = .error e t → e ∈ kinds) :
    r.FailsOnlyWith kinds := by
  cases r with
  | error e t => exact h e t rfl
  | _ => trivial

theorem of_neverFails {α : Type} {kinds : List ErrorKind} {r : Res α} (h : r.NeverFails) : r.FailsOnlyWith kinds :=
  Res.Post.mono h (fun _ _ => id) (fun _ _ => False.elim) (fun _ => id)

theorem bind {α β : Type} {kinds : List ErrorKind} {r : Res α} {f : α → State → Res β} (h : r.FailsOnlyWith kinds)
    (hf : ∀ a t, (f a t).FailsOnlyWith kinds) : (r.bind f).FailsOnlyWith kinds :=
  Res.Post.bind h fun a t _ => hf a t

theorem answers {α β : Type} {kinds : List ErrorKind} {r : Res α} {f : α → β} (h : r.FailsOnlyWith kinds) :
    (r.bind fun a t => .ok (f a) t).FailsOnlyWith kinds :=
  h.bind fun _ _ => trivial

theorem onError {α : Type} {kinds : List ErrorKind} {r : Res α} {c : State → State} (h : r.FailsOnlyWith kinds) :
    (r.onError c).FailsOnlyWith kinds :=
  Res.Post.onError h fun _ _ => id

theorem failAs {α : Type} {kinds : List ErrorKind} (r : Res α) {k : ErrorKind} (hk : k ∈ kinds) :
    (r.failAs k).FailsOnlyWith kinds := by
  cases r with
  | error => exact hk
  | _ => trivial

end Res.FailsOnlyWith

/-- An allocation adds OutOfMemory to what can fail (R235). -/
theorem allocate_failsOnlyWith {α : Type} {kinds : List ErrorKind} (s : State) {k : State → Res α}
    (hk : ∀ t, (k t).FailsOnlyWith kinds) : (allocate s k).FailsOnlyWith (.outOfMemory :: kinds) := by
  rcases allocate_cases s k with ⟨-, ha⟩ | ⟨-, ha⟩ <;> rw [ha]
  · exact (hk _).mono (List.subset_cons_self _ _)
  · exact .error _ List.mem_cons_self

/-! The bit-bang path. -/

theorem clockPairs_neverFails (l : List Byte) (s : State) : (clockPairs l s).NeverFails := by
  induction l generalizing s with
  | nil => trivial
  | cons x xs ih => exact (pulseClock_neverFails _ _ _ s).bind fun _ t => (ih t).bind fun _ _ => trivial

theorem rawBitbang_failsOnlyWith (length : Nat) (pairs : List Byte) (s : State) :
    (rawBitbang length pairs s).FailsOnlyWith [.invalidArgument] := by
  unfold rawBitbang
  split
  · exact .error s List.mem_cons_self
  split
  · exact .error s List.mem_cons_self
  · exact .of_neverFails (clockPairs_neverFails _ s)

theorem applyTransition_failsOnlyWith (fromCode toCode : Byte) (s : State) :
    (applyTransition fromCode toCode s).FailsOnlyWith [.invalidState] := by
  unfold applyTransition
  split
  · exact .of_neverFails (driveTransition_neverFails _ _ s)
  · exact .error s List.mem_cons_self

theorem setTapState_failsOnlyWith (fromCode toCode : Byte) (forceReset : Bool) (s : State) :
    (setTapState fromCode toCode forceReset s).FailsOnlyWith [.invalidState] := by
  unfold setTapState
  split
  · refine Res.FailsOnlyWith.bind ?_ fun _ t => applyTransition_failsOnlyWith _ _ t
    split
    · exact .of_neverFails (driveTransition_neverFails _ _ s)
    · trivial
  · exact .error s List.mem_cons_self

/-! The channel. -/

theorem configureOn_failsOnlyWith (s : State) : (configureOn s).FailsOnlyWith [.invalidFrequency] := by
  unfold configureOn
  split
  · trivial
  · exact .error s List.mem_cons_self

theorem openChannel_failsOnlyWith (s : State) : (openChannel s).FailsOnlyWith [.invalidFrequency] :=
  (configureOn_failsOnlyWith s).bind fun _ _ => trivial

theorem send_neverFails (v : Unit16) (s : State) : (send v s).NeverFails := by
  unfold send
  split
  · trivial
  · split <;> trivial

theorem shiftUnitPolled_failsOnlyWith (v : Unit16) (s : State) : (shiftUnitPolled v s).FailsOnlyWith [.timeout] :=
  (shiftUnitPolled_run v s).mono (fun _ _ _ => trivial) (fun _ _ ⟨_, he, _⟩ => List.mem_singleton.mpr he)
    (fun _ => False.elim)

theorem transferBlocking_failsOnlyWith (tx rx : List Byte) (byteCount : Nat) (s : State) :
    (transferBlocking tx rx byteCount s).FailsOnlyWith [.shortBuffer, .invalidArgument, .busy, .timeout] := by
  refine (transferBlocking_run tx rx byteCount s).mono (fun _ _ _ => trivial) ?_ (fun _ _ => trivial)
  rintro e t ⟨-, ⟨⟨rfl, -⟩ | ⟨rfl, -⟩ | rfl, -⟩ | ⟨rfl, -⟩⟩ <;> simp

/-- A transfer of whole units, with as many bytes on both sides, has legal arguments; it can be Busy or time out (R165). -/
theorem transferBlocking_wholeUnits_failsOnlyWith {tx rx : List Byte} {byteCount : Nat} {s : State}
    (htx : byteCount ≤ tx.length) (hrx : byteCount ≤ rx.length) (hpos : 0 < byteCount)
    (hwhole : byteCount % s.unit.bytes = 0) : (transferBlocking tx rx byteCount s).FailsOnlyWith [.busy, .timeout] := by
  refine (transferBlocking_run tx rx byteCount s).mono (fun _ _ _ => trivial) ?_ (fun _ _ => trivial)
  rintro e t ⟨-, ⟨⟨rfl, hshort⟩ | ⟨rfl, hillegal⟩ | rfl, -⟩ | ⟨rfl, -⟩⟩
  · omega
  · omega
  · simp
  · simp

/-! The scan. -/

/-- The bulk of a scan that uses the channel is a positive number of whole units in bytes (R183, R184). -/
theorem bulkBits_wholeUnits {u : UnitWidth} {n : Nat} (h : u.bits < n) :
    0 < bulkBits u n / 8 ∧ bulkBits u n / 8 % u.bytes = 0 := by
  have hunits : 0 < (n - 1) / u.bits := Nat.div_pos (by omega) u.bits_pos
  rw [bulkBits_eq h, bits_of_units, Nat.mul_div_cancel_left _ (by omega)]
  exact ⟨Nat.mul_pos hunits u.bytes_pos, Nat.mul_mod_left _ _⟩

/-- The enable of a scan fails for its frequency alone; the channel is then used only beyond a unit of bits (R182). -/
theorem enableForScan_outcome (n : Nat) (s : State) : (enableForScan n s).Post
    (fun useHw t => useHw = true → t.unit.bits < n) (fun e _ => e ∈ [ErrorKind.invalidFrequency]) (fun _ => True) := by
  unfold enableForScan
  split
  · next hw =>
    refine Res.Post.bind (((openChannel_run s).and (openChannel_failsOnlyWith s)).mono (fun _ _ ⟨hrun, _⟩ => hrun)
      (fun _ _ ⟨_, he⟩ => he) (fun _ _ => trivial)) fun _ t hrun _ => ?_
    rw [hrun.unit]
    exact (wantsChannel_iff.mp hw).1
  · exact nofun

theorem bulkInterrupt_failsOnlyWith {n : Nat} (inp out : List Byte) {s : State} (hn : s.unit.bits < n) :
    (bulkInterrupt n inp out s).FailsOnlyWith [.busy, .timeout] := by
  obtain ⟨hpos, hwhole⟩ := bulkBits_wholeUnits hn
  exact (transferBlocking_wholeUnits_failsOnlyWith (by simp) (by simp) hpos hwhole).onError.answers

theorem bulkPolled_failsOnlyWith (n : Nat) (inp : List Byte) (fuel i : Nat) (out : List Byte) (s : State) :
    (bulkPolled n inp fuel i out s).FailsOnlyWith [.timeout] := by
  induction fuel generalizing i out s with
  | zero => trivial
  | succ fuel ih =>
    rw [bulkPolled]
    split
    · exact (shiftUnitPolled_failsOnlyWith _ s).bind fun _ t => ih _ _ t
    · trivial

theorem bulkPhase_failsOnlyWith {useHw : Bool} {n : Nat} (inp out : List Byte) {s : State}
    (hn : useHw = true → s.unit.bits < n) : (bulkPhase useHw n inp out s).FailsOnlyWith [.busy, .timeout] := by
  unfold bulkPhase
  split
  · next huse =>
    refine Res.FailsOnlyWith.bind ?_ fun p t =>
      ((bulkPolled_failsOnlyWith n inp n p.1 p.2 t).mono (by simp)).bind fun _ _ => trivial
    split
    · exact bulkInterrupt_failsOnlyWith inp out (hn huse)
    · trivial
  · trivial

/-- What can go wrong in a scan: its entry checks, the enable, the bulk (R181, R182, R189). -/
def scanErrors : List ErrorKind := [.invalidState, .invalidArgument, .invalidFrequency, .timeout, .busy]

theorem enableAndBulk_failsOnlyWith (n : Nat) (inp out : List Byte) (s : State) :
    ((enableForScan n s).bind fun useHw t => bulkPhase useHw n inp out t).FailsOnlyWith scanErrors :=
  Res.Post.bind ((enableForScan_outcome n s).mono (fun _ _ => id) (fun _ _ he => by simp_all [scanErrors]) (fun _ => id))
    fun _ _ hn => (bulkPhase_failsOnlyWith inp out hn).mono (by simp [scanErrors])

theorem scan_failsOnlyWith (n : Nat) (endCode : Byte) (inp : List Byte) (s : State) :
    (scan n endCode inp s).FailsOnlyWith scanErrors := by
  refine Res.FailsOnlyWith.of_error fun e t h => ?_
  rcases scan_eq_error h with ⟨rfl | rfl, -⟩ | h
  · simp [scanErrors]
  · simp [scanErrors]
  · exact Res.Post.of_error (enableAndBulk_failsOnlyWith n inp _ s) h

theorem xfer_failsOnlyWith (scanType fromCode endCode : Byte) (n : Nat) (inp : List Byte) (s : State) :
    (xfer scanType fromCode endCode n inp s).FailsOnlyWith scanErrors := by
  unfold xfer
  split
  · exact ((applyTransition_failsOnlyWith _ _ s).mono (by simp [scanErrors])).bind fun _ t =>
      scan_failsOnlyWith n endCode inp t
  · exact .error s (by simp [scanErrors])

theorem scanCommand_failsOnlyWith (scanType fromCode endCode : Byte) (n : Nat) (buf : List Byte) (s : State) :
    (scanCommand scanType fromCode endCode n buf s).FailsOnlyWith [.invalidArgument, .ioError] := by
  unfold scanCommand
  split
  · exact .failAs _ (by simp)
  · exact .error s (by simp)

/-! The idle run. -/

theorem idleUnits_failsOnlyWith (n : Nat) (s : State) : (idleUnits n s).FailsOnlyWith [.timeout] := by
  induction n generalizing s with
  | zero => trivial
  | succ n ih => exact (shiftUnitPolled_failsOnlyWith 0 s).bind fun _ t => ih t

theorem idleTransfer_failsOnlyWith (units : Nat) (s : State) : (idleTransfer units s).FailsOnlyWith [.busy, .timeout] := by
  unfold idleTransfer
  split
  · next hunits =>
    exact (transferBlocking_wholeUnits_failsOnlyWith (by simp) (by simp) (Nat.mul_pos hunits s.unit.bytes_pos)
      (Nat.mul_mod_left _ _)).onError.answers
  · trivial

theorem runIdle_failsOnlyWith (cycles : Nat) (s : State) :
    (runIdle cycles s).FailsOnlyWith [.busy, .timeout, .invalidFrequency] := by
  unfold runIdle
  split
  · refine ((openChannel_failsOnlyWith _).mono (by simp)).bind fun _ t => Res.FailsOnlyWith.bind ?_ fun _ u =>
      .of_neverFails (clockIdle_neverFails _ _)
    split
    · exact (idleTransfer_failsOnlyWith _ t).mono (by simp)
    · exact (idleUnits_failsOnlyWith _ t).mono (by simp)
  · exact .of_neverFails (clockIdle_neverFails cycles s)

theorem runIdleAllocating_failsOnlyWith (cycles : Nat) (s : State) :
    (runIdleAllocating cycles s).FailsOnlyWith [.outOfMemory, .busy, .timeout, .invalidFrequency] := by
  unfold runIdleAllocating
  split
  · exact allocate_failsOnlyWith s (runIdle_failsOnlyWith cycles)
  · exact (runIdle_failsOnlyWith cycles s).mono (List.subset_cons_self _ _)

/-! The rows of the table. -/

/-- The errors each primitive can return. -/
def primitiveErrors : Instr → List ErrorKind
  | .tapNext _ _ | .computeTransition _ _ | .applyTransition _ _ => [.invalidState]
  | .configure _ => [.invalidFrequency]
  | .send _ => [.invalidArgument]
  | .shiftUnitPolled _ => [.invalidArgument, .timeout]
  | .transferBlocking _ _ => [.shortBuffer, .invalidArgument, .busy, .timeout]
  | .scan _ _ _ | .xfer _ _ _ _ _ => scanErrors
  | .runIdle _ => [.outOfMemory, .busy, .timeout, .invalidFrequency]
  | .pulseClock _ _ _ | .reverseNibbles _ | .receive => []
  | .setFrequency _ | .getFrequency | .rawBitbang _ _ | .setTapState _ _ _ | .getTapState => []
  | .scanCommand _ _ _ _ _ | .runTest _ | .setDirectPinControl _ | .setHardwareAssisted _ => []
  | .setInterruptDriven _ | .openSession | .releaseSession => []

/-- The errors each operation can return: a command's are those of its row (R242). -/
def operationErrors (i : Instr) : List ErrorKind := commandErrors i ++ primitiveErrors i

/-- The outcome is no next state that answers an error but one of these. -/
def AnswersOnly (kinds : List ErrorKind) (o : Host.Outcome State Fault Refusal) : Prop :=
  ∀ t e, o = .next t → t.status = some (.error e) → e ∈ kinds

theorem answersOnly_answer (kinds : List ErrorKind) (s : State) (val : Word) (out : List Byte) :
    AnswersOnly kinds (.next (s.answer val out)) := by
  rintro _ e ⟨⟩ ⟨⟩

theorem answersOnly_raise {kinds : List ErrorKind} (s : State) {e : ErrorKind} (h : e ∈ kinds) :
    AnswersOnly kinds (.next (s.raise e)) := by
  rintro _ _ ⟨⟩ ⟨⟩
  exact h

theorem answersOnly_withSession {kinds : List ErrorKind} {s : State} {k : Host.Outcome State Fault Refusal}
    (h : AnswersOnly kinds k) : AnswersOnly kinds (withSession s k) :=
  fun t e ht => h t e (withSession_eq_next.mp ht).2

namespace Res.FailsOnlyWith

theorem finish {kinds : List ErrorKind} {r : Res (Word × List Byte)} (h : r.FailsOnlyWith kinds) :
    AnswersOnly kinds r.finish := by
  cases r with
  | ok p s => exact answersOnly_answer kinds s p.1 p.2
  | error e s => exact answersOnly_raise s h
  | hang s => rintro _ e ⟨⟩ ⟨⟩
  | refused q => rintro _ e ⟨⟩

theorem finishUnit {kinds : List ErrorKind} {r : Res Unit} (h : r.FailsOnlyWith kinds) : AnswersOnly kinds r.finishUnit :=
  h.answers.finish

theorem finishBytes {kinds : List ErrorKind} {r : Res (List Byte)} (h : r.FailsOnlyWith kinds) :
    AnswersOnly kinds r.finishBytes :=
  h.answers.finish

end Res.FailsOnlyWith

/-- No operation answers an error but those it is listed with (R242). -/
theorem exec_answersOnly (i : Instr) (s : State) : AnswersOnly (operationErrors i) (exec i s) := by
  cases i with
  | setFrequency hz =>
    refine answersOnly_withSession ?_
    split
    · exact answersOnly_raise s List.mem_cons_self
    · exact answersOnly_answer _ _ _ _
  | getFrequency | getTapState | setDirectPinControl | setHardwareAssisted | setInterruptDriven =>
    exact answersOnly_withSession (answersOnly_answer _ _ _ _)
  | rawBitbang length buf =>
    exact answersOnly_withSession ((allocate_failsOnlyWith s (rawBitbang_failsOnlyWith _ _)).mono
      (by simp [operationErrors, commandErrors])).finishBytes
  | setTapState fromCode toCode forceReset =>
    exact answersOnly_withSession (setTapState_failsOnlyWith _ _ _ s).finishUnit
  | scanCommand scanType fromCode endCode n buf =>
    exact answersOnly_withSession ((allocate_failsOnlyWith s (scanCommand_failsOnlyWith _ _ _ _ _)).mono
      (by simp [operationErrors, commandErrors])).finishBytes
  | runTest cycles =>
    exact answersOnly_withSession ((runIdleAllocating_failsOnlyWith _ s).mono
      (by simp [operationErrors, commandErrors])).finishUnit
  | openSession =>
    simp only [exec, execOpenSession]
    split
    · exact answersOnly_raise s List.mem_cons_self
    · exact answersOnly_answer _ _ _ _
  | releaseSession | reverseNibbles | receive => exact answersOnly_answer _ _ _ _
  | tapNext stateCode tms =>
    simp only [exec, execTapNext]
    split
    · exact answersOnly_answer _ _ _ _
    · exact answersOnly_raise s List.mem_cons_self
  | computeTransition fromCode toCode =>
    simp only [exec, execComputeTransition]
    split
    · exact answersOnly_answer _ _ _ _
    · exact answersOnly_raise s List.mem_cons_self
  | applyTransition fromCode toCode => exact (applyTransition_failsOnlyWith _ _ s).finishUnit
  | pulseClock sampleTdo tms tdi =>
    exact (Res.FailsOnlyWith.of_neverFails (pulseClock_neverFails sampleTdo tms tdi s)).answers.finish
  | configure enable =>
    cases enable with
    | false => exact answersOnly_answer _ _ _ _
    | true => exact (configureOn_failsOnlyWith s).finishUnit
  | send v =>
    simp only [exec, execSend]
    split
    · exact (Res.FailsOnlyWith.of_neverFails (send_neverFails v s)).finishUnit
    · exact answersOnly_raise s List.mem_cons_self
  | shiftUnitPolled v =>
    simp only [exec, execShiftUnitPolled]
    split
    · exact ((shiftUnitPolled_failsOnlyWith v s).mono (by simp [operationErrors, primitiveErrors])).answers.finish
    · exact answersOnly_raise s List.mem_cons_self
  | transferBlocking byteCount buf => exact (transferBlocking_failsOnlyWith _ _ _ s).finishBytes
  | scan endCode n buf => exact (scan_failsOnlyWith _ _ _ s).finishBytes
  | xfer scanType fromCode endCode n buf => exact (xfer_failsOnlyWith _ _ _ _ _ s).finishBytes
  | runIdle cycles => exact (runIdleAllocating_failsOnlyWith _ s).finishUnit

/-- OutOfMemory is listed with the operations that allocate, and with no other (R235, R242). -/
theorem allocates_of_outOfMemory {i : Instr} (h : .outOfMemory ∈ operationErrors i) : allocates i = true := by
  cases i with
  | rawBitbang | scanCommand | runTest | runIdle => rfl
  | _ => simp [operationErrors, commandErrors, primitiveErrors, scanErrors] at h

/-! The allocation point (R211 (3), R235). -/

/-- The state after an allocation that the environment refuses, with the answers it has left. -/
def State.refusedOnce (s : State) (rest : List Bool) : State := { s with env := { s.env with alloc := .answers rest } }

theorem allocate_refused {α : Type} {s : State} {rest : List Bool} (h : s.env.alloc = .answers (false :: rest))
    (k : State → Res α) : allocate s k = .error .outOfMemory (s.refusedOnce rest) := by
  simp [allocate, State.drawAlloc, h, State.refusedOnce, State.setEnv]

/-- An idle run that needs scratch buffers and is refused them (R205, R235). -/
theorem runIdleAllocating_refused {s : State} {rest : List Bool} {cycles : Nat} (h : s.env.alloc = .answers (false :: rest))
    (hmode : s.activeTransferMode = .hardwareAssisted) (hirq : s.interruptDriven = true) (hunit : s.unit.bits ≤ cycles) :
    runIdleAllocating cycles s = .error .outOfMemory (s.refusedOnce rest) := by
  rw [runIdleAllocating, if_pos (by simp [needsScratch, hmode, hirq, hunit]), allocate_refused h]

/-- Settles O50: the allocation stands in front of each body, and only the operations that have one can answer OutOfMemory. -/
theorem outOfMemoryComesFirst : Obligations.OutOfMemoryComesFirst := by
  refine ⟨fun s rest halloc => ⟨fun hopen => ⟨fun a b c n buf => ?scan, fun n buf => ?rawBitbang⟩,
    fun cycles hmode hirq hunit => ⟨?runIdle, fun hopen => ?runTest⟩⟩, fun i s t ht hstatus => ?others⟩
  case scan =>
    rw [exec, execScanCommand, withSession_open _ hopen, allocate_refused halloc]
    exact failsUnchanged_raise _ _
  case rawBitbang =>
    rw [exec, execRawBitbang, withSession_open _ hopen, allocate_refused halloc]
    exact failsUnchanged_raise _ _
  case runIdle =>
    rw [exec_runIdle, runIdleAllocating_refused halloc hmode hirq hunit]
    exact failsUnchanged_raise _ _
  case runTest =>
    rw [exec_runTest_open hopen, exec_runIdle, runIdleAllocating_refused halloc hmode hirq hunit]
    exact failsUnchanged_raise _ _
  case others => exact allocates_of_outOfMemory (exec_answersOnly i s t _ ht hstatus)

end Sys2Proof.Machine

/-! The errors of a command (spec/60_exceptions.md R242), and the errors raised before any effect (R190, R245). -/

namespace Sys2Proof.Machine

theorem primitiveErrors_of_isCommand {i : Instr} (h : isCommand i = true) : primitiveErrors i = [] := by
  cases i with
  | setFrequency | getFrequency | rawBitbang | setTapState | getTapState | scanCommand | runTest | setDirectPinControl
  | setHardwareAssisted | setInterruptDriven | openSession | releaseSession => rfl
  | _ => cases h

/-- Settles O51: an operation answers only the errors it is listed with, and a command is listed with those of its row. -/
theorem commandErrorMatrix : Obligations.CommandErrorMatrix := by
  intro i s t e hi ht hstatus
  have hmem : e ∈ operationErrors i := exec_answersOnly i s t e ht hstatus
  rwa [operationErrors, primitiveErrors_of_isCommand hi, List.append_nil] at hmem

/-! What a check that fails leaves. -/

/-- The errors a check raises, in every operation but `xfer` (R245). -/
def checkErrors : List ErrorKind := [.invalidArgument, .invalidState, .outOfMemory, .shortBuffer]

/-- Nothing has changed but the response, the answers to allocations and the counter of the free values. -/
structure OnlyDraws (s t : State) : Prop where
  frame    : t = { s with response := t.response, env := t.env, draws := t.draws }
  tdo      : t.env.tdo = s.env.tdo
  polls    : t.env.polls = s.env.polls
  schedule : t.env.schedule = s.env.schedule

namespace OnlyDraws

theorem refl (s : State) : OnlyDraws s s := ⟨rfl, rfl, rfl, rfl⟩

theorem trans {s t u : State} (h : OnlyDraws s t) (h' : OnlyDraws t u) : OnlyDraws s u := by
  refine ⟨?_, h'.tdo.trans h.tdo, h'.polls.trans h.polls, h'.schedule.trans h.schedule⟩
  rw [h'.frame, h.frame]

theorem drawAlloc (s : State) : OnlyDraws s s.drawAlloc.2 := by
  obtain ⟨env, n, h, htdo, hpolls, hschedule⟩ := s.drawAlloc_frame
  rw [h]
  exact ⟨rfl, htdo, hpolls, hschedule⟩

theorem raise {s t : State} (h : OnlyDraws s t) (e : ErrorKind) : OnlyDraws s (t.raise e) :=
  h.trans ⟨rfl, rfl, rfl, rfl⟩

end OnlyDraws

/-- If the operation fails with the error of a check, it has only drawn. -/
def Res.ChecksFirst {α : Type} (s : State) (r : Res α) : Prop :=
  r.Post (fun _ _ => True) (fun e t => e ∈ checkErrors → OnlyDraws s t) (fun _ => True)

namespace Res.ChecksFirst

/-- A check that fails raises in the state it finds. -/
theorem error {α : Type} (e : ErrorKind) (s : State) : (Res.error e s : Res α).ChecksFirst s := fun _ => .refl s

theorem of_neverFails {α : Type} {s : State} {r : Res α} (h : r.NeverFails) : r.ChecksFirst s :=
  Res.Post.mono h (fun _ _ => id) (fun _ _ => False.elim) (fun _ => id)

/-- An operation that raises no error of a check has none to raise late. -/
theorem of_failsOnlyWith {α : Type} {s : State} {kinds : List ErrorKind} {r : Res α} (h : r.FailsOnlyWith kinds)
    (hk : ∀ e ∈ kinds, e ∉ checkErrors) : r.ChecksFirst s :=
  Res.Post.mono h (fun _ _ => id) (fun e _ he hcheck => absurd hcheck (hk e he)) (fun _ => id)

theorem of_draws {α : Type} {s t : State} {r : Res α} (hst : OnlyDraws s t) (h : r.ChecksFirst t) : r.ChecksFirst s :=
  Res.Post.mono h (fun _ _ => id) (fun _ _ hu he => hst.trans (hu he)) (fun _ => id)

theorem answers {α β : Type} {s : State} {r : Res α} {f : α → β} (h : r.ChecksFirst s) :
    (r.bind fun a t => .ok (f a) t).ChecksFirst s :=
  Res.Post.bind h fun _ _ _ => trivial

end Res.ChecksFirst

/-- An allocation that is refused has only drawn, and one that is granted too (R235). -/
theorem allocate_checksFirst {α : Type} (s : State) {k : State → Res α} (hk : ∀ t, (k t).ChecksFirst t) :
    (allocate s k).ChecksFirst s := by
  rcases allocate_cases s k with ⟨-, ha⟩ | ⟨-, ha⟩ <;> rw [ha]
  · exact .of_draws (.drawAlloc s) (hk _)
  · exact fun _ => .drawAlloc s

/-! The operations that check. -/

theorem rawBitbang_checksFirst (length : Nat) (pairs : List Byte) (s : State) :
    (rawBitbang length pairs s).ChecksFirst s := by
  unfold rawBitbang
  split
  · exact .error _ s
  split
  · exact .error _ s
  · exact .of_neverFails (clockPairs_neverFails _ s)

theorem applyTransition_neverFails {fromCode toCode : Byte} (hfrom : fromCode.toNat ≤ 16) (hto : toCode.toNat ≤ 15)
    (s : State) : (applyTransition fromCode toCode s).NeverFails := by
  obtain ⟨src, hsrc⟩ := exists_resolveFrom hfrom s.currentState
  obtain ⟨dest, hdest⟩ : ∃ dest, TapState.ofCode toCode = some dest := by
    rw [← Option.ne_none_iff_exists', Ne, ofCode_eq_none]
    omega
  simp only [applyTransition, hsrc, hdest]
  exact driveTransition_neverFails src dest s

theorem applyTransition_checksFirst (fromCode toCode : Byte) (s : State) :
    (applyTransition fromCode toCode s).ChecksFirst s := by
  by_cases hbad : 16 < fromCode.toNat ∨ 15 < toCode.toNat
  · rw [applyTransition_illegal hbad]
    exact .error _ s
  · exact .of_neverFails (applyTransition_neverFails (by omega) (by omega) s)

/-- The range check comes before the forced reset, and covers the transition after it (R224). -/
theorem setTapState_checksFirst (fromCode toCode : Byte) (forceReset : Bool) (s : State) :
    (setTapState fromCode toCode forceReset s).ChecksFirst s := by
  by_cases hbad : 16 < fromCode.toNat ∨ 15 < toCode.toNat
  · rw [setTapState_illegal hbad]
    exact .error _ s
  unfold setTapState
  split
  · refine .of_neverFails (Res.NeverFails.bind ?_ fun _ t => applyTransition_neverFails (by omega) (by omega) t)
    split
    · exact driveTransition_neverFails _ _ s
    · trivial
  · exact .error _ s

/-- ShortBuffer, InvalidArgument and Busy are raised before the transfer starts (R165). -/
theorem transferBlocking_checksFirst (tx rx : List Byte) (byteCount : Nat) (s : State) :
    (transferBlocking tx rx byteCount s).ChecksFirst s := by
  refine (transferBlocking_run tx rx byteCount s).mono (fun _ _ _ => trivial) ?_ (fun _ _ => trivial)
  rintro e t ⟨-, ⟨-, rfl⟩ | ⟨rfl, -⟩⟩ hcheck
  · exact .refl t
  · simp [checkErrors] at hcheck

/-- Past its entry checks a scan fails in the hardware channel alone (R182, R189). -/
theorem enableAndBulk_failsOnlyInChannel (n : Nat) (inp out : List Byte) (s : State) :
    ((enableForScan n s).bind fun useHw t => bulkPhase useHw n inp out t).FailsOnlyWith
      [.invalidFrequency, .busy, .timeout] :=
  Res.Post.bind ((enableForScan_outcome n s).mono (fun _ _ => id)
      (fun _ _ he => List.mem_singleton.mp he ▸ List.mem_cons_self) (fun _ => id))
    fun _ _ hn => (bulkPhase_failsOnlyWith inp out hn).mono (List.subset_cons_self _ _)

theorem scan_checksFirst (n : Nat) (endCode : Byte) (inp : List Byte) (s : State) :
    (scan n endCode inp s).ChecksFirst s := by
  cases h : scan n endCode inp s with
  | error e t =>
    rcases scan_eq_error h with ⟨-, rfl⟩ | hlate
    · exact .error e t
    · exact .of_failsOnlyWith (Res.Post.of_error (enableAndBulk_failsOnlyInChannel n inp _ s) hlate) (by decide)
  | _ => trivial

/-- Past its argument checks a Scan command fails with IOError alone (R226, R227). -/
theorem scanCommand_checksFirst (scanType fromCode endCode : Byte) (n : Nat) (buf : List Byte) (s : State) :
    (scanCommand scanType fromCode endCode n buf s).ChecksFirst s := by
  unfold scanCommand
  split
  · exact .of_failsOnlyWith (.failAs _ (List.mem_singleton_self _)) (by decide)
  · exact .error _ s

/-- An idle run checks nothing but its allocation (R200, R205). -/
theorem runIdleAllocating_checksFirst (cycles : Nat) (s : State) : (runIdleAllocating cycles s).ChecksFirst s := by
  have hrun (t : State) : (runIdle cycles t).ChecksFirst t := .of_failsOnlyWith (runIdle_failsOnlyWith cycles t) (by decide)
  unfold runIdleAllocating
  split
  · exact allocate_checksFirst s hrun
  · exact hrun s

/-! The rows of the table. -/

/-- A next state that answers the error of a check has only drawn. -/
def FailsEarly (s : State) (o : Host.Outcome State Fault Refusal) : Prop :=
  ∀ t e, o = .next t → t.status = some (.error e) → e ∈ checkErrors → OnlyDraws s t

theorem failsEarly_raise (s : State) (e : ErrorKind) : FailsEarly s (.next (s.raise e)) := by
  rintro _ _ ⟨⟩ - -
  exact (OnlyDraws.refl s).raise e

theorem failsEarly_answer (s t : State) (val : Word) (out : List Byte) : FailsEarly s (.next (t.answer val out)) := by
  rintro _ _ ⟨⟩ ⟨⟩

theorem failsEarly_withSession {s : State} {k : Host.Outcome State Fault Refusal} (h : FailsEarly s k) :
    FailsEarly s (withSession s k) :=
  fun t e ht => h t e (withSession_eq_next.mp ht).2

theorem AnswersOnly.failsEarly {kinds : List ErrorKind} {s : State} {o : Host.Outcome State Fault Refusal}
    (h : AnswersOnly kinds o) (hk : ∀ e ∈ kinds, e ∉ checkErrors) : FailsEarly s o :=
  fun t e ht hstatus hcheck => absurd hcheck (hk e (h t e ht hstatus))

namespace Res.ChecksFirst

theorem finish {s : State} {r : Res (Word × List Byte)} (h : r.ChecksFirst s) : FailsEarly s r.finish := by
  cases r with
  | ok p t => exact failsEarly_answer s t p.1 p.2
  | error e t =>
    rintro _ _ ⟨⟩ ⟨⟩ hcheck
    exact OnlyDraws.raise (h hcheck) e
  | hang t => rintro _ _ ⟨⟩ ⟨⟩
  | refused q => rintro _ _ ⟨⟩

theorem finishUnit {s : State} {r : Res Unit} (h : r.ChecksFirst s) : FailsEarly s r.finishUnit := h.answers.finish

theorem finishBytes {s : State} {r : Res (List Byte)} (h : r.ChecksFirst s) : FailsEarly s r.finishBytes := h.answers.finish

end Res.ChecksFirst

/-- Every operation but `xfer`, whose scan checks after its transition, raises the errors of its checks first (R245). -/
theorem exec_failsEarly {i : Instr} (hi : ∀ a b c n buf, i ≠ .xfer a b c n buf) (s : State) : FailsEarly s (exec i s) := by
  cases i with
  | getFrequency | getTapState | setDirectPinControl | setHardwareAssisted | setInterruptDriven | openSession
  | releaseSession | pulseClock | reverseNibbles | configure | receive =>
    exact (exec_answersOnly _ s).failsEarly (by simp [operationErrors, commandErrors, primitiveErrors, checkErrors])
  | setFrequency hz =>
    refine failsEarly_withSession ?_
    split
    · exact failsEarly_raise s _
    · exact failsEarly_answer _ _ _ _
  | rawBitbang length buf =>
    exact failsEarly_withSession (allocate_checksFirst s (rawBitbang_checksFirst _ _)).finishBytes
  | setTapState fromCode toCode forceReset => exact failsEarly_withSession (setTapState_checksFirst _ _ _ s).finishUnit
  | scanCommand scanType fromCode endCode n buf =>
    exact failsEarly_withSession (allocate_checksFirst s (scanCommand_checksFirst _ _ _ _ _)).finishBytes
  | runTest cycles => exact failsEarly_withSession (runIdleAllocating_checksFirst _ s).finishUnit
  | tapNext stateCode tms =>
    simp only [exec, execTapNext]
    split
    · exact failsEarly_answer _ _ _ _
    · exact failsEarly_raise s _
  | computeTransition fromCode toCode =>
    simp only [exec, execComputeTransition]
    split
    · exact failsEarly_answer _ _ _ _
    · exact failsEarly_raise s _
  | applyTransition fromCode toCode => exact (applyTransition_checksFirst _ _ s).finishUnit
  | send v =>
    simp only [exec, execSend]
    split
    · exact (Res.ChecksFirst.of_neverFails (send_neverFails v s)).finishUnit
    · exact failsEarly_raise s _
  | shiftUnitPolled v =>
    simp only [exec, execShiftUnitPolled]
    split
    · exact (Res.ChecksFirst.of_failsOnlyWith (shiftUnitPolled_failsOnlyWith v s) (by decide)).answers.finish
    · exact failsEarly_raise s _
  | transferBlocking byteCount buf => exact (transferBlocking_checksFirst _ _ _ s).finishBytes
  | scan endCode n buf => exact (scan_checksFirst _ _ _ s).finishBytes
  | xfer scanType fromCode endCode n buf => exact absurd rfl (hi scanType fromCode endCode n buf)
  | runIdle cycles => exact (runIdleAllocating_checksFirst _ s).finishUnit

/-- Open answers an error only where it does nothing else (R232). -/
theorem exec_openSession_error {s t : State} {e : ErrorKind} (h : exec .openSession s = .next t)
    (hstatus : t.status = some (.error e)) : t = s.raise .busy := by
  simp only [exec, execOpenSession] at h
  split at h <;> cases h
  · rfl
  · cases hstatus

/-! The checks of `xfer` before its transition (R190). -/

/-- The model's reading of a bad type (log 17). -/
theorem xfer_illegal_type {scanType : Byte} (h : 1 < scanType.toNat) (fromCode endCode : Byte) (n : Nat) (inp : List Byte)
    (s : State) : xfer scanType fromCode endCode n inp s = .error .invalidArgument s := by
  have hnone : shiftStateOf scanType = none :=
    Option.eq_none_iff_forall_ne_some.mpr fun _ hshift => Nat.not_le_of_lt h (shiftStateOf_legal hshift)
  simp only [xfer, hnone]

theorem xfer_illegal_from {scanType fromCode : Byte} (htype : scanType.toNat ≤ 1) (h : 16 < fromCode.toNat) (endCode : Byte)
    (n : Nat) (inp : List Byte) (s : State) : xfer scanType fromCode endCode n inp s = .error .invalidState s := by
  obtain ⟨shift, hshift⟩ := exists_shiftStateOf htype
  simp only [xfer, hshift, xferTo, applyTransition_illegal (.inl h), Res.bind_error]

/-- Settles O52: an `xfer` raises its first two checks in the state it finds, and every other operation raises the errors of
its checks before it has done more than draw; Open is Busy where it does nothing else. -/
theorem earlyErrorsChangeNothing : Obligations.EarlyErrorsChangeNothing := by
  refine ⟨fun scanType fromCode endCode n buf s => ⟨fun htype => ?badType, fun htype hfrom => ?badFrom⟩,
    fun i s t e ht hstatus hearly => ?others⟩
  case badType =>
    rw [exec_xfer, xfer_illegal_type htype]
    exact failsUnchanged_raise s _
  case badFrom =>
    rw [exec_xfer, xfer_illegal_from htype hfrom]
    exact failsUnchanged_raise s _
  case others =>
    obtain ⟨hframe, htdo, hpolls, hschedule⟩ : OnlyDraws s t := by
      rcases hearly with ⟨hcheck, hi⟩ | ⟨-, rfl⟩
      · exact exec_failsEarly hi s t e ht hstatus hcheck
      · rw [exec_openSession_error ht hstatus]
        exact (OnlyDraws.refl s).raise .busy
    exact ⟨hframe, htdo, hpolls, hschedule⟩

end Sys2Proof.Machine

/-! What device initialisation leaves, however it comes (spec/10_state.md R45, spec/60_exceptions.md R246,
spec/70_reset_and_hazards.md R280, R281). -/

namespace Sys2Proof.Machine

/-! The nine pulses. -/

/-- On plain lines the reset pulses are a run of high TMS levels (R127, R281). -/
theorem clockTms_replicate_true (n : Nat) {s : State} (hpin : s.chan.pinFunction = .line) :
    clockTms (List.replicate n true) s = .ok () (resetPulses n s) := by
  induction n generalizing s with
  | zero => rfl
  | succ n ih =>
    rw [List.replicate_succ, clockTms, pulseClock_line _ _ _ hpin]
    exact ih (by rwa [pulse_unsampled])

theorem resetPulses_line (n : Nat) {s : State} (hpin : s.chan.pinFunction = .line) (hcache : s.lastTmsLevel = s.lines.tms) :
    resetPulses n s = s.wired (linesAfterTms s (List.replicate n true)) (linesAfterTms s (List.replicate n true)).tms
      (transitionEvents (List.replicate n true)) := by
  have hrun := (clockTms_replicate_true n hpin).symm.trans (clockTms_line _ hpin hcache)
  injection hrun

/-- Initialisation is its settings, then nine cycles with TMS high and TDI low (R281). -/
theorem initialise_eq (s : State) : initialise s =
    ((initialiseSettings s).wired { s.lines with tck := false, tms := true, tdiLine := false } true
      (List.replicate 9 (.cycle .bb true false none))).setCurrentState .testLogicReset := by
  rw [initialise, resetPulses_line 9 rfl rfl]
  rfl

/-- What initialisation leaves, from any state (R45, R281). -/
theorem initialise_initialised (s : State) : Initialised s.params s.trace (initialise s) := by
  rw [initialise_eq]
  constructor
  case target =>
    exact fun t₀ => (targetAfter_append t₀ s.trace (transitionEvents (List.replicate 9 true))).trans (walk_nine _)
  all_goals rfl

/-- It keeps the environment, the inputs that wait and the last response (log 25). -/
theorem initialise_keeps (s : State) : (initialise s).env = s.env ∧ (initialise s).inbox = s.inbox ∧
    (initialise s).response = s.response := by
  rw [initialise_eq]
  exact ⟨rfl, rfl, rfl⟩

/-! An initialisation in the middle of a call (R280). -/

/-- A call ended by an initialisation leaves to it the events the call had emitted, and no response (R246, R280; log 25). -/
theorem endedByInitialise_eq (k : Nat) (s t : State) : ∃ u, endedByInitialise k s t = initialise u ∧ u.params = t.params ∧
    u.trace = s.trace ++ (newEvents s t).take k ∧ u.env = t.env ∧ u.inbox = t.inbox ∧ u.response = none :=
  ⟨_, rfl, rfl, rfl, rfl, rfl, rfl⟩

/-- A request writes no parameter and no input, whatever it decodes to (R46). -/
theorem perform_keepsInputs {r : Request} {s t : State} (h : perform r s = .next t) :
    t.params = s.params ∧ t.inbox = s.inbox := by
  unfold perform at h
  split at h
  · have hwriters := (exec_changesSession _ s t h).haveTheirWriters
    exact ⟨hwriters.params, hwriters.inbox⟩
  · cases h
    exact ⟨rfl, rfl⟩

/-- Settles O58: between two requests, out of a hang and in the middle of a call the step is one `initialise`. -/
theorem initialisationSequence : Obligations.InitialisationSequence := by
  refine ⟨fun s rest hx hi => ?between, fun s hx hmem => ?hang, fun s u r k rest hx hi hu => ?during⟩
  case between => exact ⟨_, step_input hx hi, initialise_initialised (s.setInbox rest), initialise_keeps (s.setInbox rest)⟩
  case hang =>
    let u := s.setInbox (s.inbox.erase .initialise)
    have hstep : step s = .next (initialise u) := (step_hung hx).trans (if_pos hmem)
    exact ⟨_, hstep, initialise_initialised u, initialise_keeps u⟩
  case during =>
    have hu' : perform r (s.setInbox rest) = .next u := hu
    obtain ⟨hparams, hinbox⟩ := perform_keepsInputs hu'
    obtain ⟨v, hend, hvparams, hvtrace, hvenv, hvinbox, hvresp⟩ := endedByInitialise_eq k (s.setInbox rest) u
    have hstep : step s = .next (initialise v) := by
      rw [step_input hx hi, ← hend]
      exact performInterrupted_next hu' k
    obtain ⟨henv, hqueue, hresp⟩ := initialise_keeps v
    refine ⟨_, hstep, ?_, henv.trans hvenv, hqueue.trans (hvinbox.trans hinbox), hresp.trans hvresp⟩
    have hinit := initialise_initialised v
    rwa [hvparams, hparams, hvtrace] at hinit

end Sys2Proof.Machine

/-! The command-boundary invariants through every command and through initialisation (spec/70_reset_and_hazards.md R293). -/

namespace Sys2Proof.Machine

/-! Outcomes. -/

/-- The outcome is no next state but one at a boundary or that of a call that hangs. -/
def KeepsBoundary (o : Host.Outcome State Fault Refusal) : Prop := ∀ t, o = .next t → AtBoundary t ∨ Hung t

theorem keepsBoundary_next {t : State} (h : AtBoundary t) : KeepsBoundary (.next t) := by
  rintro _ ⟨⟩
  exact .inl h

theorem keepsBoundary_withSession {s : State} {k : Host.Outcome State Fault Refusal} (h : KeepsBoundary k) :
    KeepsBoundary (withSession s k) :=
  fun t ht => h t (withSession_eq_next.mp ht).2

/-- An operation that answers at a boundary, and whose hang is one of those `Hung` describes. -/
theorem Res.EndsAtBoundary.finish_keepsBoundary {s : State} {r : Res (Word × List Byte)} (h : r.EndsAtBoundary)
    (hhang : r.SettlesOrHangs s) : KeepsBoundary r.finish := by
  intro t ht
  rcases Res.finish_eq_next.mp ht with ⟨p, u, rfl, rfl⟩ | ⟨e, u, rfl, rfl⟩ | ⟨u, rfl, rfl⟩
  · exact .inl (AtBoundary.answer h p.1 p.2)
  · exact .inl (AtBoundary.raise h e)
  · exact .inr (HangsFrom.hung hhang)

theorem Res.EndsAtBoundary.finishUnit_keepsBoundary {s : State} {r : Res Unit} (h : r.EndsAtBoundary)
    (hhang : r.SettlesOrHangs s) : KeepsBoundary r.finishUnit :=
  (h.bind (f := fun _ t => .ok (0, []) t) fun _ _ => id).finish_keepsBoundary (hhang.bind fun _ _ => LeadsTo.refl)

theorem Res.EndsAtBoundary.finishBytes_keepsBoundary {s : State} {r : Res (List Byte)} (h : r.EndsAtBoundary)
    (hhang : r.SettlesOrHangs s) : KeepsBoundary r.finishBytes :=
  (h.bind (f := fun out t => .ok (0, out) t) fun _ _ => id).finish_keepsBoundary (hhang.bind fun _ _ => LeadsTo.refl)

/-! The bit-bang commands. -/

theorem clockPairs_endsAtBoundary (l : List Byte) {s : State} (hs : AtBoundary s) : (clockPairs l s).EndsAtBoundary := by
  induction l generalizing s with
  | nil => exact hs
  | cons x xs ih =>
    exact (pulseClock_sampled_endsAtBoundary _ _ hs).bind fun _ _ ht => (ih ht).bind fun _ _ => id

theorem rawBitbang_endsAtBoundary (length : Nat) (pairs : List Byte) {s : State} (hs : AtBoundary s) :
    (rawBitbang length pairs s).EndsAtBoundary := by
  unfold rawBitbang
  split
  · exact hs
  · split
    · exact hs
    · exact clockPairs_endsAtBoundary _ hs

theorem forcedReset_endsAtBoundary (forceReset : Bool) {s : State} (hs : AtBoundary s) :
    (if forceReset then driveTransition s.currentState .testLogicReset s else .ok () s).EndsAtBoundary := by
  split
  · exact driveTransition_endsAtBoundary _ _ hs
  · exact hs

theorem setTapState_endsAtBoundary (fromCode toCode : Byte) (forceReset : Bool) {s : State} (hs : AtBoundary s) :
    (setTapState fromCode toCode forceReset s).EndsAtBoundary := by
  unfold setTapState
  split
  · exact (forcedReset_endsAtBoundary forceReset hs).bind fun _ _ ht => applyTransition_endsAtBoundary fromCode toCode ht
  · exact hs

/-! The rows of the table. -/

/-- A boundary is a matter of the settled state and the pins. -/
theorem AtBoundary.of_settled {s t : State} (hs : AtBoundary s) (h : Settled t) (hc : t.chan = s.chan) : AtBoundary t :=
  ⟨h, hc ▸ hs.lines⟩

theorem exec_keepsBoundary {i : Instr} (hi : isCommand i = true) {s : State} (hs : AtBoundary s) :
    KeepsBoundary (exec i s) := by
  have hset := hs.settled
  cases i with
  | setFrequency hz =>
    refine keepsBoundary_withSession ?_
    split
    · exact keepsBoundary_next (hs.raise _)
    · next hle => exact keepsBoundary_next (hs.of_settled ((hset.setFreq (Nat.le_of_not_lt hle)).answer _ _) rfl)
  | getFrequency | getTapState => exact keepsBoundary_withSession (keepsBoundary_next (hs.answer _ _))
  | setDirectPinControl | setHardwareAssisted | setInterruptDriven =>
    exact keepsBoundary_withSession (keepsBoundary_next (hs.of_settled (hset.of_frame rfl) rfl))
  | openSession =>
    simp only [exec, execOpenSession]
    split
    · exact keepsBoundary_next (hs.raise _)
    · exact keepsBoundary_next (hs.of_settled (hset.of_frame rfl) rfl)
  | releaseSession => exact keepsBoundary_next (hs.of_settled (hset.of_frame rfl) rfl)
  | rawBitbang length buf =>
    exact keepsBoundary_withSession ((allocate_endsAtBoundary hs (rawBitbang_endsAtBoundary _ _)).finishBytes_keepsBoundary
      (allocate_settlesOrHangs hset fun t ht => (rawBitbang_waitsForNothing length.toNat buf ht).settlesOrHangs))
  | setTapState fromCode toCode forceReset =>
    exact keepsBoundary_withSession ((setTapState_endsAtBoundary _ _ _ hs).finishUnit_keepsBoundary
      ((setTapState_waitsForNothing fromCode toCode forceReset hset).settlesOrHangs (s := s)))
  | scanCommand scanType fromCode endCode n buf =>
    exact keepsBoundary_withSession ((allocate_endsAtBoundary hs (scanCommand_endsAtBoundary _ _ _ _ _)).finishBytes_keepsBoundary
      (allocate_settlesOrHangs hset fun _ => scanCommand_settlesOrHangs _ _ _ _ _))
  | runTest cycles =>
    exact keepsBoundary_withSession ((runIdleAllocating_endsAtBoundary _ hs).finishUnit_keepsBoundary
      (runIdleAllocating_settlesOrHangs _ hset))
  | _ => cases hi

theorem initialise_atBoundary {s : State} (h : s.params.admissible) : AtBoundary (initialise s) :=
  ⟨initialise_settled h, (initialise_initialised s).pins⟩

/-- Settles O56: each command ends at a boundary unless it hangs, and initialisation gives the pins back to the lines. -/
theorem commandKeepsBoundary : Obligations.CommandKeepsBoundary :=
  ⟨fun _ _ t hi hs => exec_keepsBoundary hi hs t, fun _ => initialise_atBoundary⟩

end Sys2Proof.Machine

/-! In track stays in track, through every operation R294 names, successful, failed or in a hang, with the invariant on the TMS
line that the hardware channel needs (spec/43_scan_engine.md R182, spec/44_run_clock.md R204,
spec/70_reset_and_hazards.md R294). -/

namespace Sys2Proof.Machine

/-! The invariant. -/

/-- In track, and TMS is high on the line only if it was in the last cycle (R294). -/
structure OnTrack (t₀ : TapState) (s : State) : Prop where
  inTrack   : InTrack t₀ s
  tmsOnWire : TmsOnWire s

/-- The TMS levels of the cycles of a trace. -/
def tmsLevels (l : List Event) : List Bool := (wireCycles l).map (·.tms)

theorem tmsLevels_append (a b : List Event) : tmsLevels (a ++ b) = tmsLevels a ++ tmsLevels b := by
  simp [tmsLevels]

theorem tmsLevels_transitionEvents (l : List Bool) : tmsLevels (transitionEvents l) = l := by
  simp [tmsLevels, transitionWire, Function.comp_def]

section
variable {t₀ : TapState} {s t : State}

theorem inTrack_iff : InTrack t₀ s ↔ walk t₀ (tmsLevels s.trace) = s.currentState := .rfl

theorem tmsOnWire_iff : TmsOnWire s ↔ (s.lines.tms = true → (tmsLevels s.trace).getLast? = some true) := .rfl

/-- A run of cycles that the tracked state follows too, after which the TMS line is no higher than in the last of them. -/
theorem OnTrack.clocked (h : OnTrack t₀ s) {levels : List Bool} (hwire : tmsLevels t.trace = tmsLevels s.trace ++ levels)
    (hstate : t.currentState = walk s.currentState levels)
    (hline : t.lines.tms = true → levels.getLast?.getD s.lines.tms = true) : OnTrack t₀ t := by
  refine ⟨inTrack_iff.mpr ?inTrack, tmsOnWire_iff.mpr fun htms => ?tmsOnWire⟩
  case inTrack => rw [hwire, walk_append, inTrack_iff.mp h.inTrack, hstate]
  case tmsOnWire =>
    have hlast := hline htms
    rw [hwire, List.getLast?_append]
    cases hl : levels.getLast? with
    | none => exact h.tmsOnWire (by simpa [hl] using hlast)
    | some level => simpa [hl] using hlast

/-- What clocks nothing and leaves the line or lowers it. -/
theorem OnTrack.unclocked (h : OnTrack t₀ s) (hwire : tmsLevels t.trace = tmsLevels s.trace)
    (hstate : t.currentState = s.currentState) (hline : t.lines.tms = true → s.lines.tms = true) : OnTrack t₀ t :=
  h.clocked (levels := []) (by rw [hwire, List.append_nil]) hstate hline

theorem OnTrack.of_env (h : OnTrack t₀ s) (ht : ∃ e n, t = { s with env := e, draws := n }) : OnTrack t₀ t := by
  obtain ⟨e, n, rfl⟩ := ht
  exact ⟨h.inTrack, h.tmsOnWire⟩

/-- In a Shift state TMS is low: the cycle that leads there is (R122 (e), R182). -/
theorem OnTrack.tms_of_isShift (h : OnTrack t₀ s) (hshift : s.currentState.isShift = true) : s.lines.tms = false := by
  refine eq_false_of_ne_true fun htms => ?_
  have hwalk := inTrack_iff.mp h.inTrack
  obtain ⟨before, hlevels⟩ := List.getLast?_eq_some_iff.mp (tmsOnWire_iff.mp h.tmsOnWire htms)
  rw [hlevels, walk_append] at hwalk
  rw [← hwalk] at hshift
  cases (entry_of_isShift _ true hshift).1

/-- A run of the channel with TMS low, in a state that loops on it (R160, R204, R294). -/
theorem HwRun.onTrack (hrun : HwRun s t) (h : OnTrack t₀ s) (htms : s.lines.tms = false)
    (hloop : tapNext s.currentState false = s.currentState) : OnTrack t₀ t := by
  obtain ⟨events, htrace, hchan⟩ := hrun.events
  have hlow : tmsLevels events = List.replicate (tmsLevels events).length false := by
    refine List.eq_replicate_iff.mpr ⟨rfl, fun level hlevel => ?_⟩
    obtain ⟨c, hc, rfl⟩ := List.mem_map.mp hlevel
    exact (mem_wireCycles_channel hchan hc).1.trans htms
  refine h.clocked (levels := tmsLevels events) ?_ ?_ ?_
  · rw [htrace, tmsLevels_append]
  · rw [hlow, walk_replicate_false hloop, hrun.currentState]
  · rw [hrun.tms, htms]
    exact nofun

/-! Outcomes. -/

/-- However the operation ends, the block is on track. -/
def Res.EndsOnTrack {α : Type} (t₀ : TapState) (r : Res α) : Prop :=
  r.Post (fun _ t => OnTrack t₀ t) (fun _ t => OnTrack t₀ t) (OnTrack t₀)

theorem Res.EndsOnTrack.bind {α β : Type} {r : Res α} {f : α → State → Res β} (h : r.EndsOnTrack t₀)
    (hb : r.EndsAtBoundary) (hf : ∀ a t, AtBoundary t → OnTrack t₀ t → (f a t).EndsOnTrack t₀) :
    (r.bind f).EndsOnTrack t₀ :=
  Res.Post.bind ((hb.and h).mono (fun _ _ => id) (fun _ _ => And.right) (fun _ => And.right))
    fun a t ⟨hbt, ht⟩ => hf a t hbt ht

theorem Res.EndsOnTrack.failAs {α : Type} {r : Res α} (h : r.EndsOnTrack t₀) (k : ErrorKind) :
    (r.failAs k).EndsOnTrack t₀ := by
  cases r <;> exact h

theorem allocate_endsOnTrack {α : Type} {k : State → Res α} (hs : AtBoundary s) (h : OnTrack t₀ s)
    (hk : ∀ t, AtBoundary t → t.currentState = s.currentState → OnTrack t₀ t → (k t).EndsOnTrack t₀) :
    (allocate s k).EndsOnTrack t₀ := by
  obtain ⟨e, n, hdraw, -⟩ := s.drawAlloc_frame
  have hd : OnTrack t₀ s.drawAlloc.2 := h.of_env ⟨e, n, hdraw⟩
  rcases allocate_cases s k with ⟨-, ha⟩ | ⟨-, ha⟩ <;> rw [ha]
  · exact hk _ (hs.of_env ⟨e, n, hdraw⟩) s.drawAlloc_currentState hd
  · exact hd

/-! The transitions. -/

theorem linesAfterTms_tms (s : State) (levels : List Bool) :
    (linesAfterTms s levels).tms = levels.getLast?.getD s.lines.tms := by
  unfold linesAfterTms
  cases levels.getLast? <;> rfl

/-- A run of unsampled pulses whose end the tracked state is set to (R126). -/
theorem OnTrack.steered (h : OnTrack t₀ s) {levels : List Bool} {dest : TapState} (hdest : walk s.currentState levels = dest) :
    OnTrack t₀ (s.steered levels dest) := by
  refine h.clocked (levels := levels) ?_ hdest.symm fun htms => ?_
  · exact (tmsLevels_append _ _).trans (congrArg _ (tmsLevels_transitionEvents levels))
  · rwa [← linesAfterTms_tms]

/-- A transition from where the tracked state stands (R129). -/
theorem driveTransition_endsOnTrack (dest : TapState) (hs : AtBoundary s) (h : OnTrack t₀ s) :
    (driveTransition s.currentState dest s).EndsOnTrack t₀ := by
  rw [driveTransition_line _ _ hs.lines hs.settled.tmsCached]
  exact h.steered (walk_transitionTms s.currentState dest)

theorem applyTransition_endsOnTrack (toCode : Byte) (hs : AtBoundary s) (h : OnTrack t₀ s) :
    (applyTransition currentCode toCode s).EndsOnTrack t₀ := by
  rw [applyTransition, resolveFrom_current]
  cases TapState.ofCode toCode with
  | none => exact h
  | some dest => exact driveTransition_endsOnTrack dest hs h

theorem setTapState_endsOnTrack (toCode : Byte) (forceReset : Bool) (hs : AtBoundary s) (h : OnTrack t₀ s) :
    (setTapState currentCode toCode forceReset s).EndsOnTrack t₀ := by
  have hreset : (if forceReset then driveTransition s.currentState .testLogicReset s else .ok () s).EndsOnTrack t₀ := by
    split
    · exact driveTransition_endsOnTrack .testLogicReset hs h
    · exact h
  unfold setTapState
  split
  · exact hreset.bind (forcedReset_endsAtBoundary forceReset hs) fun _ _ => applyTransition_endsOnTrack toCode
  · exact h

/-! The scan. -/

/-- A sampled pulse, followed by the tracked state (R142, R187). -/
theorem OnTrack.pulse_sampled (h : OnTrack t₀ s) (hs : AtBoundary s) (tms tdi : Bool) :
    OnTrack t₀ ((pulse true tms tdi s).2.setCurrentState (tapNext s.currentState tms)) := by
  rw [Machine.pulse_sampled, pulsedTms_cached tms hs.settled.tmsCached]
  refine h.clocked (levels := [tms]) ?_ rfl id
  simp [tmsLevels, wireCycles]

/-- The bits that are pulsed: the target leaves the Shift state with the tracked state, on the last of them (R187). -/
theorem tailBits_endsOnTrack {shift : TapState} (hshift : shift.isShift = true) (endState : TapState) (inp : List Byte)
    (rem i : Nat) (out : List Byte) (hs : AtBoundary s) (h : OnTrack t₀ s) (hcurrent : s.currentState = shift) :
    (tailBits shift endState inp rem i out s).EndsOnTrack t₀ := by
  induction rem generalizing i out s with
  | zero => exact h
  | succ rem ih =>
    rw [tailBits, pulseClock_line _ _ _ hs.lines, Res.bind_ok]
    generalize htms : (decide (rem = 0) && !endState.isShift) = tms
    have hb := (pulseClock_sampled_endsAtBoundary tms (bit inp i) hs).of_ok (pulseClock_line _ _ _ hs.lines)
    have hu := h.pulse_sampled hs tms (bit inp i)
    rw [hcurrent] at hu
    cases tms with
    | true =>
      obtain ⟨rfl, -⟩ : rem = 0 ∧ endState.isShift = false := by simpa using htms
      rw [tapNext_shift_true hshift] at hu
      exact hu
    | false =>
      have hstay : (pulse true false (bit inp i) s).2.currentState = shift := by simp [Machine.pulse_sampled, hcurrent]
      rw [tapNext_shift_false hshift] at hu
      exact ih (i + 1) _ hb (hu.unclocked rfl hstay id) hstay

theorem scanBody_endsOnTrack (n : Nat) (endState : TapState) (inp : List Byte) (hshift : s.currentState.isShift = true)
    (hs : AtBoundary s) (h : OnTrack t₀ s) : (scanBody n endState inp s).EndsOnTrack t₀ := by
  have hrunTrack : ∀ {u : State}, HwRun s u → OnTrack t₀ u := fun hrun =>
    hrun.onTrack h (h.tms_of_isShift hshift) (tapNext_shift_false hshift)
  rw [scanBody, ← Res.bind_assoc]
  refine Res.Post.bind ((enableAndBulk_run n inp _ hs).mono (fun _ _ => id) (fun _ _ ⟨hrun, _⟩ => hrunTrack hrun)
    (fun _ ⟨htransfer, _⟩ => hrunTrack htransfer.run)) fun p t ⟨hrun, hb⟩ => ?_
  refine (tailBits_endsOnTrack hshift _ _ _ _ _ hb (hrunTrack hrun) hrun.currentState).bind
    (tailBits_endsAtBoundary _ _ _ _ _ _ hb) fun out u hub hu => ?_
  refine (driveTransition_endsOnTrack endState hub hu).bind (driveTransition_endsAtBoundary _ _ hub) fun _ v _ hv => ?_
  obtain ⟨k, hpad⟩ := padOutput_state n out v
  exact hv.of_env ⟨v.env, k, hpad⟩

theorem scan_endsOnTrack (n : Nat) (endCode : Byte) (inp : List Byte) (hs : AtBoundary s) (h : OnTrack t₀ s) :
    (scan n endCode inp s).EndsOnTrack t₀ := by
  unfold scan
  split
  · exact h
  · next hshift =>
    split
    · exact h
    · split
      · exact scanBody_endsOnTrack n _ inp (by simpa using hshift) hs h
      · exact h

theorem xfer_endsOnTrack (scanType endCode : Byte) (n : Nat) (inp : List Byte) (hs : AtBoundary s) (h : OnTrack t₀ s) :
    (xfer scanType currentCode endCode n inp s).EndsOnTrack t₀ := by
  unfold xfer
  split
  · exact (applyTransition_endsOnTrack _ hs h).bind (applyTransition_endsAtBoundary _ _ hs) fun _ _ =>
      scan_endsOnTrack n endCode inp
  · exact h

theorem scanCommand_endsOnTrack (scanType endCode : Byte) (n : Nat) (buf : List Byte) (hs : AtBoundary s)
    (h : OnTrack t₀ s) : (scanCommand scanType currentCode endCode n buf s).EndsOnTrack t₀ := by
  unfold scanCommand
  split
  · exact (xfer_endsOnTrack _ _ _ _ hs h).failAs _
  · exact h

/-! The idle run, in a state that loops on TMS low (R204). -/

theorem clockIdle_endsOnTrack (n : Nat) (hs : AtBoundary s) (h : OnTrack t₀ s)
    (hloop : tapNext s.currentState false = s.currentState) : (clockIdle n s).EndsOnTrack t₀ := by
  rw [clockIdle_eq_clockTms, clockTms_line _ hs.lines hs.settled.tmsCached]
  exact h.steered (walk_replicate_false hloop n)

/-- TMS written low is no cycle, and lowers the line (R202). -/
theorem OnTrack.tmsLow (h : OnTrack t₀ s) (hs : AtBoundary s) : OnTrack t₀ (tmsLow s) := by
  rw [tmsLow_eq hs.settled.tmsCached]
  refine h.unclocked ?_ rfl nofun
  rw [State.wired_trace, tmsLevels_append]
  split <;> exact List.append_nil _

theorem runIdleHardware_endsOnTrack (cycles : Nat) (hs : AtBoundary s) (h : OnTrack t₀ s)
    (hloop : tapNext s.currentState false = s.currentState) : (runIdleHardware cycles s).EndsOnTrack t₀ := by
  obtain ⟨hlow, hcurrent⟩ : (tmsLow s).lines.tms = false ∧ (tmsLow s).currentState = s.currentState := by
    rw [tmsLow_eq hs.settled.tmsCached]
    exact ⟨rfl, rfl⟩
  have hrunTrack : ∀ {u : State}, HwRun (tmsLow s) u → OnTrack t₀ u := fun hrun =>
    hrun.onTrack (h.tmsLow hs) hlow (by rw [hcurrent, hloop])
  refine Res.Post.bind (good := fun _ t => HwRun (tmsLow s) t ∧ Settled t ∧ t.chan.pinFunction = .peripheral) ?enable ?_
  case enable =>
    refine ((openChannel_run (tmsLow s)).and (openChannel_post hs.tmsLow.settled)).mono ?_ ?_ (fun _ ⟨hhang, _⟩ => hhang.elim)
    · exact fun _ t ⟨hrun, hlead, hpin⟩ => ⟨hrun, hlead.settled, hpin⟩
    · exact fun _ t ⟨hrun, _⟩ => hrun ▸ h.tmsLow hs
  rintro _ t ⟨hrun, hset, hpin⟩
  refine Res.Post.bind (good := fun _ u => HwRun (tmsLow s) u ∧ Settled u) ?units ?_
  case units =>
    split
    · exact (idleTransfer_run _ hset).mono (fun _ _ ⟨hu, hset⟩ => ⟨hrun.trans hu, hset⟩)
        (fun _ _ ⟨hu, _⟩ => hrunTrack (hrun.trans hu)) (fun _ ⟨hu, _⟩ => hrunTrack (hrun.trans hu.run))
    · exact (idleUnits_run _ hset hpin).mono (fun _ _ ⟨hu, hset⟩ => ⟨hrun.trans hu, hset⟩)
        (fun _ _ ⟨hu, _⟩ => hrunTrack (hrun.trans hu)) (fun _ => False.elim)
  rintro _ u ⟨hu, hset⟩
  have hclose := hu.trans (closeChannel_run u).1
  exact clockIdle_endsOnTrack _ (closeChannel_boundary hset) (hrunTrack hclose)
    (by rw [hclose.currentState, hcurrent, hloop])

theorem runIdle_endsOnTrack (cycles : Nat) (hs : AtBoundary s) (h : OnTrack t₀ s)
    (hloop : tapNext s.currentState false = s.currentState) : (runIdle cycles s).EndsOnTrack t₀ := by
  unfold runIdle
  split
  · exact runIdleHardware_endsOnTrack cycles hs h hloop
  · exact clockIdle_endsOnTrack cycles hs h hloop

theorem runIdleAllocating_endsOnTrack (cycles : Nat) (hs : AtBoundary s) (h : OnTrack t₀ s)
    (hloop : tapNext s.currentState false = s.currentState) : (runIdleAllocating cycles s).EndsOnTrack t₀ := by
  unfold runIdleAllocating
  split
  · exact allocate_endsOnTrack hs h fun t ht hcurrent htrack => runIdle_endsOnTrack cycles ht htrack (by rw [hcurrent, hloop])
  · exact runIdle_endsOnTrack cycles hs h hloop

/-! The rows of the table. -/

/-- The outcome is no next state but one that is on track. -/
def StaysOnTrack (t₀ : TapState) (o : Host.Outcome State Fault Refusal) : Prop := ∀ t, o = .next t → OnTrack t₀ t

theorem staysOnTrack_next (h : OnTrack t₀ t) : StaysOnTrack t₀ (.next t) := by
  rintro _ ⟨⟩
  exact h

theorem staysOnTrack_withSession {k : Host.Outcome State Fault Refusal} (h : StaysOnTrack t₀ k) :
    StaysOnTrack t₀ (withSession s k) :=
  fun t ht => h t (withSession_eq_next.mp ht).2

/-- A response clocks nothing, nor does a missing one. -/
theorem Res.EndsOnTrack.finish {r : Res (Word × List Byte)} (h : r.EndsOnTrack t₀) : StaysOnTrack t₀ r.finish := by
  intro t ht
  rcases Res.finish_eq_next.mp ht with ⟨p, u, rfl, rfl⟩ | ⟨e, u, rfl, rfl⟩ | ⟨u, rfl, rfl⟩ <;>
    exact OnTrack.unclocked h rfl rfl id

theorem Res.EndsOnTrack.finishUnit {r : Res Unit} (h : r.EndsOnTrack t₀) : StaysOnTrack t₀ r.finishUnit := by
  refine Res.EndsOnTrack.finish ?_
  cases r <;> exact h

theorem Res.EndsOnTrack.finishBytes {r : Res (List Byte)} (h : r.EndsOnTrack t₀) : StaysOnTrack t₀ r.finishBytes := by
  refine Res.EndsOnTrack.finish ?_
  cases r <;> exact h

/-- R294 over the operations it names. -/
theorem exec_staysOnTrack {i : Instr} (hs : AtBoundary s) (h : OnTrack t₀ s) (hi : keepsTrack i s = true) :
    StaysOnTrack t₀ (exec i s) := by
  have hsame : ∀ {u : State}, u.trace = s.trace → u.currentState = s.currentState → u.lines = s.lines →
      StaysOnTrack t₀ (.next u) := fun htrace hcurrent hlines =>
    staysOnTrack_next (h.unclocked (congrArg _ htrace) hcurrent (hlines ▸ id))
  cases i with
  | setFrequency hz =>
    refine staysOnTrack_withSession ?_
    split <;> exact hsame rfl rfl rfl
  | getFrequency | getTapState | setDirectPinControl | setHardwareAssisted | setInterruptDriven =>
    exact staysOnTrack_withSession (hsame rfl rfl rfl)
  | openSession =>
    simp only [exec, execOpenSession]
    split <;> exact hsame rfl rfl rfl
  | releaseSession | reverseNibbles => exact hsame rfl rfl rfl
  | tapNext stateCode tms =>
    simp only [exec, execTapNext]
    split <;> exact hsame rfl rfl rfl
  | computeTransition fromCode toCode =>
    simp only [exec, execComputeTransition]
    split <;> exact hsame rfl rfl rfl
  | setTapState fromCode toCode forceReset =>
    obtain rfl : fromCode = currentCode := of_decide_eq_true hi
    exact staysOnTrack_withSession (setTapState_endsOnTrack toCode forceReset hs h).finishUnit
  | applyTransition fromCode toCode =>
    obtain rfl : fromCode = currentCode := of_decide_eq_true hi
    exact (applyTransition_endsOnTrack toCode hs h).finishUnit
  | scanCommand scanType fromCode endCode n buf =>
    obtain rfl : fromCode = currentCode := of_decide_eq_true hi
    exact staysOnTrack_withSession
      (allocate_endsOnTrack hs h fun _ ht _ => scanCommand_endsOnTrack scanType endCode n.toNat buf ht).finishBytes
  | xfer scanType fromCode endCode n buf =>
    obtain rfl : fromCode = currentCode := of_decide_eq_true hi
    exact (xfer_endsOnTrack scanType endCode n.toNat buf hs h).finishBytes
  | scan endCode n buf => exact (scan_endsOnTrack n.toNat endCode buf hs h).finishBytes
  | runTest cycles =>
    exact staysOnTrack_withSession (runIdleAllocating_endsOnTrack cycles.toNat hs h (of_decide_eq_true hi)).finishUnit
  | runIdle cycles => exact (runIdleAllocating_endsOnTrack cycles.toNat hs h (of_decide_eq_true hi)).finishUnit
  | _ => cases hi

end

/-- Settles O57: `OnTrack` is the invariant, and each operation clocks levels its tracked state follows. -/
theorem staysInTrack : Obligations.StaysInTrack := by
  intro t₀ i s t hs htms htrack hi ht
  obtain ⟨htrack', htms'⟩ := exec_staysOnTrack hs ⟨htrack, htms⟩ hi t ht
  exact ⟨htrack', htms'⟩

end Sys2Proof.Machine
